-- ==== Sys2Proof/Word.lean ====
section
/-! DEFINITION. The value types of the SUB005 coder: bytes, 32-bit words, 256-entry tables. -/

namespace Sys2Proof

/-- `u8` (00_scope.md R10): a byte of MEM, a symbol of the alphabet, a code length in LEN. -/
abbrev Byte := BitVec 8

/-- `u32` (00_scope.md R10): a register of 10_state.md R20, a command word, a FREQ entry. -/
abbrev Word := BitVec 32

/-- A per-symbol table: one entry for each of the 256 byte values (00_scope.md R9). -/
abbrev Table (α : Type) := Vector α 256

end Sys2Proof
end

