-- ==== Sys2Proof/Config.lean ====
section
/-! DEFINITION. What an implementation fixes (00_scope.md R8) and the values the spec leaves free. -/

namespace Sys2Proof

/-- `P_RLELEN_CHECK`: what the decoder does with `rleLen` (00_scope.md R8, 44_huffman.md R192). -/
inductive RleLenCheck where
  | none
  | bound
  | exact
deriving DecidableEq, Repr, Inhabited

/-- The parameters of a built block (00_scope.md R8). They are read back in PARAM0 to PARAM2
(10_state.md R41); `State` holds them, so every statement about all states is about all blocks. -/
structure Params where
  memSize     : Nat
  nMax        : Nat
  maxCodeLen  : Nat
  bwMaxBits   : Nat
  peekMax     : Nat
  rleLenCheck : RleLenCheck
deriving DecidableEq, Repr

/-- The value of the OPEN parameter `P_RLELEN_CHECK` in the block that `State.reset` describes: the
spec gives no default (D22), so no proof can see it. -/
opaque Config.rleLenCheck : RleLenCheck

/-- The reference configuration of 00_scope.md R8. -/
def Params.reference : Params where
  memSize := 65536
  nMax := 65536
  maxCodeLen := 24
  bwMaxBits := 24
  peekMax := 24
  rleLenCheck := Config.rleLenCheck

/-- A free byte of MEM (93_implementation_defined.md I11, I12): the argument is the draw's number,
the counter `State.draws`. -/
opaque Config.freeByte : Nat → Byte

/-- What a host read returns while the block is busy (93_implementation_defined.md I4): the argument
is the draw's number, the counter `State.draws`. -/
opaque Config.freeWord : Nat → Word

/-- What MEM holds at a power-on (93_implementation_defined.md I10): the arguments are the number of
the power-on, `State.epoch`, and the byte offset. -/
opaque Config.powerOnByte : Nat → Nat → Byte

/-- The constant of the ID register (10_state.md R21). -/
def idValue : Word := 0x42575401#32

end Sys2Proof
end

