-- ==== Sys2Proof/Syntax.lean ====
section
/-! DEFINITION. The commands of the block: one constructor per row of the opcode map (30_encoding.md R82). -/

namespace Sys2Proof

/-- A command of 30_encoding.md R82. Every operand other than IMM8 is a register (R85). -/
inductive Instr where
  | nop
  | bwInit
  /-- BW_WRITE: IMM8 is `nbits`. -/
  | bwWrite (nbits : Nat)
  | bwFinish
  | brInit
  | brReadbit
  /-- BR_PEEK: IMM8 is `k`. -/
  | brPeek (k : Nat)
  | brAssert
  | bwtFwd
  | bwtInv
  | mtfEnc
  | mtfDec
  | rle0Enc
  | hufHist
  | hufBuild
  | hufCanon
  | hufEnc
  | hufStartDec
  | hufDecOne
  | hufDecRle
  | pipeEnc
  | pipeDec
deriving DecidableEq, Repr

end Sys2Proof
end

