-- ==== Sys2Proof/WellFormed.lean ====
section
/-! DEFINITION. When a command can be encoded, and when a set of parameters is legal. -/

namespace Sys2Proof

/-- An immediate fits IMM8 (30_encoding.md R81: an unsigned integer 0..255). The legal ranges of
`nbits` and `k` are checked by the command, not here (R81). -/
def Instr.wf : Instr → Bool
  | .bwWrite nbits => nbits < 256
  | .brPeek k => k < 256
  | .nop | .bwInit | .bwFinish | .brInit | .brReadbit | .brAssert | .bwtFwd | .bwtInv | .mtfEnc
  | .mtfDec | .rle0Enc | .hufHist | .hufBuild | .hufCanon | .hufEnc | .hufStartDec | .hufDecOne
  | .hufDecRle | .pipeEnc | .pipeDec => true

/-- The "legal values" column of 00_scope.md R8. -/
def Params.legal (p : Params) : Bool :=
  p.memSize % 4 == 0 && 512 ≤ p.memSize && p.memSize ≤ 2 ^ 24
    && 1 ≤ p.nMax && p.nMax ≤ p.memSize
    && 8 ≤ p.maxCodeLen && p.maxCodeLen ≤ p.bwMaxBits && p.bwMaxBits ≤ 32
    && 1 ≤ p.peekMax && p.peekMax ≤ 32

end Sys2Proof
end

