-- ==== Sys2Proof/Decode.lean ====
section
/-! DEFINITION. The command word: decoder (30_encoding.md R83) and encoder (R80). -/

namespace Sys2Proof

/-- Why a word is ILLEGAL (30_encoding.md R83), in the order its tests are made. -/
inductive DecodeError where
  /-- Bits [31:16] are not 0. -/
  | reservedBitsSet
  /-- OPC is not in the opcode map. -/
  | unknownOpcode
  /-- IMM8 is not 0 and the command does not use it. -/
  | immediateNotZero
deriving DecidableEq, Repr

/-- OPC, bits [7:0] (30_encoding.md R80). -/
def opcField (w : Word) : Byte := w.extractLsb' 0 8

/-- IMM8, bits [15:8] (30_encoding.md R80). -/
def immField (w : Word) : Byte := w.extractLsb' 8 8

/-- RSV, bits [31:16] (30_encoding.md R80). -/
def rsvField (w : Word) : BitVec 16 := w.extractLsb' 16 16

/-- The opcode map (30_encoding.md R82), read from opcode to command. -/
def instrOf (opc : Byte) (imm : Nat) : Option Instr :=
  match opc.toNat with
  | 0x00 => some .nop
  | 0x10 => some .bwInit
  | 0x11 => some (.bwWrite imm)
  | 0x12 => some .bwFinish
  | 0x18 => some .brInit
  | 0x19 => some .brReadbit
  | 0x1A => some (.brPeek imm)
  | 0x1B => some .brAssert
  | 0x20 => some .bwtFwd
  | 0x21 => some .bwtInv
  | 0x30 => some .mtfEnc
  | 0x31 => some .mtfDec
  | 0x40 => some .rle0Enc
  | 0x50 => some .hufHist
  | 0x51 => some .hufBuild
  | 0x52 => some .hufCanon
  | 0x53 => some .hufEnc
  | 0x58 => some .hufStartDec
  | 0x59 => some .hufDecOne
  | 0x5A => some .hufDecRle
  | 0x60 => some .pipeEnc
  | 0x61 => some .pipeDec
  | _ => none

/-- The opcode map (30_encoding.md R82), read from command to opcode. -/
def Instr.opcode : Instr → Byte
  | .nop => 0x00#8
  | .bwInit => 0x10#8
  | .bwWrite _ => 0x11#8
  | .bwFinish => 0x12#8
  | .brInit => 0x18#8
  | .brReadbit => 0x19#8
  | .brPeek _ => 0x1A#8
  | .brAssert => 0x1B#8
  | .bwtFwd => 0x20#8
  | .bwtInv => 0x21#8
  | .mtfEnc => 0x30#8
  | .mtfDec => 0x31#8
  | .rle0Enc => 0x40#8
  | .hufHist => 0x50#8
  | .hufBuild => 0x51#8
  | .hufCanon => 0x52#8
  | .hufEnc => 0x53#8
  | .hufStartDec => 0x58#8
  | .hufDecOne => 0x59#8
  | .hufDecRle => 0x5A#8
  | .pipeEnc => 0x60#8
  | .pipeDec => 0x61#8

/-- IMM8 of a command: `nbits`, `k`, and 0 for every other (30_encoding.md R80). -/
def Instr.imm8 : Instr → Nat
  | .bwWrite nbits => nbits
  | .brPeek k => k
  | .nop | .bwInit | .bwFinish | .brInit | .brReadbit | .brAssert | .bwtFwd | .bwtInv | .mtfEnc
  | .mtfDec | .rle0Enc | .hufHist | .hufBuild | .hufCanon | .hufEnc | .hufStartDec | .hufDecOne
  | .hufDecRle | .pipeEnc | .pipeDec => 0

/-- The opcodes whose word may hold a non-zero IMM8 (30_encoding.md R83). -/
def usesImm8 (opc : Byte) : Bool := opc == 0x11#8 || opc == 0x1A#8

/-- `Decode(w)` (30_encoding.md R83): total on all 2^32 words. -/
def decode (w : Word) : Except DecodeError Instr :=
  if rsvField w ≠ 0#16 then .error .reservedBitsSet
  else match instrOf (opcField w) (immField w).toNat with
    | none => .error .unknownOpcode
    | some i => if !usesImm8 (opcField w) && immField w ≠ 0#8 then .error .immediateNotZero else .ok i

/-- `(IMM8 << 8) | OPC` (30_encoding.md R80), with RSV = 0. -/
def encode (i : Instr) : Word := 0#16 ++ BitVec.ofNat 8 i.imm8 ++ i.opcode

/-- What the decoder reads from the word whose bits, numbered as spec/opcode_table.json numbers them,
are the low `nbits` bits of `w`, every bit above being 0. A command is one 32-bit word
(30_encoding.md R84), so a longer one that has a bit set above bit 31 is no command. -/
def decodeTableWord (nbits w : Nat) : Option Instr :=
  if w % 2 ^ nbits < 2 ^ 32 then (decode (BitVec.ofNat 32 (w % 2 ^ nbits))).toOption else none

end Sys2Proof
end

