-- ==== Sys2Proof/Machine/State.lean ====
section
/-! DEFINITION. The state of the block (10_state.md), the host's side of it, and the state after reset. -/

namespace Sys2Proof.Machine

/-- MEM (20_memory.md R60) as a list of the bytes that have been written since power-on, addresses
strictly rising (`Memory.wf`). A byte that is not listed has no stored value: reading it gives a free
draw of its own (`State.readByte`). -/
abbrev Memory := List Host.Cell

/-- The smallest and the largest code of one length (10_state.md R44: `minCode`, `maxCode`). -/
structure CodeRange where
  minCode : Nat
  maxCode : Nat
deriving DecidableEq, Repr

/-- One code length of the canonical table (10_state.md R44). -/
structure CanonRow where
  blCount    : Nat
  codeStart  : Nat
  /-- Present when `blCount > 0`. -/
  codes      : Option CodeRange
  perLenSyms : List Byte
deriving DecidableEq, Repr

/-- `CANON` (10_state.md R44). `rows` holds the lengths 1, 2, .., `maxLen` in order; the entries for
length 0 are the constants `blCount[0] = 0`, `codeStart[0] = 0` of 44_huffman.md R184. -/
structure Canon where
  maxLen : Nat
  rows   : List CanonRow
  code   : Table Nat
deriving DecidableEq, Repr

/-- The BitWriter (10_state.md R46). -/
structure BitWriter where
  active : Bool
  base   : Word
  cap    : Word
  bits   : Word
  acc    : Byte
deriving DecidableEq, Repr

/-- The BitReader (10_state.md R47). -/
structure BitReader where
  active : Bool
  base   : Word
  bytes  : Word
  pos    : Word
deriving DecidableEq, Repr

/-- The width of a host access (20_memory.md R64); `wide` is any width above 32 bits. -/
inductive Width where
  | byte
  | half
  | word
  | wide
deriving DecidableEq, Repr

/-- What the outside world does to the block: the host's bus accesses at an offset of the window
(20_memory.md R63), its waiting, the reset input and the power supply (70_reset_and_hazards.md R300 to
R302). -/
inductive HostAction where
  | read (offset : Nat) (width : Width)
  | write (offset : Nat) (width : Width) (value : Word)
  /-- No access until the command in flight, if there is one, has taken its engine step. -/
  | wait
  /-- `WAIT` (30_encoding.md R92): RD STATUS until BUSY reads 0. While a command is in flight, `reads` of
  the reads come before its engine step; how many do is free (70_reset_and_hazards.md R313;
  notes/assumptions/2.md). -/
  | poll (reads : Nat)
  /-- Waiting for the IRQ output instead (30_encoding.md R92), without an access. -/
  | waitIrq
  | resetAssert
  | resetRelease
  | powerOn
deriving DecidableEq, Repr

/-- What a bus access gives back to the host (20_memory.md R64). -/
inductive BusReply where
  | data (value : Word)
  | written
  | busError
deriving DecidableEq, Repr

/-- The errors a command can end with (60_exceptions.md R265), `NONE` apart. -/
inductive ErrKind where
  | illegalCmd
  | noState
  | nbitsRange
  | range
  | overlap
  | dstOverflow
  | codeTooLong
  | piRange
  | payloadShort
  | badLengths
  | streamExhausted
  | invalidCodeword
  | rle0Overflow
  | consumedMismatch
  | nonzeroPadding
  | trailingBytes
  | rlelenMismatch
deriving DecidableEq, Repr

/-- An error with its information value (60_exceptions.md R266). -/
structure CmdError where
  kind : ErrKind
  info : Nat
deriving DecidableEq, Repr

/-- The whole state: the block's (10_state.md, 20_memory.md R60), and after it the model's own four
fields. -/
structure State where
  /-- PARAM0 to PARAM2 (10_state.md R41), constant. -/
  params : Params
  /-- CTRL.IE (R22). -/
  ie : Bool
  /-- STATUS.BUSY (R23, R48). -/
  busy : Bool
  /-- STATUS.DONE (R23). -/
  done : Bool
  /-- STATUS.ERR (R23). -/
  err : Bool
  /-- STATUS.OVR (R23). -/
  ovr : Bool
  /-- ERRCODE (R24). -/
  errcode : Byte
  /-- ERRINFO (R25). -/
  errinfo : Word
  /-- CUR, read as CMD (R26, R48). -/
  cur : Word
  /-- SRC, SLEN (R27). -/
  src : Word
  slen : Word
  /-- DST, DCAP (R28). -/
  dst : Word
  dcap : Word
  /-- PI (R29). -/
  pi : Word
  /-- NLEN (R30). -/
  nlen : Word
  /-- HBITS (R31). -/
  hbits : Word
  /-- RLELEN (R32). -/
  rlelen : Word
  /-- OLEN (R33). -/
  olen : Word
  /-- BWCODE (R34). -/
  bwcode : Word
  /-- RESULT (R35). -/
  result : Word
  /-- PEEKN (R36). -/
  peekn : BitVec 6
  /-- SYMCOUNT (R37). -/
  symcount : Word
  /-- FREQ (R42). -/
  freq : Table Word
  /-- LEN (R43). -/
  len : Table Byte
  /-- CANON (R44). -/
  canon : Canon
  /-- CANON_VALID (R44, R53). -/
  canonValid : Bool
  /-- DEC_VALID (R49, R53). -/
  decValid : Bool
  /-- The BitWriter (R46). -/
  bw : BitWriter
  /-- The BitReader (R47). -/
  br : BitReader
  /-- MEM (20_memory.md R60). -/
  mem : Memory
  /-- The reset input is asserted (70_reset_and_hazards.md R300). -/
  inReset : Bool
  /-- The model's own: what the host has still to do, oldest first. -/
  pending : List HostAction
  /-- The model's own: what the host's accesses gave back, oldest first. -/
  replies : List BusReply
  /-- The model's own: how many free values have been drawn. -/
  draws : Nat
  /-- The model's own: how many times power has come back. -/
  epoch : Nat
deriving DecidableEq, Repr

/-- Why the machine stops. -/
inductive Fault where
  /-- Raised by `step` when the host's next action is a bus access or a wait of any form and the reset input is
  asserted: the host has no move and the engine no step until release (70_reset_and_hazards.md R300,
  93_implementation_defined.md I13 "stuck"). Safe: such a run has no continuation in the spec. -/
  | heldInReset
deriving DecidableEq, Repr

/-- Why an instruction has no meaning. -/
inductive Refusal where
  /-- Raised by `exec` for an instruction the model gives no meaning: no arm does. Safe. -/
  | notModelled (mnemonic : String)
deriving DecidableEq, Repr

/-- What a step answers. -/
abbrev Result := Host.Outcome State Fault Refusal

/-- The contents of CANON while no command has set them: unspecified and unobservable in the spec
(10_state.md R44, R52). DESIGN CHOICE: the empty table (notes/assumptions/6.md). -/
def Canon.empty : Canon where
  maxLen := 0
  rows := []
  code := Vector.replicate 256 0

/-- The reset values of 10_state.md R52 in the block with parameters `p`, over a memory `m`. -/
def State.resetValues (p : Params) (m : Memory) : State where
  params := p
  ie := false
  busy := false
  done := false
  err := false
  ovr := false
  errcode := 0#8
  errinfo := 0#32
  cur := 0#32
  src := 0#32
  slen := 0#32
  dst := 0#32
  dcap := 0#32
  pi := 0#32
  nlen := 0#32
  hbits := 0#32
  rlelen := 0#32
  olen := 0#32
  bwcode := 0#32
  result := 0#32
  peekn := 0#6
  symcount := 0#32
  freq := Vector.replicate 256 0#32
  len := Vector.replicate 256 0#8
  canon := Canon.empty
  canonValid := false
  decValid := false
  bw := { active := false, base := 0#32, cap := 0#32, bits := 0#32, acc := 0#8 }
  br := { active := false, base := 0#32, bytes := 0#32, pos := 0#32 }
  mem := m
  inReset := false
  pending := []
  replies := []
  draws := 0
  epoch := 0

/-- The reference block right after its first power-on reset is released (70_reset_and_hazards.md
R300, R301): idle, no byte of MEM written. -/
def State.reset : State := State.resetValues Params.reference []

end Sys2Proof.Machine
end

