-- ==== Sys2Proof/Machine/Flags.lean ====
section
/-! DEFINITION. Error codes, the status register, the interrupt output, and the valid bits of 10_state.md R53. -/

namespace Sys2Proof.Machine

/-- The ERRCODE of an error (60_exceptions.md R265). -/
def ErrKind.code : ErrKind → Byte
  | .illegalCmd => 0x01#8
  | .noState => 0x02#8
  | .nbitsRange => 0x03#8
  | .range => 0x04#8
  | .overlap => 0x05#8
  | .dstOverflow => 0x06#8
  | .codeTooLong => 0x07#8
  | .piRange => 0x08#8
  | .payloadShort => 0x10#8
  | .badLengths => 0x11#8
  | .streamExhausted => 0x12#8
  | .invalidCodeword => 0x13#8
  | .rle0Overflow => 0x14#8
  | .consumedMismatch => 0x15#8
  | .nonzeroPadding => 0x16#8
  | .trailingBytes => 0x17#8
  | .rlelenMismatch => 0x18#8

/-- The interrupt output (60_exceptions.md R272): `CTRL.IE & (STATUS.DONE | STATUS.ERR)`. -/
def State.irq (s : State) : Bool := s.ie && (s.done || s.err)

/-- STATUS as the host reads it (10_state.md R23). -/
def State.statusWord (s : State) : Word :=
  BitVec.ofNat 32
    (s.busy.toNat + 2 * s.done.toNat + 4 * s.err.toNat + 8 * s.ovr.toNat + 16 * s.irq.toNat)

/-- CTRL as the host reads it (10_state.md R22): SRST reads 0. -/
def State.ctrlWord (s : State) : Word := BitVec.ofNat 32 s.ie.toNat

/-- ENGSTATE.MAXLEN (10_state.md R38). -/
def State.maxLenField (s : State) : Nat := if s.canonValid then s.canon.maxLen else 0

/-- ENGSTATE as the host reads it (10_state.md R38). -/
def State.engStateWord (s : State) : Word :=
  BitVec.ofNat 32
    (s.bw.active.toNat + 2 * s.br.active.toNat + 4 * s.decValid.toNat + 8 * s.canonValid.toNat
      + 256 * (s.maxLenField % 256))

/-- A W1C write of `v` to STATUS (46_control.md R248): the host's return from an error report or a
completion (60_exceptions.md R273). ERRCODE and ERRINFO stay. -/
def State.clearStatus (v : Word) (s : State) : State :=
  { s with
    done := s.done && !v.getLsbD 1
    err := s.err && !v.getLsbD 2
    ovr := s.ovr && !v.getLsbD 3 }

/-- A write the block drops because it is busy (20_memory.md R69, 60_exceptions.md R274). -/
def State.overrun (s : State) : State := { s with ovr := true }

/-- `CANON_VALID <- 0` (10_state.md R53). -/
def State.dropCanon (s : State) : State := { s with canonValid := false }

/-- `DEC_VALID <- 0` (10_state.md R53). -/
def State.dropDecoder (s : State) : State := { s with decValid := false }

/-- `BW_ACTIVE <- 0` (10_state.md R53). -/
def State.dropWriter (s : State) : State := { s with bw := { s.bw with active := false } }

/-- `BR_ACTIVE <- 0` (10_state.md R53). -/
def State.dropReader (s : State) : State := { s with br := { s.br with active := false } }

end Sys2Proof.Machine
end

