-- ==== Sys2Proof/Machine/Ops.lean ====
section
/-! DEFINITION. The shared operations: MEM, per-symbol tables, the end of a command, the start of one. -/

namespace Sys2Proof.Machine

/-! ## MEM -/

/-- The canonical form of a memory: addresses strictly rising. An unlisted address has no stored value,
so no entry can equal what it reads as. -/
def Memory.wf (m : Memory) : Bool := decide (m.Pairwise fun x y => x.1 < y.1)

/-- The stored byte at an address, if one has been written since power-on. -/
def Memory.listed : Memory → Nat → Option Byte
  | [], _ => none
  | c :: m, a => if c.1 = a then some c.2 else Memory.listed m a

/-- The cells of the bytes `bs` laid out from address `a` up (00_scope.md R13, `MemWrite`). -/
def Memory.cells : Nat → List Byte → Memory
  | _, [] => []
  | a, b :: bs => (a, b) :: Memory.cells (a + 1) bs

/-- `MemWrite(a, |bs|, bs)` (00_scope.md R13) on the canonical form. -/
def Memory.writeRun (m : Memory) (a : Nat) (bs : List Byte) : Memory :=
  m.filter (fun c => c.1 < a) ++ Memory.cells a bs ++ m.filter (fun c => a + bs.length ≤ c.1)

/-- `MEM[a]`: the stored byte, or the free byte that the power-on left there (10_state.md R52). -/
def State.readByte (s : State) (a : Nat) : Byte :=
  (s.mem.listed a).getD (Config.powerOnByte s.epoch a)

/-- `MemRead(a, n)` (00_scope.md R13). -/
def State.readBytes (s : State) (a n : Nat) : List Byte :=
  (List.range n).map fun i => s.readByte (a + i)

/-- `MemWrite(a, |bs|, bs)` (00_scope.md R13). -/
def State.writeBytes (a : Nat) (bs : List Byte) (s : State) : State :=
  { s with mem := s.mem.writeRun a bs }

/-- Free bytes for `n` places, from the draw number `k` on. -/
def freeBytes (k n : Nat) : List Byte := (List.range n).map fun i => Config.freeByte (k + i)

/-- The bytes `MEM[a .. a + n)` come to hold any value (60_exceptions.md R269): each is a fresh draw. -/
def State.scramble (a n : Nat) (s : State) : State :=
  { s with mem := s.mem.writeRun a (freeBytes s.draws n), draws := s.draws + n }

/-! ## Per-symbol tables -/

/-- The 256 symbols, ascending. -/
def symbols : List Byte := (List.range 256).map (BitVec.ofNat 8)

/-- The table whose entry at `s` is `f s`. -/
def tabulate {α : Type} (f : Byte → α) : Table α :=
  ⟨(symbols.map f).toArray, by simp [symbols]⟩

/-- `T[s]` (00_scope.md R13). -/
def entry {α : Type} (t : Table α) (s : Byte) : α := t[s.toNat]'s.isLt

/-- `T[s] <- v` (00_scope.md R13). -/
def setEntry {α : Type} (t : Table α) (s : Byte) (v : α) : Table α := t.set s.toNat v s.isLt

/-- The entries of a table in symbol order (the length header of 30_encoding.md R87, for LEN). -/
def entries {α : Type} (t : Table α) : List α := t.toList

/-! ## The start and the end of a command -/

/-- `ceil8(b)` (00_scope.md R11). -/
def ceil8 (b : Nat) : Nat := (b + 7) / 8

/-- Acceptance of a command word while idle (46_control.md R246): the word is taken, DONE, ERR, ERRCODE
and ERRINFO are cleared, BUSY is set. This is also how an error report ends (60_exceptions.md R273). -/
def State.accept (w : Word) (s : State) : State :=
  { s with cur := w, done := false, err := false, errcode := 0#8, errinfo := 0#32, busy := true }

/-- `complete` (60_exceptions.md R267): the successful end of a command. -/
def State.complete (s : State) : State := { s with done := true, busy := false }

/-- `raise E(info)` (60_exceptions.md R268), applied to a state in which the error effects of R269 have
been made: the one way a command ends with an error. No control moves anywhere (R268). -/
def State.raiseError (e : CmdError) (s : State) : State :=
  { s with errcode := e.kind.code, errinfo := BitVec.ofNat 32 e.info, err := true, busy := false }

/-- One line of a command's operand checks (30_encoding.md R86, phase 1). -/
structure Check where
  fails : Bool
  error : CmdError
deriving DecidableEq, Repr

/-- The first failing check, in the order the rule lists them (60_exceptions.md R271). -/
def firstFailure : List Check → Option CmdError
  | [] => none
  | c :: cs => if c.fails then some c.error else firstFailure cs

/-- The two phases of a command (30_encoding.md R86): its checks, then its body, which ends by
`complete` or `raiseError`. `onFail` makes the error effects of a failed check: none but for the
stepwise commands (10_state.md R53). -/
def runCommand (checks : List Check) (onFail body : State → State) (s : State) : Result :=
  match firstFailure checks with
  | some e => .next ((onFail s).raiseError e)
  | none => .next (body s)

end Sys2Proof.Machine
end

