-- ==== Sys2Proof/Machine/Control.lean ====
section
/-! DEFINITION. NOP (46_control.md R245) and the end of an ILLEGAL word (30_encoding.md R83). -/

namespace Sys2Proof.Machine

/-- NOP (46_control.md R245): no checks, no body. -/
def execNop (s : State) : Result := runCommand [] id State.complete s

/-- An ILLEGAL word (30_encoding.md R83): the engine ends it at once with ILLEGAL_CMD, ERRINFO being the
word; no other state changes (93_implementation_defined.md I7). -/
def State.rejectWord (s : State) : State :=
  s.raiseError { kind := .illegalCmd, info := s.cur.toNat }

end Sys2Proof.Machine
end

