-- ==== Sys2Proof/Machine/Operands.lean ====
section
/-! DEFINITION. The operand forms of 30_encoding.md R85: regions of MEM and the checks on them. -/

namespace Sys2Proof.Machine

/-- `InRange(base, len)` (20_memory.md R61), on integers. -/
def inRange (p : Params) (base len : Nat) : Bool := base + len ≤ p.memSize

/-- `Overlap` of the regions `(a, m)` and `(b, k)` (20_memory.md R62). -/
def overlap (a m b k : Nat) : Bool := 0 < m && 0 < k && a < b + k && b < a + m

/-- `MemRead(SRC, SLEN)`: the bytes of the source region (10_state.md R27). -/
def State.source (s : State) : List Byte := s.readBytes s.src.toNat s.slen.toNat

/-- `if not InRange(SRC, SLEN): raise RANGE(1)`. -/
def checkSource (s : State) : Check :=
  { fails := !inRange s.params s.src.toNat s.slen.toNat, error := { kind := .range, info := 1 } }

/-- `if n > N_MAX: raise RANGE(3)`. -/
def checkBound (s : State) (n : Word) : Check :=
  { fails := s.params.nMax < n.toNat, error := { kind := .range, info := 3 } }

/-- `if not InRange(DST, DCAP): raise RANGE(2)`. -/
def checkDest (s : State) : Check :=
  { fails := !inRange s.params s.dst.toNat s.dcap.toNat, error := { kind := .range, info := 2 } }

/-- `if Overlap(SRC, SLEN, DST, DCAP): raise OVERLAP(0)`. -/
def checkOverlap (s : State) : Check :=
  { fails := overlap s.src.toNat s.slen.toNat s.dst.toNat s.dcap.toNat
    error := { kind := .overlap, info := 0 } }

/-- `if n > DCAP: raise DST_OVERFLOW(n)`. -/
def checkFits (s : State) (n : Word) : Check :=
  { fails := s.dcap.toNat < n.toNat, error := { kind := .dstOverflow, info := n.toNat } }

/-- `if (n > 0 and PI >= n) or (n = 0 and PI != 0): raise PI_RANGE(PI)`. -/
def checkPi (s : State) (n : Word) : Check :=
  { fails := (0 < n.toNat && n.toNat ≤ s.pi.toNat) || (n.toNat == 0 && s.pi.toNat != 0)
    error := { kind := .piRange, info := s.pi.toNat } }

/-- `if SLEN < 256: raise PAYLOAD_SHORT(SLEN)`. -/
def checkPayload (s : State) : Check :=
  { fails := s.slen.toNat < 256, error := { kind := .payloadShort, info := s.slen.toNat } }

/-- `if <state> = 0: raise NO_STATE(0)`. -/
def checkActive (active : Bool) : Check :=
  { fails := !active, error := { kind := .noState, info := 0 } }

/-- `if n > max: raise NBITS_RANGE(n)`: the immediate of BW_WRITE and BR_PEEK. -/
def checkNbits (max n : Nat) : Check :=
  { fails := max < n, error := { kind := .nbitsRange, info := n } }

/-- The destination bytes of a command that failed in its body hold any value (60_exceptions.md
R269). -/
def State.scrambleDest (s : State) : State := s.scramble s.dst.toNat s.dcap.toNat

end Sys2Proof.Machine
end

