-- ==== Sys2Proof/Machine/Bwt.lean ====
section
/-! DEFINITION. The Burrows-Wheeler transform and the BWT_ commands (41_bwt.md). -/

namespace Sys2Proof.Machine

/-- `rot(i)` (41_bwt.md R130): the buffer read circularly from offset `i`. -/
def rotation (buf : List Byte) (i : Nat) : List Byte := buf.drop i ++ buf.take i

/-- Lexicographic order on byte lists, bytes compared as unsigned values (41_bwt.md R130). -/
def lexLess : List Byte → List Byte → Bool
  | [], [] => false
  | [], _ :: _ => true
  | _ :: _, [] => false
  | a :: as, b :: bs => if a = b then lexLess as bs else a.toNat < b.toNat

/-- The order on offsets of 41_bwt.md R130: rotations first, equal rotations by ascending offset. -/
def rotBefore (buf : List Byte) (i j : Nat) : Bool :=
  lexLess (rotation buf i) (rotation buf j) || (rotation buf i == rotation buf j && i < j)

/-- One offset put in its place in a sorted list of offsets. -/
def insertOffset (buf : List Byte) (i : Nat) : List Nat → List Nat
  | [] => [i]
  | j :: js => if rotBefore buf i j then i :: j :: js else j :: insertOffset buf i js

/-- `off` of 41_bwt.md R131: the offsets `0 .. n-1` sorted by the order of R130. -/
def sortedOffsets (buf : List Byte) : List Nat :=
  (List.range buf.length).foldr (insertOffset buf) []

/-- `BwtForward(S)` (41_bwt.md R131): the last bytes of the sorted rotations, and the row of offset
0. -/
def bwtForward (buf : List Byte) : List Byte × Nat :=
  let off := sortedOffsets buf
  (off.map fun o => buf.getD ((o + buf.length - 1) % buf.length) 0#8, off.idxOf 0)

/-- The map `i -> C[L[i]] + occ[i]` of 41_bwt.md R132. -/
def lfMap (last : List Byte) (i : Nat) : Nat :=
  let c := last.getD i 0#8
  last.countP (fun b => b.toNat < c.toNat) + (last.take i).count c

/-- The backward walk of 41_bwt.md R132 from row `i`, `steps` bytes, put before `out`. -/
def lfWalk (last : List Byte) : Nat → Nat → List Byte → List Byte
  | 0, _, out => out
  | steps + 1, i, out => lfWalk last steps (lfMap last i) (last.getD i 0#8 :: out)

/-- `BwtInverse(L, pi)` (41_bwt.md R132). -/
def bwtInverse (last : List Byte) (pi : Nat) : List Byte := lfWalk last last.length pi []

/-- Operand checks of BWT_FWD (41_bwt.md R133). -/
def bwtFwdChecks (s : State) : List Check :=
  [checkSource s, checkBound s s.slen, checkDest s, checkOverlap s, checkFits s s.slen]

/-- Body of BWT_FWD (41_bwt.md R133). -/
def bwtFwdBody (s : State) : State :=
  let r := bwtForward s.source
  { s.writeBytes s.dst.toNat r.1 with pi := BitVec.ofNat 32 r.2, olen := s.slen }.complete

/-- BWT_FWD (41_bwt.md R133). -/
def execBwtFwd (s : State) : Result := runCommand (bwtFwdChecks s) id bwtFwdBody s

/-- Operand checks of BWT_INV (41_bwt.md R134). -/
def bwtInvChecks (s : State) : List Check :=
  [checkSource s, checkBound s s.slen, checkDest s, checkOverlap s, checkFits s s.slen,
   checkPi s s.slen]

/-- Body of BWT_INV (41_bwt.md R134). -/
def bwtInvBody (s : State) : State :=
  { s.writeBytes s.dst.toNat (bwtInverse s.source s.pi.toNat) with olen := s.slen }.complete

/-- BWT_INV (41_bwt.md R134). -/
def execBwtInv (s : State) : Result := runCommand (bwtInvChecks s) id bwtInvBody s

end Sys2Proof.Machine
end

