-- ==== Sys2Proof/Machine/BitIo.lean ====
section
/-! DEFINITION. Bit-level input and output: the primitives and the BW_ and BR_ commands (40_bitio.md). -/

namespace Sys2Proof.Machine

/-! ## Primitives -/

/-- `BitAt(base, j)` (40_bitio.md R100, 20_memory.md R66), MSB first, over the bytes `byteAt`. -/
def bitAt (byteAt : Nat → Byte) (base j : Nat) : Bool := (byteAt (base + j / 8)).getLsbD (7 - j % 8)

/-- `CodeBits(code, nbits)` (40_bitio.md R101): the low `nbits` bits, most significant first. -/
def codeBits (code nbits : Nat) : List Bool :=
  (List.range nbits).map fun t => code.testBit (nbits - 1 - t)

/-- Byte `i` of `Pack(bs)` (40_bitio.md R101): the sum over `t` of `b(8 i + t) << (7 - t)`. -/
def packedByte (bs : List Bool) (i : Nat) : Byte :=
  let chunk := bs.drop (8 * i)
  BitVec.ofNat 8 ((List.range 8).map fun t => (chunk.getD t false).toNat <<< (7 - t)).sum

/-- `Pack(bs)` (40_bitio.md R101). -/
def pack (bs : List Bool) : List Byte := (List.range (ceil8 bs.length)).map (packedByte bs)

/-- `PutBit(b)` (40_bitio.md R103). -/
def State.putBit (s : State) (b : Bool) : State :=
  let acc := s.bw.acc ||| (if b then 1#8 <<< (7 - s.bw.bits.toNat % 8) else 0#8)
  let bits := s.bw.bits + 1#32
  if bits.toNat % 8 = 0 then
    { s.writeBytes (s.bw.base.toNat + bits.toNat / 8 - 1) [acc] with
      bw := { s.bw with bits := bits, acc := 0#8 } }
  else { s with bw := { s.bw with bits := bits, acc := acc } }

/-- `ReadBit()` (40_bitio.md R107); `none` is EXHAUSTED. -/
def BitReader.readBit (byteAt : Nat → Byte) (r : BitReader) : Option Bool × BitReader :=
  if 8 * r.bytes.toNat ≤ r.pos.toNat then (none, r)
  else (some (bitAt byteAt r.base.toNat r.pos.toNat), { r with pos := r.pos + 1#32 })

/-- How many stream bits stand behind a peek of `k` bits (40_bitio.md R109: `m`). -/
def BitReader.peekCount (r : BitReader) (k : Nat) : Nat := min k (8 * r.bytes.toNat - r.pos.toNat)

/-- The value of a peek of `k` bits (40_bitio.md R109: `v`). -/
def BitReader.peekValue (byteAt : Nat → Byte) (r : BitReader) (k : Nat) : Nat :=
  ((List.range (r.peekCount k)).map fun t =>
    (bitAt byteAt r.base.toNat (r.pos.toNat + t)).toNat <<< (k - 1 - t)).sum

/-- The padding bit positions between `hb` and the next byte boundary (40_bitio.md R110). -/
def paddingPositions (hb : Nat) : List Nat := (List.range (8 * ceil8 hb - hb)).map fun t => hb + t

/-- `AssertConsumed(hb)` (40_bitio.md R110): `none` is ok. -/
def BitReader.assertConsumed (byteAt : Nat → Byte) (r : BitReader) (hb : Nat) : Option CmdError :=
  if r.pos.toNat ≠ hb then some { kind := .consumedMismatch, info := r.pos.toNat }
  else match (paddingPositions hb).find? fun j => bitAt byteAt r.base.toNat j with
    | some j => some { kind := .nonzeroPadding, info := j }
    | none =>
      if ceil8 hb < r.bytes.toNat then some { kind := .trailingBytes, info := r.bytes.toNat } else none

/-! ## BitWriter commands -/

/-- Operand checks of BW_INIT (40_bitio.md R102). -/
def bwInitChecks (s : State) : List Check := [checkDest s]

/-- Body of BW_INIT (40_bitio.md R102). -/
def bwInitBody (s : State) : State :=
  { s with bw := { active := true, base := s.dst, cap := s.dcap, bits := 0#32, acc := 0#8 } }.complete

/-- BW_INIT (40_bitio.md R102). -/
def execBwInit (s : State) : Result := runCommand (bwInitChecks s) id bwInitBody s

/-- Operand checks of BW_WRITE (40_bitio.md R103). -/
def bwWriteChecks (nbits : Nat) (s : State) : List Check :=
  let need := ceil8 (s.bw.bits.toNat + nbits)
  [checkActive s.bw.active, checkNbits s.params.bwMaxBits nbits,
   { fails := s.bw.cap.toNat < need, error := { kind := .dstOverflow, info := need } }]

/-- Body of BW_WRITE (40_bitio.md R103): the low `nbits` bits of BWCODE, most significant first. -/
def bwWriteBody (nbits : Nat) (s : State) : State :=
  ((codeBits s.bwcode.toNat nbits).foldl State.putBit s).complete

/-- BW_WRITE (40_bitio.md R103); every error discards the writer (10_state.md R53). -/
def execBwWrite (nbits : Nat) (s : State) : Result :=
  runCommand (bwWriteChecks nbits s) State.dropWriter (bwWriteBody nbits) s

/-- Operand checks of BW_FINISH (40_bitio.md R104). -/
def bwFinishChecks (s : State) : List Check := [checkActive s.bw.active]

/-- The store of the partial byte by BW_FINISH (40_bitio.md R104). -/
def State.flushPartial (s : State) : State :=
  if s.bw.bits.toNat % 8 = 0 then s
  else s.writeBytes (s.bw.base.toNat + s.bw.bits.toNat / 8) [s.bw.acc]

/-- Body of BW_FINISH (40_bitio.md R104). -/
def bwFinishBody (s : State) : State :=
  { s.flushPartial with
    hbits := s.bw.bits
    olen := BitVec.ofNat 32 (ceil8 s.bw.bits.toNat)
    bw := { s.bw with acc := 0#8, active := false } }.complete

/-- BW_FINISH (40_bitio.md R104); its error discards the writer (10_state.md R53). -/
def execBwFinish (s : State) : Result :=
  runCommand (bwFinishChecks s) State.dropWriter bwFinishBody s

/-! ## BitReader commands -/

/-- The error effects of the stepwise reading commands (10_state.md R53): the reader and the decoder
are discarded. -/
def State.dropReading (s : State) : State := s.dropReader.dropDecoder

/-- Operand checks of BR_INIT (40_bitio.md R106). -/
def brInitChecks (s : State) : List Check := [checkSource s]

/-- Body of BR_INIT (40_bitio.md R106). -/
def brInitBody (s : State) : State :=
  { s.dropDecoder with
    br := { active := true, base := s.src, bytes := s.slen, pos := 0#32 } }.complete

/-- BR_INIT (40_bitio.md R106). -/
def execBrInit (s : State) : Result := runCommand (brInitChecks s) id brInitBody s

/-- Operand checks of BR_READBIT (40_bitio.md R108). -/
def brReadbitChecks (s : State) : List Check := [checkActive s.br.active]

/-- Body of BR_READBIT (40_bitio.md R108): exhaustion gives the sentinel, the pattern of -1. -/
def brReadbitBody (s : State) : State :=
  match s.br.readBit s.readByte with
  | (none, r) => { s with br := r, result := 0xFFFFFFFF#32 }.complete
  | (some b, r) => { s with br := r, result := BitVec.ofNat 32 b.toNat }.complete

/-- BR_READBIT (40_bitio.md R108). -/
def execBrReadbit (s : State) : Result :=
  runCommand (brReadbitChecks s) State.dropReading brReadbitBody s

/-- Operand checks of BR_PEEK (40_bitio.md R109). -/
def brPeekChecks (k : Nat) (s : State) : List Check :=
  [checkActive s.br.active, checkNbits s.params.peekMax k]

/-- Body of BR_PEEK (40_bitio.md R109). -/
def brPeekBody (k : Nat) (s : State) : State :=
  { s with
    result := BitVec.ofNat 32 (s.br.peekValue s.readByte k)
    peekn := BitVec.ofNat 6 (s.br.peekCount k) }.complete

/-- BR_PEEK (40_bitio.md R109). -/
def execBrPeek (k : Nat) (s : State) : Result :=
  runCommand (brPeekChecks k s) State.dropReading (brPeekBody k) s

/-- Operand checks of BR_ASSERT (40_bitio.md R111). -/
def brAssertChecks (s : State) : List Check := [checkActive s.br.active]

/-- Body of BR_ASSERT (40_bitio.md R111): an error in it discards the reader too (10_state.md R53). -/
def brAssertBody (s : State) : State :=
  match s.br.assertConsumed s.readByte s.hbits.toNat with
  | some e => s.dropReading.raiseError e
  | none => s.complete

/-- BR_ASSERT (40_bitio.md R111). -/
def execBrAssert (s : State) : Result :=
  runCommand (brAssertChecks s) State.dropReading brAssertBody s

end Sys2Proof.Machine
end

