-- ==== Sys2Proof/Machine/Huffman.lean ====
section
/-! DEFINITION. The canonical Huffman coder and the HUF_ commands (44_huffman.md). -/

namespace Sys2Proof.Machine

/-! ## Histogram and code lengths -/

/-- `Histogram(S)` (44_huffman.md R180). -/
def histogram (buf : List Byte) : Table Nat := tabulate fun s => buf.count s

/-- A live node of the merge (44_huffman.md R182). -/
structure Node where
  weight  : Nat
  key     : Byte
  members : List Byte
deriving DecidableEq, Repr

/-- Nodes in the order of their pairs `(weight, key)` (44_huffman.md R182). -/
def Node.before (a b : Node) : Bool :=
  a.weight < b.weight || (a.weight == b.weight && a.key.toNat < b.key.toNat)

/-- The first node of a non-empty set in that order, and the others. -/
def popMin : Node → List Node → Node × List Node
  | n, [] => (n, [])
  | n, m :: ms =>
    let r := popMin m ms
    if n.before r.1 then (n, m :: ms) else (r.1, n :: r.2)

/-- The node that stands for two merged ones; its key is the smaller key (44_huffman.md R182). -/
def Node.merge (a b : Node) : Node where
  weight := a.weight + b.weight
  key := if a.key.toNat ≤ b.key.toNat then a.key else b.key
  members := a.members ++ b.members

/-- One more bit for each symbol of a list. -/
def lengthen (len : Table Nat) (members : List Byte) : Table Nat :=
  members.foldl (fun l s => setEntry l s (entry l s + 1)) len

/-- The loop of 44_huffman.md R182: while two nodes live, the two smallest are merged. The first
argument bounds the number of merges (one fewer than the nodes). -/
def mergeNodes : Nat → List Node → Table Nat → Table Nat
  | 0, _, len => len
  | _ + 1, [], len => len
  | k + 1, n :: ns, len =>
    let a := popMin n ns
    match a.2 with
    | [] => len
    | m :: ms =>
      let b := popMin m ms
      let node := a.1.merge b.1
      mergeNodes k (node :: b.2) (lengthen len node.members)

/-- The largest entry of a table. -/
def maxEntry (t : Table Nat) : Nat := (entries t).foldl max 0

/-- The lengths `BuildLengths` computes before its last test (44_huffman.md R182). -/
def treeLengths (f : Table Nat) : Table Nat :=
  match symbols.filter fun s => 0 < entry f s with
  | [] => tabulate fun s => if s = 0#8 then 1 else 0
  | [p] => tabulate fun s => if s = p then 1 else 0
  | ps => mergeNodes ps.length (ps.map fun s => { weight := entry f s, key := s, members := [s] })
      (tabulate fun _ => 0)

/-- `BuildLengths(f)` (44_huffman.md R182). -/
def buildLengths (maxCodeLen : Nat) (f : Table Nat) : Except CmdError (Table Byte) :=
  let len := treeLengths f
  if maxCodeLen < maxEntry len then .error { kind := .codeTooLong, info := maxEntry len }
  else .ok (tabulate fun s => BitVec.ofNat 8 (entry len s))

/-! ## Canonical codes -/

/-- The length list with the forced entry (44_huffman.md R184: "force exactly one symbol to length
1"). -/
def forceLengths (len : Table Byte) : Table Byte :=
  if (entries len).all fun l => l == 0#8 then setEntry len 0#8 1#8 else len

/-- The symbols of one length, ascending (44_huffman.md R184: `perLenSyms[j]`). -/
def symbolsOfLength (len : Table Byte) (j : Nat) : List Byte :=
  symbols.filter fun s => (entry len s).toNat == j

/-- The row of length `j` when its first code is `start` (44_huffman.md R184). -/
def canonRow (len : Table Byte) (j start : Nat) : CanonRow :=
  let syms := symbolsOfLength len j
  { blCount := syms.length
    codeStart := start
    codes := if 0 < syms.length then
        some { minCode := start, maxCode := start + syms.length - 1 } else none
    perLenSyms := syms }

/-- The rows of lengths `j, j + 1, ..` (so many as the first argument says), the first code of length
`j` being `start`: `codeStart[j + 1] = (codeStart[j] + blCount[j]) << 1` (44_huffman.md R184). -/
def canonRows (len : Table Byte) : Nat → Nat → Nat → List CanonRow
  | 0, _, _ => []
  | k + 1, j, start =>
    let row := canonRow len j start
    row :: canonRows len k (j + 1) ((start + row.blCount) <<< 1)

/-- `codeStart[j] + blCount[j] > 2^j` for some row, the first row being of length `j`
(44_huffman.md R184). -/
def overSubscribed : Nat → List CanonRow → Bool
  | _, [] => false
  | j, row :: rows => 2 ^ j < row.codeStart + row.blCount || overSubscribed (j + 1) rows

/-- `code[s]` (44_huffman.md R184): consecutive codes from `codeStart` on, in symbol order. -/
def canonCode (len : Table Byte) (rows : List CanonRow) (s : Byte) : Nat :=
  match (entry len s).toNat with
  | 0 => 0
  | j + 1 =>
    match rows[j]? with
    | some row => row.codeStart + row.perLenSyms.idxOf s
    | none => 0

/-- `Canon(len)` (44_huffman.md R184): the length list, forced if need be, and the table. -/
def canonTable (maxCodeLen : Nat) (len : Table Byte) : Except CmdError (Table Byte × Canon) :=
  let l := forceLengths len
  match symbols.find? fun s => maxCodeLen < (entry l s).toNat with
  | some s => .error { kind := .badLengths, info := s.toNat }
  | none =>
    let maxLen := (entries l).foldl (fun m b => max m b.toNat) 0
    let rows := canonRows l maxLen 1 0
    if overSubscribed 1 rows then .error { kind := .badLengths, info := 0x100 }
    else .ok (l, { maxLen := maxLen, rows := rows, code := tabulate (canonCode l rows) })

/-! ## Encoding and decoding of symbols -/

/-- `EncodeBits(E, T)` (44_huffman.md R186). -/
def encodeBits (len : Table Byte) (t : Canon) (buf : List Byte) : List Bool :=
  buf.flatMap fun e => codeBits (entry t.code e) (entry len e).toNat

/-- The outcome of an operation that reads from the BitReader: where the reader stands afterwards is
kept on an error too (44_huffman.md R190: "Bits read before a failure stay consumed"). -/
structure Attempt (α : Type) where
  outcome : Except CmdError α
  reader  : BitReader

/-- Goes on with `f` if the attempt succeeded. -/
def Attempt.andThen {α β : Type} (a : Attempt α) (f : α → BitReader → Attempt β) : Attempt β :=
  match a.outcome with
  | .error e => { outcome := .error e, reader := a.reader }
  | .ok x => f x a.reader

/-- Applies `f` to the value of an attempt that succeeded. -/
def Attempt.map {α β : Type} (f : α → β) (a : Attempt α) : Attempt β :=
  { outcome := a.outcome.map f, reader := a.reader }

/-- The symbol whose code of this row's length is `acc`, if there is one (44_huffman.md R190). -/
def CanonRow.symbolAt (row : CanonRow) (acc : Nat) : Option Byte :=
  match row.codes with
  | none => none
  | some c => if c.minCode ≤ acc && acc ≤ c.maxCode then row.perLenSyms[acc - c.minCode]? else none

/-- The loop of `DecodeSymbol` (44_huffman.md R190) over the lengths that are left. -/
def decodeRows (byteAt : Nat → Byte) : List CanonRow → Nat → BitReader → Attempt Byte
  | [], _, r => { outcome := .error { kind := .invalidCodeword, info := r.pos.toNat }, reader := r }
  | row :: rows, acc, r =>
    match r.readBit byteAt with
    | (none, r') =>
      { outcome := .error { kind := .streamExhausted, info := r'.pos.toNat }, reader := r' }
    | (some b, r') =>
      let acc' := 2 * acc + b.toNat
      match row.symbolAt acc' with
      | some s => { outcome := .ok s, reader := r' }
      | none => decodeRows byteAt rows acc' r'

/-- `DecodeSymbol(T)` (44_huffman.md R190). -/
def decodeSymbol (byteAt : Nat → Byte) (t : Canon) (r : BitReader) : Attempt Byte :=
  decodeRows byteAt t.rows 0 r

/-- What `HuffDecodeRle` works on (44_huffman.md R192): the table, the target length `n`, the header's
`rleLen`, the setting of `P_RLELEN_CHECK`, and MEM. -/
structure RleJob where
  byteAt : Nat → Byte
  table  : Canon
  n      : Nat
  rl     : Nat
  check  : RleLenCheck

/-- `NextSym()` (44_huffman.md R192), `cnt` symbols having been decoded. -/
def RleJob.nextSym (job : RleJob) (cnt : Nat) (r : BitReader) : Attempt Byte :=
  if job.check ≠ .none ∧ cnt = job.rl then
    { outcome := .error { kind := .rlelenMismatch, info := cnt }, reader := r }
  else decodeSymbol job.byteAt job.table r

/-- The decode loop with `Rle0ExpandStep` (44_huffman.md R192, 43_rle0.md R167), `made` ranks and `cnt`
symbols having been produced: the further ranks, and the final symbol count. Each turn makes at least one
rank, so the first argument, the ranks still to make, bounds the turns. -/
def RleJob.expand (job : RleJob) : Nat → Nat → Nat → BitReader → Attempt (List Byte × Nat)
  | 0, _, cnt, r => { outcome := .ok ([], cnt), reader := r }
  | fuel + 1, made, cnt, r =>
    if job.n ≤ made then { outcome := .ok ([], cnt), reader := r }
    else
      (job.nextSym cnt r).andThen fun s r =>
        if s ≠ 0#8 then
          (job.expand fuel (made + 1) (cnt + 1) r).map fun x => (s :: x.1, x.2)
        else
          (job.nextSym (cnt + 1) r).andThen fun k r =>
            if job.n < made + k.toNat + 1 then
              { outcome := .error { kind := .rle0Overflow, info := made }, reader := r }
            else
              (job.expand fuel (made + k.toNat + 1) (cnt + 2) r).map fun x =>
                (List.replicate (k.toNat + 1) 0#8 ++ x.1, x.2)

/-- The exact form of the `rleLen` test, the last of 44_huffman.md R192. -/
def RleJob.countError (job : RleJob) (cnt : Nat) : Option CmdError :=
  if job.check = .exact ∧ cnt ≠ job.rl then some { kind := .rlelenMismatch, info := cnt } else none

/-- `HuffDecodeRle(T, n, hb, rl)` (44_huffman.md R192): the ranks and the symbol count. -/
def RleJob.run (job : RleJob) (hb : Nat) (r : BitReader) : Attempt (List Byte × Nat) :=
  (job.expand job.n 0 0 r).andThen fun x r =>
    match r.assertConsumed job.byteAt hb with
    | some e => { outcome := .error e, reader := r }
    | none =>
      match job.countError x.2 with
      | some e => { outcome := .error e, reader := r }
      | none => { outcome := .ok x, reader := r }

/-! ## Payloads -/

/-- What encoding a byte list gives (44_huffman.md R187): the histogram, the lengths, the table, the
bits. -/
structure Payload where
  freq : Table Nat
  len  : Table Byte
  table : Canon
  bits : List Bool

/-- The bytes of a payload (30_encoding.md R87): the length header, then the packed bitstream. -/
def Payload.bytes (p : Payload) : List Byte := entries p.len ++ pack p.bits

/-- The number of bytes a payload needs (44_huffman.md R187: `total`). -/
def Payload.size (p : Payload) : Nat := 256 + ceil8 p.bits.length

/-- The encoder of 44_huffman.md R187 on a byte list, up to its capacity test. -/
def huffmanPayload (maxCodeLen : Nat) (buf : List Byte) : Except CmdError Payload :=
  let f := histogram buf
  match buildLengths maxCodeLen f with
  | .error e => .error e
  | .ok l =>
    match canonTable maxCodeLen l with
    | .error e => .error e
    | .ok (l, t) => .ok { freq := f, len := l, table := t, bits := encodeBits l t buf }

/-- The encoder with its capacity test (44_huffman.md R187). -/
def fitPayload (maxCodeLen cap : Nat) (buf : List Byte) : Except CmdError Payload :=
  match huffmanPayload maxCodeLen buf with
  | .error e => .error e
  | .ok p => if cap < p.size then .error { kind := .dstOverflow, info := p.size } else .ok p

/-- The state written by a successful encode (44_huffman.md R187): MEM, FREQ, LEN, CANON, HBITS, OLEN and
the BitWriter fields; BW_ACTIVE stays as it is (0). -/
def State.storePayload (p : Payload) (s : State) : State :=
  { s.writeBytes s.dst.toNat p.bytes with
    freq := tabulate fun x => BitVec.ofNat 32 (entry p.freq x)
    len := p.len
    canon := p.table
    canonValid := true
    hbits := BitVec.ofNat 32 p.bits.length
    olen := BitVec.ofNat 32 p.size
    bw := { s.bw with
      base := s.dst + 256#32
      cap := s.dcap - 256#32
      bits := BitVec.ofNat 32 p.bits.length
      acc := 0#8 } }

/-- An error in the body of a command that has a destination and builds or reads a table
(60_exceptions.md R269, 10_state.md R53): CANON_VALID <- 0, and the destination bytes hold any value. -/
def State.failTables (e : CmdError) (s : State) : State := (s.dropCanon.scrambleDest).raiseError e

/-- `OpenPayload(base, size)` (44_huffman.md R188) on the source region: the lengths, the table and the
reader over the bitstream. -/
def State.openPayload (s : State) : Except CmdError (Table Byte × Canon × BitReader) :=
  match canonTable s.params.maxCodeLen (tabulate fun x => s.readByte (s.src.toNat + x.toNat)) with
  | .error e => .error e
  | .ok (l, t) =>
    .ok (l, t, { s.br with base := s.src + 256#32, bytes := s.slen - 256#32, pos := 0#32 })

/-- LEN <- l; CANON <- T; CANON_VALID <- 1. -/
def State.setCanon (l : Table Byte) (t : Canon) (s : State) : State :=
  { s with len := l, canon := t, canonValid := true }

/-! ## Table-building commands -/

/-- Operand checks of HUF_HIST (44_huffman.md R181). -/
def hufHistChecks (s : State) : List Check := [checkSource s]

/-- Body of HUF_HIST (44_huffman.md R181). -/
def hufHistBody (s : State) : State :=
  let f := histogram s.source
  { s with freq := tabulate fun x => BitVec.ofNat 32 (entry f x) }.complete

/-- HUF_HIST (44_huffman.md R181). -/
def execHufHist (s : State) : Result := runCommand (hufHistChecks s) id hufHistBody s

/-- Body of HUF_BUILD (44_huffman.md R183); CANON_VALID falls on success and on error (10_state.md
R53). -/
def hufBuildBody (s : State) : State :=
  let s := s.dropDecoder
  match buildLengths s.params.maxCodeLen (tabulate fun x => (entry s.freq x).toNat) with
  | .error e => s.dropCanon.raiseError e
  | .ok l => { s.dropCanon with len := l }.complete

/-- HUF_BUILD (44_huffman.md R183); it has no operand checks. -/
def execHufBuild (s : State) : Result := runCommand [] id hufBuildBody s

/-- Body of HUF_CANON (44_huffman.md R185). -/
def hufCanonBody (s : State) : State :=
  let s := s.dropDecoder
  match canonTable s.params.maxCodeLen s.len with
  | .error e => s.dropCanon.raiseError e
  | .ok (l, t) => (s.setCanon l t).complete

/-- HUF_CANON (44_huffman.md R185); it has no operand checks. -/
def execHufCanon (s : State) : Result := runCommand [] id hufCanonBody s

/-! ## Encode command -/

/-- Operand checks of HUF_ENC (44_huffman.md R187). -/
def hufEncChecks (s : State) : List Check := [checkSource s, checkDest s, checkOverlap s]

/-- Body of HUF_ENC (44_huffman.md R187). -/
def hufEncBody (s : State) : State :=
  let s := s.dropDecoder.dropWriter
  match fitPayload s.params.maxCodeLen s.dcap.toNat s.source with
  | .error e => s.failTables e
  | .ok p => (s.storePayload p).complete

/-- HUF_ENC (44_huffman.md R187). -/
def execHufEnc (s : State) : Result := runCommand (hufEncChecks s) id hufEncBody s

/-! ## Decode commands -/

/-- Operand checks of HUF_START_DEC (44_huffman.md R189). -/
def hufStartDecChecks (s : State) : List Check := [checkSource s, checkPayload s]

/-- Body of HUF_START_DEC (44_huffman.md R189). It has no destination, so an error leaves MEM. -/
def hufStartDecBody (s : State) : State :=
  let s := s.dropDecoder
  match s.openPayload with
  | .error e => s.dropCanon.raiseError e
  | .ok (l, t, r) =>
    { s.setCanon l t with br := { r with active := true }, decValid := true }.complete

/-- HUF_START_DEC (44_huffman.md R189). -/
def execHufStartDec (s : State) : Result :=
  runCommand (hufStartDecChecks s) id hufStartDecBody s

/-- Operand checks of HUF_DEC_ONE (44_huffman.md R191). -/
def hufDecOneChecks (s : State) : List Check := [checkActive s.decValid]

/-- Body of HUF_DEC_ONE (44_huffman.md R191): on an error BR_POS stays where the failed read left it. -/
def hufDecOneBody (s : State) : State :=
  let a := decodeSymbol s.readByte s.canon s.br
  let s := { s with br := a.reader }
  match a.outcome with
  | .error e => s.dropReading.raiseError e
  | .ok x => { s with result := x.setWidth 32 }.complete

/-- HUF_DEC_ONE (44_huffman.md R191). -/
def execHufDecOne (s : State) : Result :=
  runCommand (hufDecOneChecks s) State.dropReading hufDecOneBody s

/-- Operand checks of HUF_DEC_RLE (44_huffman.md R193). -/
def hufDecRleChecks (s : State) : List Check :=
  [checkSource s, checkDest s, checkOverlap s, checkFits s s.nlen, checkPayload s]

/-- The decoding that HUF_DEC_RLE and PIPE_DEC share (44_huffman.md R193, 45_pipeline.md R231), from
`DEC_VALID <- 0; BR_ACTIVE <- 0` to the end of `HuffDecodeRle`; `post` turns the ranks into the bytes
written. On an error LEN keeps its value, the reader fields those they had when it was found
(60_exceptions.md R269). -/
def State.decodePayload (post : List Byte → List Byte) (s : State) : State :=
  let s := s.dropDecoder.dropReader
  match s.openPayload with
  | .error e => s.failTables e
  | .ok (l, t, r) =>
    let job : RleJob :=
      { byteAt := s.readByte, table := t, n := s.nlen.toNat, rl := s.rlelen.toNat,
        check := s.params.rleLenCheck }
    let a := job.run s.hbits.toNat r
    let s := { s with br := a.reader }
    match a.outcome with
    | .error e => s.failTables e
    | .ok (ranks, cnt) =>
      { (s.writeBytes s.dst.toNat (post ranks)).setCanon l t with
        symcount := BitVec.ofNat 32 cnt, olen := s.nlen }.complete

/-- HUF_DEC_RLE (44_huffman.md R193): the ranks themselves are written. -/
def execHufDecRle (s : State) : Result :=
  runCommand (hufDecRleChecks s) id (State.decodePayload id) s

end Sys2Proof.Machine
end

