-- ==== Sys2Proof/Machine/Mtf.lean ====
section
/-! DEFINITION. Move-to-front and the MTF_ commands (42_mtf.md). -/

namespace Sys2Proof.Machine

/-- `MoveToFront(T, r)` (42_mtf.md R150). -/
def moveToFront (t : List Byte) (r : Nat) : List Byte := t.getD r 0#8 :: (t.take r ++ t.drop (r + 1))

/-- The encoder's loop (42_mtf.md R151) from the table `t`. -/
def mtfEncodeFrom : List Byte → List Byte → List Byte
  | _, [] => []
  | t, b :: bs =>
    let r := t.idxOf b
    BitVec.ofNat 8 r :: mtfEncodeFrom (moveToFront t r) bs

/-- `MtfEncode(S)` (42_mtf.md R151): the table starts as the identity. -/
def mtfEncode (buf : List Byte) : List Byte := mtfEncodeFrom symbols buf

/-- The decoder's loop (42_mtf.md R152) from the table `t`. -/
def mtfDecodeFrom : List Byte → List Byte → List Byte
  | _, [] => []
  | t, r :: rs => t.getD r.toNat 0#8 :: mtfDecodeFrom (moveToFront t r.toNat) rs

/-- `MtfDecode(R)` (42_mtf.md R152). -/
def mtfDecode (ranks : List Byte) : List Byte := mtfDecodeFrom symbols ranks

/-- Operand checks of MTF_ENC (42_mtf.md R153). -/
def mtfEncChecks (s : State) : List Check :=
  [checkSource s, checkDest s, checkOverlap s, checkFits s s.slen]

/-- Body of MTF_ENC (42_mtf.md R153). -/
def mtfEncBody (s : State) : State :=
  { s.writeBytes s.dst.toNat (mtfEncode s.source) with olen := s.slen }.complete

/-- MTF_ENC (42_mtf.md R153). -/
def execMtfEnc (s : State) : Result := runCommand (mtfEncChecks s) id mtfEncBody s

/-- Operand checks of MTF_DEC (42_mtf.md R154). -/
def mtfDecChecks (s : State) : List Check :=
  [checkSource s, checkDest s, checkOverlap s, checkFits s s.slen]

/-- Body of MTF_DEC (42_mtf.md R154). -/
def mtfDecBody (s : State) : State :=
  { s.writeBytes s.dst.toNat (mtfDecode s.source) with olen := s.slen }.complete

/-- MTF_DEC (42_mtf.md R154). -/
def execMtfDec (s : State) : Result := runCommand (mtfDecChecks s) id mtfDecBody s

end Sys2Proof.Machine
end

