-- ==== Sys2Proof/Machine/Rle0.lean ====
section
/-! DEFINITION. Zero-run-length coding and RLE0_ENC (43_rle0.md). -/

namespace Sys2Proof.Machine

/-- The pair `(0, r - 1)` that stands for a run of `r` zeros (43_rle0.md R165); no pair for no run. -/
def runPair : Nat → List Byte
  | 0 => []
  | r + 1 => [0#8, BitVec.ofNat 8 r]

/-- The encoder's loop (43_rle0.md R165), `run` zeros of the current pair having been read: a pair takes
at most 256 zeros, greedily. -/
def rle0EncodeFrom : Nat → List Byte → List Byte
  | run, [] => runPair run
  | run, a :: as =>
    if a ≠ 0#8 then runPair run ++ a :: rle0EncodeFrom 0 as
    else if run < 256 then rle0EncodeFrom (run + 1) as
    else runPair run ++ rle0EncodeFrom 1 as

/-- `Rle0Encode(A)` (43_rle0.md R165). -/
def rle0Encode (buf : List Byte) : List Byte := rle0EncodeFrom 0 buf

/-- `Rle0Decode(E, n)` (43_rle0.md R167), the pure counterpart of the expander: the symbols of `E` are
expanded while fewer than `n` bytes (here: `n` still to produce) exist. The answer is the bytes and what
is left of `E`; `none` when `E` runs out first or a pair overflows `n`. -/
def rle0Decode : List Byte → Nat → Option (List Byte × List Byte)
  | e, 0 => some ([], e)
  | [], _ + 1 => none
  | s :: e, n + 1 =>
    if s ≠ 0#8 then (rle0Decode e n).map fun r => (s :: r.1, r.2)
    else match e with
      | [] => none
      | k :: e' =>
        if n + 1 < k.toNat + 1 then none
        else (rle0Decode e' (n - k.toNat)).map fun r => (List.replicate (k.toNat + 1) 0#8 ++ r.1, r.2)

/-- Operand checks of RLE0_ENC (43_rle0.md R166). -/
def rle0EncChecks (s : State) : List Check := [checkSource s, checkDest s, checkOverlap s]

/-- Body of RLE0_ENC (43_rle0.md R166): the capacity check is a body check, so its failure leaves the
destination with any value (60_exceptions.md R269). -/
def rle0EncBody (s : State) : State :=
  let e := rle0Encode s.source
  if s.dcap.toNat < e.length then s.scrambleDest.raiseError { kind := .dstOverflow, info := e.length }
  else
    { s.writeBytes s.dst.toNat e with
      olen := BitVec.ofNat 32 e.length
      rlelen := BitVec.ofNat 32 e.length }.complete

/-- RLE0_ENC (43_rle0.md R166). -/
def execRle0Enc (s : State) : Result := runCommand (rle0EncChecks s) id rle0EncBody s

end Sys2Proof.Machine
end

