-- ==== Sys2Proof/Machine/Pipeline.lean ====
section
/-! DEFINITION. The whole-pipeline commands PIPE_ENC and PIPE_DEC (45_pipeline.md). -/

namespace Sys2Proof.Machine

/-- The stages of PIPE_ENC before the Huffman coder (45_pipeline.md R230): `E` of the input. -/
def pipeFront (buf : List Byte) : List Byte := rle0Encode (mtfEncode (bwtForward buf).1)

/-- Operand checks of PIPE_ENC (45_pipeline.md R230). -/
def pipeEncChecks (s : State) : List Check :=
  [checkSource s, checkBound s s.slen, checkDest s, checkOverlap s]

/-- Body of PIPE_ENC (45_pipeline.md R230). -/
def pipeEncBody (s : State) : State :=
  let s := s.dropDecoder.dropWriter
  let e := pipeFront s.source
  match fitPayload s.params.maxCodeLen s.dcap.toNat e with
  | .error err => s.failTables err
  | .ok p =>
    { s.storePayload p with
      pi := BitVec.ofNat 32 (bwtForward s.source).2
      rlelen := BitVec.ofNat 32 e.length }.complete

/-- PIPE_ENC (45_pipeline.md R230). -/
def execPipeEnc (s : State) : Result := runCommand (pipeEncChecks s) id pipeEncBody s

/-- Operand checks of PIPE_DEC (45_pipeline.md R231). -/
def pipeDecChecks (s : State) : List Check :=
  [checkSource s, checkBound s s.nlen, checkDest s, checkOverlap s, checkFits s s.nlen,
   checkPi s s.nlen, checkPayload s]

/-- PIPE_DEC (45_pipeline.md R231): the ranks go through the MTF and BWT inverses. -/
def execPipeDec (s : State) : Result :=
  runCommand (pipeDecChecks s) id
    (State.decodePayload fun ranks => bwtInverse (mtfDecode ranks) s.pi.toNat) s

end Sys2Proof.Machine
end

