-- ==== Sys2Proof/Machine/Dispatch.lean ====
section
/-! DEFINITION. One arm per command. -/

namespace Sys2Proof.Machine

def exec (i : Instr) (s : State) : Host.Outcome State Fault Refusal :=
  match i with
  -- 46_control.md
  | .nop => Sys2Proof.Machine.execNop s
  -- 40_bitio.md
  | .bwInit => Sys2Proof.Machine.execBwInit s
  | .bwWrite nbits => Sys2Proof.Machine.execBwWrite nbits s
  | .bwFinish => Sys2Proof.Machine.execBwFinish s
  | .brInit => Sys2Proof.Machine.execBrInit s
  | .brReadbit => Sys2Proof.Machine.execBrReadbit s
  | .brPeek k => Sys2Proof.Machine.execBrPeek k s
  | .brAssert => Sys2Proof.Machine.execBrAssert s
  -- 41_bwt.md
  | .bwtFwd => Sys2Proof.Machine.execBwtFwd s
  | .bwtInv => Sys2Proof.Machine.execBwtInv s
  -- 42_mtf.md
  | .mtfEnc => Sys2Proof.Machine.execMtfEnc s
  | .mtfDec => Sys2Proof.Machine.execMtfDec s
  -- 43_rle0.md
  | .rle0Enc => Sys2Proof.Machine.execRle0Enc s
  -- 44_huffman.md
  | .hufHist => Sys2Proof.Machine.execHufHist s
  | .hufBuild => Sys2Proof.Machine.execHufBuild s
  | .hufCanon => Sys2Proof.Machine.execHufCanon s
  | .hufEnc => Sys2Proof.Machine.execHufEnc s
  | .hufStartDec => Sys2Proof.Machine.execHufStartDec s
  | .hufDecOne => Sys2Proof.Machine.execHufDecOne s
  | .hufDecRle => Sys2Proof.Machine.execHufDecRle s
  -- 45_pipeline.md
  | .pipeEnc => Sys2Proof.Machine.execPipeEnc s
  | .pipeDec => Sys2Proof.Machine.execPipeDec s

end Sys2Proof.Machine
end

