-- ==== Sys2Proof/Machine/Reset.lean ====
section
/-! DEFINITION. Hardware reset, power-on and soft reset (70_reset_and_hazards.md R300 to R303). -/

namespace Sys2Proof.Machine

/-- Every piece of the block's state at its reset value, MEM kept (70_reset_and_hazards.md R303). The
host's own fields (what it has still to do, what it got back) and the model's counters are no part of
the block and stay. -/
def State.toReset (s : State) : State :=
  { State.resetValues s.params s.mem with
    pending := s.pending, replies := s.replies, draws := s.draws, epoch := s.epoch }

/-- The region of MEM a command may write (20_memory.md R75): base and size. Commands without a
destination write none. -/
def writeRegion (i : Instr) (s : State) : Nat × Nat :=
  match i with
  | .bwWrite _ | .bwFinish => (s.bw.base.toNat, s.bw.cap.toNat)
  | .bwtFwd | .bwtInv | .mtfEnc | .mtfDec | .rle0Enc | .hufEnc | .hufDecRle | .pipeEnc | .pipeDec =>
    (s.dst.toNat, s.dcap.toNat)
  | .nop | .bwInit | .brInit | .brReadbit | .brPeek _ | .brAssert | .hufHist | .hufBuild | .hufCanon
  | .hufStartDec | .hufDecOne => (0, 0)

/-- A command in flight is abandoned (70_reset_and_hazards.md R302): the bytes it may write hold any
value, so far as they exist in MEM. An ILLEGAL word writes none. -/
def State.abandon (s : State) : State :=
  match decode s.cur with
  | .error _ => s
  | .ok i =>
    let r := writeRegion i s
    s.scramble r.1 (min r.2 (s.params.memSize - r.1))

/-- Assertion of the reset input with the power on (70_reset_and_hazards.md R302). -/
def State.assertReset (s : State) : State :=
  { (if s.busy then s.abandon else s).toReset with inReset := true }

/-- Release of the reset input (70_reset_and_hazards.md R300, R301). -/
def State.releaseReset (s : State) : State := { s with inReset := false }

/-- Power comes back with the reset input asserted: MEM holds any value, each byte a new free draw
(70_reset_and_hazards.md R300, 60_exceptions.md R281). -/
def State.powerOn (s : State) : State :=
  { s.toReset with mem := [], epoch := s.epoch + 1, inReset := true }

end Sys2Proof.Machine
end

