-- ==== Sys2Proof/Machine/HostBus.lean ====
section
/-! DEFINITION. The host's accesses to the register window and the MEM aperture (20_memory.md R63 to R69,
46_control.md R246 to R253). -/

namespace Sys2Proof.Machine

/-- The registers of 10_state.md R21 to R41, in the order of their offsets. -/
inductive Reg where
  | id | ctrl | status | errcode | errinfo | cmd | src | slen | dst | dcap | pi | nlen | hbits
  | rlelen | olen | bwcode | result | peekn | symcount | engstate | bwbits | brpos | brlimit
  | param0 | param1 | param2
deriving DecidableEq, Repr

/-- The offset of a register (20_memory.md R63). -/
def Reg.offset : Reg → Nat
  | .id => 0x000
  | .ctrl => 0x004
  | .status => 0x008
  | .errcode => 0x00C
  | .errinfo => 0x010
  | .cmd => 0x014
  | .src => 0x018
  | .slen => 0x01C
  | .dst => 0x020
  | .dcap => 0x024
  | .pi => 0x028
  | .nlen => 0x02C
  | .hbits => 0x030
  | .rlelen => 0x034
  | .olen => 0x038
  | .bwcode => 0x03C
  | .result => 0x040
  | .peekn => 0x044
  | .symcount => 0x048
  | .engstate => 0x04C
  | .bwbits => 0x050
  | .brpos => 0x054
  | .brlimit => 0x058
  | .param0 => 0x05C
  | .param1 => 0x060
  | .param2 => 0x064

/-- Every register, by ascending offset. -/
def Reg.all : List Reg :=
  [.id, .ctrl, .status, .errcode, .errinfo, .cmd, .src, .slen, .dst, .dcap, .pi, .nlen, .hbits,
   .rlelen, .olen, .bwcode, .result, .peekn, .symcount, .engstate, .bwbits, .brpos, .brlimit,
   .param0, .param1, .param2]

/-- The registers whose reads return their value while the block is busy (20_memory.md R69). -/
def Reg.readableBusy : Reg → Bool
  | .id | .ctrl | .status | .param0 | .param1 | .param2 => true
  | .errcode | .errinfo | .cmd | .src | .slen | .dst | .dcap | .pi | .nlen | .hbits | .rlelen | .olen
  | .bwcode | .result | .peekn | .symcount | .engstate | .bwbits | .brpos | .brlimit => false

/-- PARAM0 (10_state.md R41). -/
def param0Word (p : Params) : Word :=
  let chk := match p.rleLenCheck with
    | .none => 0
    | .bound => 1
    | .exact => 2
  BitVec.ofNat 32
    (p.maxCodeLen % 256 + 2 ^ 8 * (p.bwMaxBits % 256) + 2 ^ 16 * (p.peekMax % 256) + 2 ^ 24 * chk)

/-- What a register reads as while the block is idle (10_state.md R21 to R41). -/
def State.regValue (s : State) : Reg → Word
  | .id => idValue
  | .ctrl => s.ctrlWord
  | .status => s.statusWord
  | .errcode => s.errcode.setWidth 32
  | .errinfo => s.errinfo
  | .cmd => s.cur
  | .src => s.src
  | .slen => s.slen
  | .dst => s.dst
  | .dcap => s.dcap
  | .pi => s.pi
  | .nlen => s.nlen
  | .hbits => s.hbits
  | .rlelen => s.rlelen
  | .olen => s.olen
  | .bwcode => s.bwcode
  | .result => s.result
  | .peekn => s.peekn.setWidth 32
  | .symcount => s.symcount
  | .engstate => s.engStateWord
  | .bwbits => s.bw.bits
  | .brpos => s.br.pos
  | .brlimit => BitVec.ofNat 32 (8 * s.br.bytes.toNat)
  | .param0 => param0Word s.params
  | .param1 => BitVec.ofNat 32 s.params.memSize
  | .param2 => BitVec.ofNat 32 s.params.nMax

/-- `CODE[x]` (10_state.md R45). -/
def State.codeValue (s : State) (x : Byte) : Word :=
  if s.canonValid && 0 < (entry s.len x).toNat then BitVec.ofNat 32 (entry s.canon.code x) else 0#32

/-- A soft reset (70_reset_and_hazards.md R303). -/
def State.softReset (s : State) : State := s.toReset

/-- Host write of `v` to CTRL (46_control.md R247). -/
def State.writeCtrl (v : Word) (s : State) : State :=
  if v.getLsbD 1 && !s.busy then s.softReset
  else
    let s := { s with ie := v.getLsbD 0 }
    if v.getLsbD 1 then s.overrun else s

/-- Host write of `w` to CMD (46_control.md R246). -/
def State.writeCmd (w : Word) (s : State) : State := if s.busy then s.overrun else s.accept w

/-- A write that takes effect while idle and is dropped with OVR while busy (20_memory.md R69). -/
def State.whileIdle (f : State → State) (s : State) : State := if s.busy then s.overrun else f s

/-- Host write of `v` to a register (46_control.md R246 to R249). Read-only registers ignore it and
never set OVR. -/
def State.writeReg (r : Reg) (v : Word) (s : State) : State :=
  match r with
  | .ctrl => s.writeCtrl v
  | .status => s.clearStatus v
  | .cmd => s.writeCmd v
  | .src => s.whileIdle fun s => { s with src := v }
  | .slen => s.whileIdle fun s => { s with slen := v }
  | .dst => s.whileIdle fun s => { s with dst := v }
  | .dcap => s.whileIdle fun s => { s with dcap := v }
  | .pi => s.whileIdle fun s => { s with pi := v }
  | .nlen => s.whileIdle fun s => { s with nlen := v }
  | .hbits => s.whileIdle fun s => { s with hbits := v }
  | .rlelen => s.whileIdle fun s => { s with rlelen := v }
  | .bwcode => s.whileIdle fun s => { s with bwcode := v }
  | .id | .errcode | .errinfo | .olen | .result | .peekn | .symcount | .engstate | .bwbits | .brpos
  | .brlimit | .param0 | .param1 | .param2 => s

/-- Host write of `v` to `FREQ[x]` (46_control.md R250). -/
def State.writeFreq (x : Byte) (v : Word) (s : State) : State :=
  s.whileIdle fun s => { s with freq := setEntry s.freq x v }

/-- Host write of `v` to `LEN[x]` (46_control.md R251): the table and the decoder are invalidated even
when the value is the old one. -/
def State.writeLen (x : Byte) (v : Word) (s : State) : State :=
  s.whileIdle fun s =>
    { s with len := setEntry s.len x (v.setWidth 8), canonValid := false, decValid := false }

/-! ## The address map -/

/-- What stands at an offset of the window (20_memory.md R63). -/
inductive Target where
  | reg (r : Reg)
  | freq (x : Byte)
  | len (x : Byte)
  | code (x : Byte)
  | mem (a : Nat)
  | reserved
deriving DecidableEq, Repr

/-- The bytes of a MEM access of a width; no MEM access is wider than 32 bits (20_memory.md R64). -/
def Width.bytes : Width → Nat
  | .byte => 1
  | .half => 2
  | .word => 4
  | .wide => 8

/-- The register and table area below 0x1_0000 (20_memory.md R63), at a multiple of 4. -/
def areaTarget (offset : Nat) : Target :=
  match Reg.all[offset / 4]? with
  | some r => .reg r
  | none =>
    if 0x400 ≤ offset ∧ offset < 0x800 then .freq (BitVec.ofNat 8 ((offset - 0x400) / 4))
    else if 0x800 ≤ offset ∧ offset < 0xC00 then .len (BitVec.ofNat 8 ((offset - 0x800) / 4))
    else if 0xC00 ≤ offset ∧ offset < 0x1000 then .code (BitVec.ofNat 8 ((offset - 0xC00) / 4))
    else .reserved

/-- Where an access goes; `none` is a bus error (20_memory.md R63, R64, with 90_conflicts.md C10). -/
def busTarget (p : Params) (offset : Nat) (width : Width) : Option Target :=
  if offset < 0x10000 then
    if width = .word ∧ offset % 4 = 0 then some (areaTarget offset) else none
  else if offset - 0x10000 < p.memSize then
    if width ≠ .wide ∧ offset % width.bytes = 0 then some (.mem (offset - 0x10000)) else none
  else if width = .word ∧ offset % 4 = 0 then some .reserved
  else none

/-- The little-endian value of `n` bytes (20_memory.md R65). -/
def littleEndian : List Byte → Nat
  | [] => 0
  | b :: bs => b.toNat + 256 * littleEndian bs

/-- The `n` low bytes of a bus value, the least significant first (20_memory.md R65). -/
def busBytes (n : Nat) (v : Word) : List Byte :=
  (List.range n).map fun i => v.extractLsb' (8 * i) 8

/-- A reply is recorded for the host. -/
def State.reply (b : BusReply) (s : State) : State := { s with replies := s.replies ++ [b] }

/-- A read while busy of anything but the registers of R69 (20_memory.md R69): any value, a fresh draw
for each read, as wide as the access. -/
def State.freeRead (width : Width) (s : State) : State :=
  ({ s with draws := s.draws + 1 }).reply
    (.data (BitVec.ofNat 32 ((Config.freeWord s.draws).toNat % 2 ^ (8 * width.bytes))))

/-- A read of a place that holds a value while idle and any value while busy. -/
def State.readPlace (width : Width) (v : Word) (s : State) : State :=
  if s.busy then s.freeRead width else s.reply (.data v)

/-- A host read (46_control.md R252, R253; 20_memory.md R67, R69). -/
def State.busRead (offset : Nat) (width : Width) (s : State) : State :=
  match busTarget s.params offset width with
  | none => s.reply .busError
  | some (.reg r) =>
    if r.readableBusy then s.reply (.data (s.regValue r)) else s.readPlace width (s.regValue r)
  | some (.freq x) => s.readPlace width (entry s.freq x)
  | some (.len x) => s.readPlace width ((entry s.len x).setWidth 32)
  | some (.code x) => s.readPlace width (s.codeValue x)
  | some (.mem a) =>
    s.readPlace width (BitVec.ofNat 32 (littleEndian (s.readBytes a width.bytes)))
  | some .reserved => s.reply (.data 0#32)

/-- A host write (46_control.md R246 to R253; 20_memory.md R67, R69). CODE and reserved offsets ignore
it. -/
def State.busWrite (offset : Nat) (width : Width) (v : Word) (s : State) : State :=
  match busTarget s.params offset width with
  | none => s.reply .busError
  | some (.reg r) => (s.writeReg r v).reply .written
  | some (.freq x) => (s.writeFreq x v).reply .written
  | some (.len x) => (s.writeLen x v).reply .written
  | some (.code _) => s.reply .written
  | some (.mem a) => (s.whileIdle (State.writeBytes a (busBytes width.bytes v))).reply .written
  | some .reserved => s.reply .written

end Sys2Proof.Machine
end

