-- ==== Sys2Proof/Machine/Engine.lean ====
section
/-! DEFINITION. What a step calls: the engine step, the host's waiting, and a step while the reset input
is asserted. -/

namespace Sys2Proof.Machine

/-- The engine step (30_encoding.md R86): the accepted word is decoded and performed. -/
def engineStep (s : State) : Result :=
  match decode s.cur with
  | .ok i => exec i s
  | .error _ => .next s.rejectWord

/-- A step of the host's `WAIT` (30_encoding.md R92), `rest` being what it does afterwards: one RD STATUS.
The wait ends with the read that finds BUSY = 0; once `reads` of them have found BUSY = 1 the engine
steps. -/
def pollStep (reads : Nat) (rest : List HostAction) (s : State) : Result :=
  if s.busy then
    match reads with
    | 0 => engineStep s
    | k + 1 => .next ({ s with pending := .poll k :: rest }.busRead Reg.status.offset .word)
  else .next ({ s with pending := rest }.busRead Reg.status.offset .word)

/-- A step of the host's waiting for the IRQ output (30_encoding.md R92): over once it is high; until then
a command in flight goes on, and without one nothing happens. -/
def waitIrqStep (rest : List HostAction) (s : State) : Result :=
  if s.irq then .next { s with pending := rest } else if s.busy then engineStep s else .next s

/-- A step while the reset input is asserted (70_reset_and_hazards.md R300): the engine takes none and
the host has no move but to change the input or the power. With nothing pending the block stays held. -/
def heldStep (s : State) : Result :=
  match s.pending with
  | [] => .next s
  | .resetRelease :: rest => .next { s with pending := rest }.releaseReset
  | .resetAssert :: rest => .next { s with pending := rest }
  | .powerOn :: rest => .next { s with pending := rest }.powerOn
  | .read _ _ :: _ => .fault .heldInReset
  | .write _ _ _ :: _ => .fault .heldInReset
  | .wait :: _ => .fault .heldInReset
  | .poll _ :: _ => .fault .heldInReset
  | .waitIrq :: _ => .fault .heldInReset

end Sys2Proof.Machine
end

