-- ==== Sys2Proof/Machine/Step.lean ====
section
/-! DEFINITION. One step of the machine: an action of the host, or the engine step. -/

namespace Sys2Proof.Machine

/-- One step. The host's next action is performed, busy or not; where it waits or has nothing left to do,
the engine steps if BUSY = 1, and otherwise the wait ends, or the block stays idle
(70_reset_and_hazards.md R301). Every interleaving of host actions and engine steps (20_memory.md R70,
70_reset_and_hazards.md R313) is the run of some list of host actions. -/
def step (s : State) : Host.Outcome State Fault Refusal :=
  if s.inReset then heldStep s
  else match s.pending with
    | [] => if s.busy then engineStep s else .next s
    | .wait :: rest => if s.busy then engineStep s else .next { s with pending := rest }
    | .poll reads :: rest => pollStep reads rest s
    | .waitIrq :: rest => waitIrqStep rest s
    | .read offset width :: rest => .next ({ s with pending := rest }.busRead offset width)
    | .write offset width v :: rest => .next ({ s with pending := rest }.busWrite offset width v)
    | .resetAssert :: rest => .next { s with pending := rest }.assertReset
    | .resetRelease :: rest => .next { s with pending := rest }
    | .powerOn :: rest => .next { s with pending := rest }.powerOn

/-- The command word that is the low `nbits` bits of `w`, every bit above them 0, stands accepted in CUR
with BUSY = 1 (46_control.md R246), and the host waits: the very next step is the engine's, over exactly
that word. -/
def State.withFetchWord (s : State) (nbits w : Nat) : State :=
  { s.accept (BitVec.ofNat 32 (w % 2 ^ nbits)) with
    inReset := false, pending := .wait :: s.pending }

end Sys2Proof.Machine
end

