-- ==== Sys2Proof/Machine/Script.lean ====
section
/-! DEFINITION. Host scripts (30_encoding.md R91, R92): statements as lists of host actions. -/

namespace Sys2Proof.Machine

/-- What a script names in `WR` and `RD` (30_encoding.md R91): a register of 10_state.md, or an entry of
a per-symbol table. -/
inductive Named where
  | reg (r : Reg)
  | freq (x : Byte)
  | len (x : Byte)
  | code (x : Byte)
deriving DecidableEq, Repr

/-- The offset of a named register or entry (20_memory.md R63). -/
def Named.offset : Named → Nat
  | .reg r => r.offset
  | .freq x => 0x400 + 4 * x.toNat
  | .len x => 0x800 + 4 * x.toNat
  | .code x => 0xC00 + 4 * x.toNat

/-- `WR <reg>, <value>` (30_encoding.md R91): one 32-bit write. -/
def scriptWR (r : Named) (v : Word) : List HostAction := [.write r.offset .word v]

/-- `WM <offset>, <b0> <b1> ...` (30_encoding.md R91): 8-bit writes. -/
def scriptWM : Nat → List Byte → List HostAction
  | _, [] => []
  | a, b :: bs => .write (0x10000 + a) .byte (b.setWidth 32) :: scriptWM (a + 1) bs

/-- `RD <reg>` (30_encoding.md R91): one read, of 32 bits, the only width the register area accepts
(20_memory.md R64). -/
def scriptRD (r : Named) : List HostAction := [.read r.offset .word]

/-- `RM <offset>, <count>` (30_encoding.md R91: "host reads"). DESIGN CHOICE (notes/assumptions/17.md): R91
gives no width and no unit of the count; here they are `count` 8-bit reads, one for each byte. -/
def scriptRM (a count : Nat) : List HostAction :=
  (List.range count).map fun i => .read (0x10000 + a + i) .byte

/-- `WAIT` (30_encoding.md R92): RD STATUS until BUSY reads 0, `reads` of the reads while the command is in
flight. -/
def scriptWAIT (reads : Nat) : List HostAction := [.poll reads]

/-- Waiting for the IRQ output instead of `WAIT`, with CTRL.IE = 1 (30_encoding.md R92). -/
def scriptWAITIRQ : List HostAction := [.waitIrq]

/-- The value that `<MNEMONIC> [imm]` writes to CMD, `(imm << 8) | OPC` (30_encoding.md R92). DESIGN CHOICE
(notes/assumptions/18.md): R92 gives no bound for `imm`; above 255 the formula is taken as it stands, so that
the word has bits of RSV set, and above `2^24 - 1` it is cut to the 32 bits of the write. -/
def scriptWord (i : Instr) : Word := BitVec.ofNat 32 (i.imm8 <<< 8 ||| i.opcode.toNat)

/-- `<MNEMONIC> [imm]` (30_encoding.md R92): the command word, then `WAIT`. -/
def scriptCommand (reads : Nat) (i : Instr) : List HostAction :=
  scriptWR (.reg .cmd) (scriptWord i) ++ scriptWAIT reads

/-- `CLEAR` (30_encoding.md R92). -/
def scriptCLEAR : List HostAction := scriptWR (.reg .status) 0xE#32

/-- `REGION <src>, <slen>, <dst>, <dcap>` (30_encoding.md R92). -/
def scriptREGION (src slen dst dcap : Word) : List HostAction :=
  scriptWR (.reg .src) src ++ scriptWR (.reg .slen) slen ++ scriptWR (.reg .dst) dst
    ++ scriptWR (.reg .dcap) dcap

/-- `COMPRESS <src>, <slen>, <dst>, <dcap>` (30_encoding.md R92). -/
def scriptCOMPRESS (reads : Nat) (src slen dst dcap : Word) : List HostAction :=
  scriptREGION src slen dst dcap ++ scriptCommand reads .pipeEnc

/-- `DECOMPRESS <src>, <slen>, <dst>, <dcap>, <n>, <pi>, <hbits>, <rlelen>` (30_encoding.md R92). -/
def scriptDECOMPRESS (reads : Nat) (src slen dst dcap n pi hbits rlelen : Word) : List HostAction :=
  scriptREGION src slen dst dcap ++ scriptWR (.reg .nlen) n ++ scriptWR (.reg .pi) pi
    ++ scriptWR (.reg .hbits) hbits ++ scriptWR (.reg .rlelen) rlelen ++ scriptCommand reads .pipeDec

/-- The host starts on a script after what it has still to do. -/
def State.run (script : List HostAction) (s : State) : State :=
  { s with pending := s.pending ++ script }

end Sys2Proof.Machine
end

