-- ==== Sys2Proof/Safety.lean ====
section
/-! DEFINITION. What claims rest on: the invariant of the block's state, the two phases of a command, the
symbols of a stream, and the end of a run. -/

namespace Sys2Proof.Machine

/-- ERRCODE holds 0 or the code of an error (60_exceptions.md R265: "No other value is ever
written"). -/
def legalErrcode (c : Byte) : Prop := c = 0#8 ∨ ∃ k : ErrKind, c = k.code

/-- The BitWriter's fields (10_state.md R46): the region is inside MEM, the bits fit in it, and the
partial byte has zeros below its bits. It holds of an inactive writer too. -/
structure BitWriter.Ok (p : Params) (w : BitWriter) : Prop where
  region : w.base.toNat + w.cap.toNat ≤ p.memSize
  fits : ceil8 w.bits.toNat ≤ w.cap.toNat
  acc : w.acc.toNat % 2 ^ (8 - w.bits.toNat % 8) = 0

/-- The bits a BitWriter has taken (10_state.md R46): those of the complete bytes in MEM, then those in
the high-order positions of the partial byte. -/
def writerBits (s : State) : List Bool :=
  (List.range (8 * (s.bw.bits.toNat / 8))).map (bitAt s.readByte s.bw.base.toNat)
    ++ (List.range (s.bw.bits.toNat % 8)).map fun t => s.bw.acc.getLsbD (7 - t)

/-- The BitReader's fields (10_state.md R47): the buffer is inside MEM, `0 <= BR_POS <= 8 BR_BYTES`. It
holds of an inactive reader too. -/
structure BitReader.Ok (p : Params) (r : BitReader) : Prop where
  region : r.base.toNat + r.bytes.toNat ≤ p.memSize
  pos : r.pos.toNat ≤ 8 * r.bytes.toNat

/-- The invariant of the block's state, from reset on and in every step. -/
structure State.Inv (s : State) : Prop where
  /-- The parameters are legal (00_scope.md R8). -/
  params : s.params.legal = true
  /-- MEM is in canonical form and inside its size (20_memory.md R60). -/
  memForm : s.mem.wf = true
  memSize : ∀ c ∈ s.mem, c.1 < s.params.memSize
  /-- At most one of DONE and ERR (10_state.md R23). -/
  flags : ¬(s.done = true ∧ s.err = true)
  /-- The report of the last command is cleared while one runs (46_control.md R246). -/
  busy : s.busy = true → s.done = false ∧ s.err = false ∧ s.errcode = 0#8 ∧ s.errinfo = 0#32
  /-- 60_exceptions.md R265. -/
  errcode : legalErrcode s.errcode
  /-- ERRINFO is 0 when the last command succeeded (10_state.md R25). -/
  errinfo : s.errcode = 0#8 → s.errinfo = 0#32
  /-- A decoder has a table and a reader (10_state.md R49). -/
  decoder : s.decValid = true → s.canonValid = true ∧ s.br.active = true
  /-- A valid CANON is the canonical table of LEN (10_state.md R44). -/
  canon : s.canonValid = true → canonTable s.params.maxCodeLen s.len = .ok (s.len, s.canon)
  /-- 10_state.md R46. -/
  writer : s.bw.Ok s.params
  /-- 10_state.md R47. -/
  reader : s.br.Ok s.params
  /-- No command is in flight while the reset input is asserted (70_reset_and_hazards.md R302). -/
  held : s.inReset = true → s.busy = false

/-- The operand checks of a command (30_encoding.md R86, phase 1). -/
def operandChecks : Instr → State → List Check
  | .nop, _ => []
  | .bwInit, s => bwInitChecks s
  | .bwWrite n, s => bwWriteChecks n s
  | .bwFinish, s => bwFinishChecks s
  | .brInit, s => brInitChecks s
  | .brReadbit, s => brReadbitChecks s
  | .brPeek k, s => brPeekChecks k s
  | .brAssert, s => brAssertChecks s
  | .bwtFwd, s => bwtFwdChecks s
  | .bwtInv, s => bwtInvChecks s
  | .mtfEnc, s => mtfEncChecks s
  | .mtfDec, s => mtfDecChecks s
  | .rle0Enc, s => rle0EncChecks s
  | .hufHist, s => hufHistChecks s
  | .hufBuild, _ => []
  | .hufCanon, _ => []
  | .hufEnc, s => hufEncChecks s
  | .hufStartDec, s => hufStartDecChecks s
  | .hufDecOne, s => hufDecOneChecks s
  | .hufDecRle, s => hufDecRleChecks s
  | .pipeEnc, s => pipeEncChecks s
  | .pipeDec, s => pipeDecChecks s

/-- The effects of a failed operand check of a command (10_state.md R53): none but for the stepwise
commands. -/
def failEffects : Instr → State → State
  | .bwWrite _ | .bwFinish => State.dropWriter
  | .brReadbit | .brPeek _ | .brAssert | .hufDecOne => State.dropReading
  | .nop | .bwInit | .brInit | .bwtFwd | .bwtInv | .mtfEnc | .mtfDec | .rle0Enc | .hufHist | .hufBuild
  | .hufCanon | .hufEnc | .hufStartDec | .hufDecRle | .pipeEnc | .pipeDec => id

/-- The body of a command (30_encoding.md R86, phase 2). -/
def commandBody : Instr → State → State
  | .nop => State.complete
  | .bwInit => bwInitBody
  | .bwWrite n => bwWriteBody n
  | .bwFinish => bwFinishBody
  | .brInit => brInitBody
  | .brReadbit => brReadbitBody
  | .brPeek k => brPeekBody k
  | .brAssert => brAssertBody
  | .bwtFwd => bwtFwdBody
  | .bwtInv => bwtInvBody
  | .mtfEnc => mtfEncBody
  | .mtfDec => mtfDecBody
  | .rle0Enc => rle0EncBody
  | .hufHist => hufHistBody
  | .hufBuild => hufBuildBody
  | .hufCanon => hufCanonBody
  | .hufEnc => hufEncBody
  | .hufStartDec => hufStartDecBody
  | .hufDecOne => hufDecOneBody
  | .hufDecRle => State.decodePayload id
  | .pipeEnc => pipeEncBody
  | .pipeDec => fun s => s.decodePayload fun ranks => bwtInverse (mtfDecode ranks) s.pi.toNat

/-- The symbols `e` expand to `made` ranks, each marker 0 with its count (43_rle0.md R167). -/
inductive Expands : List Byte → Nat → Prop
  | nil : Expands [] 0
  | literal {x : Byte} {e : List Byte} {made : Nat} (marker : x ≠ 0#8) (more : Expands e made) :
      Expands (x :: e) (made + 1)
  | pair {k : Byte} {e : List Byte} {made : Nat} (more : Expands e made) :
      Expands (0#8 :: k :: e) (made + k.toNat + 1)

/-- After the symbols `e` the decode loop wants one more: fewer than `n` ranks exist, or a marker has no
count yet (44_huffman.md R192). -/
def WantsSymbol (n : Nat) (e : List Byte) : Prop :=
  ∃ e' made, Expands e' made ∧ made < n ∧ (e = e' ∨ e = e' ++ [0#8])

/-- The end of a run (46_control.md R255): the host has nothing left to do and no command is in
flight. -/
def State.finished (s : State) : Prop := s.pending = [] ∧ s.busy = false

end Sys2Proof.Machine
end

