-- ==== Sys2Proof/Certificates/Slice0/Obligations.lean ====
section
/-! DEFINITION. The statements for the provers. The helpers above them name what the rules of spec/
speak of; nothing here is proved. -/

open Sys2Proof Sys2Proof.Machine

namespace Sys2Proof.Machine

/-! ## What the statements speak of -/

/-- `InRange(SRC, SLEN)` (20_memory.md R61). -/
abbrev SourceInMem (s : State) : Prop := s.src.toNat + s.slen.toNat ≤ s.params.memSize

/-- `InRange(DST, DCAP)` (20_memory.md R61). -/
abbrev DestInMem (s : State) : Prop := s.dst.toNat + s.dcap.toNat ≤ s.params.memSize

/-- The source and the destination region do not overlap (20_memory.md R62). -/
abbrev RegionsApart (s : State) : Prop :=
  s.slen.toNat = 0 ∨ s.dcap.toNat = 0 ∨ s.dst.toNat + s.dcap.toNat ≤ s.src.toNat
    ∨ s.src.toNat + s.slen.toNat ≤ s.dst.toNat

/-- From `s` to `t` the bytes `bs` came to stand at `a`, and every other byte of MEM reads as before. -/
def Wrote (s t : State) (a : Nat) (bs : List Byte) : Prop :=
  (∀ i, (h : i < bs.length) → t.readByte (a + i) = bs[i])
    ∧ ∀ x, x < a ∨ a + bs.length ≤ x → t.readByte x = s.readByte x

/-- Every byte of MEM reads as before. -/
def SameMem (s t : State) : Prop := ∀ x, t.readByte x = s.readByte x

/-- The report of an error: ERRCODE, ERRINFO, ERR, and BUSY = 0 (60_exceptions.md R268). -/
def State.reported (s : State) (code : Byte) (info : Nat) : State :=
  { s with errcode := code, errinfo := BitVec.ofNat 32 info, err := true, busy := false }

/-- BW_WRITE commands one after another, each with its own BWCODE and nbits. -/
def writeAll : List (Word × Nat) → State → Result
  | [], s => .next s
  | (code, nbits) :: ws, s =>
    match exec (.bwWrite nbits) { s with bwcode := code } with
    | .next t => writeAll ws t
    | r => r

/-- The bits those commands append (40_bitio.md R105). -/
def writtenBits (ws : List (Word × Nat)) : List Bool := ws.flatMap fun w => codeBits w.1.toNat w.2

/-- `i ≺ j` for the rotations of a buffer, as 41_bwt.md R130 words it: the first differing position
decides, and where all positions agree the smaller offset comes first. -/
def RotLess (buf : List Byte) (i j : Nat) : Prop :=
  ∃ k, k ≤ buf.length
    ∧ (∀ t, t < k → buf.getD ((i + t) % buf.length) 0#8 = buf.getD ((j + t) % buf.length) 0#8)
    ∧ ((k < buf.length
          ∧ (buf.getD ((i + k) % buf.length) 0#8).toNat < (buf.getD ((j + k) % buf.length) 0#8).toNat)
        ∨ (k = buf.length ∧ i < j))

/-- The Kraft sum of a length table, times `2^m` (00_scope.md R15, "Kraft sum"). -/
def kraft (m : Nat) (len : Table Byte) : Nat :=
  (symbols.map fun x => if entry len x = 0#8 then 0 else 2 ^ (m - (entry len x).toNat)).sum

/-- The bitstream of `r` from its position on begins with `bits`, none of them past the end. -/
def StreamStarts (byteAt : Nat → Byte) (r : BitReader) (bits : List Bool) : Prop :=
  r.pos.toNat + bits.length ≤ 8 * r.bytes.toNat
    ∧ ∀ i, (h : i < bits.length) → bitAt byteAt r.base.toNat (r.pos.toNat + i) = bits[i]

/-- Phase 2 of the command begins: its operand checks pass (10_state.md R53). -/
def PassesChecks (i : Instr) (s : State) : Prop := ∀ c ∈ operandChecks i s, c.fails = false

/-- The commands that build or read a canonical table (10_state.md R53, `CANON_VALID <- 0` at an error),
HUF_BUILD apart: each sets CANON_VALID when it succeeds. -/
def setsCanon : Instr → Bool
  | .hufCanon | .hufEnc | .hufStartDec | .hufDecRle | .pipeEnc | .pipeDec => true
  | _ => false

/-- The stepwise reading commands, whose every error discards the reader and the decoder (10_state.md
R53). -/
def readsStepwise : Instr → Bool
  | .brReadbit | .brPeek _ | .brAssert | .hufDecOne => true
  | _ => false

/-- The commands with a destination region of their own (20_memory.md R75). -/
def hasDest : Instr → Bool
  | .bwtFwd | .bwtInv | .mtfEnc | .mtfDec | .rle0Enc | .hufEnc | .hufDecRle | .pipeEnc | .pipeDec => true
  | _ => false

/-- The commands that read a source region (30_encoding.md R85). -/
def hasSource : Instr → Bool
  | .brInit | .hufHist | .hufStartDec => true
  | i => hasDest i

/-- The length that a command compares with N_MAX, or 0 (60_exceptions.md R271, `RANGE(3)`). -/
def boundedLength (i : Instr) (s : State) : Nat :=
  match i with
  | .bwtFwd | .bwtInv | .pipeEnc => s.slen.toNat
  | .pipeDec => s.nlen.toNat
  | _ => 0

/-- The output length that a command knows from its registers, or 0 (60_exceptions.md R271, 6). -/
def knownOutput (i : Instr) (s : State) : Nat :=
  match i with
  | .bwtFwd | .bwtInv | .mtfEnc | .mtfDec => s.slen.toNat
  | .hufDecRle | .pipeDec => s.nlen.toNat
  | _ => 0

/-- PI is no row of a transform of `n` bytes (60_exceptions.md R265, `PI_RANGE`). -/
abbrev PiOutside (s : State) (n : Nat) : Prop :=
  (0 < n ∧ n ≤ s.pi.toNat) ∨ (n = 0 ∧ s.pi.toNat ≠ 0)

/-- The first operand error of a command that names a region, its code and its information value, in the
order of 60_exceptions.md R271. -/
def firstOperandError (i : Instr) (s : State) : Option (Byte × Nat) :=
  if hasSource i = true ∧ ¬ SourceInMem s then some (0x04#8, 1)
  else if s.params.nMax < boundedLength i s then some (0x04#8, 3)
  else if (hasDest i = true ∨ i = .bwInit) ∧ ¬ DestInMem s then some (0x04#8, 2)
  else if hasDest i = true ∧ ¬ RegionsApart s then some (0x05#8, 0)
  else if s.dcap.toNat < knownOutput i s then some (0x06#8, knownOutput i s)
  else if (i = .bwtInv ∨ i = .pipeDec) ∧ PiOutside s (knownOutput i s) then some (0x08#8, s.pi.toNat)
  else if (i = .hufStartDec ∨ i = .hufDecRle ∨ i = .pipeDec) ∧ s.slen.toNat < 256 then
    some (0x10#8, s.slen.toNat)
  else none

/-- With BUSY = 1 the engine's step comes before the host's next access: the host has none, or waits and
has made the reads of its wait that come before that step (30_encoding.md R92). -/
def EngineIsNext (s : State) : Prop :=
  s.pending = [] ∨ (∃ rest, s.pending = .wait :: rest) ∨ (∃ rest, s.pending = .poll 0 :: rest)
    ∨ (s.irq = false ∧ ∃ rest, s.pending = .waitIrq :: rest)

/-- The ranks of a byte list, and a byte list from its ranks, by a table that moves each byte to the front
(42_mtf.md R150, R151, R152): the byte is the entry of the table at its rank, and then goes to index 0, the
entries before it moving back by one. -/
def MtfRelated (bytes ranks : List Byte) : Prop :=
  ranks.length = bytes.length ∧ ∃ table : Nat → List Byte,
    table 0 = (List.range 256).map (BitVec.ofNat 8)
      ∧ ∀ i, i < bytes.length →
        let r := (ranks.getD i 0#8).toNat
        (table i)[r]? = some (bytes.getD i 0#8)
          ∧ table (i + 1) = bytes.getD i 0#8 :: ((table i).take r ++ (table i).drop (r + 1))

/-- `a` stands before `b` in the order of the pairs `(weight, key)` (44_huffman.md R182). -/
def PairLess (a b : Node) : Prop :=
  a.weight < b.weight ∨ (a.weight = b.weight ∧ a.key.toNat < b.key.toNat)

/-- The loop of 44_huffman.md R182 as a relation between the live nodes, the lengths so far and the lengths
at its end: `a` is the smallest of the live nodes and `b` the smallest of the others; every symbol below
them gets one more bit, and one node stands for both. -/
inductive MergeRun : List Node → (Byte → Nat) → (Byte → Nat) → Prop
  | done (n : Node) (len : Byte → Nat) : MergeRun [n] len len
  | merge {live rest : List Node} {a b : Node} {len out : Byte → Nat}
      (split : live.Perm (a :: b :: rest)) (first : ∀ n ∈ b :: rest, PairLess a n)
      (second : ∀ n ∈ rest, PairLess b n)
      (more : MergeRun
        ({ weight := a.weight + b.weight
           key := if a.key.toNat ≤ b.key.toNat then a.key else b.key
           members := a.members ++ b.members } :: rest)
        (fun s => if s ∈ a.members ++ b.members then len s + 1 else len s) out) :
      MergeRun live len out

/-- `len` is what `BuildLengths(f)` makes of the frequencies before its last test (44_huffman.md R182):
the two fallbacks, and the merge of the present symbols. -/
def BuiltAs (f len : Byte → Nat) : Prop :=
  let present := symbols.filter fun x => 0 < f x
  (present = [] → ∀ x, len x = if x = 0#8 then 1 else 0)
    ∧ (∀ p, present = [p] → ∀ x, len x = if x = p then 1 else 0)
    ∧ (2 ≤ present.length →
        MergeRun (present.map fun x => { weight := f x, key := x, members := [x] }) (fun _ => 0) len)

/-- `blCount[j]`: how many symbols have length `j` (44_huffman.md R184). -/
def symbolsWithLength (l : Table Byte) (j : Nat) : List Byte :=
  symbols.filter fun x => (entry l x).toNat = j

/-- What a register reads as, by its offset (10_state.md R21 to R41, 20_memory.md R63). -/
def registerReads (s : State) : List (Nat × Word) :=
  [(0x000, 0x42575401#32), (0x004, if s.ie then 1#32 else 0#32), (0x008, s.statusWord),
   (0x00C, s.errcode.setWidth 32), (0x010, s.errinfo), (0x014, s.cur), (0x018, s.src), (0x01C, s.slen),
   (0x020, s.dst), (0x024, s.dcap), (0x028, s.pi), (0x02C, s.nlen), (0x030, s.hbits), (0x034, s.rlelen),
   (0x038, s.olen), (0x03C, s.bwcode), (0x040, s.result), (0x044, s.peekn.setWidth 32),
   (0x048, s.symcount), (0x04C, s.engStateWord), (0x050, s.bw.bits), (0x054, s.br.pos),
   (0x058, BitVec.ofNat 32 (8 * s.br.bytes.toNat)),
   (0x05C, BitVec.ofNat 32 (s.params.maxCodeLen + 2 ^ 8 * s.params.bwMaxBits + 2 ^ 16 * s.params.peekMax
      + 2 ^ 24 * match s.params.rleLenCheck with | .none => 0 | .bound => 1 | .exact => 2)),
   (0x060, BitVec.ofNat 32 s.params.memSize), (0x064, BitVec.ofNat 32 s.params.nMax)]

/-- A host-writable operand register (46_control.md R249). -/
def isOperand : Reg → Bool
  | .src | .slen | .dst | .dcap | .pi | .nlen | .hbits | .rlelen | .bwcode => true
  | _ => false

/-- A register whose host writes are ignored (46_control.md R249). -/
def isReadOnly : Reg → Bool
  | .id | .errcode | .errinfo | .olen | .result | .peekn | .symcount | .engstate | .bwbits | .brpos
  | .brlimit | .param0 | .param1 | .param2 => true
  | _ => false

end Sys2Proof.Machine

/-! ## Encoding -/

/-- Words written out from 30_encoding.md R82 decode to their commands. -/
def Obligations.WordsDecodeToTheirCommands : Prop :=
  decode 0x00000000#32 = .ok .nop ∧ decode 0x00000010#32 = .ok .bwInit
    ∧ decode 0x00000C11#32 = .ok (.bwWrite 12) ∧ decode 0x00000012#32 = .ok .bwFinish
    ∧ decode 0x00000018#32 = .ok .brInit ∧ decode 0x00000019#32 = .ok .brReadbit
    ∧ decode 0x0000041A#32 = .ok (.brPeek 4) ∧ decode 0x0000001B#32 = .ok .brAssert
    ∧ decode 0x00000020#32 = .ok .bwtFwd ∧ decode 0x00000021#32 = .ok .bwtInv
    ∧ decode 0x00000030#32 = .ok .mtfEnc ∧ decode 0x00000031#32 = .ok .mtfDec
    ∧ decode 0x00000040#32 = .ok .rle0Enc ∧ decode 0x00000050#32 = .ok .hufHist
    ∧ decode 0x00000051#32 = .ok .hufBuild ∧ decode 0x00000052#32 = .ok .hufCanon
    ∧ decode 0x00000053#32 = .ok .hufEnc ∧ decode 0x00000058#32 = .ok .hufStartDec
    ∧ decode 0x00000059#32 = .ok .hufDecOne ∧ decode 0x0000005A#32 = .ok .hufDecRle
    ∧ decode 0x00000060#32 = .ok .pipeEnc ∧ decode 0x00000061#32 = .ok .pipeDec

/-- Decoding and encoding agree in both directions: a word decodes to a command exactly when it is the
encoding of that command, the command being well formed (30_encoding.md R80, R81, R82, R83). -/
def Obligations.DecodeAnswersExactlyEncodedWords : Prop :=
  ∀ (w : Word) (i : Instr), decode w = .ok i ↔ i.wf = true ∧ encode i = w

/-- Which words are commands: bits [31:16] are 0, OPC is one of the 22 of the map, and IMM8 is 0 unless
OPC is 0x11 or 0x1A; every other word is ILLEGAL (30_encoding.md R83). -/
def Obligations.WordsOutsideTheMapAreIllegal : Prop :=
  ∀ w : Word, (∃ i, decode w = .ok i) ↔
    w.toNat / 65536 = 0
      ∧ w.toNat % 256 ∈ [0x00, 0x10, 0x11, 0x12, 0x18, 0x19, 0x1A, 0x1B, 0x20, 0x21, 0x30, 0x31, 0x40,
          0x50, 0x51, 0x52, 0x53, 0x58, 0x59, 0x5A, 0x60, 0x61]
      ∧ (w.toNat % 256 = 0x11 ∨ w.toNat % 256 = 0x1A ∨ w.toNat / 256 % 256 = 0)

/-! ## The engine step -/

/-- When BUSY = 1 and the host has nothing to do but wait, a step is the meaning of the command that CUR
decodes to (30_encoding.md R86). While idle a wait ends, and with nothing to do the block stays as it is
(70_reset_and_hazards.md R301). The `WAIT` of a script reads STATUS until BUSY reads 0, and a wait for IRQ
ends when IRQ is high (30_encoding.md R92). A read or a write that is next is made, busy or not, as
State.busRead and State.busWrite say (20_memory.md R70). That the host is a list of actions is the model's
choice (notes/assumptions/2.md). -/
def Obligations.StepRunsTheDecodedCommand : Prop :=
  (∀ (s : State) (i : Instr), s.inReset = false → s.busy = true →
    EngineIsNext s → decode s.cur = .ok i → step s = exec i s)
  ∧ (∀ s : State, s.inReset = false → s.busy = false →
    (s.pending = [] → step s = .next s)
    ∧ ∀ rest, s.pending = .wait :: rest → step s = .next { s with pending := rest })
  ∧ ∀ (s : State) (rest : List HostAction), s.inReset = false →
    (∀ k, s.pending = .poll (k + 1) :: rest → s.busy = true →
      step s = .next { s with
        pending := .poll k :: rest, replies := s.replies ++ [.data s.statusWord] })
    ∧ (∀ k, s.pending = .poll k :: rest → s.busy = false →
      step s = .next { s with pending := rest, replies := s.replies ++ [.data s.statusWord] })
    ∧ (s.pending = .waitIrq :: rest →
      (s.irq = true → step s = .next { s with pending := rest })
      ∧ (s.irq = false → s.busy = false → step s = .next s))
    ∧ (∀ offset width, s.pending = .read offset width :: rest →
      step s = .next ({ s with pending := rest }.busRead offset width))
    ∧ (∀ offset width v, s.pending = .write offset width v :: rest →
      step s = .next ({ s with pending := rest }.busWrite offset width v))

/-- An ILLEGAL word ends at once with ILLEGAL_CMD and the word in ERRINFO; nothing else changes
(30_encoding.md R83). -/
def Obligations.IllegalWordEndsWithIllegalCmd : Prop :=
  ∀ s : State, s.inReset = false → s.busy = true →
    EngineIsNext s → (¬ ∃ i, decode s.cur = .ok i) →
    step s = .next { s with errcode := 0x01#8, errinfo := s.cur, err := true, busy := false }

/-- Every command completes: BUSY = 0 and exactly one of DONE and ERR is set, ERRCODE and ERRINFO being
0 at success (46_control.md R254, 60_exceptions.md R267, R268). -/
def Obligations.EveryCommandCompletes : Prop :=
  ∀ (i : Instr) (s : State), s.done = false → s.err = false → s.errcode = 0#8 → s.errinfo = 0#32 →
    ∃ t, exec i s = .next t ∧ t.busy = false
      ∧ ((t.done = true ∧ t.err = false ∧ t.errcode = 0#8 ∧ t.errinfo = 0#32)
        ∨ (t.done = false ∧ t.err = true ∧ ∃ k : ErrKind, t.errcode = k.code))

/-- No command writes the parameters, CTRL.IE, OVR, CUR, or the operand registers that are the host's
alone (10_state.md R27, R28, R30, R34). -/
def Obligations.CommandsKeepTheHostsRegisters : Prop :=
  ∀ (i : Instr) (s t : State), exec i s = .next t →
    t.params = s.params ∧ t.ie = s.ie ∧ t.ovr = s.ovr ∧ t.cur = s.cur ∧ t.src = s.src
      ∧ t.slen = s.slen ∧ t.dst = s.dst ∧ t.dcap = s.dcap ∧ t.nlen = s.nlen ∧ t.bwcode = s.bwcode
      ∧ t.inReset = s.inReset ∧ t.pending = s.pending ∧ t.replies = s.replies ∧ t.epoch = s.epoch

/-- A command writes MEM only inside its destination region, or for BW_WRITE and BW_FINISH inside the
BitWriter region; the others, and a command that fails a check, write none (20_memory.md R75). -/
def Obligations.CommandsWriteOnlyTheirRegion : Prop :=
  ∀ (i : Instr) (s t : State), s.params.legal = true → s.bw.Ok s.params → exec i s = .next t →
    (∀ x, ¬((hasDest i = true ∧ s.dst.toNat ≤ x ∧ x < s.dst.toNat + s.dcap.toNat)
        ∨ ((i = .bwFinish ∨ ∃ n, i = .bwWrite n)
            ∧ s.bw.base.toNat ≤ x ∧ x < s.bw.base.toNat + s.bw.cap.toNat)) →
      t.readByte x = s.readByte x)
    ∧ (¬ PassesChecks i s → SameMem s t)

/-- CANON_VALID and DEC_VALID change only as 10_state.md R53 lists. -/
def Obligations.CanonAndDecoderValidChangeAsListed : Prop :=
  ∀ (i : Instr) (s t : State), s.err = false → exec i s = .next t →
    (¬ PassesChecks i s → t.canonValid = s.canonValid)
    ∧ (PassesChecks i s →
        t.canonValid = if i = .hufBuild then false
          else if setsCanon i = true then !t.err else s.canonValid)
    ∧ (readsStepwise i = true → t.decValid = (s.decValid && !t.err))
    ∧ (readsStepwise i = false → ¬ PassesChecks i s → t.decValid = s.decValid)
    ∧ (readsStepwise i = false → PassesChecks i s →
        t.decValid = if i = .hufStartDec then !t.err
          else if i = .brInit ∨ i = .hufBuild ∨ setsCanon i = true then false else s.decValid)

/-- BW_ACTIVE and BR_ACTIVE change only as 10_state.md R53 lists. -/
def Obligations.WriterAndReaderActiveChangeAsListed : Prop :=
  ∀ (i : Instr) (s t : State), s.err = false → exec i s = .next t →
    (t.bw.active = match i with
      | .bwInit => s.bw.active || !t.err
      | .bwWrite _ => s.bw.active && !t.err
      | .bwFinish => false
      | .hufEnc | .pipeEnc =>
        if (firstFailure (operandChecks i s)).isNone then false else s.bw.active
      | _ => s.bw.active)
    ∧ (t.br.active = match i with
      | .brInit | .hufStartDec => s.br.active || !t.err
      | .brReadbit | .brPeek _ | .brAssert | .hufDecOne => s.br.active && !t.err
      | .hufDecRle | .pipeDec =>
        if (firstFailure (operandChecks i s)).isNone then false else s.br.active
      | _ => s.br.active)

/-- A command that names a region reports the first of its operand errors, in the order of
60_exceptions.md R271 and with the codes and values of R265 and R266, and changes nothing else; where
there is none its body runs. -/
def Obligations.OperandErrorsAreReportedInOrder : Prop :=
  ∀ (i : Instr) (s : State), hasSource i = true ∨ i = .bwInit →
    (∀ code info, firstOperandError i s = some (code, info) →
      exec i s = .next (s.reported code info))
    ∧ (firstOperandError i s = none ↔ PassesChecks i s)

/-- A command that ends with an error writes no output register and no table; the BitWriter keeps all
but BW_ACTIVE; the BitReader keeps all but BR_ACTIVE, except that an error in the body of HUF_DEC_ONE moves
BR_POS, and one of HUF_DEC_RLE or PIPE_DEC leaves the buffer that the payload's header opened, if it did;
MEM is unchanged when a check failed or the command has no destination (60_exceptions.md R269). -/
def Obligations.FailedCommandsChangeOnlyTheReport : Prop :=
  ∀ (i : Instr) (s t : State), s.err = false → exec i s = .next t → t.err = true →
    t.done = s.done ∧ t.pi = s.pi ∧ t.hbits = s.hbits ∧ t.rlelen = s.rlelen ∧ t.olen = s.olen
      ∧ t.result = s.result ∧ t.peekn = s.peekn ∧ t.symcount = s.symcount ∧ t.freq = s.freq
      ∧ t.len = s.len ∧ t.canon = s.canon
      ∧ t.bw = { s.bw with active := t.bw.active }
      ∧ (i ≠ .hufDecOne → i ≠ .hufDecRle → i ≠ .pipeDec → t.br = { s.br with active := t.br.active })
      ∧ (¬ PassesChecks i s → t.br = { s.br with active := t.br.active })
      ∧ (i = .hufDecOne → t.br = { s.br with active := false, pos := t.br.pos })
      ∧ (i = .hufDecRle ∨ i = .pipeDec → PassesChecks i s →
          (t.errcode = 0x11#8 → t.br = { s.br with active := false })
          ∧ (t.errcode ≠ 0x11#8 → t.br =
              { active := false, base := s.src + 256#32, bytes := s.slen - 256#32, pos := t.br.pos }))
      ∧ (¬ PassesChecks i s ∨ hasDest i = false → t.mem = s.mem ∧ t.draws = s.draws)

/-- PIPE_ENC, PIPE_DEC, HUF_ENC and HUF_DEC_RLE read only MEM and operand registers (10_state.md R51):
what they report and write is the same in two states that agree on the operand registers and on the bytes
of the source region. -/
def Obligations.WholeStreamCommandsReadOnlyTheirOperands : Prop :=
  ∀ (i : Instr) (s s' t t' : State),
    i = .hufEnc ∨ i = .hufDecRle ∨ i = .pipeEnc ∨ i = .pipeDec → s.params.legal = true →
    s'.params = s.params → s'.src = s.src → s'.slen = s.slen → s'.dst = s.dst → s'.dcap = s.dcap →
    s'.nlen = s.nlen → s'.pi = s.pi → s'.hbits = s.hbits → s'.rlelen = s.rlelen →
    s'.source = s.source → s.err = false → s'.err = false →
    exec i s = .next t → exec i s' = .next t' →
    t'.err = t.err
      ∧ (t.err = true → t'.errcode = t.errcode ∧ t'.errinfo = t.errinfo)
      ∧ (t.err = false →
          t'.len = t.len ∧ t'.canon = t.canon ∧ t'.olen = t.olen ∧ t'.pi = t.pi ∧ t'.hbits = t.hbits
            ∧ t'.rlelen = t.rlelen
            ∧ (i = .hufEnc ∨ i = .pipeEnc → t'.freq = t.freq)
            ∧ (i = .hufDecRle ∨ i = .pipeDec → t'.symcount = t.symcount)
            ∧ ∀ x, s.dst.toNat ≤ x → x < s.dst.toNat + t.olen.toNat → t'.readByte x = t.readByte x)

/-! ## Control -/

/-- NOP is the word 0; it completes and changes nothing else, so that writing it to CMD and waiting clears
ERR, ERRCODE and ERRINFO and touches nothing but CUR and DONE besides (46_control.md R245). `pending` and
`replies` are the model's own (notes/assumptions/2.md). -/
def Obligations.NopOnlyCompletes : Prop :=
  decode 0x00000000#32 = .ok .nop
  ∧ (∀ s : State, exec .nop s = .next { s with done := true, busy := false })
  ∧ ∀ s : State, s.inReset = false → s.busy = false → s.pending = [.write 0x014 .word 0#32] →
    ∃ t, step s = .next t ∧ step t = .next { s with
      pending := [], replies := s.replies ++ [.written], cur := 0#32, done := true, err := false
      errcode := 0#8, errinfo := 0#32 }

/-! ## Bit input and output -/

/-- BW_INIT starts a writer over the destination region (40_bitio.md R102); outside MEM it raises
RANGE(2). -/
def Obligations.BwInitStartsAWriter : Prop :=
  ∀ s : State,
    (DestInMem s → exec .bwInit s = .next { s with
      bw := { active := true, base := s.dst, cap := s.dcap, bits := 0#32, acc := 0#8 }
      done := true, busy := false })
    ∧ (¬ DestInMem s → exec .bwInit s = .next (s.reported 0x04#8 2))

/-- BW_WRITE appends the low `nbits` bits of BWCODE, most significant first, and stores the bytes it
completes, no other (40_bitio.md R103). -/
def Obligations.BwWriteAppendsBits : Prop :=
  ∀ (s : State) (nbits : Nat), s.params.legal = true → s.bw.Ok s.params → s.bw.active = true →
    nbits ≤ s.params.bwMaxBits → ceil8 (s.bw.bits.toNat + nbits) ≤ s.bw.cap.toNat →
    ∃ t, exec (.bwWrite nbits) s = .next t
      ∧ t = { s with
          mem := t.mem
          bw := { s.bw with bits := s.bw.bits + BitVec.ofNat 32 nbits, acc := t.bw.acc }
          done := true, busy := false }
      ∧ t.bw.Ok s.params
      ∧ writerBits t = writerBits s ++ codeBits s.bwcode.toNat nbits
      ∧ ∀ x, x < s.bw.base.toNat + s.bw.bits.toNat / 8
            ∨ s.bw.base.toNat + (s.bw.bits.toNat + nbits) / 8 ≤ x → t.readByte x = s.readByte x

/-- The errors of BW_WRITE, in their order; each discards the writer and leaves MEM (40_bitio.md
R103). -/
def Obligations.BwWriteErrorsDiscardTheWriter : Prop :=
  ∀ (s : State) (nbits : Nat),
    let need := ceil8 (s.bw.bits.toNat + nbits)
    let dropped := { s with bw := { s.bw with active := false } }
    (s.bw.active = false → exec (.bwWrite nbits) s = .next (dropped.reported 0x02#8 0))
    ∧ (s.bw.active = true → s.params.bwMaxBits < nbits →
        exec (.bwWrite nbits) s = .next (dropped.reported 0x03#8 nbits))
    ∧ (s.bw.active = true → nbits ≤ s.params.bwMaxBits → s.bw.cap.toNat < need →
        exec (.bwWrite nbits) s = .next (dropped.reported 0x06#8 need))

/-- BW_FINISH stores the partial byte, if there is one, so that the writer's bytes are the packed bits;
HBITS and OLEN hold the counts (40_bitio.md R104). Without a writer it raises NO_STATE. -/
def Obligations.BwFinishFlushesTheWriter : Prop :=
  ∀ s : State,
    (s.params.legal = true → s.bw.Ok s.params → s.bw.active = true →
      ∃ t, exec .bwFinish s = .next t
        ∧ t = { s with
            mem := t.mem
            hbits := s.bw.bits
            olen := BitVec.ofNat 32 (ceil8 s.bw.bits.toNat)
            bw := { s.bw with acc := 0#8, active := false }
            done := true, busy := false }
        ∧ Wrote s t (s.bw.base.toNat + s.bw.bits.toNat / 8)
            (if s.bw.bits.toNat % 8 = 0 then [] else [s.bw.acc])
        ∧ t.readBytes s.bw.base.toNat (ceil8 s.bw.bits.toNat) = pack (writerBits s))
    ∧ (s.bw.active = false →
        exec .bwFinish s = .next (({ s with bw := { s.bw with active := false } }).reported 0x02#8 0))

/-- BW_INIT, any BW_WRITEs, BW_FINISH: the region holds the packed bits of all of them, HBITS and OLEN
their counts, and no other byte is written (40_bitio.md R105, which the spec marks as derived from R101,
R102, R103 and R104). -/
def Obligations.WriterSequencePacksAllBits : Prop :=
  ∀ (s : State) (ws : List (Word × Nat)), s.params.legal = true → DestInMem s →
    (∀ w ∈ ws, w.2 ≤ s.params.bwMaxBits) → ceil8 (ws.map (·.2)).sum ≤ s.dcap.toNat →
    ∃ t1 t2 t, exec .bwInit s = .next t1 ∧ writeAll ws t1 = .next t2 ∧ exec .bwFinish t2 = .next t
      ∧ t.hbits.toNat = (ws.map (·.2)).sum ∧ t.olen.toNat = ceil8 (ws.map (·.2)).sum
      ∧ Wrote s t s.dst.toNat (pack (writtenBits ws))

/-- BR_INIT wraps the source region in a reader and discards the decoder (40_bitio.md R106); outside MEM
it raises RANGE(1). -/
def Obligations.BrInitStartsAReader : Prop :=
  ∀ s : State,
    (SourceInMem s → exec .brInit s = .next { s with
      br := { active := true, base := s.src, bytes := s.slen, pos := 0#32 }
      decValid := false, done := true, busy := false })
    ∧ (¬ SourceInMem s → exec .brInit s = .next (s.reported 0x04#8 1))

/-- BR_READBIT gives the next bit of the stream, or the sentinel at exhaustion (40_bitio.md R107,
R108). Without a reader it raises NO_STATE and discards the decoder. -/
def Obligations.BrReadbitGivesTheNextBit : Prop :=
  ∀ s : State,
    (s.br.active = true → s.br.pos.toNat < 8 * s.br.bytes.toNat →
      exec .brReadbit s = .next { s with
        result := if (s.readByte (s.br.base.toNat + s.br.pos.toNat / 8)).getLsbD
            (7 - s.br.pos.toNat % 8) then 1#32 else 0#32
        br := { s.br with pos := s.br.pos + 1#32 }
        done := true, busy := false })
    ∧ (s.br.active = true → 8 * s.br.bytes.toNat ≤ s.br.pos.toNat →
        exec .brReadbit s = .next { s with result := 0xFFFFFFFF#32, done := true, busy := false })
    ∧ (s.br.active = false → exec .brReadbit s = .next
        (({ s with br := { s.br with active := false }, decValid := false }).reported 0x02#8 0))

/-- BR_PEEK gives the next `k` bits without consuming them, the first in bit k-1, missing bits 0, and
their number in PEEKN (40_bitio.md R109). Its errors discard the reader and the decoder. -/
def Obligations.BrPeekLooksAhead : Prop :=
  ∀ (s : State) (k : Nat), s.params.legal = true → s.br.Ok s.params →
    (s.br.active = true → k ≤ s.params.peekMax →
      ∃ t, exec (.brPeek k) s = .next t
        ∧ t = { s with result := t.result, peekn := t.peekn, done := true, busy := false }
        ∧ t.peekn.toNat = min k (8 * s.br.bytes.toNat - s.br.pos.toNat)
        ∧ ∀ j, t.result.getLsbD j
            = (decide (j < k) && decide (k - 1 - j < t.peekn.toNat)
                && bitAt s.readByte s.br.base.toNat (s.br.pos.toNat + (k - 1 - j))))
    ∧ (s.br.active = false → exec (.brPeek k) s = .next
        (({ s with br := { s.br with active := false }, decValid := false }).reported 0x02#8 0))
    ∧ (s.br.active = true → s.params.peekMax < k → exec (.brPeek k) s = .next
        (({ s with br := { s.br with active := false }, decValid := false }).reported 0x03#8 k))

/-- BR_ASSERT succeeds, changing only DONE and BUSY, exactly when HBITS bits were consumed, the padding
bits are 0 and no bytes remain; otherwise the first failing of the three checks is reported, and the
reader and the decoder are discarded (40_bitio.md R110, R111). Without a reader it raises NO_STATE. -/
def Obligations.BrAssertMakesThreeChecks : Prop :=
  ∀ s : State,
    let hb := s.hbits.toNat
    let padded := fun j => hb ≤ j ∧ j < 8 * ceil8 hb ∧ bitAt s.readByte s.br.base.toNat j = true
    let dropped := { s with br := { s.br with active := false }, decValid := false }
    (s.br.active = false → exec .brAssert s = .next (dropped.reported 0x02#8 0))
    ∧ (s.br.active = true → s.br.pos = s.hbits → (∀ j, ¬ padded j) → s.br.bytes.toNat ≤ ceil8 hb →
      exec .brAssert s = .next { s with done := true, busy := false })
    ∧ (s.br.active = true → s.br.pos ≠ s.hbits →
        exec .brAssert s = .next (dropped.reported 0x15#8 s.br.pos.toNat))
    ∧ (∀ j, s.br.active = true → s.br.pos = s.hbits → padded j → (∀ k, k < j → ¬ padded k) →
        exec .brAssert s = .next (dropped.reported 0x16#8 j))
    ∧ (s.br.active = true → s.br.pos = s.hbits → (∀ j, ¬ padded j) → ceil8 hb < s.br.bytes.toNat →
        exec .brAssert s = .next (dropped.reported 0x17#8 s.br.bytes.toNat))

/-- A reader over `Pack(bs)` returns the bits of `bs`, then zeros to the byte boundary, each read moving it on
by one bit, then is exhausted and stays where it is; and the assertion succeeds exactly when `|bs|` bits
have been consumed (40_bitio.md R112, which the spec marks as derived from R100, R101 and R107). -/
def Obligations.ReaderOverPackedBits : Prop :=
  ∀ (s : State) (bs : List Bool), s.params.legal = true → s.br.Ok s.params → s.br.active = true →
    s.readBytes s.br.base.toNat s.br.bytes.toNat = pack bs →
    (∃ t, exec .brReadbit s = .next t ∧ t.done = true
      ∧ t.result = (match bs[s.br.pos.toNat]? with
        | some b => if b then 1#32 else 0#32
        | none => if s.br.pos.toNat < 8 * ceil8 bs.length then 0#32 else 0xFFFFFFFF#32)
      ∧ t.br = { s.br with
          pos := if s.br.pos.toNat < 8 * ceil8 bs.length then s.br.pos + 1#32 else s.br.pos })
    ∧ (s.hbits.toNat = bs.length → s.err = false →
        ∃ t, exec .brAssert s = .next t ∧ (t.err = false ↔ s.br.pos.toNat = bs.length))

/-! ## BWT, MTF, RLE0 -/

/-- BWT_FWD sorts the rotations of the source by the order of 41_bwt.md R130, writes their last bytes to
the destination, the row of offset 0 to PI and SLEN to OLEN (R131, R133). -/
def Obligations.BwtFwdWritesTheTransform : Prop :=
  ∀ s : State, s.params.legal = true → SourceInMem s → s.slen.toNat ≤ s.params.nMax → DestInMem s →
    RegionsApart s → s.slen.toNat ≤ s.dcap.toNat →
    ∃ (t : State) (off : List Nat), exec .bwtFwd s = .next t
      ∧ t = { s with
          mem := t.mem, pi := t.pi, olen := s.slen, done := true, busy := false }
      ∧ off.Perm (List.range s.slen.toNat) ∧ off.Pairwise (RotLess s.source)
      ∧ Wrote s t s.dst.toNat
          (off.map fun o => s.source.getD ((o + s.slen.toNat - 1) % s.slen.toNat) 0#8)
      ∧ (0 < s.slen.toNat → off[t.pi.toNat]? = some 0)
      ∧ (s.slen.toNat = 0 → t.pi = 0#32)

/-- BWT_INV walks the LF map of 41_bwt.md R132 backward from row PI and writes the bytes it meets; OLEN
is SLEN (R134). -/
def Obligations.BwtInvWalksTheLfMap : Prop :=
  ∀ s : State, SourceInMem s → s.slen.toNat ≤ s.params.nMax → DestInMem s → RegionsApart s →
    s.slen.toNat ≤ s.dcap.toNat →
    ((0 < s.slen.toNat ∧ s.pi.toNat < s.slen.toNat) ∨ (s.slen.toNat = 0 ∧ s.pi.toNat = 0)) →
    ∃ (t : State) (out : List Byte) (row : Nat → Nat), exec .bwtInv s = .next t
      ∧ t = { s with mem := t.mem, olen := s.slen, done := true, busy := false }
      ∧ Wrote s t s.dst.toNat out ∧ out.length = s.slen.toNat ∧ row 0 = s.pi.toNat
      ∧ ∀ k, k < s.slen.toNat →
          row k < s.slen.toNat
          ∧ out.getD (s.slen.toNat - 1 - k) 0#8 = s.source.getD (row k) 0#8
          ∧ row (k + 1)
              = (s.source.filter fun b => b.toNat < (s.source.getD (row k) 0#8).toNat).length
                + ((s.source.take (row k)).filter fun b => b = s.source.getD (row k) 0#8).length

/-- The BWT round trip: the inverse of the transform is the buffer (41_bwt.md R135). -/
def Obligations.BwtInverseUndoesForward : Prop :=
  ∀ buf : List Byte, bwtInverse (bwtForward buf).1 (bwtForward buf).2 = buf

/-- MTF_ENC and MTF_DEC write the recoded source to the destination, and SLEN to OLEN (42_mtf.md R153,
R154). -/
def Obligations.MtfCommandsWriteTheRecoding : Prop :=
  ∀ s : State, SourceInMem s → DestInMem s → RegionsApart s → s.slen.toNat ≤ s.dcap.toNat →
    (∃ t, exec .mtfEnc s = .next t
      ∧ t = { s with mem := t.mem, olen := s.slen, done := true, busy := false }
      ∧ Wrote s t s.dst.toNat (mtfEncode s.source) ∧ (mtfEncode s.source).length = s.slen.toNat)
    ∧ (∃ t, exec .mtfDec s = .next t
      ∧ t = { s with mem := t.mem, olen := s.slen, done := true, busy := false }
      ∧ Wrote s t s.dst.toNat (mtfDecode s.source) ∧ (mtfDecode s.source).length = s.slen.toNat)

/-- The MTF recoder and its inverse follow the move-to-front table (42_mtf.md R150, R151, R152), and they undo
each other on every byte list (R155). A rank after the first is 0 exactly when the byte equals the one
before it (R156, which the spec marks as derived from R150 and R151). -/
def Obligations.MtfEncodeAndDecodeAreInverse : Prop :=
  ∀ buf : List Byte,
    MtfRelated buf (mtfEncode buf) ∧ MtfRelated (mtfDecode buf) buf
      ∧ (∀ i, i + 1 < buf.length →
          ((mtfEncode buf).getD (i + 1) 0#8 = 0#8 ↔ buf.getD (i + 1) 0#8 = buf.getD i 0#8))
      ∧ mtfDecode (mtfEncode buf) = buf ∧ mtfEncode (mtfDecode buf) = buf

/-- RLE0_ENC writes the encoding, its length to OLEN and RLELEN; when it does not fit it raises
DST_OVERFLOW, and only destination bytes change (43_rle0.md R166, 60_exceptions.md R269). -/
def Obligations.Rle0EncWritesTheEncoding : Prop :=
  ∀ s : State, s.params.legal = true → SourceInMem s → DestInMem s → RegionsApart s →
    let e := rle0Encode s.source
    (e.length ≤ s.dcap.toNat →
      ∃ t, exec .rle0Enc s = .next t
        ∧ t = { s with
            mem := t.mem, olen := BitVec.ofNat 32 e.length, rlelen := BitVec.ofNat 32 e.length
            done := true, busy := false }
        ∧ t.olen.toNat = e.length ∧ Wrote s t s.dst.toNat e)
    ∧ (s.dcap.toNat < e.length →
      ∃ t, exec .rle0Enc s = .next t
        ∧ t = ({ s with mem := t.mem, draws := t.draws }).reported 0x06#8 e.length
        ∧ ∀ x, x < s.dst.toNat ∨ s.dst.toNat + s.dcap.toNat ≤ x → t.readByte x = s.readByte x)

/-- RLE0 passes a non-zero byte through, and makes of a maximal run of `m` zeros `m / 256` pairs `(0, 255)`
and one pair for the rest, if there is one (43_rle0.md R165); expanding a pair gives its zeros, unless they
pass the target (R167). The expansion of the encoding to `|A|` bytes is `A`, using all of it; the encoding
has at most `2 |A|` bytes, and so many only for `[]` and `[0]` (R168, which the spec marks as derived from
R165 and R167). -/
def Obligations.Rle0DecodeUndoesEncode : Prop :=
  rle0Encode [] = []
    ∧ (∀ (a : Byte) (buf : List Byte), a ≠ 0#8 → rle0Encode (a :: buf) = a :: rle0Encode buf)
    ∧ (∀ (m : Nat) (buf : List Byte), 0 < m → buf.head? ≠ some 0#8 →
        rle0Encode (List.replicate m 0#8 ++ buf)
          = (List.replicate (m / 256) [0#8, 255#8]).flatten
            ++ (if m % 256 = 0 then [] else [0#8, BitVec.ofNat 8 (m % 256 - 1)]) ++ rle0Encode buf)
    ∧ (∀ e : List Byte, rle0Decode e 0 = some ([], e))
    ∧ (∀ n, rle0Decode [] (n + 1) = none ∧ rle0Decode [0#8] (n + 1) = none)
    ∧ (∀ (x : Byte) (e : List Byte) (n : Nat), x ≠ 0#8 →
        rle0Decode (x :: e) (n + 1) = (rle0Decode e n).map fun r => (x :: r.1, r.2))
    ∧ (∀ (k : Byte) (e : List Byte) (n : Nat), n < k.toNat → rle0Decode (0#8 :: k :: e) (n + 1) = none)
    ∧ (∀ (k : Byte) (e : List Byte) (n : Nat),
        rle0Decode (0#8 :: k :: e) (k.toNat + 1 + n)
          = (rle0Decode e n).map fun r => (List.replicate (k.toNat + 1) 0#8 ++ r.1, r.2))
    ∧ ∀ buf : List Byte,
      rle0Decode (rle0Encode buf) buf.length = some (buf, [])
        ∧ (rle0Encode buf).length ≤ 2 * buf.length
        ∧ ((rle0Encode buf).length = 2 * buf.length → buf = [] ∨ buf = [0#8])

/-! ## Huffman -/

/-- HUF_HIST counts the source bytes (44_huffman.md R181); outside MEM it raises RANGE(1). -/
def Obligations.HufHistCountsTheSource : Prop :=
  ∀ s : State,
    (SourceInMem s → ∃ t, exec .hufHist s = .next t
      ∧ t = { s with freq := t.freq, done := true, busy := false }
      ∧ ∀ x, (entry t.freq x).toNat = s.source.count x)
    ∧ (¬ SourceInMem s → exec .hufHist s = .next (s.reported 0x04#8 1))

/-- HUF_BUILD writes the lengths of `BuildLengths(FREQ)` to LEN and invalidates CANON and the decoder; if the
largest is above MAX_CODE_LEN it raises CODE_TOO_LONG and leaves LEN. The lengths are those of the merge of
the two nodes smallest by (weight, key); all-zero FREQ gives LEN[0] = 1 alone, one non-zero entry gives that
symbol length 1 (44_huffman.md R182, R183). -/
def Obligations.HufBuildWritesTheLengths : Prop :=
  ∀ s : State, s.params.legal = true →
    let f := tabulate fun x => (entry s.freq x).toNat
    (maxEntry (treeLengths f) ≤ s.params.maxCodeLen →
      ∃ t, exec .hufBuild s = .next t
        ∧ t = { s with
            len := t.len, canonValid := false, decValid := false, done := true, busy := false }
        ∧ ∀ x, (entry t.len x).toNat = entry (treeLengths f) x)
    ∧ (s.params.maxCodeLen < maxEntry (treeLengths f) →
        exec .hufBuild s = .next (({ s with canonValid := false, decValid := false }).reported 0x07#8
          (maxEntry (treeLengths f))))
    ∧ BuiltAs (fun x => (entry s.freq x).toNat) (entry (treeLengths f))
    ∧ (∀ x, entry (treeLengths f) x ≤ maxEntry (treeLengths f))
    ∧ (∃ x, entry (treeLengths f) x = maxEntry (treeLengths f))
    ∧ ((∀ x, entry s.freq x = 0#32) → ∀ x, entry (treeLengths f) x = if x = 0#8 then 1 else 0)
    ∧ (∀ p, entry s.freq p ≠ 0#32 → (∀ x, x ≠ p → entry s.freq x = 0#32) →
        ∀ x, entry (treeLengths f) x = if x = p then 1 else 0)

/-- `BuildLengths` succeeds exactly when no length of the merge is above the limit, and then returns the
lengths of the merge (44_huffman.md R182). A table that it returns has Kraft sum 1 with two or more
symbols and 1/2 in the two fallbacks, so `Canon` accepts it unchanged (44_huffman.md R194, which the spec
marks as derived from R182, R184 and R190, its Kraft sum as from general knowledge). -/
def Obligations.BuiltLengthsHaveKraftSumOne : Prop :=
  ∀ (m : Nat) (f : Table Nat), 1 ≤ m → m < 256 →
    ((∃ l, buildLengths m f = .ok l) ↔ ∀ x, entry (treeLengths f) x ≤ m)
    ∧ ∀ l : Table Byte, buildLengths m f = .ok l →
      BuiltAs (entry f) (fun x => (entry l x).toNat)
        ∧ kraft m l
          = (if 2 ≤ (symbols.filter fun x => 0 < entry f x).length then 2 ^ m else 2 ^ (m - 1))
        ∧ ∃ t, canonTable m l = .ok (l, t)

/-- HUF_CANON makes CANON the table `Canon(LEN)`; it accepts LEN exactly when no length is above MAX_CODE_LEN
and the Kraft sum is at most 1, forcing LEN[0] = 1 when every length is 0; otherwise it raises BAD_LENGTHS
with the smallest symbol that is too long, or 0x100 (44_huffman.md R184, R185). What the block tests is
`codeStart[j] + blCount[j] > 2^j`; that this is the Kraft sum is what the spec marks "from general knowledge,
not in source" (44_huffman.md R184, 93_implementation_defined.md G2). -/
def Obligations.HufCanonAcceptsKraftSets : Prop :=
  ∀ s : State, s.params.legal = true →
    let m := s.params.maxCodeLen
    let forced := if (∀ x, entry s.len x = 0#8) then setEntry s.len 0#8 1#8 else s.len
    ((∀ x, (entry s.len x).toNat ≤ m) → kraft m s.len ≤ 2 ^ m →
      ∃ t, canonTable m s.len = .ok (forced, t) ∧ exec .hufCanon s = .next { s with
        len := forced, canon := t, canonValid := true, decValid := false, done := true, busy := false })
    ∧ (∀ x, m < (entry s.len x).toNat → (∀ y, y.toNat < x.toNat → (entry s.len y).toNat ≤ m) →
        exec .hufCanon s = .next
          (({ s with canonValid := false, decValid := false }).reported 0x11#8 x.toNat))
    ∧ ((∀ x, (entry s.len x).toNat ≤ m) → 2 ^ m < kraft m s.len →
        exec .hufCanon s = .next
          (({ s with canonValid := false, decValid := false }).reported 0x11#8 0x100))

/-- The canonical table: the first code of length 1 is 0 and that of length `j + 1` is twice the first code
of length `j` plus the number of those; codes of one length follow in symbol order; the rows hold the
counts, the first and last codes and the symbols of each length up to the largest (44_huffman.md R184, whose
first code the spec marks as from general knowledge, 93_implementation_defined.md G1). Each code fits its
length, and no code is a prefix of another (R194, which the spec marks as derived). -/
def Obligations.CanonicalCodesArePrefixFree : Prop :=
  ∀ (m : Nat) (len l : Table Byte) (t : Canon), canonTable m len = .ok (l, t) →
    (∀ x, 0 < (entry l x).toNat → entry t.code x < 2 ^ (entry l x).toNat)
    ∧ (∀ x y, 0 < (entry l x).toNat → entry l x = entry l y → x.toNat < y.toNat →
        entry t.code y = entry t.code x
          + (symbols.filter fun z => x.toNat ≤ z.toNat ∧ z.toNat < y.toNat ∧ entry l z = entry l x).length)
    ∧ (∀ x y, 0 < (entry l x).toNat → (entry l x).toNat ≤ (entry l y).toNat → x ≠ y →
        (entry t.code y) >>> ((entry l y).toNat - (entry l x).toNat) ≠ entry t.code x)
    ∧ (∀ x, (entry l x).toNat ≤ t.maxLen) ∧ (∃ x, (entry l x).toNat = t.maxLen)
    ∧ t.rows.length = t.maxLen
    ∧ ∃ start : Nat → Nat, start 1 = 0
      ∧ (∀ j, 1 ≤ j → start (j + 1) = (start j + (symbolsWithLength l j).length) <<< 1)
      ∧ (∀ x, entry t.code x = if entry l x = 0#8 then 0 else start (entry l x).toNat
          + ((symbolsWithLength l (entry l x).toNat).filter fun z => z.toNat < x.toNat).length)
      ∧ ∀ j, j < t.maxLen → t.rows[j]? = some {
          blCount := (symbolsWithLength l (j + 1)).length
          codeStart := start (j + 1)
          codes := if symbolsWithLength l (j + 1) = [] then none else some {
            minCode := start (j + 1)
            maxCode := start (j + 1) + (symbolsWithLength l (j + 1)).length - 1 }
          perLenSyms := symbolsWithLength l (j + 1) }

/-- HUF_ENC writes the length header and the packed codes of the source, and FREQ, LEN, CANON, HBITS,
OLEN and the BitWriter fields; a length above MAX_CODE_LEN raises CODE_TOO_LONG and a payload that does
not fit DST_OVERFLOW, and then only destination bytes change (44_huffman.md R187, 60_exceptions.md R269). -/
def Obligations.HufEncWritesThePayload : Prop :=
  ∀ s : State, s.params.legal = true → SourceInMem s → DestInMem s → RegionsApart s →
    let e := s.source
    let m := s.params.maxCodeLen
    let failed := fun t : State => { s with
      mem := t.mem, draws := t.draws, canonValid := false, decValid := false
      bw := { s.bw with active := false } }
    (∀ l, buildLengths m (histogram e) = .ok l →
      ∃ c, canonTable m l = .ok (l, c) ∧
        let bits := encodeBits l c e
        let total := 256 + ceil8 bits.length
        (total ≤ s.dcap.toNat →
          ∃ t, exec .hufEnc s = .next t
            ∧ t = { s with
                mem := t.mem
                freq := t.freq
                len := l
                canon := c
                canonValid := true
                decValid := false
                hbits := BitVec.ofNat 32 bits.length
                olen := BitVec.ofNat 32 total
                bw := {
                  active := false
                  base := s.dst + 256#32
                  cap := s.dcap - 256#32
                  bits := BitVec.ofNat 32 bits.length
                  acc := 0#8 }
                done := true
                busy := false }
            ∧ (∀ x, (entry t.freq x).toNat = e.count x)
            ∧ Wrote s t s.dst.toNat (entries l ++ pack bits))
        ∧ (s.dcap.toNat < total →
          ∃ t, exec .hufEnc s = .next t ∧ t = (failed t).reported 0x06#8 total
            ∧ ∀ x, x < s.dst.toNat ∨ s.dst.toNat + s.dcap.toNat ≤ x → t.readByte x = s.readByte x))
    ∧ (m < maxEntry (treeLengths (histogram e)) →
      ∃ t, exec .hufEnc s = .next t
        ∧ t = (failed t).reported 0x07#8 (maxEntry (treeLengths (histogram e)))
        ∧ ∀ x, x < s.dst.toNat ∨ s.dst.toNat + s.dcap.toNat ≤ x → t.readByte x = s.readByte x)

/-- HUF_START_DEC reads the length header at SRC, builds the table, and wraps the rest of the source in
a reader at position 0 (44_huffman.md R188, R189). A header that is no length list raises BAD_LENGTHS, and
LEN and the reader keep their values. -/
def Obligations.HufStartDecOpensThePayload : Prop :=
  ∀ s : State, SourceInMem s → 256 ≤ s.slen.toNat →
    let header := tabulate fun x => s.readByte (s.src.toNat + x.toNat)
    (∀ l c, canonTable s.params.maxCodeLen header = .ok (l, c) →
      exec .hufStartDec s = .next { s with
        len := l
        canon := c
        canonValid := true
        decValid := true
        br := { active := true, base := s.src + 256#32, bytes := s.slen - 256#32, pos := 0#32 }
        done := true
        busy := false })
    ∧ (∀ e, canonTable s.params.maxCodeLen header = .error e →
      exec .hufStartDec s = .next
        (({ s with canonValid := false, decValid := false }).reported 0x11#8 e.info))

/-- HUF_DEC_ONE decodes a symbol whose code stands at BR_POS: RESULT is the symbol and BR_POS moves by
its length, whatever bits follow (44_huffman.md R190, R191, R194). -/
def Obligations.HufDecOneDecodesACode : Prop :=
  ∀ (s : State) (x : Byte), s.params.legal = true → s.br.Ok s.params → s.decValid = true →
    canonTable s.params.maxCodeLen s.len = .ok (s.len, s.canon) → 0 < (entry s.len x).toNat →
    StreamStarts s.readByte s.br (codeBits (entry s.canon.code x) (entry s.len x).toNat) →
    exec .hufDecOne s = .next { s with
      result := BitVec.ofNat 32 x.toNat
      br := { s.br with pos := s.br.pos + BitVec.ofNat 32 (entry s.len x).toNat }
      done := true
      busy := false }

/-- HUF_DEC_ONE where no code stands at BR_POS: with fewer than MAXLEN bits left it raises
STREAM_EXHAUSTED at the end of the stream, otherwise INVALID_CODEWORD after MAXLEN bits; the bits read stay
consumed, the reader and the decoder are discarded, and RESULT keeps its value (44_huffman.md R190, R191).
Without a decoder it raises NO_STATE. -/
def Obligations.HufDecOneWithoutACode : Prop :=
  ∀ s : State,
    let dropped := fun p : Word => { s with
      br := { s.br with active := false, pos := p }, decValid := false }
    let limit := 8 * s.br.bytes.toNat
    (s.params.legal = true → s.br.Ok s.params → s.decValid = true →
      canonTable s.params.maxCodeLen s.len = .ok (s.len, s.canon) →
      (∀ x, 0 < (entry s.len x).toNat →
        ¬ StreamStarts s.readByte s.br (codeBits (entry s.canon.code x) (entry s.len x).toNat)) →
      (limit < s.br.pos.toNat + s.canon.maxLen →
        exec .hufDecOne s = .next ((dropped (BitVec.ofNat 32 limit)).reported 0x12#8 limit))
      ∧ (s.br.pos.toNat + s.canon.maxLen ≤ limit →
        exec .hufDecOne s = .next
          ((dropped (s.br.pos + BitVec.ofNat 32 s.canon.maxLen)).reported 0x13#8
            (s.br.pos.toNat + s.canon.maxLen))))
    ∧ (s.decValid = false → exec .hufDecOne s = .next ((dropped s.br.pos).reported 0x02#8 0))

/-- HUF_DEC_RLE over a payload of the symbols `e`, whose RLE0 expansion to NLEN bytes is `ranks`, writes
`ranks` and sets SYMCOUNT, OLEN, LEN, CANON and the reader: with P_RLELEN_CHECK NONE for every RLELEN, with
BOUND where the symbols are at most RLELEN, with EXACT where they are RLELEN (44_huffman.md R192, R193,
R196). -/
def Obligations.HufDecRleDecodesAPayload : Prop :=
  ∀ (s : State) (l : Table Byte) (c : Canon) (e ranks : List Byte),
    s.params.legal = true → SourceInMem s → DestInMem s → RegionsApart s →
    s.nlen.toNat ≤ s.dcap.toNat → 256 ≤ s.slen.toNat →
    canonTable s.params.maxCodeLen (tabulate fun x => s.readByte (s.src.toNat + x.toNat)) = .ok (l, c) →
    (∀ x ∈ e, 0 < (entry l x).toNat) → s.source.drop 256 = pack (encodeBits l c e) →
    s.hbits.toNat = (encodeBits l c e).length →
    (s.params.rleLenCheck ≠ .none → e.length ≤ s.rlelen.toNat) →
    (s.params.rleLenCheck = .exact → e.length = s.rlelen.toNat) →
    rle0Decode e s.nlen.toNat = some (ranks, []) →
    ∃ t, exec .hufDecRle s = .next t
      ∧ t = { s with
          mem := t.mem
          len := l
          canon := c
          canonValid := true
          decValid := false
          symcount := BitVec.ofNat 32 e.length
          olen := s.nlen
          br := { active := false, base := s.src + 256#32, bytes := s.slen - 256#32, pos := s.hbits }
          done := true
          busy := false }
      ∧ ranks.length = s.nlen.toNat ∧ Wrote s t s.dst.toNat ranks

/-- HUF_DEC_RLE and PIPE_DEC succeed only on exact streams: the bitstream is consumed to HBITS, its padding
is 0, no byte remains after it, and SYMCOUNT respects RLELEN as P_RLELEN_CHECK directs. On any other stream
they end with the first error met, its information value, and the reader where it stood then: a bad header;
after the symbols `e`, one symbol too many for RLELEN, no code at BR_POS, or a run that passes NLEN; and
after the last rank, the three checks of the end and the exact count (44_huffman.md R192, R193,
60_exceptions.md R266, R269). -/
def Obligations.DecodingSucceedsOnlyOnExactStreams : Prop :=
  (∀ (i : Instr) (s t : State), i = .hufDecRle ∨ i = .pipeDec → s.params.legal = true →
    s.err = false → exec i s = .next t → t.err = false →
    s.slen.toNat = 256 + ceil8 s.hbits.toNat ∧ t.br.pos = s.hbits ∧ t.olen = s.nlen
      ∧ (∀ j, s.hbits.toNat ≤ j → j < 8 * ceil8 s.hbits.toNat →
          bitAt s.readByte (s.src.toNat + 256) j = false)
      ∧ (s.params.rleLenCheck ≠ .none → t.symcount.toNat ≤ s.rlelen.toNat)
      ∧ (s.params.rleLenCheck = .exact → t.symcount = s.rlelen))
  ∧ ∀ (i : Instr) (s : State), i = .hufDecRle ∨ i = .pipeDec → s.params.legal = true →
    PassesChecks i s →
    let fails := fun (r : BitReader) (code : Byte) (info : Nat) => ∃ t, exec i s = .next t
      ∧ t = ({ s with
          mem := t.mem, draws := t.draws, canonValid := false, decValid := false
          br := { r with active := false } }).reported code info
    let header := tabulate fun x => s.readByte (s.src.toNat + x.toNat)
    let size := s.slen.toNat - 256
    let hb := s.hbits.toNat
    let opened := fun pos : Nat => ({
      active := false, base := s.src + 256#32, bytes := s.slen - 256#32, pos := BitVec.ofNat 32 pos } :
        BitReader)
    (∀ bad, canonTable s.params.maxCodeLen header = .error bad → fails s.br 0x11#8 bad.info)
    ∧ ∀ (l : Table Byte) (c : Canon) (e : List Byte),
      canonTable s.params.maxCodeLen header = .ok (l, c) → (∀ x ∈ e, 0 < (entry l x).toNat) →
      StreamStarts s.readByte (opened 0) (encodeBits l c e) →
      (s.params.rleLenCheck ≠ .none → e.length ≤ s.rlelen.toNat) →
      let p := (encodeBits l c e).length
      let padded := fun j => hb ≤ j ∧ j < 8 * ceil8 hb ∧ bitAt s.readByte (s.src.toNat + 256) j = true
      (WantsSymbol s.nlen.toNat e →
        (s.params.rleLenCheck ≠ .none → e.length = s.rlelen.toNat → fails (opened p) 0x18#8 e.length)
        ∧ ((s.params.rleLenCheck ≠ .none → e.length ≠ s.rlelen.toNat) →
          (∀ x, 0 < (entry l x).toNat → ¬ StreamStarts s.readByte (opened p)
            (codeBits (entry c.code x) (entry l x).toNat)) →
          (8 * size < p + c.maxLen → fails (opened (8 * size)) 0x12#8 (8 * size))
          ∧ (p + c.maxLen ≤ 8 * size → fails (opened (p + c.maxLen)) 0x13#8 (p + c.maxLen))))
      ∧ (∀ (e' : List Byte) (k : Byte) (made : Nat), e = e' ++ [0#8, k] → Expands e' made →
          made < s.nlen.toNat → s.nlen.toNat < made + k.toNat + 1 → fails (opened p) 0x14#8 made)
      ∧ (Expands e s.nlen.toNat →
        (hb ≠ p → fails (opened p) 0x15#8 p)
        ∧ (∀ j, hb = p → padded j → (∀ k, k < j → ¬ padded k) → fails (opened p) 0x16#8 j)
        ∧ (hb = p → (∀ j, ¬ padded j) → ceil8 hb < size → fails (opened p) 0x17#8 size)
        ∧ (hb = p → (∀ j, ¬ padded j) → size ≤ ceil8 hb → s.params.rleLenCheck = .exact →
            e.length ≠ s.rlelen.toNat → fails (opened p) 0x18#8 e.length))

/-! ## Whole pipeline -/

/-- PIPE_ENC writes the payload of the BWT, MTF and RLE0 stages' output, and PI, RLELEN, HBITS, OLEN,
FREQ, LEN, CANON and the BitWriter fields; its errors are those of HUF_ENC's body (45_pipeline.md R230).
The sizes are bounded as R233 says. -/
def Obligations.PipeEncWritesThePayload : Prop :=
  ∀ s : State, s.params.legal = true → SourceInMem s → s.slen.toNat ≤ s.params.nMax → DestInMem s →
    RegionsApart s →
    let e := rle0Encode (mtfEncode (bwtForward s.source).1)
    let m := s.params.maxCodeLen
    let failed := fun t : State => { s with
      mem := t.mem, draws := t.draws, canonValid := false, decValid := false
      bw := { s.bw with active := false } }
    (∀ l, buildLengths m (histogram e) = .ok l →
      ∃ c, canonTable m l = .ok (l, c) ∧
        let bits := encodeBits l c e
        let total := 256 + ceil8 bits.length
        e.length ≤ 2 * s.slen.toNat ∧ bits.length ≤ e.length * m
        ∧ (total ≤ s.dcap.toNat →
          ∃ t, exec .pipeEnc s = .next t
            ∧ t = { s with
                mem := t.mem
                freq := t.freq
                len := l
                canon := c
                canonValid := true
                decValid := false
                pi := BitVec.ofNat 32 (bwtForward s.source).2
                rlelen := BitVec.ofNat 32 e.length
                hbits := BitVec.ofNat 32 bits.length
                olen := BitVec.ofNat 32 total
                bw := {
                  active := false
                  base := s.dst + 256#32
                  cap := s.dcap - 256#32
                  bits := BitVec.ofNat 32 bits.length
                  acc := 0#8 }
                done := true
                busy := false }
            ∧ (∀ x, (entry t.freq x).toNat = e.count x)
            ∧ Wrote s t s.dst.toNat (entries l ++ pack bits))
        ∧ (s.dcap.toNat < total →
          ∃ t, exec .pipeEnc s = .next t ∧ t = (failed t).reported 0x06#8 total
            ∧ ∀ x, x < s.dst.toNat ∨ s.dst.toNat + s.dcap.toNat ≤ x → t.readByte x = s.readByte x))
    ∧ (m < maxEntry (treeLengths (histogram e)) →
      ∃ t, exec .pipeEnc s = .next t
        ∧ t = (failed t).reported 0x07#8 (maxEntry (treeLengths (histogram e)))
        ∧ ∀ x, x < s.dst.toNat ∨ s.dst.toNat + s.dcap.toNat ≤ x → t.readByte x = s.readByte x)

/-- PIPE_DEC over a payload of the symbols `e`, whose RLE0 expansion to NLEN bytes is `ranks`, writes the
MTF and BWT inverses of `ranks`: with P_RLELEN_CHECK NONE for every RLELEN, with BOUND where the symbols are
at most RLELEN, with EXACT where they are RLELEN (45_pipeline.md R231, 44_huffman.md R192). -/
def Obligations.PipeDecDecodesAPayload : Prop :=
  ∀ (s : State) (l : Table Byte) (c : Canon) (e ranks : List Byte),
    s.params.legal = true → SourceInMem s → s.nlen.toNat ≤ s.params.nMax → DestInMem s →
    RegionsApart s → s.nlen.toNat ≤ s.dcap.toNat →
    ((0 < s.nlen.toNat ∧ s.pi.toNat < s.nlen.toNat) ∨ (s.nlen.toNat = 0 ∧ s.pi.toNat = 0)) →
    256 ≤ s.slen.toNat →
    canonTable s.params.maxCodeLen (tabulate fun x => s.readByte (s.src.toNat + x.toNat)) = .ok (l, c) →
    (∀ x ∈ e, 0 < (entry l x).toNat) → s.source.drop 256 = pack (encodeBits l c e) →
    s.hbits.toNat = (encodeBits l c e).length →
    (s.params.rleLenCheck ≠ .none → e.length ≤ s.rlelen.toNat) →
    (s.params.rleLenCheck = .exact → e.length = s.rlelen.toNat) →
    rle0Decode e s.nlen.toNat = some (ranks, []) →
    ∃ t, exec .pipeDec s = .next t
      ∧ t = { s with
          mem := t.mem
          len := l
          canon := c
          canonValid := true
          decValid := false
          symcount := BitVec.ofNat 32 e.length
          olen := s.nlen
          br := { active := false, base := s.src + 256#32, bytes := s.slen - 256#32, pos := s.hbits }
          done := true
          busy := false }
      ∧ Wrote s t s.dst.toNat (bwtInverse (mtfDecode ranks) s.pi.toNat)

/-- The pipeline round trip: PIPE_DEC over the payload that a successful PIPE_ENC wrote, with NLEN the
input's length and PI, HBITS, RLELEN as PIPE_ENC left them, into a large enough destination apart from the
payload, completes and writes the input, for every P_RLELEN_CHECK (45_pipeline.md R232). -/
def Obligations.PipelineRoundTrip : Prop :=
  ∀ s t u : State, s.params.legal = true → s.err = false → exec .pipeEnc s = .next t →
    t.err = false →
    u.params = t.params → u.mem = t.mem → u.epoch = t.epoch → u.err = false →
    u.src = s.dst → u.slen = t.olen → u.nlen = s.slen → u.pi = t.pi → u.hbits = t.hbits →
    u.rlelen = t.rlelen → DestInMem u → RegionsApart u → s.slen.toNat ≤ u.dcap.toNat →
    ∃ v, exec .pipeDec u = .next v ∧ v.done = true ∧ v.err = false
      ∧ v.readBytes u.dst.toNat s.slen.toNat = s.source

/-- A payload that PIPE_DEC accepts is refused when one byte shorter, with one of the corrupt-payload
codes 0x10 .. 0x18 (45_pipeline.md R232). -/
def Obligations.TruncatedPayloadIsRefused : Prop :=
  ∀ s t : State, s.params.legal = true → s.err = false → exec .pipeDec s = .next t → t.err = false →
    ∃ u, exec .pipeDec { s with slen := s.slen - 1#32 } = .next u ∧ u.err = true
      ∧ 0x10 ≤ u.errcode.toNat ∧ u.errcode.toNat ≤ 0x18

/-! ## Interrupt and host accesses

`pending`, from which an access is taken, and `replies`, which records what it gave back, are the model's
own and no rule's (notes/assumptions/2.md). -/

/-- The interrupt output is a level: IE and (DONE or ERR), read as STATUS bit 4; the STATUS fields stand
at their bits, and so do those of ENGSTATE, whose MAXLEN is 0 while CANON is invalid (10_state.md R23, R38,
60_exceptions.md R272). -/
def Obligations.StatusWordShowsFlagsAndIrq : Prop :=
  ∀ s : State,
    s.statusWord.getLsbD 0 = s.busy ∧ s.statusWord.getLsbD 1 = s.done ∧ s.statusWord.getLsbD 2 = s.err
      ∧ s.statusWord.getLsbD 3 = s.ovr ∧ s.statusWord.getLsbD 4 = (s.ie && (s.done || s.err))
      ∧ (∀ j, 5 ≤ j → s.statusWord.getLsbD j = false)
      ∧ s.irq = (s.ie && (s.done || s.err))
      ∧ ((s.canonValid = true → s.canon.maxLen < 256) →
        s.engStateWord.getLsbD 0 = s.bw.active ∧ s.engStateWord.getLsbD 1 = s.br.active
          ∧ s.engStateWord.getLsbD 2 = s.decValid ∧ s.engStateWord.getLsbD 3 = s.canonValid
          ∧ (∀ j, 4 ≤ j → j < 8 ∨ 16 ≤ j → s.engStateWord.getLsbD j = false)
          ∧ ∀ j, j < 8 → s.engStateWord.getLsbD (8 + j) = (s.canonValid && s.canon.maxLen.testBit j))

/-- A host write of `w` to CMD: idle, the word is accepted, the last report is cleared and BUSY is set;
busy, it is dropped and OVR is set (46_control.md R246).
`pending` and `replies` are the model's own (notes/assumptions/2.md). -/
def Obligations.HostWriteOfCmdStartsACommand : Prop :=
  ∀ (s : State) (w : Word) (rest : List HostAction), s.inReset = false →
    s.pending = .write 0x014 .word w :: rest →
    step s = .next (if s.busy then
        { s with pending := rest, replies := s.replies ++ [.written], ovr := true }
      else
        { s with pending := rest, replies := s.replies ++ [.written], cur := w, done := false,
                 err := false, errcode := 0#8, errinfo := 0#32, busy := true })

/-- A host write of `v` to CTRL (46_control.md R247): a soft reset if idle and bit 1 is set, which keeps
every byte of MEM and puts every register, table and flag at its reset value (70_reset_and_hazards.md
R303), the unobservable contents of CANON apart; otherwise IE takes bit 0, and a soft reset asked for while
busy sets OVR.
`pending` and `replies` are the model's own (notes/assumptions/2.md). -/
def Obligations.HostWriteOfCtrlResetsOrSetsIe : Prop :=
  ∀ (s : State) (v : Word) (rest : List HostAction), s.inReset = false →
    s.pending = .write 0x004 .word v :: rest →
    ∃ t, step s = .next t
      ∧ (v.getLsbD 1 = true → s.busy = false → SameMem s t ∧ t = { State.reset with
          params := s.params, canon := t.canon, mem := t.mem, draws := t.draws, epoch := t.epoch
          pending := rest, replies := s.replies ++ [.written] })
      ∧ (v.getLsbD 1 = false ∨ s.busy = true → t = { s with
          pending := rest, replies := s.replies ++ [.written], ie := v.getLsbD 0
          ovr := s.ovr || v.getLsbD 1 })

/-- A host write of `v` to STATUS clears DONE, ERR and OVR where `v` has the bit set, busy or not, and
changes no other part of the block (46_control.md R248).
`pending` and `replies` are the model's own (notes/assumptions/2.md). -/
def Obligations.HostWriteOfStatusClearsFlags : Prop :=
  ∀ (s : State) (v : Word) (rest : List HostAction), s.inReset = false →
    s.pending = .write 0x008 .word v :: rest →
    step s = .next { s with
      pending := rest
      replies := s.replies ++ [.written]
      done := s.done && !v.getLsbD 1
      err := s.err && !v.getLsbD 2
      ovr := s.ovr && !v.getLsbD 3 }

/-- A host write to an operand register while idle is read back whole and changes nothing else; while busy
it is dropped and sets OVR; a write to a read-only register or to a CODE entry is ignored, and sets no OVR,
at any time (46_control.md R249).
`pending` and `replies` are the model's own (notes/assumptions/2.md). -/
def Obligations.HostWriteOfRegisterIsReadBack : Prop :=
  ∀ (s : State) (r : Reg) (v : Word), s.params.legal = true →
    (isOperand r = true → s.busy = false →
      (s.busWrite r.offset .word v).regValue r = v
        ∧ (∀ r', r' ≠ r → (s.busWrite r.offset .word v).regValue r' = s.regValue r')
        ∧ s.busWrite r.offset .word v = { s with
            src := (s.busWrite r.offset .word v).src, slen := (s.busWrite r.offset .word v).slen
            dst := (s.busWrite r.offset .word v).dst, dcap := (s.busWrite r.offset .word v).dcap
            pi := (s.busWrite r.offset .word v).pi, nlen := (s.busWrite r.offset .word v).nlen
            hbits := (s.busWrite r.offset .word v).hbits
            rlelen := (s.busWrite r.offset .word v).rlelen
            bwcode := (s.busWrite r.offset .word v).bwcode
            replies := s.replies ++ [.written] })
    ∧ (isOperand r = true → s.busy = true →
      s.busWrite r.offset .word v = { s with ovr := true, replies := s.replies ++ [.written] })
    ∧ (isReadOnly r = true → s.busWrite r.offset .word v = s.reply .written)
    ∧ ∀ x : Byte, s.busWrite (0xC00 + 4 * x.toNat) .word v = s.reply .written

/-- While busy, a host write of an operand register, CMD, FREQ, LEN or MEM is dropped: only OVR is set
(20_memory.md R69). -/
def Obligations.BusyWritesAreDropped : Prop :=
  ∀ (s : State) (offset : Nat) (width : Width) (v : Word) (target : Target), s.busy = true →
    busTarget s.params offset width = some target →
    ((∃ r, target = .reg r ∧ (isOperand r = true ∨ r = .cmd)) ∨ (∃ x, target = .freq x)
      ∨ (∃ x, target = .len x) ∨ ∃ a, target = .mem a) →
    s.busWrite offset width v = { s with ovr := true, replies := s.replies ++ [.written] }

/-- While idle, a host write to `FREQ[x]` stores the word and changes nothing else; one to `LEN[x]`
stores the low byte and clears CANON_VALID and DEC_VALID, whatever the value. While busy either is dropped
and sets OVR (46_control.md R250, R251).
`pending` and `replies` are the model's own (notes/assumptions/2.md). -/
def Obligations.HostWritesOfTables : Prop :=
  ∀ (s : State) (x : Byte) (v : Word),
    (s.busy = false →
      s.busWrite (0x400 + 4 * x.toNat) .word v
          = { s with freq := setEntry s.freq x v, replies := s.replies ++ [.written] }
      ∧ s.busWrite (0x800 + 4 * x.toNat) .word v
          = { s with
              len := setEntry s.len x (v.setWidth 8), canonValid := false, decValid := false
              replies := s.replies ++ [.written] })
    ∧ (s.busy = true →
      s.busWrite (0x400 + 4 * x.toNat) .word v = { s with ovr := true, replies := s.replies ++ [.written] }
      ∧ s.busWrite (0x800 + 4 * x.toNat) .word v
          = { s with ovr := true, replies := s.replies ++ [.written] })

/-- While idle, an aligned host write of 1, 2 or 4 bytes inside MEM stores them least significant first
and changes nothing else of the block, and the same read gives the value back (20_memory.md R64, R65,
46_control.md R253). -/
def Obligations.HostMemAccessIsLittleEndian : Prop :=
  ∀ (s : State) (a : Nat) (width : Width) (v : Word), s.params.legal = true → s.busy = false →
    width ≠ .wide → a < s.params.memSize → a % width.bytes = 0 →
    let t := s.busWrite (0x10000 + a) width v
    t = { s with mem := t.mem, replies := s.replies ++ [.written] }
      ∧ (∀ i, i < width.bytes → t.readByte (a + i) = BitVec.ofNat 8 (v.toNat / 256 ^ i))
      ∧ (∀ x, x < a ∨ a + width.bytes ≤ x → t.readByte x = s.readByte x)
      ∧ t.busRead (0x10000 + a) width
          = t.reply (.data (BitVec.ofNat 32 (v.toNat % 256 ^ width.bytes)))

/-- A host access that 20_memory.md R64 does not accept gets a bus error and has no effect; a 32-bit
aligned access to a reserved offset reads 0 and writes nothing, busy or not (R63, R64, R67, with
90_conflicts.md C10). That C10 is so, and that it holds while busy, are the model's inferences
(notes/assumptions/9.md, 14.md). -/
def Obligations.RefusedAndReservedAccesses : Prop :=
  ∀ (s : State) (offset : Nat) (width : Width) (v : Word), s.params.legal = true →
    let low := offset < 0x10000
    let inMem := 0x10000 ≤ offset ∧ offset < 0x10000 + s.params.memSize
    let aligned32 := width = .word ∧ offset % 4 = 0
    (((low ∨ ¬ inMem) ∧ ¬ aligned32) ∨ (inMem ∧ (width = .wide ∨ offset % width.bytes ≠ 0)) →
      s.busRead offset width = s.reply .busError ∧ s.busWrite offset width v = s.reply .busError)
    ∧ (aligned32 → ((0x068 ≤ offset ∧ offset < 0x400) ∨ (0x1000 ≤ offset ∧ offset < 0x10000)
          ∨ 0x10000 + s.params.memSize ≤ offset) →
        s.busRead offset width = s.reply (.data 0#32) ∧ s.busWrite offset width v = s.reply .written)

/-- A host read has no side effect on the block: only its reply is recorded, and a free value may have
been drawn (20_memory.md R68). While idle every register, table entry and byte of MEM reads as its value,
those of MEM least significant first; while busy ID, CTRL, STATUS and PARAM0 to PARAM2 do, and an aligned
read of any other register, of FREQ, LEN, CODE or MEM gives some value (46_control.md R252, 20_memory.md
R69). `draws` and `replies` are the model's own (notes/assumptions/2.md, 4.md). -/
def Obligations.HostReadsHaveNoSideEffect : Prop :=
  (∀ (s : State) (offset : Nat) (width : Width),
    ∃ b, s.busRead offset width
        = { s with draws := (s.busRead offset width).draws, replies := s.replies ++ [b] }
      ∧ (s.busy = false → (s.busRead offset width).draws = s.draws))
  ∧ ∀ s : State, s.params.legal = true →
    (s.busy = false →
      (∀ p ∈ registerReads s, s.busRead p.1 .word = s.reply (.data p.2))
      ∧ (∀ x : Byte,
          s.busRead (0x400 + 4 * x.toNat) .word = s.reply (.data (entry s.freq x))
          ∧ s.busRead (0x800 + 4 * x.toNat) .word = s.reply (.data ((entry s.len x).setWidth 32))
          ∧ s.busRead (0xC00 + 4 * x.toNat) .word = s.reply (.data
              (if s.canonValid = true ∧ entry s.len x ≠ 0#8 then BitVec.ofNat 32 (entry s.canon.code x)
               else 0#32)))
      ∧ ∀ (a : Nat) (width : Width), width ≠ .wide → a < s.params.memSize → a % width.bytes = 0 →
          ∃ v : Word, s.busRead (0x10000 + a) width = s.reply (.data v)
            ∧ v.toNat < 256 ^ width.bytes
            ∧ ∀ i, i < width.bytes → BitVec.ofNat 8 (v.toNat / 256 ^ i) = s.readByte (a + i))
    ∧ (s.busy = true →
      (∀ p ∈ registerReads s, p.1 ∈ [0x000, 0x004, 0x008, 0x05C, 0x060, 0x064] →
          s.busRead p.1 .word = s.reply (.data p.2))
      ∧ (∀ p ∈ registerReads s, ∃ v, (s.busRead p.1 .word).replies = s.replies ++ [.data v])
      ∧ (∀ x : Byte, ∀ table ∈ [0x400, 0x800, 0xC00],
          ∃ v, (s.busRead (table + 4 * x.toNat) .word).replies = s.replies ++ [.data v])
      ∧ ∀ (a : Nat) (width : Width), width ≠ .wide → a < s.params.memSize → a % width.bytes = 0 →
          ∃ v, (s.busRead (0x10000 + a) width).replies = s.replies ++ [.data v])

/-! ## Reset and the invariant -/

/-- The reset values of 10_state.md R52 (and 70_reset_and_hazards.md R300, R301): every register reads 0
but ID and PARAM0 to PARAM2, every table entry is 0, every valid bit is 0, the hidden fields are 0, the
block is idle and IRQ is low. PARAM0 is said up to P_RLELEN_CHECK, which is the model's opaque constant
(notes/assumptions/1.md). -/
def Obligations.ResetValuesAreTheTables : Prop :=
  (∀ r, r ≠ .id → r ≠ .param0 → r ≠ .param1 → r ≠ .param2 → State.reset.regValue r = 0#32)
    ∧ State.reset.regValue .id = 0x42575401#32
    ∧ State.reset.regValue .param1 = 0x00010000#32 ∧ State.reset.regValue .param2 = 0x00010000#32
    ∧ (State.reset.regValue .param0 = 0x00181818#32 ∨ State.reset.regValue .param0 = 0x01181818#32
        ∨ State.reset.regValue .param0 = 0x02181818#32)
    ∧ (∀ x, entry State.reset.freq x = 0#32 ∧ entry State.reset.len x = 0#8
        ∧ State.reset.codeValue x = 0#32)
    ∧ State.reset.canonValid = false ∧ State.reset.decValid = false
    ∧ State.reset.bw = { active := false, base := 0#32, cap := 0#32, bits := 0#32, acc := 0#8 }
    ∧ State.reset.br = { active := false, base := 0#32, bytes := 0#32, pos := 0#32 }
    ∧ State.reset.busy = false ∧ State.reset.irq = false

/-- The invariant holds right after reset. -/
def Obligations.ResetMeetsTheInvariant : Prop := State.reset.Inv

/-- Every step keeps the invariant, from every state that meets it: MEM stays in canonical form and
inside its size, the flags stay exclusive, a valid CANON is the canonical table of LEN, a decoder has its
table and reader, the BitWriter and BitReader fields stay in their bounds (10_state.md R23, R25, R44, R46,
R47, R49). -/
def Obligations.StepKeepsTheInvariant : Prop :=
  ∀ s t : State, s.Inv → step s = .next t → t.Inv

/-- Assertion of the reset input with the power on: idle, or with an ILLEGAL word in flight, every MEM
byte is kept; busy, the bytes outside the region the command in flight may write are kept; every register,
table and flag is at its reset value, the unobservable contents of CANON apart. While it is asserted the
host has no access and the engine no step; its release leaves the reset values, and after a power-on no
byte of MEM has been written (70_reset_and_hazards.md R300, R302). The reset input as host actions, the
stop of a host that acts while it is held, the bytes a command may write, the fields kept beside MEM, and
the list of MEM with its epoch are the model's choices (notes/assumptions/7.md, 8.md, 13.md, 5.md). -/
def Obligations.HardwareResetKeepsMem : Prop :=
  ∀ (s : State) (rest : List HostAction),
    (s.inReset = false → s.pending = .resetAssert :: rest →
      ∃ t, step s = .next t
        ∧ t = { State.reset with
            params := s.params, canon := t.canon, mem := t.mem, draws := t.draws, epoch := s.epoch
            replies := s.replies, pending := rest, inReset := true }
        ∧ (s.busy = false ∨ (¬ ∃ i, decode s.cur = .ok i) → SameMem s t)
        ∧ ∀ i, s.busy = true → decode s.cur = .ok i →
            ∀ x, ¬((hasDest i = true ∧ s.dst.toNat ≤ x ∧ x < s.dst.toNat + s.dcap.toNat)
                ∨ ((i = .bwFinish ∨ ∃ n, i = .bwWrite n)
                    ∧ s.bw.base.toNat ≤ x ∧ x < s.bw.base.toNat + s.bw.cap.toNat)) →
              t.readByte x = s.readByte x)
    ∧ (s.inReset = true →
      (s.pending = [] → step s = .next s)
      ∧ (s.pending = .resetRelease :: rest →
          step s = .next { s with pending := rest, inReset := false })
      ∧ ((∃ a w, s.pending = .read a w :: rest) ∨ (∃ a w v, s.pending = .write a w v :: rest)
            ∨ s.pending = .wait :: rest ∨ (∃ k, s.pending = .poll k :: rest)
            ∨ s.pending = .waitIrq :: rest → step s = .fault .heldInReset))
    ∧ (s.pending = .powerOn :: rest →
      ∃ t, step s = .next t ∧ t = { State.reset with
        params := s.params, canon := t.canon, draws := s.draws, epoch := s.epoch + 1
        replies := s.replies, pending := rest, inReset := true })
end

