-- ==== Sys2Proof/Laws/State.lean ====
section
/-! SUPPORT. One lemma per field per named update of State, each true by definition. -/

namespace Sys2Proof.Machine

variable (s : State)

/-! ## `State.complete` -/
@[simp] theorem State.complete_params : (State.complete s).params = s.params := rfl
@[simp] theorem State.complete_ie : (State.complete s).ie = s.ie := rfl
@[simp] theorem State.complete_busy : (State.complete s).busy = false := rfl
@[simp] theorem State.complete_done : (State.complete s).done = true := rfl
@[simp] theorem State.complete_err : (State.complete s).err = s.err := rfl
@[simp] theorem State.complete_ovr : (State.complete s).ovr = s.ovr := rfl
@[simp] theorem State.complete_errcode : (State.complete s).errcode = s.errcode := rfl
@[simp] theorem State.complete_errinfo : (State.complete s).errinfo = s.errinfo := rfl
@[simp] theorem State.complete_cur : (State.complete s).cur = s.cur := rfl
@[simp] theorem State.complete_src : (State.complete s).src = s.src := rfl
@[simp] theorem State.complete_slen : (State.complete s).slen = s.slen := rfl
@[simp] theorem State.complete_dst : (State.complete s).dst = s.dst := rfl
@[simp] theorem State.complete_dcap : (State.complete s).dcap = s.dcap := rfl
@[simp] theorem State.complete_pi : (State.complete s).pi = s.pi := rfl
@[simp] theorem State.complete_nlen : (State.complete s).nlen = s.nlen := rfl
@[simp] theorem State.complete_hbits : (State.complete s).hbits = s.hbits := rfl
@[simp] theorem State.complete_rlelen : (State.complete s).rlelen = s.rlelen := rfl
@[simp] theorem State.complete_olen : (State.complete s).olen = s.olen := rfl
@[simp] theorem State.complete_bwcode : (State.complete s).bwcode = s.bwcode := rfl
@[simp] theorem State.complete_result : (State.complete s).result = s.result := rfl
@[simp] theorem State.complete_peekn : (State.complete s).peekn = s.peekn := rfl
@[simp] theorem State.complete_symcount : (State.complete s).symcount = s.symcount := rfl
@[simp] theorem State.complete_freq : (State.complete s).freq = s.freq := rfl
@[simp] theorem State.complete_len : (State.complete s).len = s.len := rfl
@[simp] theorem State.complete_canon : (State.complete s).canon = s.canon := rfl
@[simp] theorem State.complete_canonValid : (State.complete s).canonValid = s.canonValid := rfl
@[simp] theorem State.complete_decValid : (State.complete s).decValid = s.decValid := rfl
@[simp] theorem State.complete_bw : (State.complete s).bw = s.bw := rfl
@[simp] theorem State.complete_br : (State.complete s).br = s.br := rfl
@[simp] theorem State.complete_mem : (State.complete s).mem = s.mem := rfl
@[simp] theorem State.complete_inReset : (State.complete s).inReset = s.inReset := rfl
@[simp] theorem State.complete_pending : (State.complete s).pending = s.pending := rfl
@[simp] theorem State.complete_replies : (State.complete s).replies = s.replies := rfl
@[simp] theorem State.complete_draws : (State.complete s).draws = s.draws := rfl
@[simp] theorem State.complete_epoch : (State.complete s).epoch = s.epoch := rfl

/-! ## `State.raiseError` -/
@[simp] theorem State.raiseError_params (e : CmdError) : (State.raiseError e s).params = s.params := rfl
@[simp] theorem State.raiseError_ie (e : CmdError) : (State.raiseError e s).ie = s.ie := rfl
@[simp] theorem State.raiseError_busy (e : CmdError) : (State.raiseError e s).busy = false := rfl
@[simp] theorem State.raiseError_done (e : CmdError) : (State.raiseError e s).done = s.done := rfl
@[simp] theorem State.raiseError_err (e : CmdError) : (State.raiseError e s).err = true := rfl
@[simp] theorem State.raiseError_ovr (e : CmdError) : (State.raiseError e s).ovr = s.ovr := rfl
@[simp] theorem State.raiseError_errcode (e : CmdError) : (State.raiseError e s).errcode = e.kind.code := rfl
@[simp] theorem State.raiseError_errinfo (e : CmdError) : (State.raiseError e s).errinfo = BitVec.ofNat 32 e.info := rfl
@[simp] theorem State.raiseError_cur (e : CmdError) : (State.raiseError e s).cur = s.cur := rfl
@[simp] theorem State.raiseError_src (e : CmdError) : (State.raiseError e s).src = s.src := rfl
@[simp] theorem State.raiseError_slen (e : CmdError) : (State.raiseError e s).slen = s.slen := rfl
@[simp] theorem State.raiseError_dst (e : CmdError) : (State.raiseError e s).dst = s.dst := rfl
@[simp] theorem State.raiseError_dcap (e : CmdError) : (State.raiseError e s).dcap = s.dcap := rfl
@[simp] theorem State.raiseError_pi (e : CmdError) : (State.raiseError e s).pi = s.pi := rfl
@[simp] theorem State.raiseError_nlen (e : CmdError) : (State.raiseError e s).nlen = s.nlen := rfl
@[simp] theorem State.raiseError_hbits (e : CmdError) : (State.raiseError e s).hbits = s.hbits := rfl
@[simp] theorem State.raiseError_rlelen (e : CmdError) : (State.raiseError e s).rlelen = s.rlelen := rfl
@[simp] theorem State.raiseError_olen (e : CmdError) : (State.raiseError e s).olen = s.olen := rfl
@[simp] theorem State.raiseError_bwcode (e : CmdError) : (State.raiseError e s).bwcode = s.bwcode := rfl
@[simp] theorem State.raiseError_result (e : CmdError) : (State.raiseError e s).result = s.result := rfl
@[simp] theorem State.raiseError_peekn (e : CmdError) : (State.raiseError e s).peekn = s.peekn := rfl
@[simp] theorem State.raiseError_symcount (e : CmdError) : (State.raiseError e s).symcount = s.symcount := rfl
@[simp] theorem State.raiseError_freq (e : CmdError) : (State.raiseError e s).freq = s.freq := rfl
@[simp] theorem State.raiseError_len (e : CmdError) : (State.raiseError e s).len = s.len := rfl
@[simp] theorem State.raiseError_canon (e : CmdError) : (State.raiseError e s).canon = s.canon := rfl
@[simp] theorem State.raiseError_canonValid (e : CmdError) : (State.raiseError e s).canonValid = s.canonValid := rfl
@[simp] theorem State.raiseError_decValid (e : CmdError) : (State.raiseError e s).decValid = s.decValid := rfl
@[simp] theorem State.raiseError_bw (e : CmdError) : (State.raiseError e s).bw = s.bw := rfl
@[simp] theorem State.raiseError_br (e : CmdError) : (State.raiseError e s).br = s.br := rfl
@[simp] theorem State.raiseError_mem (e : CmdError) : (State.raiseError e s).mem = s.mem := rfl
@[simp] theorem State.raiseError_inReset (e : CmdError) : (State.raiseError e s).inReset = s.inReset := rfl
@[simp] theorem State.raiseError_pending (e : CmdError) : (State.raiseError e s).pending = s.pending := rfl
@[simp] theorem State.raiseError_replies (e : CmdError) : (State.raiseError e s).replies = s.replies := rfl
@[simp] theorem State.raiseError_draws (e : CmdError) : (State.raiseError e s).draws = s.draws := rfl
@[simp] theorem State.raiseError_epoch (e : CmdError) : (State.raiseError e s).epoch = s.epoch := rfl

/-! ## `State.accept` -/
@[simp] theorem State.accept_params (w : Word) : (State.accept w s).params = s.params := rfl
@[simp] theorem State.accept_ie (w : Word) : (State.accept w s).ie = s.ie := rfl
@[simp] theorem State.accept_busy (w : Word) : (State.accept w s).busy = true := rfl
@[simp] theorem State.accept_done (w : Word) : (State.accept w s).done = false := rfl
@[simp] theorem State.accept_err (w : Word) : (State.accept w s).err = false := rfl
@[simp] theorem State.accept_ovr (w : Word) : (State.accept w s).ovr = s.ovr := rfl
@[simp] theorem State.accept_errcode (w : Word) : (State.accept w s).errcode = 0#8 := rfl
@[simp] theorem State.accept_errinfo (w : Word) : (State.accept w s).errinfo = 0#32 := rfl
@[simp] theorem State.accept_cur (w : Word) : (State.accept w s).cur = w := rfl
@[simp] theorem State.accept_src (w : Word) : (State.accept w s).src = s.src := rfl
@[simp] theorem State.accept_slen (w : Word) : (State.accept w s).slen = s.slen := rfl
@[simp] theorem State.accept_dst (w : Word) : (State.accept w s).dst = s.dst := rfl
@[simp] theorem State.accept_dcap (w : Word) : (State.accept w s).dcap = s.dcap := rfl
@[simp] theorem State.accept_pi (w : Word) : (State.accept w s).pi = s.pi := rfl
@[simp] theorem State.accept_nlen (w : Word) : (State.accept w s).nlen = s.nlen := rfl
@[simp] theorem State.accept_hbits (w : Word) : (State.accept w s).hbits = s.hbits := rfl
@[simp] theorem State.accept_rlelen (w : Word) : (State.accept w s).rlelen = s.rlelen := rfl
@[simp] theorem State.accept_olen (w : Word) : (State.accept w s).olen = s.olen := rfl
@[simp] theorem State.accept_bwcode (w : Word) : (State.accept w s).bwcode = s.bwcode := rfl
@[simp] theorem State.accept_result (w : Word) : (State.accept w s).result = s.result := rfl
@[simp] theorem State.accept_peekn (w : Word) : (State.accept w s).peekn = s.peekn := rfl
@[simp] theorem State.accept_symcount (w : Word) : (State.accept w s).symcount = s.symcount := rfl
@[simp] theorem State.accept_freq (w : Word) : (State.accept w s).freq = s.freq := rfl
@[simp] theorem State.accept_len (w : Word) : (State.accept w s).len = s.len := rfl
@[simp] theorem State.accept_canon (w : Word) : (State.accept w s).canon = s.canon := rfl
@[simp] theorem State.accept_canonValid (w : Word) : (State.accept w s).canonValid = s.canonValid := rfl
@[simp] theorem State.accept_decValid (w : Word) : (State.accept w s).decValid = s.decValid := rfl
@[simp] theorem State.accept_bw (w : Word) : (State.accept w s).bw = s.bw := rfl
@[simp] theorem State.accept_br (w : Word) : (State.accept w s).br = s.br := rfl
@[simp] theorem State.accept_mem (w : Word) : (State.accept w s).mem = s.mem := rfl
@[simp] theorem State.accept_inReset (w : Word) : (State.accept w s).inReset = s.inReset := rfl
@[simp] theorem State.accept_pending (w : Word) : (State.accept w s).pending = s.pending := rfl
@[simp] theorem State.accept_replies (w : Word) : (State.accept w s).replies = s.replies := rfl
@[simp] theorem State.accept_draws (w : Word) : (State.accept w s).draws = s.draws := rfl
@[simp] theorem State.accept_epoch (w : Word) : (State.accept w s).epoch = s.epoch := rfl

/-! ## `State.writeBytes` -/
@[simp] theorem State.writeBytes_params (a : Nat) (bs : List Byte) : (State.writeBytes a bs s).params = s.params := rfl
@[simp] theorem State.writeBytes_ie (a : Nat) (bs : List Byte) : (State.writeBytes a bs s).ie = s.ie := rfl
@[simp] theorem State.writeBytes_busy (a : Nat) (bs : List Byte) : (State.writeBytes a bs s).busy = s.busy := rfl
@[simp] theorem State.writeBytes_done (a : Nat) (bs : List Byte) : (State.writeBytes a bs s).done = s.done := rfl
@[simp] theorem State.writeBytes_err (a : Nat) (bs : List Byte) : (State.writeBytes a bs s).err = s.err := rfl
@[simp] theorem State.writeBytes_ovr (a : Nat) (bs : List Byte) : (State.writeBytes a bs s).ovr = s.ovr := rfl
@[simp] theorem State.writeBytes_errcode (a : Nat) (bs : List Byte) : (State.writeBytes a bs s).errcode = s.errcode := rfl
@[simp] theorem State.writeBytes_errinfo (a : Nat) (bs : List Byte) : (State.writeBytes a bs s).errinfo = s.errinfo := rfl
@[simp] theorem State.writeBytes_cur (a : Nat) (bs : List Byte) : (State.writeBytes a bs s).cur = s.cur := rfl
@[simp] theorem State.writeBytes_src (a : Nat) (bs : List Byte) : (State.writeBytes a bs s).src = s.src := rfl
@[simp] theorem State.writeBytes_slen (a : Nat) (bs : List Byte) : (State.writeBytes a bs s).slen = s.slen := rfl
@[simp] theorem State.writeBytes_dst (a : Nat) (bs : List Byte) : (State.writeBytes a bs s).dst = s.dst := rfl
@[simp] theorem State.writeBytes_dcap (a : Nat) (bs : List Byte) : (State.writeBytes a bs s).dcap = s.dcap := rfl
@[simp] theorem State.writeBytes_pi (a : Nat) (bs : List Byte) : (State.writeBytes a bs s).pi = s.pi := rfl
@[simp] theorem State.writeBytes_nlen (a : Nat) (bs : List Byte) : (State.writeBytes a bs s).nlen = s.nlen := rfl
@[simp] theorem State.writeBytes_hbits (a : Nat) (bs : List Byte) : (State.writeBytes a bs s).hbits = s.hbits := rfl
@[simp] theorem State.writeBytes_rlelen (a : Nat) (bs : List Byte) : (State.writeBytes a bs s).rlelen = s.rlelen := rfl
@[simp] theorem State.writeBytes_olen (a : Nat) (bs : List Byte) : (State.writeBytes a bs s).olen = s.olen := rfl
@[simp] theorem State.writeBytes_bwcode (a : Nat) (bs : List Byte) : (State.writeBytes a bs s).bwcode = s.bwcode := rfl
@[simp] theorem State.writeBytes_result (a : Nat) (bs : List Byte) : (State.writeBytes a bs s).result = s.result := rfl
@[simp] theorem State.writeBytes_peekn (a : Nat) (bs : List Byte) : (State.writeBytes a bs s).peekn = s.peekn := rfl
@[simp] theorem State.writeBytes_symcount (a : Nat) (bs : List Byte) : (State.writeBytes a bs s).symcount = s.symcount := rfl
@[simp] theorem State.writeBytes_freq (a : Nat) (bs : List Byte) : (State.writeBytes a bs s).freq = s.freq := rfl
@[simp] theorem State.writeBytes_len (a : Nat) (bs : List Byte) : (State.writeBytes a bs s).len = s.len := rfl
@[simp] theorem State.writeBytes_canon (a : Nat) (bs : List Byte) : (State.writeBytes a bs s).canon = s.canon := rfl
@[simp] theorem State.writeBytes_canonValid (a : Nat) (bs : List Byte) : (State.writeBytes a bs s).canonValid = s.canonValid := rfl
@[simp] theorem State.writeBytes_decValid (a : Nat) (bs : List Byte) : (State.writeBytes a bs s).decValid = s.decValid := rfl
@[simp] theorem State.writeBytes_bw (a : Nat) (bs : List Byte) : (State.writeBytes a bs s).bw = s.bw := rfl
@[simp] theorem State.writeBytes_br (a : Nat) (bs : List Byte) : (State.writeBytes a bs s).br = s.br := rfl
@[simp] theorem State.writeBytes_mem (a : Nat) (bs : List Byte) : (State.writeBytes a bs s).mem = s.mem.writeRun a bs := rfl
@[simp] theorem State.writeBytes_inReset (a : Nat) (bs : List Byte) : (State.writeBytes a bs s).inReset = s.inReset := rfl
@[simp] theorem State.writeBytes_pending (a : Nat) (bs : List Byte) : (State.writeBytes a bs s).pending = s.pending := rfl
@[simp] theorem State.writeBytes_replies (a : Nat) (bs : List Byte) : (State.writeBytes a bs s).replies = s.replies := rfl
@[simp] theorem State.writeBytes_draws (a : Nat) (bs : List Byte) : (State.writeBytes a bs s).draws = s.draws := rfl
@[simp] theorem State.writeBytes_epoch (a : Nat) (bs : List Byte) : (State.writeBytes a bs s).epoch = s.epoch := rfl

/-! ## `State.scramble` -/
@[simp] theorem State.scramble_params (a n : Nat) : (State.scramble a n s).params = s.params := rfl
@[simp] theorem State.scramble_ie (a n : Nat) : (State.scramble a n s).ie = s.ie := rfl
@[simp] theorem State.scramble_busy (a n : Nat) : (State.scramble a n s).busy = s.busy := rfl
@[simp] theorem State.scramble_done (a n : Nat) : (State.scramble a n s).done = s.done := rfl
@[simp] theorem State.scramble_err (a n : Nat) : (State.scramble a n s).err = s.err := rfl
@[simp] theorem State.scramble_ovr (a n : Nat) : (State.scramble a n s).ovr = s.ovr := rfl
@[simp] theorem State.scramble_errcode (a n : Nat) : (State.scramble a n s).errcode = s.errcode := rfl
@[simp] theorem State.scramble_errinfo (a n : Nat) : (State.scramble a n s).errinfo = s.errinfo := rfl
@[simp] theorem State.scramble_cur (a n : Nat) : (State.scramble a n s).cur = s.cur := rfl
@[simp] theorem State.scramble_src (a n : Nat) : (State.scramble a n s).src = s.src := rfl
@[simp] theorem State.scramble_slen (a n : Nat) : (State.scramble a n s).slen = s.slen := rfl
@[simp] theorem State.scramble_dst (a n : Nat) : (State.scramble a n s).dst = s.dst := rfl
@[simp] theorem State.scramble_dcap (a n : Nat) : (State.scramble a n s).dcap = s.dcap := rfl
@[simp] theorem State.scramble_pi (a n : Nat) : (State.scramble a n s).pi = s.pi := rfl
@[simp] theorem State.scramble_nlen (a n : Nat) : (State.scramble a n s).nlen = s.nlen := rfl
@[simp] theorem State.scramble_hbits (a n : Nat) : (State.scramble a n s).hbits = s.hbits := rfl
@[simp] theorem State.scramble_rlelen (a n : Nat) : (State.scramble a n s).rlelen = s.rlelen := rfl
@[simp] theorem State.scramble_olen (a n : Nat) : (State.scramble a n s).olen = s.olen := rfl
@[simp] theorem State.scramble_bwcode (a n : Nat) : (State.scramble a n s).bwcode = s.bwcode := rfl
@[simp] theorem State.scramble_result (a n : Nat) : (State.scramble a n s).result = s.result := rfl
@[simp] theorem State.scramble_peekn (a n : Nat) : (State.scramble a n s).peekn = s.peekn := rfl
@[simp] theorem State.scramble_symcount (a n : Nat) : (State.scramble a n s).symcount = s.symcount := rfl
@[simp] theorem State.scramble_freq (a n : Nat) : (State.scramble a n s).freq = s.freq := rfl
@[simp] theorem State.scramble_len (a n : Nat) : (State.scramble a n s).len = s.len := rfl
@[simp] theorem State.scramble_canon (a n : Nat) : (State.scramble a n s).canon = s.canon := rfl
@[simp] theorem State.scramble_canonValid (a n : Nat) : (State.scramble a n s).canonValid = s.canonValid := rfl
@[simp] theorem State.scramble_decValid (a n : Nat) : (State.scramble a n s).decValid = s.decValid := rfl
@[simp] theorem State.scramble_bw (a n : Nat) : (State.scramble a n s).bw = s.bw := rfl
@[simp] theorem State.scramble_br (a n : Nat) : (State.scramble a n s).br = s.br := rfl
@[simp] theorem State.scramble_mem (a n : Nat) : (State.scramble a n s).mem = s.mem.writeRun a (freeBytes s.draws n) := rfl
@[simp] theorem State.scramble_inReset (a n : Nat) : (State.scramble a n s).inReset = s.inReset := rfl
@[simp] theorem State.scramble_pending (a n : Nat) : (State.scramble a n s).pending = s.pending := rfl
@[simp] theorem State.scramble_replies (a n : Nat) : (State.scramble a n s).replies = s.replies := rfl
@[simp] theorem State.scramble_draws (a n : Nat) : (State.scramble a n s).draws = s.draws + n := rfl
@[simp] theorem State.scramble_epoch (a n : Nat) : (State.scramble a n s).epoch = s.epoch := rfl

/-! ## `State.dropCanon` -/
@[simp] theorem State.dropCanon_params : (State.dropCanon s).params = s.params := rfl
@[simp] theorem State.dropCanon_ie : (State.dropCanon s).ie = s.ie := rfl
@[simp] theorem State.dropCanon_busy : (State.dropCanon s).busy = s.busy := rfl
@[simp] theorem State.dropCanon_done : (State.dropCanon s).done = s.done := rfl
@[simp] theorem State.dropCanon_err : (State.dropCanon s).err = s.err := rfl
@[simp] theorem State.dropCanon_ovr : (State.dropCanon s).ovr = s.ovr := rfl
@[simp] theorem State.dropCanon_errcode : (State.dropCanon s).errcode = s.errcode := rfl
@[simp] theorem State.dropCanon_errinfo : (State.dropCanon s).errinfo = s.errinfo := rfl
@[simp] theorem State.dropCanon_cur : (State.dropCanon s).cur = s.cur := rfl
@[simp] theorem State.dropCanon_src : (State.dropCanon s).src = s.src := rfl
@[simp] theorem State.dropCanon_slen : (State.dropCanon s).slen = s.slen := rfl
@[simp] theorem State.dropCanon_dst : (State.dropCanon s).dst = s.dst := rfl
@[simp] theorem State.dropCanon_dcap : (State.dropCanon s).dcap = s.dcap := rfl
@[simp] theorem State.dropCanon_pi : (State.dropCanon s).pi = s.pi := rfl
@[simp] theorem State.dropCanon_nlen : (State.dropCanon s).nlen = s.nlen := rfl
@[simp] theorem State.dropCanon_hbits : (State.dropCanon s).hbits = s.hbits := rfl
@[simp] theorem State.dropCanon_rlelen : (State.dropCanon s).rlelen = s.rlelen := rfl
@[simp] theorem State.dropCanon_olen : (State.dropCanon s).olen = s.olen := rfl
@[simp] theorem State.dropCanon_bwcode : (State.dropCanon s).bwcode = s.bwcode := rfl
@[simp] theorem State.dropCanon_result : (State.dropCanon s).result = s.result := rfl
@[simp] theorem State.dropCanon_peekn : (State.dropCanon s).peekn = s.peekn := rfl
@[simp] theorem State.dropCanon_symcount : (State.dropCanon s).symcount = s.symcount := rfl
@[simp] theorem State.dropCanon_freq : (State.dropCanon s).freq = s.freq := rfl
@[simp] theorem State.dropCanon_len : (State.dropCanon s).len = s.len := rfl
@[simp] theorem State.dropCanon_canon : (State.dropCanon s).canon = s.canon := rfl
@[simp] theorem State.dropCanon_canonValid : (State.dropCanon s).canonValid = false := rfl
@[simp] theorem State.dropCanon_decValid : (State.dropCanon s).decValid = s.decValid := rfl
@[simp] theorem State.dropCanon_bw : (State.dropCanon s).bw = s.bw := rfl
@[simp] theorem State.dropCanon_br : (State.dropCanon s).br = s.br := rfl
@[simp] theorem State.dropCanon_mem : (State.dropCanon s).mem = s.mem := rfl
@[simp] theorem State.dropCanon_inReset : (State.dropCanon s).inReset = s.inReset := rfl
@[simp] theorem State.dropCanon_pending : (State.dropCanon s).pending = s.pending := rfl
@[simp] theorem State.dropCanon_replies : (State.dropCanon s).replies = s.replies := rfl
@[simp] theorem State.dropCanon_draws : (State.dropCanon s).draws = s.draws := rfl
@[simp] theorem State.dropCanon_epoch : (State.dropCanon s).epoch = s.epoch := rfl

/-! ## `State.dropDecoder` -/
@[simp] theorem State.dropDecoder_params : (State.dropDecoder s).params = s.params := rfl
@[simp] theorem State.dropDecoder_ie : (State.dropDecoder s).ie = s.ie := rfl
@[simp] theorem State.dropDecoder_busy : (State.dropDecoder s).busy = s.busy := rfl
@[simp] theorem State.dropDecoder_done : (State.dropDecoder s).done = s.done := rfl
@[simp] theorem State.dropDecoder_err : (State.dropDecoder s).err = s.err := rfl
@[simp] theorem State.dropDecoder_ovr : (State.dropDecoder s).ovr = s.ovr := rfl
@[simp] theorem State.dropDecoder_errcode : (State.dropDecoder s).errcode = s.errcode := rfl
@[simp] theorem State.dropDecoder_errinfo : (State.dropDecoder s).errinfo = s.errinfo := rfl
@[simp] theorem State.dropDecoder_cur : (State.dropDecoder s).cur = s.cur := rfl
@[simp] theorem State.dropDecoder_src : (State.dropDecoder s).src = s.src := rfl
@[simp] theorem State.dropDecoder_slen : (State.dropDecoder s).slen = s.slen := rfl
@[simp] theorem State.dropDecoder_dst : (State.dropDecoder s).dst = s.dst := rfl
@[simp] theorem State.dropDecoder_dcap : (State.dropDecoder s).dcap = s.dcap := rfl
@[simp] theorem State.dropDecoder_pi : (State.dropDecoder s).pi = s.pi := rfl
@[simp] theorem State.dropDecoder_nlen : (State.dropDecoder s).nlen = s.nlen := rfl
@[simp] theorem State.dropDecoder_hbits : (State.dropDecoder s).hbits = s.hbits := rfl
@[simp] theorem State.dropDecoder_rlelen : (State.dropDecoder s).rlelen = s.rlelen := rfl
@[simp] theorem State.dropDecoder_olen : (State.dropDecoder s).olen = s.olen := rfl
@[simp] theorem State.dropDecoder_bwcode : (State.dropDecoder s).bwcode = s.bwcode := rfl
@[simp] theorem State.dropDecoder_result : (State.dropDecoder s).result = s.result := rfl
@[simp] theorem State.dropDecoder_peekn : (State.dropDecoder s).peekn = s.peekn := rfl
@[simp] theorem State.dropDecoder_symcount : (State.dropDecoder s).symcount = s.symcount := rfl
@[simp] theorem State.dropDecoder_freq : (State.dropDecoder s).freq = s.freq := rfl
@[simp] theorem State.dropDecoder_len : (State.dropDecoder s).len = s.len := rfl
@[simp] theorem State.dropDecoder_canon : (State.dropDecoder s).canon = s.canon := rfl
@[simp] theorem State.dropDecoder_canonValid : (State.dropDecoder s).canonValid = s.canonValid := rfl
@[simp] theorem State.dropDecoder_decValid : (State.dropDecoder s).decValid = false := rfl
@[simp] theorem State.dropDecoder_bw : (State.dropDecoder s).bw = s.bw := rfl
@[simp] theorem State.dropDecoder_br : (State.dropDecoder s).br = s.br := rfl
@[simp] theorem State.dropDecoder_mem : (State.dropDecoder s).mem = s.mem := rfl
@[simp] theorem State.dropDecoder_inReset : (State.dropDecoder s).inReset = s.inReset := rfl
@[simp] theorem State.dropDecoder_pending : (State.dropDecoder s).pending = s.pending := rfl
@[simp] theorem State.dropDecoder_replies : (State.dropDecoder s).replies = s.replies := rfl
@[simp] theorem State.dropDecoder_draws : (State.dropDecoder s).draws = s.draws := rfl
@[simp] theorem State.dropDecoder_epoch : (State.dropDecoder s).epoch = s.epoch := rfl

/-! ## `State.dropWriter` -/
@[simp] theorem State.dropWriter_params : (State.dropWriter s).params = s.params := rfl
@[simp] theorem State.dropWriter_ie : (State.dropWriter s).ie = s.ie := rfl
@[simp] theorem State.dropWriter_busy : (State.dropWriter s).busy = s.busy := rfl
@[simp] theorem State.dropWriter_done : (State.dropWriter s).done = s.done := rfl
@[simp] theorem State.dropWriter_err : (State.dropWriter s).err = s.err := rfl
@[simp] theorem State.dropWriter_ovr : (State.dropWriter s).ovr = s.ovr := rfl
@[simp] theorem State.dropWriter_errcode : (State.dropWriter s).errcode = s.errcode := rfl
@[simp] theorem State.dropWriter_errinfo : (State.dropWriter s).errinfo = s.errinfo := rfl
@[simp] theorem State.dropWriter_cur : (State.dropWriter s).cur = s.cur := rfl
@[simp] theorem State.dropWriter_src : (State.dropWriter s).src = s.src := rfl
@[simp] theorem State.dropWriter_slen : (State.dropWriter s).slen = s.slen := rfl
@[simp] theorem State.dropWriter_dst : (State.dropWriter s).dst = s.dst := rfl
@[simp] theorem State.dropWriter_dcap : (State.dropWriter s).dcap = s.dcap := rfl
@[simp] theorem State.dropWriter_pi : (State.dropWriter s).pi = s.pi := rfl
@[simp] theorem State.dropWriter_nlen : (State.dropWriter s).nlen = s.nlen := rfl
@[simp] theorem State.dropWriter_hbits : (State.dropWriter s).hbits = s.hbits := rfl
@[simp] theorem State.dropWriter_rlelen : (State.dropWriter s).rlelen = s.rlelen := rfl
@[simp] theorem State.dropWriter_olen : (State.dropWriter s).olen = s.olen := rfl
@[simp] theorem State.dropWriter_bwcode : (State.dropWriter s).bwcode = s.bwcode := rfl
@[simp] theorem State.dropWriter_result : (State.dropWriter s).result = s.result := rfl
@[simp] theorem State.dropWriter_peekn : (State.dropWriter s).peekn = s.peekn := rfl
@[simp] theorem State.dropWriter_symcount : (State.dropWriter s).symcount = s.symcount := rfl
@[simp] theorem State.dropWriter_freq : (State.dropWriter s).freq = s.freq := rfl
@[simp] theorem State.dropWriter_len : (State.dropWriter s).len = s.len := rfl
@[simp] theorem State.dropWriter_canon : (State.dropWriter s).canon = s.canon := rfl
@[simp] theorem State.dropWriter_canonValid : (State.dropWriter s).canonValid = s.canonValid := rfl
@[simp] theorem State.dropWriter_decValid : (State.dropWriter s).decValid = s.decValid := rfl
@[simp] theorem State.dropWriter_bw : (State.dropWriter s).bw = { s.bw with active := false } := rfl
@[simp] theorem State.dropWriter_br : (State.dropWriter s).br = s.br := rfl
@[simp] theorem State.dropWriter_mem : (State.dropWriter s).mem = s.mem := rfl
@[simp] theorem State.dropWriter_inReset : (State.dropWriter s).inReset = s.inReset := rfl
@[simp] theorem State.dropWriter_pending : (State.dropWriter s).pending = s.pending := rfl
@[simp] theorem State.dropWriter_replies : (State.dropWriter s).replies = s.replies := rfl
@[simp] theorem State.dropWriter_draws : (State.dropWriter s).draws = s.draws := rfl
@[simp] theorem State.dropWriter_epoch : (State.dropWriter s).epoch = s.epoch := rfl

/-! ## `State.dropReader` -/
@[simp] theorem State.dropReader_params : (State.dropReader s).params = s.params := rfl
@[simp] theorem State.dropReader_ie : (State.dropReader s).ie = s.ie := rfl
@[simp] theorem State.dropReader_busy : (State.dropReader s).busy = s.busy := rfl
@[simp] theorem State.dropReader_done : (State.dropReader s).done = s.done := rfl
@[simp] theorem State.dropReader_err : (State.dropReader s).err = s.err := rfl
@[simp] theorem State.dropReader_ovr : (State.dropReader s).ovr = s.ovr := rfl
@[simp] theorem State.dropReader_errcode : (State.dropReader s).errcode = s.errcode := rfl
@[simp] theorem State.dropReader_errinfo : (State.dropReader s).errinfo = s.errinfo := rfl
@[simp] theorem State.dropReader_cur : (State.dropReader s).cur = s.cur := rfl
@[simp] theorem State.dropReader_src : (State.dropReader s).src = s.src := rfl
@[simp] theorem State.dropReader_slen : (State.dropReader s).slen = s.slen := rfl
@[simp] theorem State.dropReader_dst : (State.dropReader s).dst = s.dst := rfl
@[simp] theorem State.dropReader_dcap : (State.dropReader s).dcap = s.dcap := rfl
@[simp] theorem State.dropReader_pi : (State.dropReader s).pi = s.pi := rfl
@[simp] theorem State.dropReader_nlen : (State.dropReader s).nlen = s.nlen := rfl
@[simp] theorem State.dropReader_hbits : (State.dropReader s).hbits = s.hbits := rfl
@[simp] theorem State.dropReader_rlelen : (State.dropReader s).rlelen = s.rlelen := rfl
@[simp] theorem State.dropReader_olen : (State.dropReader s).olen = s.olen := rfl
@[simp] theorem State.dropReader_bwcode : (State.dropReader s).bwcode = s.bwcode := rfl
@[simp] theorem State.dropReader_result : (State.dropReader s).result = s.result := rfl
@[simp] theorem State.dropReader_peekn : (State.dropReader s).peekn = s.peekn := rfl
@[simp] theorem State.dropReader_symcount : (State.dropReader s).symcount = s.symcount := rfl
@[simp] theorem State.dropReader_freq : (State.dropReader s).freq = s.freq := rfl
@[simp] theorem State.dropReader_len : (State.dropReader s).len = s.len := rfl
@[simp] theorem State.dropReader_canon : (State.dropReader s).canon = s.canon := rfl
@[simp] theorem State.dropReader_canonValid : (State.dropReader s).canonValid = s.canonValid := rfl
@[simp] theorem State.dropReader_decValid : (State.dropReader s).decValid = s.decValid := rfl
@[simp] theorem State.dropReader_bw : (State.dropReader s).bw = s.bw := rfl
@[simp] theorem State.dropReader_br : (State.dropReader s).br = { s.br with active := false } := rfl
@[simp] theorem State.dropReader_mem : (State.dropReader s).mem = s.mem := rfl
@[simp] theorem State.dropReader_inReset : (State.dropReader s).inReset = s.inReset := rfl
@[simp] theorem State.dropReader_pending : (State.dropReader s).pending = s.pending := rfl
@[simp] theorem State.dropReader_replies : (State.dropReader s).replies = s.replies := rfl
@[simp] theorem State.dropReader_draws : (State.dropReader s).draws = s.draws := rfl
@[simp] theorem State.dropReader_epoch : (State.dropReader s).epoch = s.epoch := rfl

/-! ## `State.dropReading` -/
@[simp] theorem State.dropReading_params : (State.dropReading s).params = s.params := rfl
@[simp] theorem State.dropReading_ie : (State.dropReading s).ie = s.ie := rfl
@[simp] theorem State.dropReading_busy : (State.dropReading s).busy = s.busy := rfl
@[simp] theorem State.dropReading_done : (State.dropReading s).done = s.done := rfl
@[simp] theorem State.dropReading_err : (State.dropReading s).err = s.err := rfl
@[simp] theorem State.dropReading_ovr : (State.dropReading s).ovr = s.ovr := rfl
@[simp] theorem State.dropReading_errcode : (State.dropReading s).errcode = s.errcode := rfl
@[simp] theorem State.dropReading_errinfo : (State.dropReading s).errinfo = s.errinfo := rfl
@[simp] theorem State.dropReading_cur : (State.dropReading s).cur = s.cur := rfl
@[simp] theorem State.dropReading_src : (State.dropReading s).src = s.src := rfl
@[simp] theorem State.dropReading_slen : (State.dropReading s).slen = s.slen := rfl
@[simp] theorem State.dropReading_dst : (State.dropReading s).dst = s.dst := rfl
@[simp] theorem State.dropReading_dcap : (State.dropReading s).dcap = s.dcap := rfl
@[simp] theorem State.dropReading_pi : (State.dropReading s).pi = s.pi := rfl
@[simp] theorem State.dropReading_nlen : (State.dropReading s).nlen = s.nlen := rfl
@[simp] theorem State.dropReading_hbits : (State.dropReading s).hbits = s.hbits := rfl
@[simp] theorem State.dropReading_rlelen : (State.dropReading s).rlelen = s.rlelen := rfl
@[simp] theorem State.dropReading_olen : (State.dropReading s).olen = s.olen := rfl
@[simp] theorem State.dropReading_bwcode : (State.dropReading s).bwcode = s.bwcode := rfl
@[simp] theorem State.dropReading_result : (State.dropReading s).result = s.result := rfl
@[simp] theorem State.dropReading_peekn : (State.dropReading s).peekn = s.peekn := rfl
@[simp] theorem State.dropReading_symcount : (State.dropReading s).symcount = s.symcount := rfl
@[simp] theorem State.dropReading_freq : (State.dropReading s).freq = s.freq := rfl
@[simp] theorem State.dropReading_len : (State.dropReading s).len = s.len := rfl
@[simp] theorem State.dropReading_canon : (State.dropReading s).canon = s.canon := rfl
@[simp] theorem State.dropReading_canonValid : (State.dropReading s).canonValid = s.canonValid := rfl
@[simp] theorem State.dropReading_decValid : (State.dropReading s).decValid = false := rfl
@[simp] theorem State.dropReading_bw : (State.dropReading s).bw = s.bw := rfl
@[simp] theorem State.dropReading_br : (State.dropReading s).br = { s.br with active := false } := rfl
@[simp] theorem State.dropReading_mem : (State.dropReading s).mem = s.mem := rfl
@[simp] theorem State.dropReading_inReset : (State.dropReading s).inReset = s.inReset := rfl
@[simp] theorem State.dropReading_pending : (State.dropReading s).pending = s.pending := rfl
@[simp] theorem State.dropReading_replies : (State.dropReading s).replies = s.replies := rfl
@[simp] theorem State.dropReading_draws : (State.dropReading s).draws = s.draws := rfl
@[simp] theorem State.dropReading_epoch : (State.dropReading s).epoch = s.epoch := rfl

/-! ## `State.scrambleDest` -/
@[simp] theorem State.scrambleDest_params : (State.scrambleDest s).params = s.params := rfl
@[simp] theorem State.scrambleDest_ie : (State.scrambleDest s).ie = s.ie := rfl
@[simp] theorem State.scrambleDest_busy : (State.scrambleDest s).busy = s.busy := rfl
@[simp] theorem State.scrambleDest_done : (State.scrambleDest s).done = s.done := rfl
@[simp] theorem State.scrambleDest_err : (State.scrambleDest s).err = s.err := rfl
@[simp] theorem State.scrambleDest_ovr : (State.scrambleDest s).ovr = s.ovr := rfl
@[simp] theorem State.scrambleDest_errcode : (State.scrambleDest s).errcode = s.errcode := rfl
@[simp] theorem State.scrambleDest_errinfo : (State.scrambleDest s).errinfo = s.errinfo := rfl
@[simp] theorem State.scrambleDest_cur : (State.scrambleDest s).cur = s.cur := rfl
@[simp] theorem State.scrambleDest_src : (State.scrambleDest s).src = s.src := rfl
@[simp] theorem State.scrambleDest_slen : (State.scrambleDest s).slen = s.slen := rfl
@[simp] theorem State.scrambleDest_dst : (State.scrambleDest s).dst = s.dst := rfl
@[simp] theorem State.scrambleDest_dcap : (State.scrambleDest s).dcap = s.dcap := rfl
@[simp] theorem State.scrambleDest_pi : (State.scrambleDest s).pi = s.pi := rfl
@[simp] theorem State.scrambleDest_nlen : (State.scrambleDest s).nlen = s.nlen := rfl
@[simp] theorem State.scrambleDest_hbits : (State.scrambleDest s).hbits = s.hbits := rfl
@[simp] theorem State.scrambleDest_rlelen : (State.scrambleDest s).rlelen = s.rlelen := rfl
@[simp] theorem State.scrambleDest_olen : (State.scrambleDest s).olen = s.olen := rfl
@[simp] theorem State.scrambleDest_bwcode : (State.scrambleDest s).bwcode = s.bwcode := rfl
@[simp] theorem State.scrambleDest_result : (State.scrambleDest s).result = s.result := rfl
@[simp] theorem State.scrambleDest_peekn : (State.scrambleDest s).peekn = s.peekn := rfl
@[simp] theorem State.scrambleDest_symcount : (State.scrambleDest s).symcount = s.symcount := rfl
@[simp] theorem State.scrambleDest_freq : (State.scrambleDest s).freq = s.freq := rfl
@[simp] theorem State.scrambleDest_len : (State.scrambleDest s).len = s.len := rfl
@[simp] theorem State.scrambleDest_canon : (State.scrambleDest s).canon = s.canon := rfl
@[simp] theorem State.scrambleDest_canonValid : (State.scrambleDest s).canonValid = s.canonValid := rfl
@[simp] theorem State.scrambleDest_decValid : (State.scrambleDest s).decValid = s.decValid := rfl
@[simp] theorem State.scrambleDest_bw : (State.scrambleDest s).bw = s.bw := rfl
@[simp] theorem State.scrambleDest_br : (State.scrambleDest s).br = s.br := rfl
@[simp] theorem State.scrambleDest_mem : (State.scrambleDest s).mem = s.mem.writeRun s.dst.toNat (freeBytes s.draws s.dcap.toNat) := rfl
@[simp] theorem State.scrambleDest_inReset : (State.scrambleDest s).inReset = s.inReset := rfl
@[simp] theorem State.scrambleDest_pending : (State.scrambleDest s).pending = s.pending := rfl
@[simp] theorem State.scrambleDest_replies : (State.scrambleDest s).replies = s.replies := rfl
@[simp] theorem State.scrambleDest_draws : (State.scrambleDest s).draws = s.draws + s.dcap.toNat := rfl
@[simp] theorem State.scrambleDest_epoch : (State.scrambleDest s).epoch = s.epoch := rfl

/-! ## `State.failTables` -/
@[simp] theorem State.failTables_params (e : CmdError) : (State.failTables e s).params = s.params := rfl
@[simp] theorem State.failTables_ie (e : CmdError) : (State.failTables e s).ie = s.ie := rfl
@[simp] theorem State.failTables_busy (e : CmdError) : (State.failTables e s).busy = false := rfl
@[simp] theorem State.failTables_done (e : CmdError) : (State.failTables e s).done = s.done := rfl
@[simp] theorem State.failTables_err (e : CmdError) : (State.failTables e s).err = true := rfl
@[simp] theorem State.failTables_ovr (e : CmdError) : (State.failTables e s).ovr = s.ovr := rfl
@[simp] theorem State.failTables_errcode (e : CmdError) : (State.failTables e s).errcode = e.kind.code := rfl
@[simp] theorem State.failTables_errinfo (e : CmdError) : (State.failTables e s).errinfo = BitVec.ofNat 32 e.info := rfl
@[simp] theorem State.failTables_cur (e : CmdError) : (State.failTables e s).cur = s.cur := rfl
@[simp] theorem State.failTables_src (e : CmdError) : (State.failTables e s).src = s.src := rfl
@[simp] theorem State.failTables_slen (e : CmdError) : (State.failTables e s).slen = s.slen := rfl
@[simp] theorem State.failTables_dst (e : CmdError) : (State.failTables e s).dst = s.dst := rfl
@[simp] theorem State.failTables_dcap (e : CmdError) : (State.failTables e s).dcap = s.dcap := rfl
@[simp] theorem State.failTables_pi (e : CmdError) : (State.failTables e s).pi = s.pi := rfl
@[simp] theorem State.failTables_nlen (e : CmdError) : (State.failTables e s).nlen = s.nlen := rfl
@[simp] theorem State.failTables_hbits (e : CmdError) : (State.failTables e s).hbits = s.hbits := rfl
@[simp] theorem State.failTables_rlelen (e : CmdError) : (State.failTables e s).rlelen = s.rlelen := rfl
@[simp] theorem State.failTables_olen (e : CmdError) : (State.failTables e s).olen = s.olen := rfl
@[simp] theorem State.failTables_bwcode (e : CmdError) : (State.failTables e s).bwcode = s.bwcode := rfl
@[simp] theorem State.failTables_result (e : CmdError) : (State.failTables e s).result = s.result := rfl
@[simp] theorem State.failTables_peekn (e : CmdError) : (State.failTables e s).peekn = s.peekn := rfl
@[simp] theorem State.failTables_symcount (e : CmdError) : (State.failTables e s).symcount = s.symcount := rfl
@[simp] theorem State.failTables_freq (e : CmdError) : (State.failTables e s).freq = s.freq := rfl
@[simp] theorem State.failTables_len (e : CmdError) : (State.failTables e s).len = s.len := rfl
@[simp] theorem State.failTables_canon (e : CmdError) : (State.failTables e s).canon = s.canon := rfl
@[simp] theorem State.failTables_canonValid (e : CmdError) : (State.failTables e s).canonValid = false := rfl
@[simp] theorem State.failTables_decValid (e : CmdError) : (State.failTables e s).decValid = s.decValid := rfl
@[simp] theorem State.failTables_bw (e : CmdError) : (State.failTables e s).bw = s.bw := rfl
@[simp] theorem State.failTables_br (e : CmdError) : (State.failTables e s).br = s.br := rfl
@[simp] theorem State.failTables_mem (e : CmdError) : (State.failTables e s).mem = s.mem.writeRun s.dst.toNat (freeBytes s.draws s.dcap.toNat) := rfl
@[simp] theorem State.failTables_inReset (e : CmdError) : (State.failTables e s).inReset = s.inReset := rfl
@[simp] theorem State.failTables_pending (e : CmdError) : (State.failTables e s).pending = s.pending := rfl
@[simp] theorem State.failTables_replies (e : CmdError) : (State.failTables e s).replies = s.replies := rfl
@[simp] theorem State.failTables_draws (e : CmdError) : (State.failTables e s).draws = s.draws + s.dcap.toNat := rfl
@[simp] theorem State.failTables_epoch (e : CmdError) : (State.failTables e s).epoch = s.epoch := rfl

/-! ## `State.overrun` -/
@[simp] theorem State.overrun_params : (State.overrun s).params = s.params := rfl
@[simp] theorem State.overrun_ie : (State.overrun s).ie = s.ie := rfl
@[simp] theorem State.overrun_busy : (State.overrun s).busy = s.busy := rfl
@[simp] theorem State.overrun_done : (State.overrun s).done = s.done := rfl
@[simp] theorem State.overrun_err : (State.overrun s).err = s.err := rfl
@[simp] theorem State.overrun_ovr : (State.overrun s).ovr = true := rfl
@[simp] theorem State.overrun_errcode : (State.overrun s).errcode = s.errcode := rfl
@[simp] theorem State.overrun_errinfo : (State.overrun s).errinfo = s.errinfo := rfl
@[simp] theorem State.overrun_cur : (State.overrun s).cur = s.cur := rfl
@[simp] theorem State.overrun_src : (State.overrun s).src = s.src := rfl
@[simp] theorem State.overrun_slen : (State.overrun s).slen = s.slen := rfl
@[simp] theorem State.overrun_dst : (State.overrun s).dst = s.dst := rfl
@[simp] theorem State.overrun_dcap : (State.overrun s).dcap = s.dcap := rfl
@[simp] theorem State.overrun_pi : (State.overrun s).pi = s.pi := rfl
@[simp] theorem State.overrun_nlen : (State.overrun s).nlen = s.nlen := rfl
@[simp] theorem State.overrun_hbits : (State.overrun s).hbits = s.hbits := rfl
@[simp] theorem State.overrun_rlelen : (State.overrun s).rlelen = s.rlelen := rfl
@[simp] theorem State.overrun_olen : (State.overrun s).olen = s.olen := rfl
@[simp] theorem State.overrun_bwcode : (State.overrun s).bwcode = s.bwcode := rfl
@[simp] theorem State.overrun_result : (State.overrun s).result = s.result := rfl
@[simp] theorem State.overrun_peekn : (State.overrun s).peekn = s.peekn := rfl
@[simp] theorem State.overrun_symcount : (State.overrun s).symcount = s.symcount := rfl
@[simp] theorem State.overrun_freq : (State.overrun s).freq = s.freq := rfl
@[simp] theorem State.overrun_len : (State.overrun s).len = s.len := rfl
@[simp] theorem State.overrun_canon : (State.overrun s).canon = s.canon := rfl
@[simp] theorem State.overrun_canonValid : (State.overrun s).canonValid = s.canonValid := rfl
@[simp] theorem State.overrun_decValid : (State.overrun s).decValid = s.decValid := rfl
@[simp] theorem State.overrun_bw : (State.overrun s).bw = s.bw := rfl
@[simp] theorem State.overrun_br : (State.overrun s).br = s.br := rfl
@[simp] theorem State.overrun_mem : (State.overrun s).mem = s.mem := rfl
@[simp] theorem State.overrun_inReset : (State.overrun s).inReset = s.inReset := rfl
@[simp] theorem State.overrun_pending : (State.overrun s).pending = s.pending := rfl
@[simp] theorem State.overrun_replies : (State.overrun s).replies = s.replies := rfl
@[simp] theorem State.overrun_draws : (State.overrun s).draws = s.draws := rfl
@[simp] theorem State.overrun_epoch : (State.overrun s).epoch = s.epoch := rfl

/-! ## `State.setCanon` -/
@[simp] theorem State.setCanon_params (l : Table Byte) (t : Canon) : (State.setCanon l t s).params = s.params := rfl
@[simp] theorem State.setCanon_ie (l : Table Byte) (t : Canon) : (State.setCanon l t s).ie = s.ie := rfl
@[simp] theorem State.setCanon_busy (l : Table Byte) (t : Canon) : (State.setCanon l t s).busy = s.busy := rfl
@[simp] theorem State.setCanon_done (l : Table Byte) (t : Canon) : (State.setCanon l t s).done = s.done := rfl
@[simp] theorem State.setCanon_err (l : Table Byte) (t : Canon) : (State.setCanon l t s).err = s.err := rfl
@[simp] theorem State.setCanon_ovr (l : Table Byte) (t : Canon) : (State.setCanon l t s).ovr = s.ovr := rfl
@[simp] theorem State.setCanon_errcode (l : Table Byte) (t : Canon) : (State.setCanon l t s).errcode = s.errcode := rfl
@[simp] theorem State.setCanon_errinfo (l : Table Byte) (t : Canon) : (State.setCanon l t s).errinfo = s.errinfo := rfl
@[simp] theorem State.setCanon_cur (l : Table Byte) (t : Canon) : (State.setCanon l t s).cur = s.cur := rfl
@[simp] theorem State.setCanon_src (l : Table Byte) (t : Canon) : (State.setCanon l t s).src = s.src := rfl
@[simp] theorem State.setCanon_slen (l : Table Byte) (t : Canon) : (State.setCanon l t s).slen = s.slen := rfl
@[simp] theorem State.setCanon_dst (l : Table Byte) (t : Canon) : (State.setCanon l t s).dst = s.dst := rfl
@[simp] theorem State.setCanon_dcap (l : Table Byte) (t : Canon) : (State.setCanon l t s).dcap = s.dcap := rfl
@[simp] theorem State.setCanon_pi (l : Table Byte) (t : Canon) : (State.setCanon l t s).pi = s.pi := rfl
@[simp] theorem State.setCanon_nlen (l : Table Byte) (t : Canon) : (State.setCanon l t s).nlen = s.nlen := rfl
@[simp] theorem State.setCanon_hbits (l : Table Byte) (t : Canon) : (State.setCanon l t s).hbits = s.hbits := rfl
@[simp] theorem State.setCanon_rlelen (l : Table Byte) (t : Canon) : (State.setCanon l t s).rlelen = s.rlelen := rfl
@[simp] theorem State.setCanon_olen (l : Table Byte) (t : Canon) : (State.setCanon l t s).olen = s.olen := rfl
@[simp] theorem State.setCanon_bwcode (l : Table Byte) (t : Canon) : (State.setCanon l t s).bwcode = s.bwcode := rfl
@[simp] theorem State.setCanon_result (l : Table Byte) (t : Canon) : (State.setCanon l t s).result = s.result := rfl
@[simp] theorem State.setCanon_peekn (l : Table Byte) (t : Canon) : (State.setCanon l t s).peekn = s.peekn := rfl
@[simp] theorem State.setCanon_symcount (l : Table Byte) (t : Canon) : (State.setCanon l t s).symcount = s.symcount := rfl
@[simp] theorem State.setCanon_freq (l : Table Byte) (t : Canon) : (State.setCanon l t s).freq = s.freq := rfl
@[simp] theorem State.setCanon_len (l : Table Byte) (t : Canon) : (State.setCanon l t s).len = l := rfl
@[simp] theorem State.setCanon_canon (l : Table Byte) (t : Canon) : (State.setCanon l t s).canon = t := rfl
@[simp] theorem State.setCanon_canonValid (l : Table Byte) (t : Canon) : (State.setCanon l t s).canonValid = true := rfl
@[simp] theorem State.setCanon_decValid (l : Table Byte) (t : Canon) : (State.setCanon l t s).decValid = s.decValid := rfl
@[simp] theorem State.setCanon_bw (l : Table Byte) (t : Canon) : (State.setCanon l t s).bw = s.bw := rfl
@[simp] theorem State.setCanon_br (l : Table Byte) (t : Canon) : (State.setCanon l t s).br = s.br := rfl
@[simp] theorem State.setCanon_mem (l : Table Byte) (t : Canon) : (State.setCanon l t s).mem = s.mem := rfl
@[simp] theorem State.setCanon_inReset (l : Table Byte) (t : Canon) : (State.setCanon l t s).inReset = s.inReset := rfl
@[simp] theorem State.setCanon_pending (l : Table Byte) (t : Canon) : (State.setCanon l t s).pending = s.pending := rfl
@[simp] theorem State.setCanon_replies (l : Table Byte) (t : Canon) : (State.setCanon l t s).replies = s.replies := rfl
@[simp] theorem State.setCanon_draws (l : Table Byte) (t : Canon) : (State.setCanon l t s).draws = s.draws := rfl
@[simp] theorem State.setCanon_epoch (l : Table Byte) (t : Canon) : (State.setCanon l t s).epoch = s.epoch := rfl

/-! ## `State.storePayload` -/
@[simp] theorem State.storePayload_params (p : Payload) : (State.storePayload p s).params = s.params := rfl
@[simp] theorem State.storePayload_ie (p : Payload) : (State.storePayload p s).ie = s.ie := rfl
@[simp] theorem State.storePayload_busy (p : Payload) : (State.storePayload p s).busy = s.busy := rfl
@[simp] theorem State.storePayload_done (p : Payload) : (State.storePayload p s).done = s.done := rfl
@[simp] theorem State.storePayload_err (p : Payload) : (State.storePayload p s).err = s.err := rfl
@[simp] theorem State.storePayload_ovr (p : Payload) : (State.storePayload p s).ovr = s.ovr := rfl
@[simp] theorem State.storePayload_errcode (p : Payload) : (State.storePayload p s).errcode = s.errcode := rfl
@[simp] theorem State.storePayload_errinfo (p : Payload) : (State.storePayload p s).errinfo = s.errinfo := rfl
@[simp] theorem State.storePayload_cur (p : Payload) : (State.storePayload p s).cur = s.cur := rfl
@[simp] theorem State.storePayload_src (p : Payload) : (State.storePayload p s).src = s.src := rfl
@[simp] theorem State.storePayload_slen (p : Payload) : (State.storePayload p s).slen = s.slen := rfl
@[simp] theorem State.storePayload_dst (p : Payload) : (State.storePayload p s).dst = s.dst := rfl
@[simp] theorem State.storePayload_dcap (p : Payload) : (State.storePayload p s).dcap = s.dcap := rfl
@[simp] theorem State.storePayload_pi (p : Payload) : (State.storePayload p s).pi = s.pi := rfl
@[simp] theorem State.storePayload_nlen (p : Payload) : (State.storePayload p s).nlen = s.nlen := rfl
@[simp] theorem State.storePayload_hbits (p : Payload) : (State.storePayload p s).hbits = BitVec.ofNat 32 p.bits.length := rfl
@[simp] theorem State.storePayload_rlelen (p : Payload) : (State.storePayload p s).rlelen = s.rlelen := rfl
@[simp] theorem State.storePayload_olen (p : Payload) : (State.storePayload p s).olen = BitVec.ofNat 32 p.size := rfl
@[simp] theorem State.storePayload_bwcode (p : Payload) : (State.storePayload p s).bwcode = s.bwcode := rfl
@[simp] theorem State.storePayload_result (p : Payload) : (State.storePayload p s).result = s.result := rfl
@[simp] theorem State.storePayload_peekn (p : Payload) : (State.storePayload p s).peekn = s.peekn := rfl
@[simp] theorem State.storePayload_symcount (p : Payload) : (State.storePayload p s).symcount = s.symcount := rfl
@[simp] theorem State.storePayload_freq (p : Payload) : (State.storePayload p s).freq = tabulate fun x => BitVec.ofNat 32 (entry p.freq x) := rfl
@[simp] theorem State.storePayload_len (p : Payload) : (State.storePayload p s).len = p.len := rfl
@[simp] theorem State.storePayload_canon (p : Payload) : (State.storePayload p s).canon = p.table := rfl
@[simp] theorem State.storePayload_canonValid (p : Payload) : (State.storePayload p s).canonValid = true := rfl
@[simp] theorem State.storePayload_decValid (p : Payload) : (State.storePayload p s).decValid = s.decValid := rfl
@[simp] theorem State.storePayload_bw (p : Payload) : (State.storePayload p s).bw = { s.bw with base := s.dst + 256#32, cap := s.dcap - 256#32, bits := BitVec.ofNat 32 p.bits.length, acc := 0#8 } := rfl
@[simp] theorem State.storePayload_br (p : Payload) : (State.storePayload p s).br = s.br := rfl
@[simp] theorem State.storePayload_mem (p : Payload) : (State.storePayload p s).mem = s.mem.writeRun s.dst.toNat p.bytes := rfl
@[simp] theorem State.storePayload_inReset (p : Payload) : (State.storePayload p s).inReset = s.inReset := rfl
@[simp] theorem State.storePayload_pending (p : Payload) : (State.storePayload p s).pending = s.pending := rfl
@[simp] theorem State.storePayload_replies (p : Payload) : (State.storePayload p s).replies = s.replies := rfl
@[simp] theorem State.storePayload_draws (p : Payload) : (State.storePayload p s).draws = s.draws := rfl
@[simp] theorem State.storePayload_epoch (p : Payload) : (State.storePayload p s).epoch = s.epoch := rfl

/-! ## `State.reply` -/
@[simp] theorem State.reply_params (b : BusReply) : (State.reply b s).params = s.params := rfl
@[simp] theorem State.reply_ie (b : BusReply) : (State.reply b s).ie = s.ie := rfl
@[simp] theorem State.reply_busy (b : BusReply) : (State.reply b s).busy = s.busy := rfl
@[simp] theorem State.reply_done (b : BusReply) : (State.reply b s).done = s.done := rfl
@[simp] theorem State.reply_err (b : BusReply) : (State.reply b s).err = s.err := rfl
@[simp] theorem State.reply_ovr (b : BusReply) : (State.reply b s).ovr = s.ovr := rfl
@[simp] theorem State.reply_errcode (b : BusReply) : (State.reply b s).errcode = s.errcode := rfl
@[simp] theorem State.reply_errinfo (b : BusReply) : (State.reply b s).errinfo = s.errinfo := rfl
@[simp] theorem State.reply_cur (b : BusReply) : (State.reply b s).cur = s.cur := rfl
@[simp] theorem State.reply_src (b : BusReply) : (State.reply b s).src = s.src := rfl
@[simp] theorem State.reply_slen (b : BusReply) : (State.reply b s).slen = s.slen := rfl
@[simp] theorem State.reply_dst (b : BusReply) : (State.reply b s).dst = s.dst := rfl
@[simp] theorem State.reply_dcap (b : BusReply) : (State.reply b s).dcap = s.dcap := rfl
@[simp] theorem State.reply_pi (b : BusReply) : (State.reply b s).pi = s.pi := rfl
@[simp] theorem State.reply_nlen (b : BusReply) : (State.reply b s).nlen = s.nlen := rfl
@[simp] theorem State.reply_hbits (b : BusReply) : (State.reply b s).hbits = s.hbits := rfl
@[simp] theorem State.reply_rlelen (b : BusReply) : (State.reply b s).rlelen = s.rlelen := rfl
@[simp] theorem State.reply_olen (b : BusReply) : (State.reply b s).olen = s.olen := rfl
@[simp] theorem State.reply_bwcode (b : BusReply) : (State.reply b s).bwcode = s.bwcode := rfl
@[simp] theorem State.reply_result (b : BusReply) : (State.reply b s).result = s.result := rfl
@[simp] theorem State.reply_peekn (b : BusReply) : (State.reply b s).peekn = s.peekn := rfl
@[simp] theorem State.reply_symcount (b : BusReply) : (State.reply b s).symcount = s.symcount := rfl
@[simp] theorem State.reply_freq (b : BusReply) : (State.reply b s).freq = s.freq := rfl
@[simp] theorem State.reply_len (b : BusReply) : (State.reply b s).len = s.len := rfl
@[simp] theorem State.reply_canon (b : BusReply) : (State.reply b s).canon = s.canon := rfl
@[simp] theorem State.reply_canonValid (b : BusReply) : (State.reply b s).canonValid = s.canonValid := rfl
@[simp] theorem State.reply_decValid (b : BusReply) : (State.reply b s).decValid = s.decValid := rfl
@[simp] theorem State.reply_bw (b : BusReply) : (State.reply b s).bw = s.bw := rfl
@[simp] theorem State.reply_br (b : BusReply) : (State.reply b s).br = s.br := rfl
@[simp] theorem State.reply_mem (b : BusReply) : (State.reply b s).mem = s.mem := rfl
@[simp] theorem State.reply_inReset (b : BusReply) : (State.reply b s).inReset = s.inReset := rfl
@[simp] theorem State.reply_pending (b : BusReply) : (State.reply b s).pending = s.pending := rfl
@[simp] theorem State.reply_replies (b : BusReply) : (State.reply b s).replies = s.replies ++ [b] := rfl
@[simp] theorem State.reply_draws (b : BusReply) : (State.reply b s).draws = s.draws := rfl
@[simp] theorem State.reply_epoch (b : BusReply) : (State.reply b s).epoch = s.epoch := rfl

end Sys2Proof.Machine
end

