-- ==== Sys2Proof/Laws/Command.lean ====
section
/-! SUPPORT. What the two phases of a command can do. -/

namespace Sys2Proof.Machine

theorem firstFailure_eq_none {cs : List Check} :
    firstFailure cs = none ↔ ∀ c ∈ cs, c.fails = false := by
  induction cs with
  | nil => simp [firstFailure]
  | cons c cs ih => by_cases h : c.fails <;> simp [firstFailure, h, ih]

/-- The error reported is that of the first check that fails (60_exceptions.md R271). -/
theorem firstFailure_eq_some {cs : List Check} {e : CmdError} :
    firstFailure cs = some e ↔
      ∃ before c after, cs = before ++ c :: after ∧ (∀ b ∈ before, b.fails = false)
        ∧ c.fails = true ∧ c.error = e := by
  induction cs with
  | nil => simp [firstFailure]
  | cons c cs ih =>
    by_cases h : c.fails
    · simp only [firstFailure, h, if_true, Option.some.injEq]
      constructor
      · rintro rfl
        exact ⟨[], c, cs, rfl, by simp, h, rfl⟩
      · rintro ⟨before, d, after, h1, h2, h3, h4⟩
        cases before with
        | nil =>
          simp only [List.nil_append, List.cons.injEq] at h1
          rw [h1.1]; exact h4
        | cons b before =>
          simp only [List.cons_append, List.cons.injEq] at h1
          have := h2 b (by simp)
          rw [← h1.1, h] at this
          exact absurd this (by simp)
    · simp only [firstFailure, h, Bool.false_eq_true, if_false, ih]
      constructor
      · rintro ⟨before, d, after, rfl, h2, h3, h4⟩
        exact ⟨c :: before, d, after, rfl, by simpa [h] using h2, h3, h4⟩
      · rintro ⟨before, d, after, h1, h2, h3, h4⟩
        cases before with
        | nil =>
          simp only [List.nil_append, List.cons.injEq] at h1
          rw [← h1.1] at h3
          exact absurd h3 h
        | cons b before =>
          simp only [List.cons_append, List.cons.injEq] at h1
          exact ⟨before, d, after, h1.2, fun x hx => h2 x (by simp [hx]), h3, h4⟩

theorem runCommand_pass {checks : List Check} {onFail body : State → State} {s : State}
    (h : firstFailure checks = none) : runCommand checks onFail body s = .next (body s) := by
  simp [runCommand, h]

theorem runCommand_fail {checks : List Check} {onFail body : State → State} {s : State}
    {e : CmdError} (h : firstFailure checks = some e) :
    runCommand checks onFail body s = .next ((onFail s).raiseError e) := by
  simp [runCommand, h]

/-- A command that answers a next state either failed a check or ran its body. -/
theorem runCommand_cases {checks : List Check} {onFail body : State → State} {s t : State}
    (h : runCommand checks onFail body s = .next t) :
    (∃ e, firstFailure checks = some e ∧ t = (onFail s).raiseError e) ∨
      (firstFailure checks = none ∧ t = body s) := by
  cases hc : firstFailure checks with
  | none => rw [runCommand_pass hc] at h; injection h with h; exact .inr ⟨rfl, h.symm⟩
  | some e => rw [runCommand_fail hc] at h; injection h with h; exact .inl ⟨e, rfl, h.symm⟩

/-- No command stops the machine (30_encoding.md R86: "every step completes"). -/
theorem runCommand_next (checks : List Check) (onFail body : State → State) (s : State) :
    ∃ t, runCommand checks onFail body s = .next t := by
  cases h : firstFailure checks with
  | none => exact ⟨_, runCommand_pass h⟩
  | some e => exact ⟨_, runCommand_fail h⟩

end Sys2Proof.Machine
end

