-- ==== Sys2Proof/Laws/Memory.lean ====
section
/-! SUPPORT. The laws of MEM: read after write, what a write leaves alone, the canonical form. -/

namespace Sys2Proof.Machine

/-! ## The list of stored bytes -/

theorem Memory.listed_append (m m' : Memory) (x : Nat) :
    Memory.listed (m ++ m') x = (Memory.listed m x).or (Memory.listed m' x) := by
  induction m with
  | nil => simp [Memory.listed]
  | cons c m ih =>
    by_cases h : c.1 = x
    · simp [Memory.listed, h]
    · simp [Memory.listed, h, ih]

theorem Memory.listed_filter (p : Nat → Bool) (m : Memory) (x : Nat) :
    Memory.listed (m.filter fun c => p c.1) x = if p x then Memory.listed m x else none := by
  induction m with
  | nil => simp [Memory.listed]
  | cons c m ih =>
    by_cases hp : p c.1 <;> by_cases hx : c.1 = x
    · subst hx; simp [Memory.listed, hp]
    · simp [hp, Memory.listed, hx, ih]
    · subst hx; simp [hp, ih]
    · simp [hp, Memory.listed, hx, ih]

theorem Memory.listed_cells (a : Nat) (bs : List Byte) (x : Nat) :
    Memory.listed (Memory.cells a bs) x = if a ≤ x then bs[x - a]? else none := by
  induction bs generalizing a with
  | nil => simp [Memory.cells, Memory.listed]
  | cons b bs ih =>
    rcases lt_trichotomy a x with h | h | h
    · have h1 : x - a = (x - (a + 1)) + 1 := by omega
      have h2 : a ≠ x := by omega
      have h3 : a + 1 ≤ x := h
      simp [Memory.cells, Memory.listed, ih, h1, h2, h3, Nat.le_of_lt h]
    · subst h; simp [Memory.cells, Memory.listed]
    · have h1 : ¬ a ≤ x := by omega
      have h2 : a ≠ x := by omega
      have h3 : ¬ a + 1 ≤ x := by omega
      simp [Memory.cells, Memory.listed, ih, h1, h2, h3]

theorem Memory.mem_cells {a : Nat} {bs : List Byte} {c : Host.Cell} (h : c ∈ Memory.cells a bs) :
    a ≤ c.1 ∧ c.1 < a + bs.length := by
  induction bs generalizing a with
  | nil => simp [Memory.cells] at h
  | cons b bs ih =>
    simp only [Memory.cells, List.mem_cons] at h
    rcases h with rfl | h
    · simp
    · have := ih h
      simp only [List.length_cons]
      omega

theorem Memory.cells_pairwise (a : Nat) (bs : List Byte) :
    (Memory.cells a bs).Pairwise fun x y => x.1 < y.1 := by
  induction bs generalizing a with
  | nil => simp [Memory.cells]
  | cons b bs ih =>
    simp only [Memory.cells, List.pairwise_cons]
    exact ⟨fun c hc => by have := Memory.mem_cells hc; omega, ih _⟩

/-- What a write stores, and what it leaves alone. -/
theorem Memory.listed_writeRun (m : Memory) (a : Nat) (bs : List Byte) (x : Nat) :
    Memory.listed (m.writeRun a bs) x
      = if a ≤ x ∧ x < a + bs.length then bs[x - a]? else Memory.listed m x := by
  have h1 := Memory.listed_filter (fun y => decide (y < a)) m x
  have h2 := Memory.listed_filter (fun y => decide (a + bs.length ≤ y)) m x
  simp only [decide_eq_true_eq] at h1 h2
  rw [Memory.writeRun, Memory.listed_append, Memory.listed_append, Memory.listed_cells, h1, h2]
  by_cases hlo : x < a
  · have h3 : ¬ a ≤ x := by omega
    have h4 : ¬ a + bs.length ≤ x := by omega
    simp [hlo, h3, h4]
  · have h3 : a ≤ x := by omega
    by_cases hhi : x < a + bs.length
    · have h4 : ¬ a + bs.length ≤ x := by omega
      simp [hlo, h3, hhi, h4]
    · have h4 : a + bs.length ≤ x := by omega
      have h5 : bs[x - a]? = none := List.getElem?_eq_none (by omega)
      simp [hlo, h3, hhi, h4, h5]

/-- Every write keeps the canonical form. -/
theorem Memory.wf_writeRun {m : Memory} (h : m.wf = true) (a : Nat) (bs : List Byte) :
    (m.writeRun a bs).wf = true := by
  simp only [Memory.wf, decide_eq_true_eq] at h ⊢
  rw [Memory.writeRun, List.pairwise_append, List.pairwise_append]
  refine ⟨⟨h.filter _, Memory.cells_pairwise a bs, ?_⟩, h.filter _, ?_⟩
  · intro x hx y hy
    have h1 := (List.mem_filter.1 hx).2
    have h2 := Memory.mem_cells hy
    simp only [decide_eq_true_eq] at h1
    omega
  · intro x hx y hy
    have h2 := (List.mem_filter.1 hy).2
    simp only [decide_eq_true_eq] at h2
    rcases List.mem_append.1 hx with hx | hx
    · have h1 := (List.mem_filter.1 hx).2
      simp only [decide_eq_true_eq] at h1
      omega
    · have h1 := Memory.mem_cells hx
      omega

/-- A write lists no address but those listed before and those written. -/
theorem Memory.mem_writeRun {m : Memory} {a : Nat} {bs : List Byte} {c : Host.Cell}
    (h : c ∈ m.writeRun a bs) : c ∈ m ∨ (a ≤ c.1 ∧ c.1 < a + bs.length) := by
  rw [Memory.writeRun, List.mem_append, List.mem_append] at h
  rcases h with (h | h) | h
  · exact .inl (List.mem_filter.1 h).1
  · exact .inr (Memory.mem_cells h)
  · exact .inl (List.mem_filter.1 h).1

theorem Memory.writeRun_nil (m : Memory) (a : Nat) (h : m.wf = true) : m.writeRun a [] = m := by
  simp only [Memory.wf, decide_eq_true_eq] at h
  simp only [Memory.writeRun, Memory.cells, List.append_nil, List.length_nil, Nat.add_zero]
  induction m with
  | nil => rfl
  | cons c m ih =>
    rw [List.pairwise_cons] at h
    by_cases hc : c.1 < a
    · have : ¬ a ≤ c.1 := by omega
      simp [hc, this, ih h.2]
    · have h3 : a ≤ c.1 := by omega
      have h4 : m.filter (fun c => decide (c.1 < a)) = [] := by
        rw [List.filter_eq_nil_iff]
        intro d hd
        have := h.1 d hd
        simp only [decide_eq_true_eq]
        omega
      have h5 : m.filter (fun c => decide (a ≤ c.1)) = m := by
        rw [List.filter_eq_self]
        intro d hd
        have := h.1 d hd
        simp only [decide_eq_true_eq]
        omega
      simp [h3, hc, h4, h5]

theorem Memory.listed_eq_none {m : Memory} {a : Nat} (h : ∀ c ∈ m, a < c.1) :
    Memory.listed m a = none := by
  induction m with
  | nil => rfl
  | cons c m ih =>
    have h1 := h c (by simp)
    have h2 : c.1 ≠ a := by omega
    simp [Memory.listed, h2, ih fun d hd => h d (by simp [hd])]

/-- Equal memories are equal data: the canonical form is determined by the stored bytes. -/
theorem Memory.ext_listed {m m' : Memory} (h : m.wf = true) (h' : m'.wf = true)
    (heq : ∀ a, Memory.listed m a = Memory.listed m' a) : m = m' := by
  simp only [Memory.wf, decide_eq_true_eq] at h h'
  induction m generalizing m' with
  | nil =>
    cases m' with
    | nil => rfl
    | cons c m' => simpa [Memory.listed] using heq c.1
  | cons c m ih =>
    cases m' with
    | nil => simpa [Memory.listed] using heq c.1
    | cons c' m' =>
      rw [List.pairwise_cons] at h h'
      have hcc : c = c' := by
        rcases lt_trichotomy c.1 c'.1 with hl | hl | hl
        · have h1 := heq c.1
          have h2 : Memory.listed (c' :: m') c.1 = none :=
            Memory.listed_eq_none fun d hd => by
              rcases List.mem_cons.1 hd with rfl | hd
              · exact hl
              · exact lt_trans hl (h'.1 d hd)
          simp [Memory.listed] at h1 h2
          simp [h2] at h1
        · have h1 := heq c.1
          simp [Memory.listed, hl] at h1
          exact Prod.ext hl h1
        · have h1 := heq c'.1
          have h2 : Memory.listed (c :: m) c'.1 = none :=
            Memory.listed_eq_none fun d hd => by
              rcases List.mem_cons.1 hd with rfl | hd
              · exact hl
              · exact lt_trans hl (h.1 d hd)
          rw [h2] at h1
          simp [Memory.listed] at h1
      subst hcc
      congr 1
      refine ih (h := h.2) (h' := h'.2) fun a => ?_
      by_cases ha : c.1 = a
      · subst ha
        rw [Memory.listed_eq_none h.1, Memory.listed_eq_none h'.1]
      · simpa [Memory.listed, ha] using heq a

/-! ## Reads of the state -/

/-- A byte read depends on MEM and the power-on only. -/
theorem State.readByte_congr {s t : State} (hm : t.mem = s.mem) (he : t.epoch = s.epoch) (a : Nat) :
    t.readByte a = s.readByte a := by simp [State.readByte, hm, he]

theorem State.readBytes_congr {s t : State} (hm : t.mem = s.mem) (he : t.epoch = s.epoch)
    (a n : Nat) : t.readBytes a n = s.readBytes a n := by
  simp [State.readBytes, State.readByte_congr hm he]

@[simp] theorem State.readBytes_length (s : State) (a n : Nat) : (s.readBytes a n).length = n := by
  simp [State.readBytes]

@[simp] theorem State.source_length (s : State) : s.source.length = s.slen.toNat := by
  simp [State.source]

@[simp] theorem freeBytes_length (k n : Nat) : (freeBytes k n).length = n := by simp [freeBytes]

/-- The one law of a byte read after a run of bytes came to stand in MEM. -/
theorem State.readByte_of_writeRun {s t : State} {a : Nat} {bs : List Byte}
    (hm : t.mem = s.mem.writeRun a bs) (he : t.epoch = s.epoch) (x : Nat) :
    t.readByte x = if h : a ≤ x ∧ x < a + bs.length then bs[x - a]'(by omega) else s.readByte x := by
  rw [State.readByte, hm, he, Memory.listed_writeRun]
  by_cases h : a ≤ x ∧ x < a + bs.length
  · have : x - a < bs.length := by omega
    simp [h, this]
  · simp [h, State.readByte]

theorem State.readByte_inside {s t : State} {a : Nat} {bs : List Byte}
    (hm : t.mem = s.mem.writeRun a bs) (he : t.epoch = s.epoch) {i : Nat} (hi : i < bs.length) :
    t.readByte (a + i) = bs[i] := by
  rw [State.readByte_of_writeRun hm he]
  have : a ≤ a + i ∧ a + i < a + bs.length := by omega
  simp [this]

theorem State.readByte_outside {s t : State} {a : Nat} {bs : List Byte}
    (hm : t.mem = s.mem.writeRun a bs) (he : t.epoch = s.epoch) {x : Nat}
    (hx : x < a ∨ a + bs.length ≤ x) : t.readByte x = s.readByte x := by
  rw [State.readByte_of_writeRun hm he]
  have : ¬(a ≤ x ∧ x < a + bs.length) := by omega
  simp [this]

/-- Reading back a run of bytes that was written. -/
theorem State.readBytes_written {s t : State} {a : Nat} {bs : List Byte}
    (hm : t.mem = s.mem.writeRun a bs) (he : t.epoch = s.epoch) :
    t.readBytes a bs.length = bs := by
  apply List.ext_getElem
  · simp
  · intro i h1 h2
    simp [State.readBytes, State.readByte_inside hm he h2]

end Sys2Proof.Machine
end

