-- ==== Sys2Proof/Laws/Tables.lean ====
section
/-! SUPPORT. The laws of per-symbol tables. -/

namespace Sys2Proof.Machine

@[simp] theorem symbols_length : symbols.length = 256 := by simp [symbols]

theorem symbols_getElem (i : Nat) (h : i < symbols.length) : symbols[i] = BitVec.ofNat 8 i := by
  simp [symbols]

@[simp] theorem mem_symbols (s : Byte) : s ∈ symbols := by
  rw [symbols, List.mem_map]
  exact ⟨s.toNat, by simp [s.isLt], by simp⟩

theorem symbols_pairwise : symbols.Pairwise fun a b => a.toNat < b.toNat := by
  rw [symbols, List.pairwise_map]
  refine List.Pairwise.imp_of_mem ?_ (List.pairwise_lt_range (n := 256))
  intro a b ha hb hab
  rw [List.mem_range] at ha hb
  simpa [Nat.mod_eq_of_lt ha, Nat.mod_eq_of_lt hb] using hab

theorem symbols_nodup : symbols.Nodup :=
  symbols_pairwise.imp fun h => by
    intro h'
    rw [h'] at h
    exact lt_irrefl _ h

@[simp] theorem entry_tabulate {α : Type} (f : Byte → α) (s : Byte) : entry (tabulate f) s = f s := by
  simp [entry, tabulate, symbols]

theorem entry_setEntry {α : Type} (t : Table α) (s x : Byte) (v : α) :
    entry (setEntry t s v) x = if x = s then v else entry t x := by
  unfold entry setEntry
  rw [Vector.getElem_set]
  by_cases h : x = s
  · simp [h]
  · have : s.toNat ≠ x.toNat := fun h' => h (BitVec.eq_of_toNat_eq h'.symm)
    simp [h, this]

@[simp] theorem entry_setEntry_same {α : Type} (t : Table α) (s : Byte) (v : α) :
    entry (setEntry t s v) s = v := by simp [entry_setEntry]

theorem entry_setEntry_ne {α : Type} (t : Table α) {s x : Byte} (v : α) (h : x ≠ s) :
    entry (setEntry t s v) x = entry t x := by simp [entry_setEntry, h]

@[simp] theorem entry_replicate {α : Type} (v : α) (s : Byte) :
    entry (Vector.replicate 256 v) s = v := by simp [entry]

/-- Two tables with the same entries are equal. -/
theorem table_ext {α : Type} {t u : Table α} (h : ∀ s, entry t s = entry u s) : t = u := by
  apply Vector.ext
  intro i hi
  have := h (BitVec.ofNat 8 i)
  simpa [entry, Nat.mod_eq_of_lt hi] using this

theorem tabulate_entry {α : Type} (t : Table α) : tabulate (entry t) = t :=
  table_ext fun s => by simp

@[simp] theorem entries_length {α : Type} (t : Table α) : (entries t).length = 256 := by
  simp [entries]

theorem entries_tabulate {α : Type} (f : Byte → α) : entries (tabulate f) = symbols.map f := by
  simp [entries, tabulate]

theorem entries_eq_map {α : Type} (t : Table α) : entries t = symbols.map (entry t) := by
  rw [← entries_tabulate, tabulate_entry]

theorem mem_entries {α : Type} {t : Table α} {v : α} : v ∈ entries t ↔ ∃ s, entry t s = v := by
  simp [entries_eq_map]

theorem entries_getElem {α : Type} (t : Table α) (s : Byte) :
    (entries t)[s.toNat]'(by simp [s.isLt]) = entry t s := by
  simp [entries, entry]

end Sys2Proof.Machine
end

