-- ==== Sys2Proof/Laws/Exec.lean ====
section
/-! SUPPORT. Every command as two phases, and the outcomes of the bodies that branch. -/

namespace Sys2Proof.Machine

/-- Every command is its operand checks, then its body (30_encoding.md R86). -/
theorem exec_eq_runCommand (i : Instr) (s : State) :
    exec i s = runCommand (operandChecks i s) (failEffects i) (commandBody i) s := by
  cases i <;> rfl

/-- What a command can answer: an error of its checks, or its body. -/
theorem exec_cases {i : Instr} {s t : State} (h : exec i s = .next t) :
    (∃ e, firstFailure (operandChecks i s) = some e ∧ t = (failEffects i s).raiseError e) ∨
      (firstFailure (operandChecks i s) = none ∧ t = commandBody i s) :=
  runCommand_cases (exec_eq_runCommand i s ▸ h)

/-- A command whose checks pass runs its body. -/
theorem exec_pass {i : Instr} {s : State} (h : firstFailure (operandChecks i s) = none) :
    exec i s = .next (commandBody i s) := by rw [exec_eq_runCommand, runCommand_pass h]

/-- A command with a failing check reports it. -/
theorem exec_fail {i : Instr} {s : State} {e : CmdError}
    (h : firstFailure (operandChecks i s) = some e) :
    exec i s = .next ((failEffects i s).raiseError e) := by rw [exec_eq_runCommand, runCommand_fail h]

/-- Every command answers a next state. -/
theorem exec_next (i : Instr) (s : State) : ∃ t, exec i s = .next t :=
  exec_eq_runCommand i s ▸ runCommand_next _ _ _ _

/-- A failed check of a command changes no more than the valid bits of the stepwise commands. -/
theorem failEffects_cases (i : Instr) (s : State) :
    failEffects i s = s ∨ failEffects i s = s.dropWriter ∨ failEffects i s = s.dropReading := by
  cases i <;> simp [failEffects]

/-! ## Bodies -/

/-- `PutBit` writes MEM and the writer's bit count and partial byte (40_bitio.md R103). -/
theorem State.putBit_eq (s : State) (b : Bool) :
    s.putBit b = { s with
      mem := (s.putBit b).mem
      bw := { s.bw with bits := s.bw.bits + 1#32, acc := (s.putBit b).bw.acc } } := by
  unfold State.putBit
  dsimp only
  split <;> rfl

theorem foldl_putBit_eq (bs : List Bool) (s : State) :
    bs.foldl State.putBit s = { s with
      mem := (bs.foldl State.putBit s).mem
      bw := { s.bw with
        bits := s.bw.bits + BitVec.ofNat 32 bs.length
        acc := (bs.foldl State.putBit s).bw.acc } } := by
  induction bs generalizing s with
  | nil => simp
  | cons b bs ih =>
    rw [List.foldl_cons, ih (s.putBit b)]
    generalize bs.foldl State.putBit (s.putBit b) = t
    rw [State.putBit_eq s b]
    simp only [List.length_cons, BitVec.ofNat_add, BitVec.add_assoc]
    rw [BitVec.add_comm 1#32]

/-- BW_FINISH's store changes MEM alone. -/
theorem State.flushPartial_eq (s : State) : s.flushPartial = { s with mem := s.flushPartial.mem } := by
  unfold State.flushPartial
  split <;> rfl

/-- What the decoding that HUF_DEC_RLE and PIPE_DEC share can do. -/
theorem State.decodePayload_cases (post : List Byte → List Byte) (s : State) :
    (∃ e, canonTable s.params.maxCodeLen (tabulate fun x => s.readByte (s.src.toNat + x.toNat)) = .error e
        ∧ s.decodePayload post = s.dropDecoder.dropReader.failTables e) ∨
    ∃ l t, canonTable s.params.maxCodeLen (tabulate fun x => s.readByte (s.src.toNat + x.toNat)) = .ok (l, t)
      ∧ let r : BitReader :=
          { active := false, base := s.src + 256#32, bytes := s.slen - 256#32, pos := 0#32 }
        let job : RleJob := {
          byteAt := s.readByte, table := t, n := s.nlen.toNat, rl := s.rlelen.toNat
          check := s.params.rleLenCheck }
        let a := job.run s.hbits.toNat r
        let s' := { s.dropDecoder with br := a.reader }
        (∃ e, a.outcome = .error e ∧ s.decodePayload post = s'.failTables e) ∨
          ∃ ranks cnt, a.outcome = .ok (ranks, cnt)
            ∧ s.decodePayload post = { (s'.writeBytes s.dst.toNat (post ranks)).setCanon l t with
                symcount := BitVec.ofNat 32 cnt, olen := s.nlen }.complete := by
  have ho : s.dropDecoder.dropReader.openPayload =
      match canonTable s.params.maxCodeLen
        (tabulate fun x => s.readByte (s.src.toNat + x.toNat)) with
      | .error e => .error e
      | .ok (l, t) =>
        .ok (l, t, { active := false, base := s.src + 256#32, bytes := s.slen - 256#32, pos := 0#32 }) :=
    rfl
  have hr : s.dropDecoder.dropReader.readByte = s.readByte := rfl
  unfold State.decodePayload
  dsimp only
  rw [ho, hr]
  cases hc : canonTable s.params.maxCodeLen
      (tabulate fun x => s.readByte (s.src.toNat + x.toNat)) with
  | error e => exact .inl ⟨e, rfl, rfl⟩
  | ok lt =>
    obtain ⟨l, t⟩ := lt
    refine .inr ⟨l, t, rfl, ?_⟩
    simp only [State.dropReader_nlen, State.dropDecoder_nlen, State.dropReader_rlelen,
      State.dropDecoder_rlelen, State.dropReader_params, State.dropDecoder_params,
      State.dropReader_hbits, State.dropDecoder_hbits]
    generalize RleJob.run _ _ _ = a
    obtain ⟨o, r⟩ := a
    cases o with
    | error e => exact .inl ⟨e, rfl, rfl⟩
    | ok x => exact .inr ⟨x.1, x.2, rfl, rfl⟩

/-- What HUF_ENC's body can do. -/
theorem hufEncBody_cases (s : State) :
    (∃ e, fitPayload s.params.maxCodeLen s.dcap.toNat s.source = .error e
        ∧ hufEncBody s = s.dropDecoder.dropWriter.failTables e) ∨
      ∃ p, fitPayload s.params.maxCodeLen s.dcap.toNat s.source = .ok p
        ∧ hufEncBody s = (s.dropDecoder.dropWriter.storePayload p).complete := by
  have hs : s.dropDecoder.dropWriter.source = s.source := rfl
  unfold hufEncBody
  dsimp only
  rw [hs]
  cases h : fitPayload s.params.maxCodeLen s.dcap.toNat s.source with
  | error e =>
    left
    refine ⟨e, rfl, ?_⟩
    rw [show fitPayload s.dropDecoder.dropWriter.params.maxCodeLen
      s.dropDecoder.dropWriter.dcap.toNat s.source = .error e from h]
  | ok p =>
    right
    refine ⟨p, rfl, ?_⟩
    rw [show fitPayload s.dropDecoder.dropWriter.params.maxCodeLen
      s.dropDecoder.dropWriter.dcap.toNat s.source = .ok p from h]

/-- What PIPE_ENC's body can do. -/
theorem pipeEncBody_cases (s : State) :
    (∃ e, fitPayload s.params.maxCodeLen s.dcap.toNat (pipeFront s.source) = .error e
        ∧ pipeEncBody s = s.dropDecoder.dropWriter.failTables e) ∨
      ∃ p, fitPayload s.params.maxCodeLen s.dcap.toNat (pipeFront s.source) = .ok p
        ∧ pipeEncBody s = { s.dropDecoder.dropWriter.storePayload p with
            pi := BitVec.ofNat 32 (bwtForward s.source).2
            rlelen := BitVec.ofNat 32 (pipeFront s.source).length }.complete := by
  have hs : s.dropDecoder.dropWriter.source = s.source := rfl
  unfold pipeEncBody
  dsimp only
  rw [hs]
  cases h : fitPayload s.params.maxCodeLen s.dcap.toNat (pipeFront s.source) with
  | error e =>
    left
    refine ⟨e, rfl, ?_⟩
    rw [show fitPayload s.dropDecoder.dropWriter.params.maxCodeLen
      s.dropDecoder.dropWriter.dcap.toNat (pipeFront s.source) = .error e from h]
  | ok p =>
    right
    refine ⟨p, rfl, ?_⟩
    rw [show fitPayload s.dropDecoder.dropWriter.params.maxCodeLen
      s.dropDecoder.dropWriter.dcap.toNat (pipeFront s.source) = .ok p from h]

/-- A payload that fits its capacity. -/
theorem fitPayload_ok {m cap : Nat} {buf : List Byte} {p : Payload} (h : fitPayload m cap buf = .ok p) :
    p.size ≤ cap ∧ p.freq = histogram buf ∧ p.bits = encodeBits p.len p.table buf
      ∧ ∃ l, buildLengths m (histogram buf) = .ok l ∧ canonTable m l = .ok (p.len, p.table) := by
  unfold fitPayload huffmanPayload at h
  cases hb : buildLengths m (histogram buf) with
  | error e => simp [hb] at h
  | ok l =>
    cases hc : canonTable m l with
    | error e => simp [hb, hc] at h
    | ok lt =>
      simp only [hb, hc] at h
      split at h
      · cases h
      · injection h with h
        subst h
        exact ⟨by omega, rfl, rfl, l, rfl, hc⟩

/-- Why a payload cannot be written: a length, or its size (44_huffman.md R187). -/
theorem fitPayload_error {m cap : Nat} {buf : List Byte} {e : CmdError}
    (h : fitPayload m cap buf = .error e) :
    buildLengths m (histogram buf) = .error e ∨
      ∃ l, buildLengths m (histogram buf) = .ok l ∧
        (canonTable m l = .error e ∨
          ∃ l' t, canonTable m l = .ok (l', t)
            ∧ cap < 256 + ceil8 (encodeBits l' t buf).length
            ∧ e = { kind := .dstOverflow, info := 256 + ceil8 (encodeBits l' t buf).length }) := by
  unfold fitPayload huffmanPayload at h
  cases hb : buildLengths m (histogram buf) with
  | error e => simp_all
  | ok l =>
    refine .inr ⟨l, rfl, ?_⟩
    cases hc : canonTable m l with
    | error e => simp_all
    | ok lt =>
      refine .inr ⟨lt.1, lt.2, rfl, ?_⟩
      simp only [hb, hc] at h
      split at h
      · rename_i h'
        injection h with h
        exact ⟨h', h.symm⟩
      · cases h

end Sys2Proof.Machine
end

