-- ==== Sys2Proof/Laws/BitIo.lean ====
section
/-! SUPPORT. Bit lists, the packed bytes, the BitReader as a list of bits, the BitWriter as a list of
bits. -/

namespace Sys2Proof.Machine

/-! ## Code bits and packed bytes -/

@[simp] theorem codeBits_length (code n : Nat) : (codeBits code n).length = n := by simp [codeBits]

theorem codeBits_getElem {code n i : Nat} (h : i < (codeBits code n).length) :
    (codeBits code n)[i] = code.testBit (n - 1 - i) := by simp [codeBits]

@[simp] theorem codeBits_zero (code : Nat) : codeBits code 0 = [] := rfl

/-- The first bit of a code is its top bit (40_bitio.md R101). -/
theorem codeBits_succ (code n : Nat) : codeBits code (n + 1) = code.testBit n :: codeBits code n := by
  apply List.ext_getElem (by simp)
  intro i h _
  rw [codeBits_getElem h]
  cases i with
  | zero => simp
  | succ i =>
    simp only [List.getElem_cons_succ, codeBits_getElem]
    congr 1
    omega

/-- The bits of a code, read as a number: the accumulator of `DecodeSymbol` after `n + 1` of them
(44_huffman.md R190). -/
theorem shiftRight_step (code n : Nat) :
    code >>> n = 2 * (code >>> (n + 1)) + (code.testBit n).toNat := by
  rw [Nat.shiftRight_succ, Nat.testBit_eq_decide_div_mod_eq, Nat.shiftRight_eq_div_pow]
  rcases Nat.mod_two_eq_zero_or_one (code / 2 ^ n) with h | h <;> simp [h] <;> omega

/-- One more bit at the end of a code. -/
theorem codeBits_snoc (code n : Nat) (b : Bool) :
    codeBits (2 * code + b.toNat) (n + 1) = codeBits code n ++ [b] := by
  apply List.ext_getElem
  · simp
  · intro i h1 h2
    have hb := Bool.toNat_le b
    rw [codeBits_getElem, List.getElem_append]
    split
    · rename_i hi
      rw [codeBits_length] at hi
      rw [codeBits_getElem, show n + 1 - 1 - i = (n - 1 - i) + 1 by omega, Nat.testBit_succ]
      congr 1
      omega
    · rename_i hi
      rw [codeBits_length] at h1 hi
      obtain rfl : i = n := by omega
      simp only [Nat.add_sub_cancel, Nat.sub_self, codeBits_length, List.getElem_singleton]
      cases b <;> simp [Nat.testBit_zero] <;> omega

@[simp] theorem pack_length (bs : List Bool) : (pack bs).length = ceil8 bs.length := by simp [pack]

theorem ceil8_bounds (n : Nat) : n ≤ 8 * ceil8 n ∧ 8 * ceil8 n < n + 8 := by
  unfold ceil8
  omega

theorem ceil8_le {n m : Nat} : ceil8 n ≤ m ↔ n ≤ 8 * m := by
  unfold ceil8
  omega

theorem ceil8_mono {n m : Nat} (h : n ≤ m) : ceil8 n ≤ ceil8 m := by
  unfold ceil8
  omega

/-- The sum that makes a packed byte, bit by bit. -/
theorem byteSum_testBit (f : Nat → Bool) (k : Nat) (hk : k < 8) :
    (BitVec.ofNat 8 ((List.range 8).map fun t => (f t).toNat <<< (7 - t)).sum).getLsbD k = f (7 - k) := by
  have key : ∀ a b c d e g h i : Bool, ∀ k : Fin 8,
      (BitVec.ofNat 8 (a.toNat <<< 7 + (b.toNat <<< 6 + (c.toNat <<< 5 + (d.toNat <<< 4
        + (e.toNat <<< 3 + (g.toNat <<< 2 + (h.toNat <<< 1 + (i.toNat <<< 0 + 0))))))))).getLsbD k
        = [i, h, g, e, d, c, b, a].getD k false := by decide
  have := key (f 0) (f 1) (f 2) (f 3) (f 4) (f 5) (f 6) (f 7) ⟨k, hk⟩
  simp only [List.range, List.range.loop, List.map, List.sum_cons, List.sum_nil]
  rw [this]
  interval_cases k <;> rfl

/-- Bit `j` of a packed list (40_bitio.md R100, R101). -/
theorem packedByte_getLsbD (bs : List Bool) (i k : Nat) (hk : k < 8) :
    (packedByte bs i).getLsbD k = bs.getD (8 * i + (7 - k)) false := by
  unfold packedByte
  dsimp only
  rw [byteSum_testBit (fun t => (bs.drop (8 * i)).getD t false) k hk]
  simp [List.getElem?_drop]

/-- What a reader over packed bits sees (40_bitio.md R112). -/
theorem bitAt_of_pack {byteAt : Nat → Byte} {base : Nat} {bs : List Bool}
    (h : ∀ i, (hi : i < (pack bs).length) → byteAt (base + i) = (pack bs)[i]) (j : Nat)
    (hj : j < 8 * ceil8 bs.length) : bitAt byteAt base j = bs.getD j false := by
  have hi : j / 8 < (pack bs).length := by rw [pack_length]; omega
  unfold bitAt
  rw [h _ hi]
  simp only [pack, List.getElem_map, List.getElem_range]
  rw [packedByte_getLsbD _ _ _ (by omega)]
  congr 1
  omega

/-! ## The BitReader -/

/-- The bits a reader has still to give. -/
def BitReader.rest (byteAt : Nat → Byte) (r : BitReader) : List Bool :=
  (List.range (8 * r.bytes.toNat - r.pos.toNat)).map fun t =>
    bitAt byteAt r.base.toNat (r.pos.toNat + t)

/-- The reader that has consumed `n` more bits. -/
def BitReader.skip (r : BitReader) (n : Nat) : BitReader := { r with pos := r.pos + BitVec.ofNat 32 n }

@[simp] theorem BitReader.skip_zero (r : BitReader) : r.skip 0 = r := by simp [BitReader.skip]

theorem BitReader.skip_skip (r : BitReader) (n m : Nat) : (r.skip n).skip m = r.skip (n + m) := by
  simp [BitReader.skip, BitVec.ofNat_add, BitVec.add_assoc]

@[simp] theorem BitReader.skip_active (r : BitReader) (n : Nat) : (r.skip n).active = r.active := rfl
@[simp] theorem BitReader.skip_base (r : BitReader) (n : Nat) : (r.skip n).base = r.base := rfl
@[simp] theorem BitReader.skip_bytes (r : BitReader) (n : Nat) : (r.skip n).bytes = r.bytes := rfl

@[simp] theorem BitReader.rest_length (byteAt : Nat → Byte) (r : BitReader) :
    (r.rest byteAt).length = 8 * r.bytes.toNat - r.pos.toNat := by simp [BitReader.rest]

/-- A buffer small enough for its bit count to be a register value: every buffer inside MEM is. -/
def BitReader.Small (r : BitReader) : Prop := 8 * r.bytes.toNat < 2 ^ 32

theorem BitReader.skip_pos {byteAt : Nat → Byte} {r : BitReader} (hr : r.Small) {n : Nat}
    (hn : n ≤ (r.rest byteAt).length) : (r.skip n).pos.toNat = r.pos.toNat + n := by
  unfold BitReader.Small at hr
  rw [BitReader.rest_length] at hn
  have := r.pos.isLt
  simp only [BitReader.skip, BitVec.toNat_add, BitVec.toNat_ofNat]
  by_cases h : n = 0
  · subst h
    simp only [Nat.zero_mod, Nat.add_zero]
    omega
  · rw [Nat.mod_eq_of_lt (a := n) (by omega), Nat.mod_eq_of_lt (by omega)]

theorem BitReader.rest_skip {byteAt : Nat → Byte} {r : BitReader} (hr : r.Small) {n : Nat}
    (hn : n ≤ (r.rest byteAt).length) : (r.skip n).rest byteAt = (r.rest byteAt).drop n := by
  have hp := BitReader.skip_pos hr hn
  rw [BitReader.rest_length] at hn
  apply List.ext_getElem
  · simp [hp]
    omega
  · intro i _ _
    simp [BitReader.rest, hp, Nat.add_assoc]

theorem BitReader.readBit_nil {byteAt : Nat → Byte} {r : BitReader} (h : r.rest byteAt = []) :
    r.readBit byteAt = (none, r) := by
  have := congrArg List.length h
  rw [BitReader.rest_length] at this
  unfold BitReader.readBit
  rw [if_pos (by simp at this; omega)]

theorem BitReader.readBit_cons {byteAt : Nat → Byte} {r : BitReader} {b : Bool} {bs : List Bool}
    (h : r.rest byteAt = b :: bs) : r.readBit byteAt = (some b, r.skip 1) := by
  have hl := congrArg List.length h
  rw [BitReader.rest_length] at hl
  have hb : (r.rest byteAt)[0]? = some b := by rw [h]; rfl
  unfold BitReader.readBit
  rw [if_neg (by simp at hl; omega)]
  simp only [BitReader.rest, List.getElem?_map] at hb
  rw [List.getElem?_range (by simp at hl; omega)] at hb
  simp only [Option.map_some, Nat.add_zero, Option.some.injEq] at hb
  rw [hb]
  rfl

/-- A reader gets on by some number of bits that were there. -/
def BitReader.Follows (byteAt : Nat → Byte) (r r' : BitReader) : Prop :=
  ∃ n, n ≤ (r.rest byteAt).length ∧ r' = r.skip n

theorem BitReader.Follows.refl (byteAt : Nat → Byte) (r : BitReader) : r.Follows byteAt r :=
  ⟨0, by simp, by simp⟩

theorem BitReader.Follows.trans {byteAt : Nat → Byte} {r r' r'' : BitReader} (hr : r.Small)
    (h : r.Follows byteAt r') (h' : r'.Follows byteAt r'') : r.Follows byteAt r'' := by
  obtain ⟨n, hn, rfl⟩ := h
  obtain ⟨m, hm, rfl⟩ := h'
  rw [BitReader.rest_skip hr hn, List.length_drop] at hm
  exact ⟨n + m, by omega, BitReader.skip_skip r n m⟩

theorem BitReader.Follows.active {byteAt : Nat → Byte} {r r' : BitReader} (h : r.Follows byteAt r') :
    r'.active = r.active := by obtain ⟨n, -, rfl⟩ := h; rfl

theorem BitReader.Follows.base {byteAt : Nat → Byte} {r r' : BitReader} (h : r.Follows byteAt r') :
    r'.base = r.base := by obtain ⟨n, -, rfl⟩ := h; rfl

theorem BitReader.Follows.bytes {byteAt : Nat → Byte} {r r' : BitReader} (h : r.Follows byteAt r') :
    r'.bytes = r.bytes := by obtain ⟨n, -, rfl⟩ := h; rfl

theorem BitReader.Follows.pos_le {byteAt : Nat → Byte} {r r' : BitReader} (hr : r.Small)
    (h : r.Follows byteAt r') (hp : r.pos.toNat ≤ 8 * r.bytes.toNat) :
    r'.pos.toNat ≤ 8 * r'.bytes.toNat := by
  obtain ⟨n, hn, rfl⟩ := h
  rw [BitReader.skip_pos hr hn, BitReader.skip_bytes]
  rw [BitReader.rest_length] at hn
  omega

theorem BitReader.readBit_follows (byteAt : Nat → Byte) (r : BitReader) :
    r.Follows byteAt (r.readBit byteAt).2 := by
  cases h : r.rest byteAt with
  | nil => rw [BitReader.readBit_nil h]; exact .refl _ _
  | cons b bs => rw [BitReader.readBit_cons h]; exact ⟨1, by simp [h], rfl⟩


/-! ## The end of the stream -/

theorem mem_paddingPositions {hb j : Nat} : j ∈ paddingPositions hb ↔ hb ≤ j ∧ j < 8 * ceil8 hb := by
  simp only [paddingPositions, List.mem_map, List.mem_range]
  constructor
  · rintro ⟨t, ht, rfl⟩
    omega
  · rintro ⟨h, h'⟩
    exact ⟨j - hb, by omega, by omega⟩

/-- When the three checks of 40_bitio.md R110 pass. -/
theorem BitReader.assertConsumed_eq_none {byteAt : Nat → Byte} {r : BitReader} {hb : Nat} :
    r.assertConsumed byteAt hb = none ↔
      r.pos.toNat = hb ∧ (∀ j, hb ≤ j → j < 8 * ceil8 hb → bitAt byteAt r.base.toNat j = false)
        ∧ r.bytes.toNat ≤ ceil8 hb := by
  unfold BitReader.assertConsumed
  by_cases hp : r.pos.toNat = hb
  · rw [if_neg (not_not.mpr hp)]
    cases hf : (paddingPositions hb).find? fun j => bitAt byteAt r.base.toNat j with
    | some j =>
      have hj := List.find?_some hf
      have hm := mem_paddingPositions.mp (List.mem_of_find?_eq_some hf)
      simp only [reduceCtorEq, false_iff, not_and]
      intro _ h
      rw [h j hm.1 hm.2] at hj
      cases hj
    | none =>
      rw [List.find?_eq_none] at hf
      have : ∀ j, hb ≤ j → j < 8 * ceil8 hb → bitAt byteAt r.base.toNat j = false := fun j h h' => by
        simpa using hf j (mem_paddingPositions.mpr ⟨h, h'⟩)
      dsimp only
      by_cases hl : ceil8 hb < r.bytes.toNat
      · simp [hl, hp, this]
      · simp [hl, hp]
        exact ⟨this, by omega⟩
  · simp [hp]

/-- The codes a failing assertion reports are corrupt-payload codes (60_exceptions.md R265). -/
theorem BitReader.assertConsumed_kind {byteAt : Nat → Byte} {r : BitReader} {hb : Nat} {e : CmdError}
    (h : r.assertConsumed byteAt hb = some e) :
    e.kind = .consumedMismatch ∨ e.kind = .nonzeroPadding ∨ e.kind = .trailingBytes := by
  unfold BitReader.assertConsumed at h
  split at h
  · injection h with h; subst h; simp
  · split at h
    · injection h with h; subst h; simp
    · split at h
      · injection h with h; subst h; simp
      · cases h

/-! ## The BitWriter -/

/-- A region small enough for its bit count to be a register value: every region inside MEM is. -/
def BitWriter.Small (w : BitWriter) : Prop := 8 * w.cap.toNat < 2 ^ 32

theorem writerBits_length (s : State) : (writerBits s).length = s.bw.bits.toNat := by
  simp only [writerBits, List.length_append, List.length_map, List.length_range]
  omega

/-- Bit `j` of what a writer has taken. -/
theorem writerBits_getElem (s : State) {j : Nat} (h : j < (writerBits s).length) :
    (writerBits s)[j] = if j / 8 < s.bw.bits.toNat / 8 then bitAt s.readByte s.bw.base.toNat j
      else s.bw.acc.getLsbD (7 - j % 8) := by
  have h' := h
  rw [writerBits_length] at h'
  simp only [writerBits, List.getElem_append, List.length_map, List.length_range, List.getElem_map,
    List.getElem_range]
  by_cases hj : j / 8 < s.bw.bits.toNat / 8
  · rw [if_pos hj, dif_pos (by omega)]
  · rw [if_neg hj, dif_neg (by omega)]
    congr 1
    omega

/-- The zeros below the partial byte's bits (10_state.md R46). -/
theorem BitWriter.Ok.acc_false {p : Params} {w : BitWriter} (h : w.Ok p) {k : Nat}
    (hk : k < 8 - w.bits.toNat % 8) : w.acc.getLsbD k = false := by
  have := h.acc
  rw [BitVec.getLsbD]
  have hd : 2 ^ (8 - w.bits.toNat % 8) ∣ w.acc.toNat := Nat.dvd_of_mod_eq_zero this
  obtain ⟨q, hq⟩ := hd
  rw [hq, Nat.testBit_two_pow_mul]
  simp
  omega

/-- The next bit's place in the partial byte (40_bitio.md R103). -/
theorem acc_step (acc : Byte) (b : Bool) (t k : Nat) (ht : t < 8) (hk : k < 8) :
    (acc ||| (if b then 1#8 <<< (7 - t) else 0#8)).getLsbD k
      = (acc.getLsbD k || (b && decide (k = 7 - t))) := by
  cases b
  · simp
  · simp only [if_true, BitVec.getLsbD_or, BitVec.getLsbD_shiftLeft, BitVec.getLsbD_one, Bool.true_and]
    congr 1
    simp only [hk, decide_true, Bool.true_and]
    by_cases h : k = 7 - t <;> simp [h] <;> omega

theorem acc_mod_of_false {acc : Byte} {n : Nat} (hn : n ≤ 8)
    (h : ∀ k, k < n → acc.getLsbD k = false) : acc.toNat % 2 ^ n = 0 := by
  apply Nat.eq_of_testBit_eq
  intro k
  rw [Nat.testBit_mod_two_pow, Nat.zero_testBit]
  by_cases hk : k < n
  · simpa [hk, BitVec.getLsbD] using h k hk
  · simp [hk]

/-- `PutBit` (40_bitio.md R103): the writer stays in order, has taken one bit more, and no byte but the
one it completes is written. -/
theorem State.putBit_spec {s : State} {p : Params} (b : Bool) (hs : s.bw.Small) (ho : s.bw.Ok p)
    (hc : s.bw.bits.toNat + 1 ≤ 8 * s.bw.cap.toNat) :
    (s.putBit b).bw.Ok p ∧ (s.putBit b).bw.bits.toNat = s.bw.bits.toNat + 1
      ∧ writerBits (s.putBit b) = writerBits s ++ [b]
      ∧ ∀ x, x < s.bw.base.toNat + s.bw.bits.toNat / 8
            ∨ s.bw.base.toNat + (s.bw.bits.toNat + 1) / 8 ≤ x →
          (s.putBit b).readByte x = s.readByte x := by
  unfold BitWriter.Small at hs
  have hbits : (s.bw.bits + 1#32).toNat = s.bw.bits.toNat + 1 := by
    rw [BitVec.toNat_add]
    simp
    omega
  have hacc := @acc_step s.bw.acc b (s.bw.bits.toNat % 8)
  generalize ha : (s.bw.acc ||| (if b then 1#8 <<< (7 - s.bw.bits.toNat % 8) else 0#8)) = acc at hacc
  by_cases hz : (s.bw.bits.toNat + 1) % 8 = 0
  · -- the bit completes a byte
    have e : s.putBit b = { s.writeBytes (s.bw.base.toNat + (s.bw.bits.toNat + 1) / 8 - 1) [acc] with
        bw := { s.bw with bits := s.bw.bits + 1#32, acc := 0#8 } } := by
      unfold State.putBit
      simp only [ha, hbits]
      rw [if_pos hz]
    have hm : (s.putBit b).mem
        = s.mem.writeRun (s.bw.base.toNat + (s.bw.bits.toNat + 1) / 8 - 1) [acc] := by rw [e]; rfl
    have hep : (s.putBit b).epoch = s.epoch := by rw [e]; rfl
    have hbw : (s.putBit b).bw = { s.bw with bits := s.bw.bits + 1#32, acc := 0#8 } := by rw [e]
    have hframe : ∀ x, x ≠ s.bw.base.toNat + s.bw.bits.toNat / 8 →
        (s.putBit b).readByte x = s.readByte x := fun x hx =>
      State.readByte_outside hm hep (by simp; omega)
    have hnew : (s.putBit b).readByte (s.bw.base.toNat + s.bw.bits.toNat / 8) = acc := by
      have := State.readByte_inside hm hep (i := 0) (by simp)
      rw [show s.bw.base.toNat + (s.bw.bits.toNat + 1) / 8 - 1 + 0
        = s.bw.base.toNat + s.bw.bits.toNat / 8 by omega] at this
      simpa using this
    refine ⟨⟨?_, ?_, ?_⟩, by rw [hbw]; exact hbits, ?_, ?_⟩
    · rw [hbw]; exact ho.region
    · rw [hbw]
      show ceil8 (s.bw.bits + 1#32).toNat ≤ s.bw.cap.toNat
      rw [hbits, ceil8_le]
      exact hc
    · rw [hbw]
      simp
    · apply List.ext_getElem
      · simp [writerBits_length, hbw, hbits]
      · intro j h1 h2
        rw [writerBits_length, hbw] at h1
        simp only [hbits] at h1
        rw [writerBits_getElem, hbw]
        simp only [hbits]
        rw [if_pos (by omega), List.getElem_append]
        by_cases hj : j < (writerBits s).length
        · rw [dif_pos hj, writerBits_getElem]
          split
          · unfold bitAt
            rw [hframe _ (by omega)]
          · rw [writerBits_length] at hj
            unfold bitAt
            rw [show j / 8 = s.bw.bits.toNat / 8 by omega, hnew, hacc _ (by omega) (by omega)]
            have : ¬ (7 - j % 8 = 7 - s.bw.bits.toNat % 8) := by omega
            simp [this]
        · rw [dif_neg hj]
          rw [writerBits_length] at hj
          have hj' : j = s.bw.bits.toNat := by omega
          subst hj'
          unfold bitAt
          rw [hnew, hacc _ (by omega) (by omega), ho.acc_false (by omega)]
          simp
    · intro x hx
      exact hframe x (by omega)
  · have e : s.putBit b = { s with bw := { s.bw with bits := s.bw.bits + 1#32, acc := acc } } := by
      unfold State.putBit
      simp only [ha, hbits]
      rw [if_neg hz]
    have hframe : ∀ x, (s.putBit b).readByte x = s.readByte x := fun x =>
      State.readByte_congr (by rw [e]) (by rw [e]) x
    have hbw : (s.putBit b).bw = { s.bw with bits := s.bw.bits + 1#32, acc := acc } := by rw [e]
    refine ⟨⟨?_, ?_, ?_⟩, by rw [hbw]; exact hbits, ?_, fun x _ => hframe x⟩
    · rw [hbw]; exact ho.region
    · rw [hbw]
      show ceil8 (s.bw.bits + 1#32).toNat ≤ s.bw.cap.toNat
      rw [hbits, ceil8_le]
      exact hc
    · rw [hbw]
      show acc.toNat % 2 ^ (8 - (s.bw.bits + 1#32).toNat % 8) = 0
      rw [hbits]
      apply acc_mod_of_false (by omega)
      intro k hk
      rw [hacc _ (by omega) (by omega), ho.acc_false (by omega)]
      have : ¬ (k = 7 - s.bw.bits.toNat % 8) := by omega
      simp [this]
    · apply List.ext_getElem
      · simp [writerBits_length, hbw, hbits]
      · intro j h1 h2
        rw [writerBits_length, hbw] at h1
        simp only [hbits] at h1
        rw [writerBits_getElem, hbw]
        simp only [hbits]
        rw [List.getElem_append]
        by_cases hj : j < (writerBits s).length
        · rw [dif_pos hj, writerBits_getElem]
          rw [writerBits_length] at hj
          by_cases hlt : j / 8 < s.bw.bits.toNat / 8
          · rw [if_pos (by omega), if_pos hlt]
            unfold bitAt
            rw [hframe]
          · rw [if_neg (by omega), if_neg hlt, hacc _ (by omega) (by omega)]
            have : ¬ (7 - j % 8 = 7 - s.bw.bits.toNat % 8) := by omega
            simp [this]
        · rw [dif_neg hj]
          rw [writerBits_length] at hj
          have hj' : j = s.bw.bits.toNat := by omega
          subst hj'
          rw [if_neg (by omega), hacc _ (by omega) (by omega), ho.acc_false (by omega)]
          simp

/-- BW_WRITE's loop (40_bitio.md R103). -/
theorem foldl_putBit_spec {p : Params} (bs : List Bool) {s : State} (hs : s.bw.Small) (ho : s.bw.Ok p)
    (hc : s.bw.bits.toNat + bs.length ≤ 8 * s.bw.cap.toNat) :
    (bs.foldl State.putBit s).bw.Ok p
      ∧ (bs.foldl State.putBit s).bw.bits.toNat = s.bw.bits.toNat + bs.length
      ∧ writerBits (bs.foldl State.putBit s) = writerBits s ++ bs
      ∧ ∀ x, x < s.bw.base.toNat + s.bw.bits.toNat / 8
            ∨ s.bw.base.toNat + (s.bw.bits.toNat + bs.length) / 8 ≤ x →
          (bs.foldl State.putBit s).readByte x = s.readByte x := by
  induction bs generalizing s with
  | nil => simpa using ho
  | cons b bs ih =>
    rw [List.length_cons] at hc
    obtain ⟨h1, h2, h3, h4⟩ := State.putBit_spec b hs ho (by omega)
    have hcap : (s.putBit b).bw.cap = s.bw.cap := by rw [State.putBit_eq]
    have hbase : (s.putBit b).bw.base = s.bw.base := by rw [State.putBit_eq]
    obtain ⟨g1, g2, g3, g4⟩ := ih (s := s.putBit b) (by unfold BitWriter.Small; rw [hcap]; exact hs) h1
      (by rw [h2, hcap]; omega)
    refine ⟨g1, by rw [List.foldl_cons, g2, h2, List.length_cons]; omega,
      by rw [List.foldl_cons, g3, h3]; simp, fun x hx => ?_⟩
    rw [List.foldl_cons, g4 x (by rw [hbase, h2, List.length_cons] at *; omega)]
    exact h4 x (by rw [List.length_cons] at hx; omega)

/-- The complete bytes and the partial byte of a writer are the packed bits (40_bitio.md R104). -/
theorem writer_bytes {s : State} {p : Params} (ho : s.bw.Ok p) {i : Nat}
    (hi : i < ceil8 s.bw.bits.toNat) :
    (if i < s.bw.bits.toNat / 8 then s.readByte (s.bw.base.toNat + i) else s.bw.acc)
      = packedByte (writerBits s) i := by
  have hi' : 8 * i < s.bw.bits.toNat := by unfold ceil8 at hi; omega
  apply BitVec.eq_of_getLsbD_eq
  intro k hk
  rw [packedByte_getLsbD _ _ _ hk]
  by_cases hj : 8 * i + (7 - k) < (writerBits s).length
  · rw [List.getD_eq_getElem _ _ hj, writerBits_getElem]
    rw [show (8 * i + (7 - k)) / 8 = i by omega]
    split
    · unfold bitAt
      rw [show (8 * i + (7 - k)) / 8 = i by omega]
      congr 1
      omega
    · congr 1
      omega
  · rw [List.getD_eq_default _ _ (by omega)]
    rw [writerBits_length] at hj
    rw [if_neg (by omega)]
    exact ho.acc_false (by omega)

end Sys2Proof.Machine
end

