-- ==== Sys2Proof/Laws/Canon.lean ====
section
/-! SUPPORT. The canonical table: its rows, its codes, and what `DecodeSymbol` does with them. -/

namespace Sys2Proof.Machine

/-- `blCount[j]`, with `blCount[0] = 0` (44_huffman.md R184). -/
def lengthCount (len : Table Byte) (j : Nat) : Nat := if j = 0 then 0 else (symbolsOfLength len j).length

/-- `codeStart[j]` (44_huffman.md R184). -/
def codeStartOf (len : Table Byte) : Nat → Nat
  | 0 => 0
  | j + 1 => 2 * (codeStartOf len j + lengthCount len j)

@[simp] theorem codeStartOf_one (len : Table Byte) : codeStartOf len 1 = 0 := by
  simp [codeStartOf, lengthCount]

theorem canonRows_eq (len : Table Byte) (k j : Nat) (hj : 1 ≤ j) :
    canonRows len k j (codeStartOf len j)
      = (List.range k).map fun i => canonRow len (j + i) (codeStartOf len (j + i)) := by
  induction k generalizing j with
  | zero => rfl
  | succ k ih =>
    have hs : (codeStartOf len j + (canonRow len j (codeStartOf len j)).blCount) <<< 1
        = codeStartOf len (j + 1) := by
      have : j ≠ 0 := by omega
      simp [codeStartOf, lengthCount, this, canonRow, Nat.shiftLeft_eq]
      omega
    rw [canonRows]
    rw [hs, ih (j + 1) (by omega), List.range_succ_eq_map, List.map_cons, List.map_map]
    congr 1
    apply List.map_congr_left
    intro i _
    simp only [Function.comp]
    rw [show j + 1 + i = j + (i + 1) by omega]

theorem overSubscribed_eq_false {j : Nat} {rows : List CanonRow} :
    overSubscribed j rows = false ↔
      ∀ i, (h : i < rows.length) → rows[i].codeStart + rows[i].blCount ≤ 2 ^ (j + i) := by
  induction rows generalizing j with
  | nil => simp [overSubscribed]
  | cons row rows ih =>
    simp only [overSubscribed, Bool.or_eq_false_iff, decide_eq_false_iff_not, not_lt, ih]
    constructor
    · rintro ⟨h0, h⟩ i hi
      cases i with
      | zero => simpa using h0
      | succ i =>
        have := h i (by simpa using hi)
        simpa [Nat.add_assoc, Nat.add_comm 1] using this
    · intro h
      refine ⟨h 0 (by simp), fun i hi => ?_⟩
      have := h (i + 1) (by simpa using hi)
      simpa [Nat.add_assoc, Nat.add_comm 1] using this

theorem foldl_max_le {l : List Byte} {a m : Nat} :
    l.foldl (fun m b => max m b.toNat) a ≤ m ↔ a ≤ m ∧ ∀ b ∈ l, b.toNat ≤ m := by
  induction l generalizing a with
  | nil => simp
  | cons b l ih =>
    rw [List.foldl_cons, ih]
    simp only [List.mem_cons, forall_eq_or_imp, max_le_iff, and_assoc]

/-- What `Canon` returns (44_huffman.md R184). -/
structure IsCanon (m : Nat) (len l : Table Byte) (t : Canon) : Prop where
  forced : l = forceLengths len
  le_max : ∀ x, (entry l x).toNat ≤ m
  le_maxLen : ∀ x, (entry l x).toNat ≤ t.maxLen
  maxLen_le : t.maxLen ≤ m
  rows : t.rows = (List.range t.maxLen).map fun i => canonRow l (i + 1) (codeStartOf l (i + 1))
  fits : ∀ j, 1 ≤ j → j ≤ t.maxLen → codeStartOf l j + lengthCount l j ≤ 2 ^ j
  code : t.code = tabulate (canonCode l t.rows)

theorem canonTable_rows (l : Table Byte) (n : Nat) :
    canonRows l n 1 0 = (List.range n).map fun i => canonRow l (i + 1) (codeStartOf l (i + 1)) := by
  have := canonRows_eq l n 1 (le_refl 1)
  rw [codeStartOf_one] at this
  rw [this]
  apply List.map_congr_left
  intro i _
  rw [Nat.add_comm]

theorem canonTable_ok {m : Nat} {len l : Table Byte} {t : Canon}
    (h : canonTable m len = .ok (l, t)) : IsCanon m len l t := by
  unfold canonTable at h
  dsimp only at h
  split at h
  · cases h
  · rename_i hf
    split at h
    · cases h
    · rename_i ho
      injection h with h
      injection h with h1 h2
      subst h1
      subst h2
      rw [List.find?_eq_none] at hf
      have hle : ∀ x, (entry (forceLengths len) x).toNat ≤ m := fun x => by
        simpa using hf x (mem_symbols x)
      have hmax := (foldl_max_le (l := entries (forceLengths len)) (a := 0)).mp (le_refl _)
      refine ⟨rfl, hle, fun x => hmax.2 _ (mem_entries.mpr ⟨x, rfl⟩), ?_, canonTable_rows _ _, ?_, rfl⟩
      · rw [foldl_max_le]
        exact ⟨Nat.zero_le _, fun b hb => by obtain ⟨x, rfl⟩ := mem_entries.mp hb; exact hle x⟩
      · intro j hj hj'
        dsimp only at hj'
        have ho' := overSubscribed_eq_false.mp (Bool.not_eq_true _ ▸ ho)
        rw [canonTable_rows] at ho'
        have := ho' (j - 1) (by simp; omega)
        simp only [List.getElem_map, List.getElem_range] at this
        rw [show j - 1 + 1 = j by omega, show 1 + (j - 1) = j by omega] at this
        simpa [canonRow, lengthCount, show j ≠ 0 by omega] using this

theorem mem_symbolsOfLength {len : Table Byte} {j : Nat} {x : Byte} :
    x ∈ symbolsOfLength len j ↔ (entry len x).toNat = j := by simp [symbolsOfLength]

theorem symbolsOfLength_pairwise (len : Table Byte) (j : Nat) :
    (symbolsOfLength len j).Pairwise fun a b => a.toNat < b.toNat :=
  symbols_pairwise.filter _

theorem symbolsOfLength_nodup (len : Table Byte) (j : Nat) : (symbolsOfLength len j).Nodup :=
  symbols_nodup.filter _

section
variable {m : Nat} {len l : Table Byte} {t : Canon}

theorem IsCanon.row (h : IsCanon m len l t) {j : Nat} (hj : j < t.maxLen) :
    t.rows[j]? = some (canonRow l (j + 1) (codeStartOf l (j + 1))) := by
  rw [h.rows, List.getElem?_map, List.getElem?_range hj]
  rfl

theorem IsCanon.rows_length (h : IsCanon m len l t) : t.rows.length = t.maxLen := by
  rw [h.rows]
  simp

/-- `code[s]` (44_huffman.md R184). -/
theorem IsCanon.code_eq (h : IsCanon m len l t) {x : Byte} (hx : 0 < (entry l x).toNat) :
    entry t.code x = codeStartOf l (entry l x).toNat
      + (symbolsOfLength l (entry l x).toNat).idxOf x := by
  have hmax := h.le_maxLen x
  rw [h.code, entry_tabulate, canonCode]
  cases hj : (entry l x).toNat with
  | zero => omega
  | succ j =>
    dsimp only
    rw [h.row (by omega)]
    rfl

/-- The index of a symbol among those of its length. -/
theorem idxOf_lt_lengthCount {x : Byte} (hx : 0 < (entry l x).toNat) :
    (symbolsOfLength l (entry l x).toNat).idxOf x < lengthCount l (entry l x).toNat := by
  rw [lengthCount, if_neg (by omega)]
  exact List.idxOf_lt_length_iff.mpr (mem_symbolsOfLength.mpr rfl)

theorem IsCanon.code_lt (h : IsCanon m len l t) {x : Byte} (hx : 0 < (entry l x).toNat) :
    entry t.code x < codeStartOf l (entry l x).toNat + lengthCount l (entry l x).toNat := by
  rw [h.code_eq hx]
  have := idxOf_lt_lengthCount (l := l) hx
  omega

theorem IsCanon.code_lt_two_pow (h : IsCanon m len l t) {x : Byte} (hx : 0 < (entry l x).toNat) :
    entry t.code x < 2 ^ (entry l x).toNat :=
  lt_of_lt_of_le (h.code_lt hx) (h.fits _ hx (h.le_maxLen x))

/-- The codes of longer lengths start behind all prefixes used by shorter ones. -/
theorem codeStartOf_le (l : Table Byte) {j k : Nat} (hjk : j < k) :
    (codeStartOf l j + lengthCount l j) * 2 ^ (k - j) ≤ codeStartOf l k := by
  induction k with
  | zero => omega
  | succ k ih =>
    rcases Nat.lt_or_ge j k with hlt | hge
    · have := ih hlt
      rw [codeStartOf, Nat.succ_sub (by omega), Nat.pow_succ, ← Nat.mul_assoc]
      omega
    · have : j = k := by omega
      subst this
      simp [codeStartOf]
      omega

/-- A shorter prefix of a code is no code of that length: it lies above all of them (44_huffman.md
R194). -/
theorem IsCanon.prefix_ge (h : IsCanon m len l t) {x : Byte} {j : Nat} (hj : j < (entry l x).toNat) :
    codeStartOf l j + lengthCount l j ≤ entry t.code x >>> ((entry l x).toNat - j) := by
  rw [Nat.shiftRight_eq_div_pow, Nat.le_div_iff_mul_le (by positivity)]
  refine le_trans (codeStartOf_le l hj) ?_
  rw [h.code_eq (by omega)]
  omega

/-- The symbol that a row finds for an accumulated value is the one with that code (44_huffman.md
R190). -/
theorem IsCanon.symbolAt_eq_some (h : IsCanon m len l t) {j : Nat} {acc : Nat} {x : Byte}
    (hj : 1 ≤ j) :
    (canonRow l j (codeStartOf l j)).symbolAt acc = some x ↔
      (entry l x).toNat = j ∧ entry t.code x = acc := by
  have hc : lengthCount l j = (symbolsOfLength l j).length := by
    rw [lengthCount, if_neg (by omega)]
  by_cases hz : 0 < (symbolsOfLength l j).length
  · have e : (canonRow l j (codeStartOf l j)).symbolAt acc
        = if codeStartOf l j ≤ acc ∧ acc ≤ codeStartOf l j + (symbolsOfLength l j).length - 1 then
            (symbolsOfLength l j)[acc - codeStartOf l j]? else none := by
      simp [CanonRow.symbolAt, canonRow, hz]
    rw [e]
    constructor
    · intro hs
      split at hs
      · rename_i hr
        obtain ⟨hi, hs⟩ := List.getElem?_eq_some_iff.mp hs
        have hm : x ∈ symbolsOfLength l j := hs ▸ List.getElem_mem hi
        rw [mem_symbolsOfLength] at hm
        refine ⟨hm, ?_⟩
        rw [h.code_eq (by omega), hm, ← hs, (symbolsOfLength_nodup l j).idxOf_getElem]
        omega
      · cases hs
    · rintro ⟨hm, hs⟩
      have hpos : 0 < (entry l x).toNat := by omega
      have hlt := idxOf_lt_lengthCount (l := l) hpos
      rw [h.code_eq hpos] at hs
      rw [hm] at hs hlt
      rw [hc] at hlt
      rw [if_pos (by omega), List.getElem?_eq_some_iff]
      refine ⟨by omega, ?_⟩
      simp only [show acc - codeStartOf l j = (symbolsOfLength l j).idxOf x by omega]
      exact List.getElem_idxOf _
  · have e : (canonRow l j (codeStartOf l j)).symbolAt acc = none := by
      simp [CanonRow.symbolAt, canonRow, hz]
    rw [e]
    constructor
    · intro hs
      cases hs
    · rintro ⟨hm, -⟩
      have := mem_symbolsOfLength.mpr hm
      exact absurd (List.length_pos_of_mem this) hz

/-- `DecodeSymbol` over a code in the middle of it: `j` bits of the code of `x` have been read. -/
theorem IsCanon.decodeRows_code (h : IsCanon m len l t) {byteAt : Nat → Byte} {x : Byte}
    (k : Nat) {j : Nat} (hk : j + k = (entry l x).toNat) (hk0 : 0 < k) {r : BitReader}
    (hr : r.Small) {tail : List Bool}
    (hrest : r.rest byteAt = codeBits (entry t.code x) k ++ tail) :
    decodeRows byteAt (t.rows.drop j) (entry t.code x >>> k) r
      = { outcome := .ok x, reader := r.skip k } := by
  induction k generalizing j r with
  | zero => omega
  | succ k ih =>
    have hmax := h.le_maxLen x
    have hd : t.rows.drop j = canonRow l (j + 1) (codeStartOf l (j + 1)) :: t.rows.drop (j + 1) := by
      have hlt : j < t.rows.length := by rw [h.rows_length]; omega
      rw [List.drop_eq_getElem_cons hlt]
      congr 1
      have := h.row (j := j) (by omega)
      rw [List.getElem?_eq_getElem hlt] at this
      exact Option.some.inj this
    rw [codeBits_succ, List.cons_append] at hrest
    rw [hd, decodeRows, BitReader.readBit_cons hrest]
    dsimp only
    rw [← shiftRight_step]
    by_cases hz : k = 0
    · subst hz
      rw [Nat.shiftRight_zero,
        (h.symbolAt_eq_some (j := j + 1) (x := x) (by omega)).mpr ⟨by omega, rfl⟩]
    · have hn : (canonRow l (j + 1) (codeStartOf l (j + 1))).symbolAt (entry t.code x >>> k) = none := by
        rw [Option.eq_none_iff_forall_ne_some]
        intro y hy
        rw [h.symbolAt_eq_some (by omega)] at hy
        have h1 := h.prefix_ge (x := x) (j := j + 1) (by omega)
        have h2 := h.code_lt (x := y) (by omega)
        rw [show (entry l x).toNat - (j + 1) = k by omega, ← hy.2] at h1
        rw [hy.1] at h2
        omega
      rw [hn]
      have hrest' : (r.skip 1).rest byteAt = codeBits (entry t.code x) k ++ tail := by
        rw [BitReader.rest_skip hr (by simp [hrest]), hrest]
        rfl
      rw [ih (by omega) (by omega) (r := r.skip 1) hr hrest', BitReader.skip_skip, Nat.add_comm 1 k]

/-- The prefix property (44_huffman.md R194): `DecodeSymbol` over the code of `x` followed by any bits
answers `x` and consumes exactly the code. -/
theorem IsCanon.decodeSymbol_code (h : IsCanon m len l t) {byteAt : Nat → Byte} {x : Byte}
    (hx : 0 < (entry l x).toNat) {r : BitReader} (hr : r.Small) {tail : List Bool}
    (hrest : r.rest byteAt = codeBits (entry t.code x) (entry l x).toNat ++ tail) :
    decodeSymbol byteAt t r = { outcome := .ok x, reader := r.skip (entry l x).toNat } := by
  have := h.decodeRows_code (j := 0) (entry l x).toNat (by omega) hx hr hrest
  rwa [List.drop_zero, Nat.shiftRight_eq_div_pow,
    Nat.div_eq_of_lt (h.code_lt_two_pow hx)] at this

/-- `DecodeSymbol` where no code stands (44_huffman.md R190), `j` bits having been read, their value `acc`:
it runs to the end of the stream or through the `k` lengths that are left. -/
theorem IsCanon.decodeRows_noCode (h : IsCanon m len l t) {byteAt : Nat → Byte} (k : Nat) {j acc : Nat}
    (hk : j + k = t.maxLen) (hacc : acc < 2 ^ j) {r : BitReader} (hr : r.Small)
    (hno : ∀ x, 0 < (entry l x).toNat →
      ¬ codeBits (entry t.code x) (entry l x).toNat <+: codeBits acc j ++ r.rest byteAt) :
    decodeRows byteAt (t.rows.drop j) acc r =
      if (r.rest byteAt).length < k then
        { outcome := .error { kind := .streamExhausted, info := r.pos.toNat + (r.rest byteAt).length }
          reader := r.skip (r.rest byteAt).length }
      else
        { outcome := .error { kind := .invalidCodeword, info := r.pos.toNat + k }, reader := r.skip k } := by
  induction k generalizing j acc r with
  | zero =>
    have : t.rows.drop j = [] := by rw [List.drop_eq_nil_iff, h.rows_length]; omega
    rw [this]
    simp [decodeRows]
  | succ k ih =>
    have hd : t.rows.drop j = canonRow l (j + 1) (codeStartOf l (j + 1)) :: t.rows.drop (j + 1) := by
      have hlt : j < t.rows.length := by rw [h.rows_length]; omega
      rw [List.drop_eq_getElem_cons hlt]
      congr 1
      have := h.row (j := j) (by omega)
      rw [List.getElem?_eq_getElem hlt] at this
      exact Option.some.inj this
    rw [hd]
    cases hrest : r.rest byteAt with
    | nil =>
      rw [decodeRows, BitReader.readBit_nil hrest]
      simp
    | cons b bs =>
      rw [decodeRows, BitReader.readBit_cons hrest]
      dsimp only
      have hacc' : 2 * acc + b.toNat < 2 ^ (j + 1) := by
        have := Bool.toNat_le b
        rw [Nat.pow_succ]
        omega
      have hn : (canonRow l (j + 1) (codeStartOf l (j + 1))).symbolAt (2 * acc + b.toNat) = none := by
        rw [Option.eq_none_iff_forall_ne_some]
        intro y hy
        rw [h.symbolAt_eq_some (by omega)] at hy
        apply hno y (by omega)
        rw [hy.1, hy.2, codeBits_snoc, hrest]
        exact ⟨bs, by simp⟩
      rw [hn]
      have hr1 : (r.skip 1).rest byteAt = bs := by
        rw [BitReader.rest_skip hr (by simp [hrest]), hrest]
        rfl
      have hp1 : (r.skip 1).pos.toNat = r.pos.toNat + 1 :=
        BitReader.skip_pos (byteAt := byteAt) hr (by simp [hrest])
      rw [ih (by omega) hacc' (r := r.skip 1) hr fun x hx => by
        rw [codeBits_snoc, List.append_assoc, hr1]
        have := hno x hx
        rwa [hrest] at this]
      rw [hr1, hp1]
      simp only [BitReader.skip_skip, List.length_cons, Nat.add_lt_add_iff_right, Nat.add_assoc,
        Nat.add_comm 1]

end

/-- The decoding loop only moves its reader on. -/
theorem decodeRows_follows (byteAt : Nat → Byte) (rows : List CanonRow) (acc : Nat) {r : BitReader}
    (hr : r.Small) : r.Follows byteAt (decodeRows byteAt rows acc r).reader := by
  induction rows generalizing acc r with
  | nil => exact .refl _ _
  | cons row rows ih =>
    have hf := r.readBit_follows byteAt
    unfold decodeRows
    cases h : r.readBit byteAt with
    | mk o r' =>
      rw [h] at hf
      cases o with
      | none => exact hf
      | some b =>
        dsimp only
        split
        · exact hf
        · exact hf.trans hr (ih _ (by unfold BitReader.Small at *; rw [hf.bytes]; exact hr))

/-- The codes a failing decode reports (60_exceptions.md R265). -/
theorem decodeRows_kind {byteAt : Nat → Byte} {rows : List CanonRow} {acc : Nat} {r : BitReader}
    {e : CmdError} (h : (decodeRows byteAt rows acc r).outcome = .error e) :
    e.kind = .streamExhausted ∨ e.kind = .invalidCodeword := by
  induction rows generalizing acc r with
  | nil => injection h with h; subst h; simp
  | cons row rows ih =>
    unfold decodeRows at h
    split at h
    · injection h with h; subst h; simp
    · dsimp only at h
      split at h
      · cases h
      · exact ih h

end Sys2Proof.Machine
end

