-- ==== Sys2Proof/Laws/Host.lean ====
section
/-! SUPPORT. The host's accesses: where they go, that each accepted read gives data, and the word a script
writes. -/

namespace Sys2Proof.Machine

/-! ## A step makes the host's next access -/

theorem step_read {s : State} (h : s.inReset = false) {offset : Nat} {width : Width} {rest : List HostAction}
    (hp : s.pending = .read offset width :: rest) :
    step s = .next ({ s with pending := rest }.busRead offset width) := by simp [step, h, hp]

theorem step_write {s : State} (h : s.inReset = false) {offset : Nat} {width : Width} {v : Word}
    {rest : List HostAction} (hp : s.pending = .write offset width v :: rest) :
    step s = .next ({ s with pending := rest }.busWrite offset width v) := by simp [step, h, hp]

/-! ## The address map (20_memory.md R63) -/

theorem busTarget_reg (p : Params) (r : Reg) : busTarget p r.offset .word = some (.reg r) := by
  cases r <;> rfl

/-- Behind the registers an aligned word below 0x1_0000 is a table entry or reserved. -/
theorem busTarget_area (p : Params) {offset : Nat} (h : 0x68 ≤ offset) (h' : offset < 0x10000)
    (h4 : offset % 4 = 0) :
    busTarget p offset .word = some (
      if 0x400 ≤ offset ∧ offset < 0x800 then .freq (BitVec.ofNat 8 ((offset - 0x400) / 4))
      else if 0x800 ≤ offset ∧ offset < 0xC00 then .len (BitVec.ofNat 8 ((offset - 0x800) / 4))
      else if 0xC00 ≤ offset ∧ offset < 0x1000 then .code (BitVec.ofNat 8 ((offset - 0xC00) / 4))
      else .reserved) := by
  have hn : Reg.all[offset / 4]? = none := List.getElem?_eq_none (by show 26 ≤ offset / 4; omega)
  unfold busTarget areaTarget
  rw [if_pos h', if_pos ⟨rfl, h4⟩, hn]

theorem busTarget_freq (p : Params) (x : Byte) : busTarget p (0x400 + 4 * x.toNat) .word = some (.freq x) := by
  have hx := x.isLt
  rw [busTarget_area p (by omega) (by omega) (by omega), if_pos (by omega)]
  simp

theorem busTarget_len (p : Params) (x : Byte) : busTarget p (0x800 + 4 * x.toNat) .word = some (.len x) := by
  have hx := x.isLt
  rw [busTarget_area p (by omega) (by omega) (by omega), if_neg (by omega), if_pos (by omega)]
  simp

theorem busTarget_code (p : Params) (x : Byte) : busTarget p (0xC00 + 4 * x.toNat) .word = some (.code x) := by
  have hx := x.isLt
  rw [busTarget_area p (by omega) (by omega) (by omega), if_neg (by omega), if_neg (by omega),
    if_pos (by omega)]
  simp

theorem busTarget_mem {p : Params} {a : Nat} {width : Width} (hw : width ≠ .wide) (ha : a < p.memSize)
    (hal : a % width.bytes = 0) : busTarget p (0x10000 + a) width = some (.mem a) := by
  unfold busTarget
  rw [if_neg (by omega), if_pos (by omega),
    if_pos ⟨hw, by cases width <;> simp [Width.bytes] at * <;> omega⟩]
  simp

/-! ## Scripts -/

/-- The word that a script writes for a well-formed command is its encoding. -/
theorem scriptWord_eq_encode {i : Instr} (h : i.wf = true) : scriptWord i = encode i := by
  have key : ∀ n, n < 256 → ∀ opc : Byte,
      BitVec.ofNat 32 (n <<< 8 ||| opc.toNat) = 0#16 ++ BitVec.ofNat 8 n ++ opc := by
    intro n hn opc
    apply BitVec.eq_of_toNat_eq
    have ho := opc.isLt
    simp only [BitVec.toNat_append, BitVec.toNat_ofNat, Nat.zero_mod, Nat.zero_shiftLeft, Nat.zero_or,
      Nat.mod_eq_of_lt (show n < 2 ^ 8 from hn)]
    exact Nat.mod_eq_of_lt (Nat.or_lt_two_pow (by rw [Nat.shiftLeft_eq]; omega) (by omega))
  refine key _ ?_ _
  cases i <;> simp_all [Instr.wf, Instr.imm8]

/-! ## Reads -/

/-- An accepted read gives data, busy or not, and changes nothing of the block. -/
theorem State.busRead_data {s : State} {offset : Nat} {width : Width} {target : Target}
    (h : busTarget s.params offset width = some target) :
    ∃ (v : Word) (n : Nat),
      s.busRead offset width = { s with draws := n, replies := s.replies ++ [.data v] } := by
  have place : ∀ v, ∃ (v' : Word) (n : Nat),
      s.readPlace width v = { s with draws := n, replies := s.replies ++ [.data v'] } := by
    intro v
    unfold State.readPlace
    split <;> exact ⟨_, _, rfl⟩
  unfold State.busRead
  rw [h]
  cases target with
  | reg r =>
    dsimp only
    split
    · exact ⟨_, _, rfl⟩
    · exact place _
  | reserved => exact ⟨_, _, rfl⟩
  | freq x | len x | code x | mem a => exact place _

end Sys2Proof.Machine
end

