-- ==== Sys2Proof/Laws/Huffman.lean ====
section
/-! SUPPORT. The parts of `BuildLengths`: the smallest node, one more bit, the largest length. -/

namespace Sys2Proof.Machine

/-- `popMin` splits the nodes. -/
theorem popMin_perm (n : Node) (ns : List Node) :
    ((popMin n ns).1 :: (popMin n ns).2).Perm (n :: ns) := by
  induction ns generalizing n with
  | nil => exact List.Perm.refl _
  | cons m ms ih =>
    unfold popMin
    dsimp only
    split
    · exact List.Perm.refl _
    · exact (List.Perm.swap _ _ _).trans ((ih m).cons n)

theorem Node.before_iff {a b : Node} :
    a.before b = true ↔ a.weight < b.weight ∨ (a.weight = b.weight ∧ a.key.toNat < b.key.toNat) := by
  simp [Node.before]

theorem Node.before_trans {a b c : Node} (h : a.before b = true) (h' : b.before c = true) :
    a.before c = true := by
  rw [Node.before_iff] at *
  omega

theorem Node.before_total {a b : Node} (hk : a.key ≠ b.key) (h : a.before b ≠ true) :
    b.before a = true := by
  have : a.key.toNat ≠ b.key.toNat := fun e => hk (BitVec.eq_of_toNat_eq e)
  rw [Ne, Node.before_iff] at h
  rw [Node.before_iff]
  omega

/-- Among nodes with distinct keys `popMin` takes the one before all others (44_huffman.md R182). -/
theorem popMin_before (n : Node) (ns : List Node) (h : ((n :: ns).map Node.key).Nodup) :
    ∀ x ∈ (popMin n ns).2, (popMin n ns).1.before x = true := by
  induction ns generalizing n with
  | nil => simp [popMin]
  | cons m ms ih =>
    rw [List.map_cons, List.nodup_cons] at h
    have hp := popMin_perm m ms
    unfold popMin
    dsimp only
    split
    · rename_i hb
      intro x hx
      rcases List.mem_cons.mp (hp.mem_iff.mpr hx) with rfl | hx
      · exact hb
      · exact Node.before_trans hb (ih m h.2 x hx)
    · rename_i hb
      intro x hx
      rcases List.mem_cons.mp hx with rfl | hx
      · exact Node.before_total (fun e => h.1 (e ▸ List.mem_map_of_mem (hp.mem_iff.mp (by simp)))) hb
      · exact ih m h.2 x hx

/-- `lengthen` adds one bit to each of its symbols. -/
theorem entry_lengthen {members : List Byte} (h : members.Nodup) (len : Table Nat) (x : Byte) :
    entry (lengthen len members) x = entry len x + if x ∈ members then 1 else 0 := by
  unfold lengthen
  induction members generalizing len with
  | nil => simp
  | cons a members ih =>
    rw [List.nodup_cons] at h
    rw [List.foldl_cons, ih h.2, entry_setEntry]
    by_cases hx : x = a
    · subst hx
      simp [h.1]
    · simp [hx]

theorem foldl_max_spec (l : List Nat) (a : Nat) :
    a ≤ l.foldl max a ∧ (∀ b ∈ l, b ≤ l.foldl max a) ∧ (l.foldl max a = a ∨ l.foldl max a ∈ l) := by
  induction l generalizing a with
  | nil => simp
  | cons c l ih =>
    obtain ⟨h1, h2, h3⟩ := ih (max a c)
    simp only [List.foldl_cons, List.mem_cons, forall_eq_or_imp]
    refine ⟨by omega, ⟨by omega, h2⟩, ?_⟩
    rcases h3 with h3 | h3
    · rcases le_total a c with h | h
      · exact .inr (.inl (by omega))
      · exact .inl (by omega)
    · exact .inr (.inr h3)

theorem entry_le_maxEntry (t : Table Nat) (x : Byte) : entry t x ≤ maxEntry t :=
  (foldl_max_spec _ 0).2.1 _ (mem_entries.mpr ⟨x, rfl⟩)

theorem exists_entry_eq_maxEntry (t : Table Nat) : ∃ x, entry t x = maxEntry t := by
  rcases (foldl_max_spec (entries t) 0).2.2 with h | h
  · have := entry_le_maxEntry t 0#8
    exact ⟨0#8, by unfold maxEntry at *; omega⟩
  · exact mem_entries.mp h

end Sys2Proof.Machine
end

