-- ==== Sys2Proof/Laws/Payload.lean ====
section
/-! SUPPORT. The decoding loop of HUF_DEC_RLE and PIPE_DEC: what it answers, and where its reader
stands. -/

namespace Sys2Proof.Machine

/-! ## Any stream -/

theorem RleJob.nextSym_follows (job : RleJob) (cnt : Nat) {r : BitReader} (hr : r.Small) :
    r.Follows job.byteAt (job.nextSym cnt r).reader := by
  unfold RleJob.nextSym
  split
  · exact .refl _ _
  · exact decodeRows_follows _ _ _ hr

theorem BitReader.Follows.small {byteAt : Nat → Byte} {r r' : BitReader} (h : r.Follows byteAt r')
    (hr : r.Small) : r'.Small := by
  unfold BitReader.Small at *
  rw [h.bytes]
  exact hr

theorem Attempt.andThen_follows {α β : Type} {byteAt : Nat → Byte} {r : BitReader} (hr : r.Small)
    {a : Attempt α} {f : α → BitReader → Attempt β} (ha : r.Follows byteAt a.reader)
    (hf : ∀ x, r.Follows byteAt a.reader → a.outcome = .ok x →
      a.reader.Follows byteAt (f x a.reader).reader) :
    r.Follows byteAt (a.andThen f).reader := by
  unfold Attempt.andThen
  split
  · exact ha
  · rename_i x hx
    exact ha.trans hr (hf x ha hx)

theorem RleJob.expand_follows (job : RleJob) (fuel made cnt : Nat) {r : BitReader} (hr : r.Small) :
    r.Follows job.byteAt (job.expand fuel made cnt r).reader := by
  induction fuel generalizing made cnt r with
  | zero => exact .refl _ _
  | succ fuel ih =>
    unfold RleJob.expand
    split
    · exact .refl _ _
    · refine Attempt.andThen_follows hr (job.nextSym_follows cnt hr) fun x hx _ => ?_
      have hr1 := hx.small hr
      split
      · exact ih _ _ hr1
      · refine Attempt.andThen_follows hr1 (job.nextSym_follows _ hr1) fun y hy _ => ?_
        split
        · exact .refl _ _
        · exact ih _ _ (hy.small hr1)

theorem RleJob.run_follows (job : RleJob) (hb : Nat) {r : BitReader} (hr : r.Small) :
    r.Follows job.byteAt (job.run hb r).reader := by
  unfold RleJob.run
  refine Attempt.andThen_follows hr (job.expand_follows _ _ _ hr) fun x _ _ => ?_
  split
  · exact .refl _ _
  · split <;> exact .refl _ _

/-- When two operations in sequence succeed. -/
theorem Attempt.andThen_ok {α β : Type} {a : Attempt α} {f : α → BitReader → Attempt β} {y : β}
    (h : (a.andThen f).outcome = .ok y) :
    ∃ x, a.outcome = .ok x ∧ a.andThen f = f x a.reader ∧ (f x a.reader).outcome = .ok y := by
  unfold Attempt.andThen at h ⊢
  cases ha : a.outcome with
  | error e => simp [ha] at h
  | ok x => exact ⟨x, rfl, rfl, by simpa [ha] using h⟩

/-- When one of two operations in sequence fails. -/
theorem Attempt.andThen_error {α β : Type} {a : Attempt α} {f : α → BitReader → Attempt β}
    {e : CmdError} (h : (a.andThen f).outcome = .error e) :
    a.outcome = .error e ∨ ∃ x, a.outcome = .ok x ∧ (f x a.reader).outcome = .error e := by
  unfold Attempt.andThen at h
  cases ha : a.outcome with
  | error e' => exact .inl (by simpa [ha] using h)
  | ok x => exact .inr ⟨x, rfl, by simpa [ha] using h⟩

/-- The loop produces exactly the ranks that are wanted (44_huffman.md R192), counting its symbols. -/
theorem RleJob.expand_ok (job : RleJob) {fuel made cnt : Nat} {r : BitReader} {out : List Byte}
    {cnt' : Nat} (hf : job.n - made ≤ fuel) (hm : made ≤ job.n)
    (h : (job.expand fuel made cnt r).outcome = .ok (out, cnt')) :
    out.length = job.n - made ∧ (job.check ≠ .none → cnt ≤ job.rl → cnt' ≤ job.rl) := by
  induction fuel generalizing made cnt r out cnt' with
  | zero =>
    injection h with h
    injection h with h1 h2
    subst h1
    subst h2
    exact ⟨by simp; omega, fun _ h => h⟩
  | succ fuel ih =>
    unfold RleJob.expand at h
    have next : ∀ (c : Nat) (r : BitReader) (x : Byte), (job.nextSym c r).outcome = .ok x →
        job.check ≠ .none → c ≤ job.rl → c + 1 ≤ job.rl := by
      intro c r x hx hc hle
      unfold RleJob.nextSym at hx
      split at hx
      · cases hx
      · rename_i hne
        have : c ≠ job.rl := fun h => hne ⟨hc, h⟩
        omega
    split at h
    · injection h with h
      injection h with h1 h2
      subst h1
      subst h2
      exact ⟨by simp; omega, fun _ h => h⟩
    · obtain ⟨x, hx, -, h⟩ := Attempt.andThen_ok h
      split at h
      · simp only [Attempt.map] at h
        cases he : (job.expand fuel (made + 1) (cnt + 1) (job.nextSym cnt r).reader).outcome with
        | error e => simp [he, Except.map] at h
        | ok y =>
          obtain ⟨g1, g2⟩ := ih (by omega) (by omega) he
          simp only [he, Except.map, Except.ok.injEq, Prod.mk.injEq] at h
          obtain ⟨h1, h2⟩ := h
          subst h1
          subst h2
          exact ⟨by simp [g1]; omega, fun hc hle => g2 hc (next _ _ _ hx hc hle)⟩
      · obtain ⟨k, hk, -, h⟩ := Attempt.andThen_ok h
        split at h
        · cases h
        · simp only [Attempt.map] at h
          cases he : (job.expand fuel (made + k.toNat + 1) (cnt + 2)
              (job.nextSym (cnt + 1) (job.nextSym cnt r).reader).reader).outcome with
          | error e => simp [he, Except.map] at h
          | ok y =>
            obtain ⟨g1, g2⟩ := ih (by omega) (by omega) he
            simp only [he, Except.map, Except.ok.injEq, Prod.mk.injEq] at h
            obtain ⟨h1, h2⟩ := h
            subst h1
            subst h2
            refine ⟨by simp [g1]; omega, fun hc hle => g2 hc ?_⟩
            exact next _ _ _ hk hc (next _ _ _ hx hc hle)

/-- When a payload's stream is decoded (44_huffman.md R192). -/
theorem RleJob.run_ok (job : RleJob) {hb : Nat} {r : BitReader} {out : List Byte} {cnt : Nat}
    (h : (job.run hb r).outcome = .ok (out, cnt)) :
    (job.expand job.n 0 0 r).outcome = .ok (out, cnt)
      ∧ (job.run hb r).reader = (job.expand job.n 0 0 r).reader
      ∧ (job.run hb r).reader.assertConsumed job.byteAt hb = none
      ∧ out.length = job.n ∧ (job.check ≠ .none → cnt ≤ job.rl)
      ∧ (job.check = .exact → cnt = job.rl) := by
  unfold RleJob.run at h ⊢
  obtain ⟨x, hx, he, h⟩ := Attempt.andThen_ok h
  rw [he]
  cases ha : (job.expand job.n 0 0 r).reader.assertConsumed job.byteAt hb with
  | some e => simp [ha] at h
  | none =>
    cases hc : job.countError x.2 with
    | some e => simp [ha, hc] at h
    | none =>
      simp only [ha, hc, Except.ok.injEq] at h ⊢
      subst h
      obtain ⟨g1, g2⟩ := job.expand_ok (by omega) (by omega) hx
      refine ⟨hx, trivial, trivial, g1, fun h => g2 h (by omega), fun h => ?_⟩
      unfold RleJob.countError at hc
      split at hc
      · cases hc
      · rename_i hn
        by_contra hne
        exact hn ⟨h, hne⟩

/-- The corrupt-payload errors of the decoding loop and its last checks (44_huffman.md R193). -/
def CorruptStream (k : ErrKind) : Prop :=
  k = .streamExhausted ∨ k = .invalidCodeword ∨ k = .rle0Overflow ∨ k = .consumedMismatch
    ∨ k = .nonzeroPadding ∨ k = .trailingBytes ∨ k = .rlelenMismatch

theorem RleJob.nextSym_error {job : RleJob} {cnt : Nat} {r : BitReader} {e : CmdError}
    (h : (job.nextSym cnt r).outcome = .error e) : CorruptStream e.kind := by
  unfold RleJob.nextSym at h
  unfold CorruptStream
  split at h
  · injection h with h; subst h; simp
  · rcases decodeRows_kind h with h | h <;> simp [h]

theorem RleJob.expand_error {job : RleJob} {fuel made cnt : Nat} {r : BitReader} {e : CmdError}
    (h : (job.expand fuel made cnt r).outcome = .error e) : CorruptStream e.kind := by
  induction fuel generalizing made cnt r with
  | zero => cases h
  | succ fuel ih =>
    unfold RleJob.expand at h
    split at h
    · cases h
    · rcases Attempt.andThen_error h with h | ⟨x, -, h⟩
      · exact RleJob.nextSym_error h
      · split at h
        · simp only [Attempt.map] at h
          cases he : (job.expand fuel (made + 1) (cnt + 1) (job.nextSym cnt r).reader).outcome with
          | error e' =>
            simp only [he, Except.map, Except.error.injEq] at h
            subst h
            exact ih he
          | ok y => simp [he, Except.map] at h
        · rcases Attempt.andThen_error h with h | ⟨k, -, h⟩
          · exact RleJob.nextSym_error h
          · split at h
            · injection h with h
              subst h
              simp [CorruptStream]
            · simp only [Attempt.map] at h
              cases he : (job.expand fuel (made + k.toNat + 1) (cnt + 2)
                  (job.nextSym (cnt + 1) (job.nextSym cnt r).reader).reader).outcome with
              | error e' =>
                simp only [he, Except.map, Except.error.injEq] at h
                subst h
                exact ih he
              | ok y => simp [he, Except.map] at h

theorem RleJob.run_error {job : RleJob} {hb : Nat} {r : BitReader} {e : CmdError}
    (h : (job.run hb r).outcome = .error e) : CorruptStream e.kind := by
  unfold RleJob.run at h
  rcases Attempt.andThen_error h with h | ⟨x, -, h⟩
  · exact RleJob.expand_error h
  · split at h
    · rename_i e' ha
      injection h with h
      subst h
      rcases BitReader.assertConsumed_kind ha with h | h | h <;> simp [CorruptStream, h]
    · split at h
      · rename_i e' hc
        injection h with h
        subst h
        unfold RleJob.countError at hc
        split at hc
        · injection hc with hc
          subst hc
          simp [CorruptStream]
        · cases hc
      · cases h

/-! ## A stream of codes -/

@[simp] theorem encodeBits_nil (l : Table Byte) (t : Canon) : encodeBits l t [] = [] := rfl

theorem encodeBits_cons (l : Table Byte) (t : Canon) (x : Byte) (e : List Byte) :
    encodeBits l t (x :: e) = codeBits (entry t.code x) (entry l x).toNat ++ encodeBits l t e := rfl

/-- `NextSym` on a stream that starts with the code of a symbol, the count not yet used up. -/
theorem RleJob.nextSym_code (job : RleJob) {m : Nat} {len l : Table Byte}
    (h : IsCanon m len l job.table) {x : Byte} (hx : 0 < (entry l x).toNat) {cnt : Nat}
    (hc : job.check ≠ .none → cnt < job.rl) {r : BitReader} (hr : r.Small) {e : List Byte}
    {tail : List Bool} (hrest : r.rest job.byteAt = encodeBits l job.table (x :: e) ++ tail) :
    job.nextSym cnt r = { outcome := .ok x, reader := r.skip (entry l x).toNat }
      ∧ (r.skip (entry l x).toNat).rest job.byteAt = encodeBits l job.table e ++ tail := by
  rw [encodeBits_cons, List.append_assoc] at hrest
  constructor
  · unfold RleJob.nextSym
    rw [if_neg (by rintro ⟨h1, h2⟩; have := hc h1; omega)]
    exact h.decodeSymbol_code hx hr hrest
  · rw [BitReader.rest_skip hr (by simp [hrest]), hrest, List.drop_left' (by simp)]

/-- The loop over the codes of `e`, when `e` expands to exactly the ranks wanted. -/
theorem RleJob.expand_codes (job : RleJob) {m : Nat} {len l : Table Byte}
    (h : IsCanon m len l job.table) (fuel : Nat) {made cnt : Nat} {r : BitReader} (hr : r.Small)
    {e out : List Byte} {tail : List Bool} (hf : job.n - made ≤ fuel) (hm : made ≤ job.n)
    (he : ∀ x ∈ e, 0 < (entry l x).toNat) (hd : rle0Decode e (job.n - made) = some (out, []))
    (hc : job.check ≠ .none → cnt + e.length ≤ job.rl)
    (hrest : r.rest job.byteAt = encodeBits l job.table e ++ tail) :
    job.expand fuel made cnt r =
      { outcome := .ok (out, cnt + e.length)
        reader := r.skip (encodeBits l job.table e).length } := by
  induction fuel generalizing made cnt r e out with
  | zero =>
    rw [show job.n - made = 0 by omega, rle0Decode] at hd
    simp only [Option.some.injEq, Prod.mk.injEq] at hd
    obtain ⟨h1, h2⟩ := hd
    subst h1
    subst h2
    simp [RleJob.expand]
  | succ fuel ih =>
    unfold RleJob.expand
    by_cases hn : job.n ≤ made
    · rw [if_pos hn]
      rw [show job.n - made = 0 by omega, rle0Decode] at hd
      simp only [Option.some.injEq, Prod.mk.injEq] at hd
      obtain ⟨h1, h2⟩ := hd
      subst h1
      subst h2
      simp
    · rw [if_neg hn]
      obtain ⟨n, hn'⟩ : ∃ n, job.n - made = n + 1 := ⟨job.n - made - 1, by omega⟩
      rw [hn'] at hd
      cases e with
      | nil => simp [rle0Decode] at hd
      | cons x e =>
        obtain ⟨g1, g2⟩ := job.nextSym_code h (he x (by simp)) (cnt := cnt)
          (fun h => by have := hc h; simp at this; omega) hr hrest
        rw [g1]
        simp only [Attempt.andThen]
        unfold rle0Decode at hd
        by_cases hz : x = 0#8
        · subst hz
          simp only [ne_eq, not_true_eq_false, if_false] at hd ⊢
          cases e with
          | nil => cases hd
          | cons k e =>
            simp only at hd
            by_cases ho : n + 1 < k.toNat + 1
            · simp [ho] at hd
            · rw [if_neg ho] at hd
              obtain ⟨f1, f2⟩ := job.nextSym_code (r := r.skip (entry l 0#8).toNat) h (he k (by simp))
                (cnt := cnt + 1) (fun h => by have := hc h; simp at this; omega) hr g2
              rw [f1]
              simp only
              rw [if_neg (by omega)]
              cases hd' : rle0Decode e (n - k.toNat) with
              | none => simp [hd'] at hd
              | some o =>
                simp only [hd', Option.map_some, Option.some.injEq, Prod.mk.injEq] at hd
                obtain ⟨h1, h2⟩ := hd
                rw [show o = (o.1, o.2) from rfl, h2] at hd'
                rw [ih (r := (r.skip (entry l 0#8).toNat).skip (entry l k).toNat) hr (by omega) (by omega)
                  (fun y hy => he y (by simp [hy]))
                  (by rw [show job.n - (made + k.toNat + 1) = n - k.toNat by omega]; exact hd')
                  (fun h => by have := hc h; simp at this; omega) f2]
                simp only [Attempt.map, Except.map, h1, BitReader.skip_skip, encodeBits_cons,
                  List.length_append, codeBits_length, List.length_cons]
                exact congrArg₂ Attempt.mk (congrArg Except.ok (congrArg (Prod.mk _) (by omega)))
                  (congrArg r.skip (by omega))
        · simp only [ne_eq, hz, not_false_eq_true, if_true] at hd ⊢
          cases hd' : rle0Decode e n with
          | none => simp [hd'] at hd
          | some o =>
            simp only [hd', Option.map_some, Option.some.injEq, Prod.mk.injEq] at hd
            obtain ⟨h1, h2⟩ := hd
            rw [show o = (o.1, o.2) from rfl, h2] at hd'
            rw [ih (r := r.skip (entry l x).toNat) hr (by omega) (by omega)
              (fun y hy => he y (by simp [hy]))
              (by rw [show job.n - (made + 1) = n by omega]; exact hd')
              (fun h => by have := hc h; simp at this; omega) g2]
            simp only [Attempt.map, Except.map, h1, BitReader.skip_skip, encodeBits_cons,
              List.length_append, codeBits_length, List.length_cons]
            congr 3
            omega

/-! ## Any prefix of a stream of codes -/

@[simp] theorem Attempt.map_map {α β γ : Type} (f : α → β) (g : β → γ) (a : Attempt α) :
    (a.map f).map g = a.map fun x => g (f x) := by
  obtain ⟨o, r⟩ := a
  cases o <;> rfl

/-- The loop needs no more turns than there are ranks to make. -/
theorem RleJob.expand_fuel (job : RleJob) (fuel fuel' : Nat) {made : Nat} (cnt : Nat) (r : BitReader)
    (h : job.n - made ≤ fuel) (h' : job.n - made ≤ fuel') :
    job.expand fuel made cnt r = job.expand fuel' made cnt r := by
  induction fuel generalizing fuel' made cnt r with
  | zero =>
    cases fuel' with
    | zero => rfl
    | succ fuel' => rw [RleJob.expand, RleJob.expand, if_pos (by omega)]
  | succ fuel ih =>
    cases fuel' with
    | zero => rw [RleJob.expand, RleJob.expand, if_pos (by omega)]
    | succ fuel' =>
      rw [RleJob.expand, RleJob.expand]
      congr 2
      funext s r
      split
      · rw [ih fuel' _ _ (by omega) (by omega)]
      · congr 1
        funext k r
        split
        · rfl
        · rw [ih fuel' _ _ (by omega) (by omega)]

/-- The loop over the codes of symbols `e` that expand to `m'` ranks goes on behind them. -/
theorem RleJob.expand_prefix (job : RleJob) {m : Nat} {len l : Table Byte}
    (h : IsCanon m len l job.table) {e : List Byte} {made' : Nat} (he : Expands e made')
    {fuel made cnt : Nat} {r : BitReader} (hr : r.Small) {tail : List Bool} (hf : job.n - made ≤ fuel)
    (hm : made + made' ≤ job.n) (hx : ∀ x ∈ e, 0 < (entry l x).toNat)
    (hc : job.check ≠ .none → cnt + e.length ≤ job.rl)
    (hrest : r.rest job.byteAt = encodeBits l job.table e ++ tail) :
    ∃ out, job.expand fuel made cnt r =
      (job.expand fuel (made + made') (cnt + e.length)
        (r.skip (encodeBits l job.table e).length)).map fun x => (out ++ x.1, x.2) := by
  induction he generalizing fuel made cnt r with
  | nil =>
    refine ⟨[], ?_⟩
    simp only [encodeBits_nil, List.length_nil, Nat.add_zero, BitReader.skip_zero, List.nil_append]
    generalize job.expand fuel made cnt r = a
    obtain ⟨o, r⟩ := a
    cases o <;> rfl
  | @literal x e made' hz he ih =>
    obtain ⟨fuel, rfl⟩ : ∃ k, fuel = k + 1 := ⟨fuel - 1, by omega⟩
    obtain ⟨g1, g2⟩ := job.nextSym_code h (hx x (by simp)) (cnt := cnt)
      (fun h => by have := hc h; simp at this; omega) hr hrest
    obtain ⟨out, ho⟩ := ih (fuel := fuel) (made := made + 1) (cnt := cnt + 1)
      (r := r.skip (entry l x).toNat) hr (by omega) (by omega) (fun y hy => hx y (by simp [hy]))
      (fun h => by have := hc h; simp at this; omega) g2
    refine ⟨x :: out, ?_⟩
    rw [RleJob.expand, if_neg (by omega), g1]
    simp only [Attempt.andThen]
    rw [if_pos hz, ho, Attempt.map_map, BitReader.skip_skip, encodeBits_cons, List.length_append,
      codeBits_length, List.length_cons, Nat.add_assoc made, Nat.add_comm 1, Nat.add_assoc cnt,
      Nat.add_comm 1, job.expand_fuel fuel (fuel + 1) _ _ (by omega) (by omega)]
    rfl
  | @pair k e made' he ih =>
    obtain ⟨fuel, rfl⟩ : ∃ k, fuel = k + 1 := ⟨fuel - 1, by omega⟩
    obtain ⟨g1, g2⟩ := job.nextSym_code h (hx 0#8 (by simp)) (cnt := cnt)
      (fun h => by have := hc h; simp at this; omega) hr hrest
    obtain ⟨f1, f2⟩ := job.nextSym_code (r := r.skip (entry l 0#8).toNat) h (hx k (by simp))
      (cnt := cnt + 1) (fun h => by have := hc h; simp at this; omega) hr g2
    obtain ⟨out, ho⟩ := ih (fuel := fuel) (made := made + k.toNat + 1) (cnt := cnt + 2)
      (r := (r.skip (entry l 0#8).toNat).skip (entry l k).toNat) hr (by omega) (by omega)
      (fun y hy => hx y (by simp [hy])) (fun h => by have := hc h; simp at this; omega) f2
    refine ⟨List.replicate (k.toNat + 1) 0#8 ++ out, ?_⟩
    rw [RleJob.expand, if_neg (by omega), g1]
    simp only [Attempt.andThen, ne_eq, not_true_eq_false, if_false]
    rw [f1]
    simp only
    rw [if_neg (by omega), ho, Attempt.map_map, BitReader.skip_skip, BitReader.skip_skip,
      encodeBits_cons, encodeBits_cons]
    simp only [List.length_append, codeBits_length, List.length_cons, List.append_assoc]
    rw [job.expand_fuel fuel (fuel + 1) _ _ (by omega) (by omega)]
    congr 2 <;> omega

end Sys2Proof.Machine
end

