-- ==== Sys2Proof/Laws/PerInstr.lean ====
section
/-! SUPPORT. Laws made per instruction: the shape of the command word (30_encoding.md R80, R82). -/

namespace Sys2Proof.Laws

/-- The word of a command has RSV = 0, its opcode in OPC and its immediate in IMM8, and the immediate is 0
unless the opcode uses it (30_encoding.md R80). -/
def WordShape.Statement (i : Instr) : Prop :=
  rsvField (encode i) = 0#16 ∧ opcField (encode i) = i.opcode
    ∧ immField (encode i) = BitVec.ofNat 8 i.imm8 ∧ (usesImm8 i.opcode = false → i.imm8 = 0)

/-- The bits of a word built from its parts. -/
theorem WordShape.bit (imm opc : Byte) (j : Nat) :
    BitVec.getLsbD (w := 32) (0#16 ++ imm ++ opc) j
      = if j < 8 then opc.getLsbD j else if j < 16 then imm.getLsbD (j - 8) else false := by
  refine (BitVec.getLsbD_append (x := 0#16 ++ imm) (y := opc)).trans ?_
  rw [show BitVec.getLsbD (0#16 ++ imm) (j - 8) = _ from
    BitVec.getLsbD_append (x := 0#16) (y := imm)]
  by_cases h : j < 8 <;> by_cases h' : j < 16 <;> simp [h, h'] <;> omega

/-- The shape of a word, where the immediate of a command that does not use it is 0. -/
theorem WordShape.of (i : Instr) (h : usesImm8 i.opcode = false → i.imm8 = 0) :
    WordShape.Statement i := by
  refine ⟨?_, ?_, ?_, h⟩ <;>
  · apply BitVec.eq_of_getLsbD_eq
    intro j hj
    simp only [rsvField, opcField, immField, encode, BitVec.getLsbD_extractLsb', WordShape.bit]
    split <;> (try split) <;> simp_all <;> omega

theorem WordShape.nop : WordShape.Statement .nop := WordShape.of _ (fun _ => rfl)
theorem WordShape.bwInit : WordShape.Statement .bwInit := WordShape.of _ (fun _ => rfl)
theorem WordShape.bwWrite (nbits : Nat) : WordShape.Statement (.bwWrite nbits) :=
  WordShape.of _ (fun h => absurd h (by simp [usesImm8, Instr.opcode]))
theorem WordShape.bwFinish : WordShape.Statement .bwFinish := WordShape.of _ (fun _ => rfl)
theorem WordShape.brInit : WordShape.Statement .brInit := WordShape.of _ (fun _ => rfl)
theorem WordShape.brReadbit : WordShape.Statement .brReadbit := WordShape.of _ (fun _ => rfl)
theorem WordShape.brPeek (k : Nat) : WordShape.Statement (.brPeek k) :=
  WordShape.of _ (fun h => absurd h (by simp [usesImm8, Instr.opcode]))
theorem WordShape.brAssert : WordShape.Statement .brAssert := WordShape.of _ (fun _ => rfl)
theorem WordShape.bwtFwd : WordShape.Statement .bwtFwd := WordShape.of _ (fun _ => rfl)
theorem WordShape.bwtInv : WordShape.Statement .bwtInv := WordShape.of _ (fun _ => rfl)
theorem WordShape.mtfEnc : WordShape.Statement .mtfEnc := WordShape.of _ (fun _ => rfl)
theorem WordShape.mtfDec : WordShape.Statement .mtfDec := WordShape.of _ (fun _ => rfl)
theorem WordShape.rle0Enc : WordShape.Statement .rle0Enc := WordShape.of _ (fun _ => rfl)
theorem WordShape.hufHist : WordShape.Statement .hufHist := WordShape.of _ (fun _ => rfl)
theorem WordShape.hufBuild : WordShape.Statement .hufBuild := WordShape.of _ (fun _ => rfl)
theorem WordShape.hufCanon : WordShape.Statement .hufCanon := WordShape.of _ (fun _ => rfl)
theorem WordShape.hufEnc : WordShape.Statement .hufEnc := WordShape.of _ (fun _ => rfl)
theorem WordShape.hufStartDec : WordShape.Statement .hufStartDec := WordShape.of _ (fun _ => rfl)
theorem WordShape.hufDecOne : WordShape.Statement .hufDecOne := WordShape.of _ (fun _ => rfl)
theorem WordShape.hufDecRle : WordShape.Statement .hufDecRle := WordShape.of _ (fun _ => rfl)
theorem WordShape.pipeEnc : WordShape.Statement .pipeEnc := WordShape.of _ (fun _ => rfl)
theorem WordShape.pipeDec : WordShape.Statement .pipeDec := WordShape.of _ (fun _ => rfl)

end Sys2Proof.Laws
end

