-- ==== Sys2Proof/Laws/Stages.lean ====
section
/-! SUPPORT. The move-to-front table, the run pairs of RLE0, and the lengths of the pipeline stages. -/

namespace Sys2Proof.Machine

/-! ## Move-to-front -/

/-- The MTF table is a permutation of the symbols (42_mtf.md R150). -/
def IsMtfTable (t : List Byte) : Prop := t.Perm symbols

theorem symbols_isMtfTable : IsMtfTable symbols := List.Perm.refl _

theorem IsMtfTable.length {t : List Byte} (h : IsMtfTable t) : t.length = 256 := by
  rw [List.Perm.length_eq h, symbols_length]

theorem IsMtfTable.nodup {t : List Byte} (h : IsMtfTable t) : t.Nodup :=
  (List.Perm.nodup_iff h).mpr symbols_nodup

theorem IsMtfTable.mem {t : List Byte} (h : IsMtfTable t) (b : Byte) : b ∈ t :=
  (List.Perm.mem_iff h).mpr (mem_symbols b)

theorem IsMtfTable.idxOf_lt {t : List Byte} (h : IsMtfTable t) (b : Byte) : t.idxOf b < 256 := by
  rw [← h.length]
  exact List.idxOf_lt_length_iff.mpr (h.mem b)

/-- Moving an entry to the front keeps the table a permutation (42_mtf.md R150). -/
theorem IsMtfTable.moveToFront {t : List Byte} (h : IsMtfTable t) {r : Nat} (hr : r < 256) :
    IsMtfTable (moveToFront t r) := by
  have hr' : r < t.length := by rw [h.length]; exact hr
  unfold Machine.moveToFront
  rw [List.getD_eq_getElem _ _ hr']
  refine List.Perm.trans ?_ h
  have e : t = t.take r ++ t[r] :: t.drop (r + 1) := by
    rw [← List.drop_eq_getElem_cons hr', List.take_append_drop]
  conv_rhs => rw [e]
  exact List.perm_middle.symm

@[simp] theorem mtfEncodeFrom_length (t buf : List Byte) : (mtfEncodeFrom t buf).length = buf.length := by
  induction buf generalizing t with
  | nil => rfl
  | cons b bs ih => simp [mtfEncodeFrom, ih]

@[simp] theorem mtfDecodeFrom_length (t buf : List Byte) : (mtfDecodeFrom t buf).length = buf.length := by
  induction buf generalizing t with
  | nil => rfl
  | cons b bs ih => simp [mtfDecodeFrom, ih]

@[simp] theorem mtfEncode_length (buf : List Byte) : (mtfEncode buf).length = buf.length := by
  simp [mtfEncode]

@[simp] theorem mtfDecode_length (buf : List Byte) : (mtfDecode buf).length = buf.length := by
  simp [mtfDecode]

/-! ## RLE0 -/

theorem rle0Decode_literal {s : Byte} (hs : s ≠ 0#8) (e : List Byte) (n : Nat) :
    rle0Decode (s :: e) (n + 1) = (rle0Decode e n).map fun r => (s :: r.1, r.2) := by
  conv_lhs => unfold rle0Decode
  simp [hs]

theorem rle0Decode_pair (k : Byte) (e : List Byte) (n : Nat) :
    rle0Decode (0#8 :: k :: e) (n + 1) =
      if n + 1 < k.toNat + 1 then none
      else (rle0Decode e (n - k.toNat)).map fun r =>
        (List.replicate (k.toNat + 1) 0#8 ++ r.1, r.2) := by
  conv_lhs => unfold rle0Decode
  simp

theorem rle0Decode_done (e : List Byte) : rle0Decode e 0 = some ([], e) := by
  unfold rle0Decode
  rfl

/-- A run pair stands for its zeros (43_rle0.md R167). -/
theorem rle0Decode_runPair {run : Nat} (hr : run ≤ 256) (e : List Byte) (n : Nat) :
    rle0Decode (runPair run ++ e) (run + n)
      = (rle0Decode e n).map fun r => (List.replicate run 0#8 ++ r.1, r.2) := by
  cases run with
  | zero =>
    simp only [runPair, List.nil_append, Nat.zero_add, List.replicate_zero]
    cases rle0Decode e n <;> rfl
  | succ r =>
    rw [show r + 1 + n = (r + n) + 1 by omega]
    have hk : (BitVec.ofNat 8 r).toNat = r := by
      rw [BitVec.toNat_ofNat, Nat.mod_eq_of_lt (by omega)]
    simp only [runPair, List.cons_append, List.nil_append]
    rw [rle0Decode_pair, hk, if_neg (by omega), show r + n - r = n by omega]

/-- A run of zeros is read into the pair that is being counted (43_rle0.md R165). -/
theorem rle0EncodeFrom_zeros {run k : Nat} (h : run + k ≤ 256) (buf : List Byte) :
    rle0EncodeFrom run (List.replicate k 0#8 ++ buf) = rle0EncodeFrom (run + k) buf := by
  induction k generalizing run with
  | zero => rfl
  | succ k ih =>
    rw [List.replicate_succ, List.cons_append]
    conv_lhs => unfold rle0EncodeFrom
    simp only [ne_eq, not_true_eq_false, if_false]
    rw [if_pos (by omega), ih (by omega), show run + 1 + k = run + (k + 1) by omega]

theorem runPair_length (run : Nat) : (runPair run).length = if run = 0 then 0 else 2 := by
  cases run <;> rfl

theorem rle0EncodeFrom_length (run : Nat) (buf : List Byte) :
    (rle0EncodeFrom run buf).length ≤ 2 * buf.length + if run = 0 then 0 else 2 := by
  induction buf generalizing run with
  | nil => simp [rle0EncodeFrom, runPair_length]
  | cons a as ih =>
    unfold rle0EncodeFrom
    split
    · have := ih 0
      simp [runPair_length] at this ⊢
      omega
    · split
      · have := ih (run + 1)
        simp at this ⊢
        omega
      · have := ih 1
        simp [runPair_length] at this ⊢
        omega

/-! ## BWT -/

theorem insertOffset_perm (buf : List Byte) (i : Nat) (js : List Nat) :
    (insertOffset buf i js).Perm (i :: js) := by
  induction js with
  | nil => exact List.Perm.refl _
  | cons j js ih =>
    unfold insertOffset
    split
    · exact List.Perm.refl _
    · exact (List.Perm.cons j ih).trans (List.Perm.swap i j js)

/-- The sorted offsets are the offsets (41_bwt.md R131). -/
theorem sortedOffsets_perm (buf : List Byte) : (sortedOffsets buf).Perm (List.range buf.length) := by
  unfold sortedOffsets
  induction List.range buf.length with
  | nil => exact List.Perm.refl _
  | cons i js ih => exact (insertOffset_perm buf i _).trans (List.Perm.cons i ih)

@[simp] theorem sortedOffsets_length (buf : List Byte) : (sortedOffsets buf).length = buf.length := by
  rw [(sortedOffsets_perm buf).length_eq, List.length_range]

@[simp] theorem bwtForward_length (buf : List Byte) : (bwtForward buf).1.length = buf.length := by
  simp [bwtForward]

/-- PI is a row (41_bwt.md R131). -/
theorem bwtForward_pi_lt {buf : List Byte} (h : 0 < buf.length) : (bwtForward buf).2 < buf.length := by
  rw [← sortedOffsets_length buf]
  exact List.idxOf_lt_length_iff.mpr
    ((sortedOffsets_perm buf).mem_iff.mpr (List.mem_range.mpr h))

theorem bwtForward_nil : bwtForward [] = ([], 0) := rfl

@[simp] theorem lfWalk_length (last : List Byte) (steps i : Nat) (out : List Byte) :
    (lfWalk last steps i out).length = steps + out.length := by
  induction steps generalizing i out with
  | zero => simp [lfWalk]
  | succ steps ih =>
    simp [lfWalk, ih]
    omega

@[simp] theorem bwtInverse_length (last : List Byte) (pi : Nat) :
    (bwtInverse last pi).length = last.length := by simp [bwtInverse]

/-- The map of 41_bwt.md R132 stays among the rows. -/
theorem lfMap_lt {last : List Byte} {i : Nat} (hi : i < last.length) : lfMap last i < last.length := by
  have e : last = last.take i ++ last[i] :: last.drop (i + 1) := by
    rw [← List.drop_eq_getElem_cons hi, List.take_append_drop]
  unfold lfMap
  dsimp only
  rw [List.getD_eq_getElem _ _ hi]
  generalize hc : last[i] = c at *
  have h1 : last.countP (fun b => b.toNat < c.toNat) + last.count c ≤ last.length := by
    conv_rhs => rw [List.length_eq_countP_add_countP fun b : Byte => decide (b.toNat < c.toNat)]
    refine Nat.add_le_add_left (List.countP_mono_left fun b _ hb => ?_) _
    simp at hb
    simp [hb]
  have h2 : (last.take i).count c + 1 ≤ last.count c := by
    conv_rhs => rw [e]
    simp [List.count_append]
  omega

end Sys2Proof.Machine
end

