-- ==== Sys2Proof/Tests/Slice0.lean ====
section
/-! SUPPORT. Tests: expected results from spec/95_test_vectors.md and the rules' examples, never from the
model; then, for every obligation with hypotheses, a state that meets them. -/

open Sys2Proof Sys2Proof.Machine

namespace Sys2Proof.Tests

set_option Elab.async false

/-! ## Well-formedness: what the checks refuse -/

theorem test_wf_refuses_wide_nbits : (Instr.bwWrite 256).wf = false := by decide
theorem test_wf_refuses_wide_peek : (Instr.brPeek 256).wf = false := by decide
theorem test_wf_accepts_largest_immediates :
    (Instr.bwWrite 255).wf = true ∧ (Instr.brPeek 255).wf = true := by decide
theorem test_legal_reference : Params.reference.legal = true := by decide
theorem test_legal_refuses_memSize :
    ({ Params.reference with memSize := 65538 } : Params).legal = false
      ∧ ({ Params.reference with memSize := 508, nMax := 508 } : Params).legal = false
      ∧ ({ Params.reference with memSize := 2 ^ 24 + 4 } : Params).legal = false := by decide
theorem test_legal_refuses_nMax :
    ({ Params.reference with nMax := 0 } : Params).legal = false
      ∧ ({ Params.reference with nMax := 65537 } : Params).legal = false := by decide
theorem test_legal_refuses_code_lengths :
    ({ Params.reference with maxCodeLen := 7 } : Params).legal = false
      ∧ ({ Params.reference with maxCodeLen := 25 } : Params).legal = false
      ∧ ({ Params.reference with bwMaxBits := 33 } : Params).legal = false := by decide
theorem test_legal_refuses_peekMax :
    ({ Params.reference with peekMax := 0 } : Params).legal = false
      ∧ ({ Params.reference with peekMax := 33 } : Params).legal = false := by decide

/-! ## Decoding: words written out bit by bit from 30_encoding.md R80, R82: RSV, IMM8, OPC -/

theorem test_decode_nop : decode 0b0000000000000000_00000000_00000000#32 = .ok .nop := rfl
theorem test_decode_bwInit : decode 0b0000000000000000_00000000_00010000#32 = .ok .bwInit := rfl
theorem test_decode_bwWrite :
    decode 0b0000000000000000_00000101_00010001#32 = .ok (.bwWrite 5) := rfl
theorem test_decode_bwFinish : decode 0b0000000000000000_00000000_00010010#32 = .ok .bwFinish := rfl
theorem test_decode_brInit : decode 0b0000000000000000_00000000_00011000#32 = .ok .brInit := rfl
theorem test_decode_brReadbit :
    decode 0b0000000000000000_00000000_00011001#32 = .ok .brReadbit := rfl
theorem test_decode_brPeek :
    decode 0b0000000000000000_11111111_00011010#32 = .ok (.brPeek 255) := rfl
theorem test_decode_brAssert : decode 0b0000000000000000_00000000_00011011#32 = .ok .brAssert := rfl
theorem test_decode_bwtFwd : decode 0b0000000000000000_00000000_00100000#32 = .ok .bwtFwd := rfl
theorem test_decode_bwtInv : decode 0b0000000000000000_00000000_00100001#32 = .ok .bwtInv := rfl
theorem test_decode_mtfEnc : decode 0b0000000000000000_00000000_00110000#32 = .ok .mtfEnc := rfl
theorem test_decode_mtfDec : decode 0b0000000000000000_00000000_00110001#32 = .ok .mtfDec := rfl
theorem test_decode_rle0Enc : decode 0b0000000000000000_00000000_01000000#32 = .ok .rle0Enc := rfl
theorem test_decode_hufHist : decode 0b0000000000000000_00000000_01010000#32 = .ok .hufHist := rfl
theorem test_decode_hufBuild : decode 0b0000000000000000_00000000_01010001#32 = .ok .hufBuild := rfl
theorem test_decode_hufCanon : decode 0b0000000000000000_00000000_01010010#32 = .ok .hufCanon := rfl
theorem test_decode_hufEnc : decode 0b0000000000000000_00000000_01010011#32 = .ok .hufEnc := rfl
theorem test_decode_hufStartDec :
    decode 0b0000000000000000_00000000_01011000#32 = .ok .hufStartDec := rfl
theorem test_decode_hufDecOne :
    decode 0b0000000000000000_00000000_01011001#32 = .ok .hufDecOne := rfl
theorem test_decode_hufDecRle :
    decode 0b0000000000000000_00000000_01011010#32 = .ok .hufDecRle := rfl
theorem test_decode_pipeEnc : decode 0b0000000000000000_00000000_01100000#32 = .ok .pipeEnc := rfl
theorem test_decode_pipeDec : decode 0b0000000000000000_00000000_01100001#32 = .ok .pipeDec := rfl

/-- T-CTL-2 to T-CTL-7: words that are no command. -/
theorem test_decode_rejects_by_name :
    decode 0x00000001#32 = .error .unknownOpcode ∧ decode 0x00010000#32 = .error .reservedBitsSet
      ∧ decode 0x00000100#32 = .error .immediateNotZero
      ∧ decode 0x00000120#32 = .error .immediateNotZero
      ∧ decode 0x80000060#32 = .error .reservedBitsSet ∧ decode 0x000000FF#32 = .error .unknownOpcode
      ∧ decode 0x00000062#32 = .error .unknownOpcode :=
  ⟨rfl, rfl, rfl, rfl, rfl, rfl, rfl⟩

/-- A word of the table is the 32-bit word; a longer one with a bit above it is none. -/
theorem test_decodeTableWord :
    decodeTableWord 32 0x00000C11 = some (.bwWrite 12) ∧ decodeTableWord 40 0x100000000 = none := by
  decide

/-! ## One step of the engine -/

/-- The block as reset leaves it, with `bs` stored at `a`. -/
def stored (a : Nat) (bs : List Nat) : State :=
  State.reset.writeBytes a (bs.map (BitVec.ofNat 8))

/-- The operand registers of a region command. -/
def region (src slen dst dcap : Nat) (s : State) : State :=
  { s with
    src := BitVec.ofNat 32 src, slen := BitVec.ofNat 32 slen
    dst := BitVec.ofNat 32 dst, dcap := BitVec.ofNat 32 dcap }

/-- `f` of the state after the step that runs the word `w`. -/
def after {α : Type} (w : Nat) (s : State) (f : State → α) : Option α :=
  match step (s.withFetchWord 32 w) with
  | .next t => some (f t)
  | .fault _ => none
  | .refused _ => none

/-- The bytes `[a, a + n)` of MEM as numbers. -/
def bytesAt (a n : Nat) (t : State) : List Nat := (t.readBytes a n).map BitVec.toNat

/-- STATUS, ERRCODE and ERRINFO. -/
def report (t : State) : Nat × Nat × Nat := (t.statusWord.toNat, t.errcode.toNat, t.errinfo.toNat)

/-- The entries of a table at the symbols `xs`, as numbers. -/
def entriesAt {w : Nat} (xs : List Nat) (t : Table (BitVec w)) : List Nat :=
  xs.map fun x => (entry t (BitVec.ofNat 8 x)).toNat

/-- A length table from its non-zero entries. -/
def lengths (ls : List (Nat × Nat)) : Table Byte :=
  ls.foldl (fun t x => setEntry t (BitVec.ofNat 8 x.1) (BitVec.ofNat 8 x.2)) (Vector.replicate 256 0#8)

/-- A frequency table from its non-zero entries. -/
def frequencies (fs : List (Nat × Nat)) : Table Word :=
  fs.foldl (fun t x => setEntry t (BitVec.ofNat 8 x.1) (BitVec.ofNat 32 x.2)) (Vector.replicate 256 0#32)

/-- The length table of the "banana" payload (45_pipeline.md R230, example). -/
def bananaLengths : Table Byte := lengths [(0, 1), (1, 3), (0x63, 2), (0x6E, 3)]

/-- The 258 bytes of the "banana" payload (45_pipeline.md R230, example). -/
def bananaPayload : List Nat := (entries bananaLengths).map BitVec.toNat ++ [0xE5, 0x30]

/-- The "banana" payload at 0x400, with the registers of program P2. -/
def bananaState : State :=
  { region 0x400 258 0x600 6 (stored 0x400 bananaPayload) with
    nlen := 6#32, pi := 3#32, hbits := 13#32, rlelen := 7#32 }

/-- "banana" at 0, to be coded to 0x400. -/
def bananaInput (dcap : Nat) : State :=
  region 0 6 0x400 dcap (stored 0 [0x62, 0x61, 0x6E, 0x61, 0x6E, 0x61])

/-- T-CTL-1. -/
theorem test_nop : after 0x00 State.reset report = some (0x2, 0, 0) := by decide +kernel
/-- T-CTL-2. -/
theorem test_illegal : after 0x01 State.reset report = some (0x4, 0x01, 0x01) := by decide +kernel

/-- 40_bitio.md R102, example. -/
theorem test_bwInit : after 0x10 (region 0 0 0x800 4 State.reset)
    (fun t => (t.bw.active, t.bw.base.toNat, t.bw.cap.toNat, t.bw.bits.toNat))
    = some (true, 0x800, 4, 0) := by decide +kernel

/-- A writer at 0x800 with capacity 4. -/
def writer (bits acc : Nat) : State :=
  { State.reset with
    bw := { active := true, base := 0x800#32, cap := 4#32, bits := BitVec.ofNat 32 bits
            acc := BitVec.ofNat 8 acc } }

/-- 40_bitio.md R103, example. -/
theorem test_bwWrite_partial : after 0x0311 { writer 0 0 with bwcode := 0x5#32 }
    (fun t => (t.bw.bits.toNat, t.bw.acc.toNat, t.mem)) = some (3, 0b10100000, []) := by decide +kernel
/-- Program P4: 12 bits of 0xABC after `101 11`: the bytes BD 5E, and one bit left. -/
theorem test_bwWrite_bytes : after 0x0C11 { writer 5 0b10111000 with bwcode := 0xABC#32 }
    (fun t => (t.bw.bits.toNat, t.bw.acc.toNat, bytesAt 0x800 2 t)) = some (17, 0, [0xBD, 0x5E]) := by
  decide +kernel
/-- 40_bitio.md R104, example. -/
theorem test_bwFinish : after 0x12 (writer 17 0)
    (fun t => (t.hbits.toNat, t.olen.toNat, bytesAt 0x802 1 t, t.bw.active, t.bw.bits.toNat))
    = some (17, 3, [0], false, 17) := by decide +kernel

/-- 40_bitio.md R106, example. -/
theorem test_brInit : after 0x18 (region 0x800 3 0 0 State.reset)
    (fun t => (t.br.pos.toNat, (t.regValue .brlimit).toNat, t.br.active)) = some (0, 24, true) := by
  decide +kernel

/-- A reader at `pos` over `BD 5E 00` at 0x800. -/
def reader (pos hbits : Nat) : State :=
  { stored 0x800 [0xBD, 0x5E, 0x00] with
    hbits := BitVec.ofNat 32 hbits
    br := { active := true, base := 0x800#32, bytes := 3#32, pos := BitVec.ofNat 32 pos } }

/-- 40_bitio.md R108, example. -/
theorem test_brReadbit :
    after 0x19 (reader 0 0) (fun t => (t.result.toNat, t.br.pos.toNat)) = some (1, 1) := by
  decide +kernel
/-- 40_bitio.md R108: the sentinel at exhaustion. -/
theorem test_brReadbit_exhausted :
    after 0x19 (reader 24 0) (fun t => (t.result, t.br.pos.toNat, t.done))
      = some (0xFFFFFFFF#32, 24, true) := by
  decide +kernel
/-- 40_bitio.md R109, examples. -/
theorem test_brPeek :
    after 0x041A (reader 0 0) (fun t => (t.result.toNat, t.peekn.toNat, t.br.pos.toNat))
      = some (0xB, 4, 0)
    ∧ after 0x041A (reader 22 0) (fun t => (t.result.toNat, t.peekn.toNat)) = some (0, 2) := by
  decide +kernel
/-- 40_bitio.md R111, examples. -/
theorem test_brAssert :
    after 0x1B (reader 17 17) report = some (0x2, 0, 0)
    ∧ after 0x1B (reader 17 16) report = some (0x4, 0x15, 17) := by decide +kernel

/-- 41_bwt.md R133, example. -/
theorem test_bwtFwd_banana : after 0x20 (bananaInput 6)
    (fun t => (bytesAt 0x400 6 t, t.pi.toNat, t.olen.toNat))
    = some ([0x6E, 0x6E, 0x62, 0x61, 0x61, 0x61], 3, 6) := by decide +kernel
/-- 41_bwt.md R136, example: ties. -/
theorem test_bwtFwd_ties : after 0x20 (region 0 4 0x400 4 (stored 0 [0x61, 0x62, 0x61, 0x62]))
    (fun t => (bytesAt 0x400 4 t, t.pi.toNat)) = some ([0x62, 0x62, 0x61, 0x61], 0) := by decide +kernel

/-- "nnbaaa" at 0. -/
def bananaLast (pi : Nat) : State :=
  { region 0 6 0x400 6 (stored 0 [0x6E, 0x6E, 0x62, 0x61, 0x61, 0x61]) with pi := BitVec.ofNat 32 pi }

/-- 41_bwt.md R134, example. -/
theorem test_bwtInv_banana : after 0x21 (bananaLast 3) (bytesAt 0x400 6)
    = some [0x62, 0x61, 0x6E, 0x61, 0x6E, 0x61] := by decide +kernel
/-- 41_bwt.md R134, example: PI out of range. -/
theorem test_bwtInv_pi : after 0x21 (bananaLast 6) report = some (0x4, 0x08, 6) := by decide +kernel

/-- 42_mtf.md R153, example. -/
theorem test_mtfEnc : after 0x30 (bananaLast 0) (fun t => (bytesAt 0x400 6 t, t.olen.toNat))
    = some ([0x6E, 0x00, 0x63, 0x63, 0x00, 0x00], 6) := by decide +kernel
/-- 42_mtf.md R154, example. -/
theorem test_mtfDec : after 0x31 (region 0 3 0x400 3 (stored 0 [1, 1, 0])) (bytesAt 0x400 3)
    = some [1, 0, 0] := by decide +kernel

/-- 43_rle0.md R166, example. -/
theorem test_rle0Enc : after 0x40 (region 0 6 0x400 12 (stored 0 [0x6E, 0x00, 0x63, 0x63, 0x00, 0x00]))
    (fun t => (bytesAt 0x400 7 t, t.olen.toNat, t.rlelen.toNat))
    = some ([0x6E, 0x00, 0x00, 0x63, 0x63, 0x00, 0x01], 7, 7) := by decide +kernel
/-- 43_rle0.md R166, corner case: 257 zeros. -/
theorem test_rle0_long_run : (rle0Encode (List.replicate 257 0#8)).map BitVec.toNat = [0, 255, 0, 0] := by
  decide +kernel

/-- The RLE0 output of "banana" at 0, to be coded to 0x400. -/
def bananaSymbols (dcap : Nat) : State :=
  region 0 7 0x400 dcap (stored 0 [0x6E, 0x00, 0x00, 0x63, 0x63, 0x00, 0x01])

/-- 44_huffman.md R181, example. -/
theorem test_hufHist :
    after 0x50 (bananaSymbols 0) (fun t => entriesAt [0, 1, 2, 0x63, 0x6E, 255] t.freq)
      = some [3, 1, 0, 2, 1, 0] := by decide +kernel
/-- 44_huffman.md R183, example: the tie rule of a merged node. -/
theorem test_hufBuild_ties :
    after 0x51 { State.reset with freq := frequencies [(10, 1), (11, 1), (12, 2), (13, 2)] }
      (fun t => entriesAt [9, 10, 11, 12, 13] t.len) = some [0, 3, 3, 2, 1] := by decide +kernel
/-- 44_huffman.md R183, corner case. -/
theorem test_hufBuild_empty :
    after 0x51 State.reset (fun t => entriesAt [0, 1, 255] t.len) = some [1, 0, 0] := by decide +kernel
/-- 44_huffman.md R185, example. -/
theorem test_hufCanon : after 0x52 { State.reset with len := bananaLengths }
    (fun t => ([0x00, 0x63, 0x01, 0x6E].map fun x => (t.codeValue (BitVec.ofNat 8 x)).toNat,
      t.engStateWord.toNat))
    = some ([0b0, 0b10, 0b110, 0b111], 0x308) := by decide +kernel
/-- 44_huffman.md R185, corner case: over-subscribed. -/
theorem test_hufCanon_oversubscribed :
    after 0x52 { State.reset with len := lengths [(0, 1), (1, 1), (2, 1)] } report
      = some (0x4, 0x11, 0x100) := by decide +kernel
/-- 44_huffman.md R187, example. -/
theorem test_hufEnc : after 0x53 (bananaSymbols 512)
    (fun t => (bytesAt 0x400 258 t, t.hbits.toNat, t.olen.toNat)) = some (bananaPayload, 13, 258) := by
  decide +kernel
/-- 44_huffman.md R189, example. -/
theorem test_hufStartDec : after 0x58 bananaState
    (fun t => (t.engStateWord.toNat, t.br.pos.toNat, (t.regValue .brlimit).toNat))
    = some (0x30E, 0, 16) := by decide +kernel

/-- A decoder over the "banana" bitstream at bit `pos`. -/
def decoder (pos : Nat) : State :=
  match canonTable 24 bananaLengths with
  | .error _ => bananaState
  | .ok x =>
    { bananaState with
      len := x.1, canon := x.2, canonValid := true, decValid := true
      br := { active := true, base := 0x500#32, bytes := 2#32, pos := BitVec.ofNat 32 pos } }

/-- Program P3, steps 1 and 4. -/
theorem test_hufDecOne :
    after 0x59 (decoder 0) (fun t => (t.result.toNat, t.br.pos.toNat)) = some (0x6E, 3)
    ∧ after 0x59 (decoder 5) (fun t => (t.result.toNat, t.br.pos.toNat)) = some (0x63, 7) := by
  decide +kernel
/-- Zero padding decodes as symbols of the code `0`, then the stream is exhausted (44_huffman.md R191). -/
theorem test_hufDecOne_exhausted : after 0x59 (decoder 16)
    (fun t => (report t, t.engStateWord.toNat, t.br.pos.toNat)) = some ((0x4, 0x12, 16), 0x308, 16) := by
  decide +kernel
/-- 44_huffman.md R193, example. -/
theorem test_hufDecRle : after 0x5A { bananaState with params.rleLenCheck := .exact }
    (fun t => (bytesAt 0x600 6 t, t.symcount.toNat, t.olen.toNat))
    = some ([0x6E, 0x00, 0x63, 0x63, 0x00, 0x00], 7, 6) := by decide +kernel

/-- 45_pipeline.md R230, example. -/
theorem test_pipeEnc : after 0x60 (bananaInput 0x200)
    (fun t => (bytesAt 0x400 258 t, t.pi.toNat, t.rlelen.toNat, t.hbits.toNat, t.olen.toNat))
    = some (bananaPayload, 3, 7, 13, 258) := by decide +kernel

/-- 45_pipeline.md R231, example. -/
theorem test_pipeDec : after 0x61 { bananaState with params.rleLenCheck := .exact }
    (fun t => (bytesAt 0x600 6 t, t.symcount.toNat, t.olen.toNat))
    = some ([0x62, 0x61, 0x6E, 0x61, 0x6E, 0x61], 7, 6) := by decide +kernel

/-! ## Host accesses -/

/-- `f` of the state after one host action. -/
def hosted {α : Type} (a : HostAction) (s : State) (f : State → α) : Option α :=
  match step { s with pending := [a] } with
  | .next t => some (f t)
  | .fault _ => none
  | .refused _ => none

/-- 30_encoding.md R91, with the offsets of 20_memory.md R63. -/
theorem test_script_names :
    scriptRD (.code 255#8) = [.read 0xFFC .word] ∧ scriptWR (.freq 1#8) 7#32 = [.write 0x404 .word 7#32]
      ∧ scriptRD (.reg .status) = [.read 0x008 .word] := by decide
/-- 30_encoding.md R92: `(imm << 8) | OPC`, the second with a bit of RSV set. -/
theorem test_script_word :
    scriptCommand 0 (.bwWrite 12) = [.write 0x014 .word 0x0C11#32, .poll 0]
      ∧ scriptWord (.brPeek 256) = 0x1001A#32 := by decide
/-- 30_encoding.md R92: `WAIT` reads STATUS, and is over when BUSY reads 0. -/
theorem test_wait_polls :
    hosted (.poll 1) { State.reset with busy := true } (fun t => (t.replies, t.pending))
      = some ([.data 1#32], [.poll 0])
    ∧ hosted (.poll 1) State.reset (fun t => (t.replies, t.pending)) = some ([.data 0#32], []) := by
  decide +kernel
/-- T-CTL-22. -/
theorem test_read_mem_word : hosted (.read 0x10000 .word) (stored 0 [0x11, 0x22, 0x33, 0x44])
    (fun t => t.replies) = some [.data 0x44332211#32] := by decide +kernel
/-- T-CTL-21. -/
theorem test_bus_errors :
    hosted (.read 0x008 .half) State.reset (fun t => t.replies) = some [.busError]
    ∧ hosted (.read 0x10001 .word) State.reset (fun t => t.replies) = some [.busError] := by
  decide +kernel
/-- T-CTL-23. -/
theorem test_reserved_read :
    hosted (.read 0x068 .word) State.reset (fun t => t.replies) = some [.data 0#32] := by decide +kernel
/-- T-CTL-20. -/
theorem test_read_id :
    hosted (.read 0x000 .word) State.reset (fun t => t.replies) = some [.data 0x42575401#32] := by
  decide +kernel
/-- T-CTL-15, T-CTL-16. -/
theorem test_busy_writes :
    hosted (.write 0x018 .word 5#32) { State.reset with busy := true } (fun t => (t.ovr, t.src.toNat))
      = some (true, 0)
    ∧ hosted (.write 0x014 .word 0x60#32) { State.reset with busy := true } (fun t => (t.ovr, t.cur.toNat))
      = some (true, 0) := by decide +kernel
/-- T-CTL-10 and T-CTL-11. -/
theorem test_irq :
    hosted (.write 0x004 .word 1#32) { State.reset with err := true } (fun t => t.statusWord.toNat)
      = some 0x14
    ∧ hosted (.write 0x008 .word 4#32) { State.reset with err := true, errcode := 1#8 } report
      = some (0, 1, 0) := by decide +kernel
/-- T-CTL-14. -/
theorem test_soft_reset : hosted (.write 0x004 .word 3#32) { stored 7 [0x99] with src := 5#32 }
    (fun t => (t.ctrlWord.toNat, t.src.toNat, bytesAt 7 1 t)) = some (0, 0, [0x99]) := by decide +kernel
/-- 70_reset_and_hazards.md R300: no access while the reset input is asserted. -/
theorem test_held_in_reset :
    hosted (.read 0x000 .word) { State.reset with inReset := true } (fun t => t.pending) = none := by
  decide +kernel

/-! ## Witnesses: states that meet the hypotheses of the statements -/

/-- A check that a result is a next state with `p`. -/
def nextWith (p : State → Bool) : Result → Bool
  | .next t => p t
  | .fault _ => false
  | .refused _ => false

theorem next_of {p : State → Bool} {r : Result} (h : nextWith p r = true) :
    ∃ t, r = .next t ∧ p t = true := by
  cases r with
  | next t => exact ⟨t, rfl, h⟩
  | fault f => cases h
  | refused f => cases h

/-- The state after reset, a command running. -/
def running (w : Nat) (pending : List HostAction) : State :=
  { State.reset with busy := true, cur := BitVec.ofNat 32 w, pending := pending }

/-- The state after reset, the host about to do `a`. -/
def doing (a : HostAction) : State := { State.reset with pending := [a] }

theorem running_next {w : Nat} {p : List HostAction} (h : p ∈ [[], [.wait], [.poll 0], [HostAction.waitIrq]]) :
    EngineIsNext (running w p) := by
  simp only [List.mem_cons, List.not_mem_nil, or_false] at h
  rcases h with rfl | rfl | rfl | rfl
  · exact .inl rfl
  · exact .inr (.inl ⟨[], rfl⟩)
  · exact .inr (.inr (.inl ⟨[], rfl⟩))
  · exact .inr (.inr (.inr ⟨rfl, [], rfl⟩))

theorem witness_StepRunsTheDecodedCommand :
    (∀ p ∈ [[], [.wait], [.poll 0], [HostAction.waitIrq]],
      (running 0x0C11 p).inReset = false ∧ (running 0x0C11 p).busy = true ∧ EngineIsNext (running 0x0C11 p)
        ∧ decode (running 0x0C11 p).cur = .ok (.bwWrite 12))
    ∧ (State.reset.inReset = false ∧ State.reset.busy = false ∧ State.reset.pending = []
      ∧ (doing .wait).pending = .wait :: [])
    ∧ ((running 0x61 [.poll 1]).inReset = false ∧ (running 0x61 [.poll 1]).pending = .poll (0 + 1) :: []
      ∧ (running 0x61 [.poll 1]).busy = true)
    ∧ ((doing (.poll 1)).inReset = false ∧ (doing (.poll 1)).pending = .poll 1 :: []
      ∧ (doing (.poll 1)).busy = false)
    ∧ ((doing .waitIrq).inReset = false ∧ (doing .waitIrq).pending = .waitIrq :: []
      ∧ (doing .waitIrq).irq = false ∧ (doing .waitIrq).busy = false)
    ∧ { doing .waitIrq with ie := true, done := true }.irq = true
    ∧ ((∀ p, (running 0x61 p).inReset = false ∧ (running 0x61 p).pending = p)
      ∧ ∀ a, (doing a).inReset = false ∧ (doing a).pending = a :: []) := by
  refine ⟨fun p hp => ⟨rfl, rfl, running_next hp, (rfl : decode 0x0C11#32 = .ok (.bwWrite 12))⟩,
    ⟨rfl, rfl, rfl, rfl⟩, ⟨rfl, rfl, rfl⟩,
    ⟨rfl, rfl, rfl⟩, ⟨rfl, rfl, rfl, rfl⟩, rfl, fun _ => ⟨rfl, rfl⟩, fun _ => ⟨rfl, rfl⟩⟩

theorem witness_IllegalWordEndsWithIllegalCmd :
    (∀ p ∈ [[], [.wait], [.poll 0], [HostAction.waitIrq]],
      (running 0x120 p).inReset = false ∧ (running 0x120 p).busy = true ∧ EngineIsNext (running 0x120 p))
      ∧ ¬ ∃ i, decode (running 0x120 []).cur = .ok i := by
  refine ⟨fun p hp => ⟨rfl, rfl, running_next hp⟩, ?_⟩
  rintro ⟨i, h⟩
  cases h

theorem witness_EveryCommandCompletes :
    State.reset.done = false ∧ State.reset.err = false ∧ State.reset.errcode = 0#8
      ∧ State.reset.errinfo = 0#32 := ⟨rfl, rfl, rfl, rfl⟩

theorem witness_CommandsKeepTheHostsRegisters : ∃ t, exec .pipeEnc State.reset = .next t :=
  exec_next _ _

theorem reset_legal : State.reset.params.legal = true := by decide +kernel

theorem reset_writer : State.reset.bw.Ok State.reset.params :=
  ⟨by decide +kernel, by decide +kernel, by decide +kernel⟩

theorem reset_reader : State.reset.br.Ok State.reset.params := ⟨by decide +kernel, by decide +kernel⟩

theorem pipeDec_reset_fails : ¬ PassesChecks .pipeDec State.reset := by
  unfold PassesChecks; decide +kernel

theorem witness_CommandsWriteOnlyTheirRegion :
    State.reset.params.legal = true ∧ State.reset.bw.Ok State.reset.params
      ∧ (∃ t, exec .bwtFwd State.reset = .next t)
      ∧ ¬ ((hasDest .bwtFwd = true ∧ State.reset.dst.toNat ≤ 0 ∧ 0 < State.reset.dst.toNat + State.reset.dcap.toNat)
          ∨ ((Instr.bwtFwd = .bwFinish ∨ ∃ n, Instr.bwtFwd = .bwWrite n)
            ∧ State.reset.bw.base.toNat ≤ 0 ∧ 0 < State.reset.bw.base.toNat + State.reset.bw.cap.toNat))
      ∧ ¬ PassesChecks .pipeDec State.reset :=
  ⟨reset_legal, reset_writer, exec_next _ _, by simp; decide +kernel, pipeDec_reset_fails⟩

theorem witness_CanonAndDecoderValidChangeAsListed :
    State.reset.err = false
      ∧ (∃ t, exec .pipeDec State.reset = .next t) ∧ ¬ PassesChecks .pipeDec State.reset
      ∧ readsStepwise .pipeDec = false
      ∧ (∃ t, exec .hufCanon State.reset = .next t) ∧ PassesChecks .hufCanon State.reset
      ∧ readsStepwise .hufCanon = false
      ∧ (∃ t, exec .hufDecOne State.reset = .next t) ∧ readsStepwise .hufDecOne = true :=
  ⟨rfl, exec_next _ _, pipeDec_reset_fails, rfl, exec_next _ _,
    by unfold PassesChecks; decide +kernel, rfl, exec_next _ _, rfl⟩

theorem witness_WriterAndReaderActiveChangeAsListed :
    State.reset.err = false ∧ ∃ t, exec .brInit State.reset = .next t := ⟨rfl, exec_next _ _⟩

theorem witness_OperandErrorsAreReportedInOrder :
    hasSource .pipeDec = true
      ∧ firstOperandError .hufHist (region 65535 2 0 0 State.reset) = some (0x04#8, 1)
      ∧ firstOperandError .bwtFwd
          { region 0 513 0 0 State.reset with params.nMax := 512 } = some (0x04#8, 3)
      ∧ firstOperandError .bwInit (region 0 0 65535 2 State.reset) = some (0x04#8, 2)
      ∧ firstOperandError .rle0Enc (region 0 4 3 4 State.reset) = some (0x05#8, 0)
      ∧ firstOperandError .mtfEnc (region 0 4 4 3 State.reset) = some (0x06#8, 4)
      ∧ firstOperandError .bwtInv { region 0 4 4 4 State.reset with pi := 4#32 } = some (0x08#8, 4)
      ∧ firstOperandError .hufStartDec (region 0 255 0 0 State.reset) = some (0x10#8, 255)
      ∧ firstOperandError .bwtInv { region 0 4 4 4 State.reset with pi := 3#32 } = none
      ∧ firstOperandError .hufStartDec (region 65280 256 0 0 State.reset) = none := by
  decide +kernel

/-- A table in which three symbols have codes of one bit. -/
def overFull : State := { State.reset with len := lengths [(0, 1), (1, 1), (2, 1)] }

theorem witness_FailedCommandsChangeOnlyTheReport :
    State.reset.err = false
      ∧ (∃ t, exec .brAssert State.reset = .next t ∧ t.err = true)
      ∧ (Instr.brAssert ≠ .hufDecOne ∧ Instr.brAssert ≠ .hufDecRle ∧ Instr.brAssert ≠ .pipeDec)
      ∧ ¬ PassesChecks .brAssert State.reset
      ∧ overFull.err = false ∧ (∃ t, exec .hufCanon overFull = .next t ∧ t.err = true)
      ∧ hasDest .hufCanon = false
      ∧ (∃ t, exec .hufDecOne State.reset = .next t ∧ t.err = true) :=
  ⟨rfl, next_of (p := fun t => t.err) (by decide +kernel), ⟨nofun, nofun, nofun⟩,
    by unfold PassesChecks; decide +kernel, rfl,
    next_of (p := fun t => t.err) (by decide +kernel), rfl,
    next_of (p := fun t => t.err) (by decide +kernel)⟩

theorem witness_BwInitStartsAWriter :
    DestInMem (region 0 0 65535 1 State.reset) ∧ ¬ DestInMem (region 0 0 65535 2 State.reset) := by
  decide +kernel

theorem writer_ok : (writer 8 0).bw.Ok (writer 8 0).params :=
  ⟨by decide +kernel, by decide +kernel, by decide +kernel⟩

theorem witness_BwWriteAppendsBits :
    (writer 8 0).params.legal = true ∧ (writer 8 0).bw.Ok (writer 8 0).params
      ∧ (writer 8 0).bw.active = true ∧ 24 ≤ (writer 8 0).params.bwMaxBits
      ∧ ceil8 ((writer 8 0).bw.bits.toNat + 24) ≤ (writer 8 0).bw.cap.toNat :=
  ⟨reset_legal, writer_ok, rfl, by decide +kernel, by decide +kernel⟩

theorem witness_BwWriteErrorsDiscardTheWriter :
    State.reset.bw.active = false
      ∧ ((writer 8 0).bw.active = true ∧ (writer 8 0).params.bwMaxBits < 25)
      ∧ ((writer 9 0).bw.active = true ∧ 24 ≤ (writer 9 0).params.bwMaxBits
          ∧ (writer 9 0).bw.cap.toNat < ceil8 ((writer 9 0).bw.bits.toNat + 24)) := by
  decide +kernel

theorem witness_BwFinishFlushesTheWriter :
    ((writer 8 0).params.legal = true ∧ (writer 8 0).bw.Ok (writer 8 0).params
      ∧ (writer 8 0).bw.active = true) ∧ State.reset.bw.active = false :=
  ⟨⟨reset_legal, writer_ok, rfl⟩, rfl⟩

theorem witness_WriterSequencePacksAllBits :
    let s := region 0 0 65532 4 State.reset
    let ws : List (Word × Nat) := [(0xABC#32, 12), (0#32, 0), (5#32, 20)]
    s.params.legal = true ∧ DestInMem s ∧ (∀ w ∈ ws, w.2 ≤ s.params.bwMaxBits)
      ∧ ceil8 (ws.map (·.2)).sum ≤ s.dcap.toNat := by
  decide +kernel

theorem witness_BrInitStartsAReader :
    SourceInMem (region 65535 1 0 0 State.reset) ∧ ¬ SourceInMem (region 65535 2 0 0 State.reset) := by
  decide +kernel

theorem witness_BrReadbitGivesTheNextBit :
    ((reader 23 0).br.active = true ∧ (reader 23 0).br.pos.toNat < 8 * (reader 23 0).br.bytes.toNat)
      ∧ ((reader 24 0).br.active = true
          ∧ 8 * (reader 24 0).br.bytes.toNat ≤ (reader 24 0).br.pos.toNat)
      ∧ State.reset.br.active = false := by
  decide +kernel

theorem reader_ok : (reader 17 17).br.Ok (reader 17 17).params :=
  ⟨by decide +kernel, by decide +kernel⟩

theorem witness_BrPeekLooksAhead :
    (reader 17 17).params.legal = true ∧ (reader 17 17).br.Ok (reader 17 17).params
      ∧ (reader 17 17).br.active = true ∧ 24 ≤ (reader 17 17).params.peekMax
      ∧ (reader 17 17).params.peekMax < 25
      ∧ State.reset.params.legal = true ∧ State.reset.br.Ok State.reset.params
      ∧ State.reset.br.active = false :=
  ⟨reset_legal, reader_ok, rfl, by decide +kernel, by decide +kernel, reset_legal, reset_reader, rfl⟩

/-- The bits of the reader's buffer from `hb` to the byte boundary that are 1. -/
theorem witness_BrAssertMakesThreeChecks :
    let padded := fun (s : State) (j : Nat) => s.hbits.toNat ≤ j ∧ j < 8 * ceil8 s.hbits.toNat
      ∧ bitAt s.readByte s.br.base.toNat j = true
    State.reset.br.active = false ∧ (∀ p h, (reader p h).br.active = true)
      ∧ ((reader 17 17).br.pos = (reader 17 17).hbits ∧ (∀ j, ¬ padded (reader 17 17) j)
          ∧ (reader 17 17).br.bytes.toNat ≤ ceil8 (reader 17 17).hbits.toNat)
      ∧ (reader 17 16).br.pos ≠ (reader 17 16).hbits
      ∧ ((reader 10 10).br.pos = (reader 10 10).hbits ∧ padded (reader 10 10) 11
          ∧ ∀ k, k < 11 → ¬ padded (reader 10 10) k)
      ∧ ((reader 16 16).br.pos = (reader 16 16).hbits ∧ (∀ j, ¬ padded (reader 16 16) j)
          ∧ ceil8 (reader 16 16).hbits.toNat < (reader 16 16).br.bytes.toNat) := by
  have h17 : ∀ j, j < 24 → ¬ (17 ≤ j ∧ bitAt (reader 17 17).readByte 0x800 j = true) := by
    decide +kernel
  refine ⟨rfl, fun _ _ => rfl, ⟨rfl, fun j h => h17 j h.2.1 ⟨h.1, h.2.2⟩, by decide +kernel⟩, by decide +kernel,
    ⟨rfl, by decide +kernel, by decide +kernel⟩, rfl, fun j h => ?_, by decide +kernel⟩
  have h1 : 16 ≤ j := h.1
  have h2 : j < 16 := h.2.1
  omega

theorem witness_ReaderOverPackedBits :
    let bs := [true, false, true, true, true, true, false, true,
      false, true, false, true, true, true, true, false, false]
    let s := reader 17 17
    (s.params.legal = true ∧ s.br.Ok s.params ∧ s.br.active = true
      ∧ s.readBytes s.br.base.toNat s.br.bytes.toNat = pack bs)
      ∧ s.hbits.toNat = bs.length ∧ s.err = false :=
  ⟨⟨reset_legal, reader_ok, rfl, by decide +kernel⟩, rfl, rfl⟩

theorem witness_BwtFwdWritesTheTransform :
    let s := bananaInput 6
    (s.params.legal = true ∧ SourceInMem s ∧ s.slen.toNat ≤ s.params.nMax ∧ DestInMem s
      ∧ RegionsApart s ∧ s.slen.toNat ≤ s.dcap.toNat ∧ 0 < s.slen.toNat)
      ∧ let z := State.reset
        SourceInMem z ∧ z.slen.toNat ≤ z.params.nMax ∧ DestInMem z ∧ RegionsApart z
          ∧ z.slen.toNat ≤ z.dcap.toNat ∧ z.slen.toNat = 0 := by
  decide +kernel

theorem witness_BwtInvWalksTheLfMap :
    let s := bananaLast 5
    (SourceInMem s ∧ s.slen.toNat ≤ s.params.nMax ∧ DestInMem s ∧ RegionsApart s
      ∧ s.slen.toNat ≤ s.dcap.toNat ∧ 0 < s.slen.toNat ∧ s.pi.toNat < s.slen.toNat)
      ∧ let z := State.reset
        SourceInMem z ∧ z.slen.toNat ≤ z.params.nMax ∧ DestInMem z ∧ RegionsApart z
          ∧ z.slen.toNat ≤ z.dcap.toNat ∧ z.slen.toNat = 0 ∧ z.pi.toNat = 0 := by
  decide +kernel

theorem witness_MtfCommandsWriteTheRecoding :
    let s := bananaLast 0
    SourceInMem s ∧ DestInMem s ∧ RegionsApart s ∧ s.slen.toNat ≤ s.dcap.toNat := by
  decide +kernel

theorem witness_MtfEncodeAndDecodeAreInverse : 0 + 1 < [(7 : Byte), 7].length := by decide

theorem witness_Rle0DecodeUndoesEncode :
    (7#8 ≠ 0#8 ∧ 0 < 256 ∧ ([] : List Byte).head? ≠ some 0#8 ∧ [(7 : Byte)].head? ≠ some 0#8)
      ∧ 0 < (1#8).toNat ∧ (rle0Encode [0#8]).length = 2 * [0#8].length := by decide

theorem witness_Rle0EncWritesTheEncoding :
    let s := fun cap => region 0 3 0x400 cap (stored 0 [7, 0, 0])
    ((s 3).params.legal = true ∧ SourceInMem (s 3) ∧ DestInMem (s 3) ∧ RegionsApart (s 3)
      ∧ (rle0Encode (s 3).source).length ≤ (s 3).dcap.toNat)
      ∧ SourceInMem (s 2) ∧ DestInMem (s 2) ∧ RegionsApart (s 2)
        ∧ (s 2).dcap.toNat < (rle0Encode (s 2).source).length := by
  decide +kernel

theorem witness_HufHistCountsTheSource :
    SourceInMem (bananaInput 0) ∧ ¬ SourceInMem (region 65535 2 0 0 State.reset) := by
  decide +kernel

/-- A success as a Bool. -/
def isOk {α : Type} : Except CmdError α → Bool
  | .ok _ => true
  | .error _ => false

theorem ok_of {α : Type} {x : Except CmdError α} (h : isOk x = true) : ∃ a, x = .ok a := by
  cases x with
  | ok a => exact ⟨a, rfl⟩
  | error e => cases h

theorem error_of {α : Type} {x : Except CmdError α} (h : isOk x = false) : ∃ e, x = .error e := by
  cases x with
  | ok a => cases h
  | error e => exact ⟨e, rfl⟩

/-- One symbol, with a code of one bit. -/
abbrev tinyLengths : Table Byte := setEntry (Vector.replicate 256 0#8) 0#8 1#8

theorem tinyTable : ∃ c, canonTable 24 tinyLengths = .ok (tinyLengths, c)
    ∧ entry c.code 0#8 = 0 ∧ c.maxLen = 1 := by
  have h : (match canonTable 24 tinyLengths with
      | .ok x => decide (x.1 = tinyLengths) && entry x.2.code 0#8 == 0 && x.2.maxLen == 1
      | .error _ => false) = true := by decide +kernel
  split at h
  · rename_i x hx
    simp only [Bool.and_eq_true, decide_eq_true_eq, beq_iff_eq] at h
    exact ⟨x.2, by rw [hx, ← h.1.1], h.1.2, h.2⟩
  · cases h

/-- Ten symbols with frequencies so skewed that the longest code has 9 bits (44_huffman.md R182). -/
def deepSymbols : List Byte := [9, 3, 9, 10, 8, 8, 10, 1, 10, 8, 6, 9, 8, 7, 6, 10, 7, 5, 10, 9, 9, 10, 9, 10,
  9, 8, 10, 9, 10, 10, 9, 7, 9, 10, 10, 10, 10, 10, 7, 10, 10, 9, 10, 10, 8, 8, 9, 9, 10, 9, 7, 10, 9, 5, 8,
  8, 9, 10, 7, 6, 6, 9, 10, 9, 10, 10, 4, 8, 9, 7, 10, 9, 10, 4, 10, 8, 10, 5, 10, 10, 6, 10, 8, 7, 8, 2, 10,
  10, 9]

/-- 89 bytes that the BWT, MTF and RLE0 stages turn into `deepSymbols`. -/
def deepSource : List Byte := [0, 1, 3, 10, 0, 5, 0, 6, 5, 8, 8, 10, 9, 10, 7, 2, 8, 0, 4, 2, 0, 2, 9, 4, 1, 1,
  6, 3, 7, 4, 5, 7, 8, 5, 4, 10, 4, 4, 8, 4, 3, 5, 3, 8, 6, 7, 0, 9, 6, 4, 9, 5, 6, 1, 2, 4, 6, 10, 9, 2, 5,
  10, 8, 7, 7, 9, 10, 2, 10, 5, 6, 8, 9, 7, 6, 2, 3, 2, 1, 8, 3, 4, 0, 8, 1, 5, 1, 9, 9]

theorem deepDepth : maxEntry (treeLengths (histogram deepSymbols)) = 9 := by decide +kernel

theorem deepPipe : rle0Encode (mtfEncode (bwtForward deepSource).1) = deepSymbols := by decide +kernel

/-- The state after reset with limit `m` on the lengths and the frequencies of `deepSymbols`. -/
def deepFreq (m : Nat) : State :=
  { State.reset with
    params.maxCodeLen := m
    freq := tabulate fun x => BitVec.ofNat 32 (entry (histogram deepSymbols) x) }

theorem deepFreq_freq (m : Nat) :
    (tabulate fun x => (entry (deepFreq m).freq x).toNat) = histogram deepSymbols := by
  refine table_ext fun x => ?_
  have h : deepSymbols.count x ≤ 89 := List.count_le_length
  simp only [deepFreq, histogram, entry_tabulate, BitVec.toNat_ofNat]
  omega

theorem emptyTree : ∃ l, buildLengths 24 (histogram []) = .ok l := ok_of (by decide +kernel)

theorem witness_HufBuildWritesTheLengths :
    ((deepFreq 9).params.legal = true
      ∧ maxEntry (treeLengths (tabulate fun x => (entry (deepFreq 9).freq x).toNat)) ≤ (deepFreq 9).params.maxCodeLen)
    ∧ ((deepFreq 8).params.legal = true
      ∧ (deepFreq 8).params.maxCodeLen < maxEntry (treeLengths (tabulate fun x => (entry (deepFreq 8).freq x).toNat)))
    ∧ (∀ x, entry State.reset.freq x = 0#32)
    ∧ entry (setEntry State.reset.freq 255#8 7#32) 255#8 ≠ 0#32
    ∧ ∀ x, x ≠ 255#8 → entry (setEntry State.reset.freq 255#8 7#32) x = 0#32 := by
  have h0 : ∀ x, entry State.reset.freq x = 0#32 := by
    intro x; simp [State.reset, State.resetValues, entry]
  refine ⟨⟨by decide +kernel, ?_⟩, ⟨by decide +kernel, ?_⟩, h0, ?_, fun x hx => ?_⟩
  · rw [deepFreq_freq, deepDepth]; decide
  · rw [deepFreq_freq, deepDepth]; decide
  · rw [entry_setEntry]; simp
  · rw [entry_setEntry_ne _ _ hx, h0]

theorem witness_BuiltLengthsHaveKraftSumOne :
    (1 ≤ 1 ∧ 1 < 256 ∧ 1 ≤ 255 ∧ 255 < 256)
      ∧ (∃ l, buildLengths 1 (histogram []) = .ok l)
      ∧ (∃ l, buildLengths 1 (histogram [5, 5]) = .ok l)
      ∧ (∃ l, buildLengths 255 (histogram [1, 2, 2]) = .ok l) :=
  ⟨by decide, ok_of (by decide +kernel), ok_of (by decide +kernel), ok_of (by decide +kernel)⟩

/-- The state after reset with a length table. -/
def withLengths (ls : List (Nat × Nat)) : State := { State.reset with len := lengths ls }

theorem witness_HufCanonAcceptsKraftSets :
    (withLengths []).params.legal = true
      ∧ ((∀ x, (entry (withLengths [(0, 1), (255, 1)]).len x).toNat ≤ 24)
          ∧ kraft 24 (withLengths [(0, 1), (255, 1)]).len ≤ 2 ^ 24)
      ∧ ((∀ x, entry (withLengths []).len x = 0#8) ∧ kraft 24 (withLengths []).len ≤ 2 ^ 24)
      ∧ (24 < (entry (withLengths [(1, 24), (2, 25), (3, 26)]).len 2#8).toNat
          ∧ ∀ y : Byte, y.toNat < (2#8).toNat → (entry (withLengths [(1, 24), (2, 25), (3, 26)]).len y).toNat ≤ 24)
      ∧ ((∀ x, (entry (withLengths [(0, 1), (1, 1), (2, 24)]).len x).toNat ≤ 24)
          ∧ 2 ^ 24 < kraft 24 (withLengths [(0, 1), (1, 1), (2, 24)]).len) := by
  refine ⟨reset_legal, ⟨?_, by decide +kernel⟩, ⟨?_, by decide +kernel⟩, ⟨by decide +kernel, ?_⟩, ?_,
    by decide +kernel⟩
  all_goals decide +kernel

/-- `canonTable` accepts the lengths of the "banana" payload, in which 0 has a shorter code than 1, and 1
and 0x6E have codes of one length. -/
theorem witness_CanonicalCodesArePrefixFree :
    (∃ l t, canonTable 24 bananaLengths = .ok (l, t) ∧ 0 < (entry l 0#8).toNat
      ∧ (entry l 0#8).toNat ≤ (entry l 1#8).toNat ∧ (0#8 : Byte) ≠ 1#8
      ∧ 0 < (entry l 1#8).toNat ∧ entry l 1#8 = entry l 0x6E#8 ∧ (1#8 : Byte).toNat < (0x6E#8 : Byte).toNat) := by
  have h : (match canonTable 24 bananaLengths with
      | .ok x => entry x.1 0#8 == 1#8 && entry x.1 1#8 == 3#8 && entry x.1 0x6E#8 == 3#8
      | .error _ => false) = true := by decide +kernel
  split at h
  · rename_i x hx
    simp only [Bool.and_eq_true, beq_iff_eq] at h
    obtain ⟨⟨h0, h1⟩, h2⟩ := h
    exact ⟨x.1, x.2, hx, by rw [h0]; decide, by rw [h0, h1]; decide, by decide, by rw [h1]; decide,
      by rw [h1, h2], by decide⟩
  · cases h

/-- One byte at 0, to be coded to 0x400. -/
def oneByte (dcap : Nat) : State := region 0 1 0x400 dcap (stored 0 [0])

/-- The 89 bytes `bs` at 0, to be coded to 0x400 with codes of at most 8 bits. -/
def deepState (bs : List Byte) : State :=
  { region 0 89 0x400 512 (State.reset.writeBytes 0 bs) with params.maxCodeLen := 8 }

theorem deepState_checks (bs : List Byte) :
    (deepState bs).params.legal = true ∧ SourceInMem (deepState bs) ∧ (deepState bs).slen.toNat ≤ (deepState bs).params.nMax
      ∧ DestInMem (deepState bs) ∧ RegionsApart (deepState bs) :=
  ⟨(by decide +kernel : ({ Params.reference with maxCodeLen := 8 } : Params).legal = true),
    by unfold SourceInMem; exact (by decide : 0 + 89 ≤ 65536), by exact (by decide : 89 ≤ 65536),
    by unfold DestInMem; exact (by decide : 0x400 + 512 ≤ 65536),
    by unfold RegionsApart; exact (by decide : 89 = 0 ∨ 512 = 0 ∨ 0x400 + 512 ≤ 0 ∨ 0 + 89 ≤ 0x400)⟩

/-- The payload of two zero symbols (a run of one zero) takes 257 bytes. -/
theorem zeroPayload : ∃ l c, buildLengths 24 (histogram [0, 0]) = .ok l ∧ canonTable 24 l = .ok (l, c)
    ∧ 256 + ceil8 (encodeBits l c [0, 0]).length = 257 := by
  obtain ⟨c, hc, h0, _⟩ := tinyTable
  have h : (match buildLengths 24 (histogram [0, 0]) with
      | .ok x => decide (x = tinyLengths)
      | .error _ => false) = true := by decide +kernel
  split at h
  · rename_i x hx
    obtain rfl := of_decide_eq_true h
    refine ⟨tinyLengths, c, hx, hc, ?_⟩
    simp [encodeBits, h0, entry_setEntry, codeBits]
    decide
  · cases h

theorem witness_HufEncWritesThePayload :
    let s := fun dcap => region 0 2 0x400 dcap (stored 0 [0, 0])
    (∃ l c, buildLengths (s 257).params.maxCodeLen (histogram (s 257).source) = .ok l
        ∧ canonTable (s 257).params.maxCodeLen l = .ok (l, c)
        ∧ 256 + ceil8 (encodeBits l c (s 257).source).length ≤ (s 257).dcap.toNat
        ∧ (s 256).dcap.toNat < 256 + ceil8 (encodeBits l c (s 256).source).length)
      ∧ ((s 257).params.legal = true ∧ SourceInMem (s 257) ∧ DestInMem (s 257) ∧ RegionsApart (s 257))
      ∧ (SourceInMem (s 256) ∧ DestInMem (s 256) ∧ RegionsApart (s 256))
      ∧ ((deepState deepSymbols).params.legal = true ∧ SourceInMem (deepState deepSymbols)
        ∧ DestInMem (deepState deepSymbols) ∧ RegionsApart (deepState deepSymbols))
      ∧ (deepState deepSymbols).params.maxCodeLen
          < maxEntry (treeLengths (histogram (deepState deepSymbols).source)) := by
  intro s
  have k := deepState_checks deepSymbols
  have hs : ∀ d, (s d).source = [0, 0] := fun d => by
    show (region 0 2 0x400 0 (stored 0 [0, 0])).source = _
    decide +kernel
  have hd : (deepState deepSymbols).source = deepSymbols := by decide +kernel
  obtain ⟨l, c, h1, h2, h3⟩ := zeroPayload
  refine ⟨⟨l, c, ?_, h2, ?_, ?_⟩, by decide +kernel, by decide +kernel,
    ⟨k.1, k.2.1, k.2.2.2⟩, ?_⟩
  · rw [hs]; exact h1
  · rw [hs, h3]; decide +kernel
  · rw [hs, h3]; decide +kernel
  · rw [hd, deepDepth]; decide

theorem witness_PipeEncWritesThePayload :
    let e := fun s : State => rle0Encode (mtfEncode (bwtForward s.source).1)
    (∃ l c, buildLengths (oneByte 257).params.maxCodeLen (histogram (e (oneByte 257))) = .ok l
        ∧ canonTable (oneByte 257).params.maxCodeLen l = .ok (l, c)
        ∧ 256 + ceil8 (encodeBits l c (e (oneByte 257))).length ≤ (oneByte 257).dcap.toNat
        ∧ (oneByte 256).dcap.toNat < 256 + ceil8 (encodeBits l c (e (oneByte 256))).length)
      ∧ ((oneByte 257).params.legal = true ∧ SourceInMem (oneByte 257)
        ∧ (oneByte 257).slen.toNat ≤ (oneByte 257).params.nMax ∧ DestInMem (oneByte 257) ∧ RegionsApart (oneByte 257))
      ∧ (SourceInMem (oneByte 256) ∧ DestInMem (oneByte 256) ∧ RegionsApart (oneByte 256))
      ∧ ((deepState deepSource).params.legal = true ∧ SourceInMem (deepState deepSource)
        ∧ (deepState deepSource).slen.toNat ≤ (deepState deepSource).params.nMax
        ∧ DestInMem (deepState deepSource) ∧ RegionsApart (deepState deepSource))
      ∧ (deepState deepSource).params.maxCodeLen
          < maxEntry (treeLengths (histogram (e (deepState deepSource)))) := by
  intro e
  have hs : ∀ d, e (oneByte d) = [0, 0] := fun d => by
    show e (oneByte 0) = _
    decide +kernel
  have hd : e (deepState deepSource) = deepSymbols := by
    have h : (deepState deepSource).source = deepSource := by decide +kernel
    show rle0Encode (mtfEncode (bwtForward (deepState deepSource).source).1) = _
    rw [h, deepPipe]
  obtain ⟨l, c, h1, h2, h3⟩ := zeroPayload
  refine ⟨⟨l, c, ?_, h2, ?_, ?_⟩, by decide +kernel, by decide +kernel,
    deepState_checks _, ?_⟩
  · rw [hs]; exact h1
  · rw [hs, h3]; decide +kernel
  · rw [hs, h3]; decide +kernel
  · rw [hd, deepDepth]; decide

/-- The payload of one zero byte (lengths, then the two bits `00`) at 0x400, with its registers, to be
decoded to 0x600. -/
def tinyState : State :=
  { State.reset with
    params.rleLenCheck := .exact
    mem := (0x400, 1#8) :: (List.range 256).map fun i => (0x401 + i, 0#8)
    src := 0x400#32, slen := 257#32, dst := 0x600#32, dcap := 1#32, nlen := 1#32
    hbits := 2#32, rlelen := 2#32 }

theorem tinyHeader :
    (tabulate fun x : Byte => tinyState.readByte (tinyState.src.toNat + x.toNat)) = tinyLengths := by
  decide +kernel

theorem tinyStream : tinyState.source.drop 256 = [0#8] := by decide +kernel

/-- A header whose first length is 25, at 0x400. -/
def badHeader : State :=
  { tinyState with mem := (0x400, 25#8) :: (List.range 256).map fun i => (0x401 + i, 0#8) }

/-- The decoding commands of `FailedCommandsChangeOnlyTheReport`: with a bad header, and with HBITS one too
many. -/
theorem witness_FailedDecodings : ∀ i ∈ [Instr.hufDecRle, .pipeDec],
    (PassesChecks i badHeader
      ∧ ∃ t, exec i badHeader = .next t ∧ (badHeader.err == false && t.err && t.errcode == 0x11#8) = true)
    ∧ PassesChecks i { tinyState with hbits := 3#32 }
      ∧ ∃ t, exec i { tinyState with hbits := 3#32 } = .next t
        ∧ (tinyState.err == false && t.err && t.errcode != 0x11#8) = true := by
  intro i hi
  simp only [List.mem_cons, List.not_mem_nil, or_false] at hi
  rcases hi with rfl | rfl <;>
    exact ⟨⟨by unfold PassesChecks; decide +kernel, next_of (by decide +kernel)⟩,
      by unfold PassesChecks; decide +kernel, next_of (by decide +kernel)⟩

theorem witness_HufStartDecOpensThePayload :
    (SourceInMem tinyState ∧ 256 ≤ tinyState.slen.toNat
      ∧ ∃ l c, canonTable tinyState.params.maxCodeLen
          (tabulate fun x => tinyState.readByte (tinyState.src.toNat + x.toNat)) = .ok (l, c))
    ∧ (SourceInMem badHeader ∧ 256 ≤ badHeader.slen.toNat
      ∧ ∃ e, canonTable badHeader.params.maxCodeLen
          (tabulate fun x => badHeader.readByte (badHeader.src.toNat + x.toNat)) = .error e) := by
  obtain ⟨c, hc, _⟩ := tinyTable
  refine ⟨⟨by decide +kernel, by decide +kernel, tinyLengths, c, by rw [tinyHeader]; exact hc⟩,
    by decide +kernel, by decide +kernel, error_of (by decide +kernel)⟩

/-- A decoder with the table of `tinyLengths` over the byte `b`, at bit `pos`. -/
def tinyDecoder (c : Canon) (b : Byte) (pos : Nat) : State :=
  { State.reset with
    mem := [(0x500, b)], len := tinyLengths, canon := c, canonValid := true, decValid := true
    br := { active := true, base := 0x500#32, bytes := 1#32, pos := BitVec.ofNat 32 pos } }

theorem tinyDecoder_reader {c : Canon} {b : Byte} {pos : Nat} (h : pos ≤ 8) :
    (tinyDecoder c b pos).br.Ok (tinyDecoder c b pos).params :=
  ⟨(by decide : 0x500 + 1 ≤ 65536), by simp [tinyDecoder]; omega⟩

theorem tiny_symbol {x : Byte} (h : 0 < (entry tinyLengths x).toNat) : x = 0#8 := by
  rw [entry_setEntry] at h
  by_cases hx : x = 0#8
  · exact hx
  · simp [hx, entry] at h

theorem tiny_bit (c : Canon) (b : Byte) (p j : Nat) (h : j < 8) :
    bitAt (tinyDecoder c b p).readByte 0x500 j = b.getLsbD (7 - j) := by
  have h0 : j / 8 = 0 := by omega
  have h1 : j % 8 = j := by omega
  simp [bitAt, h0, h1, State.readByte, tinyDecoder, Memory.listed]

theorem tiny_bits : codeBits 0 (entry tinyLengths 0#8).toNat = [false] := by
  rw [entry_setEntry]; decide

theorem witness_HufDecOneDecodesACode :
    ∃ c, let s := tinyDecoder c 0x7F#8 0
      s.params.legal = true ∧ s.br.Ok s.params ∧ s.decValid = true
        ∧ canonTable s.params.maxCodeLen s.len = .ok (s.len, s.canon)
        ∧ 0 < (entry s.len 0#8).toNat
        ∧ StreamStarts s.readByte s.br
            (codeBits (entry s.canon.code 0#8) (entry s.len 0#8).toNat) := by
  obtain ⟨c, hc, h0, _⟩ := tinyTable
  refine ⟨c, reset_legal, tinyDecoder_reader (by decide), rfl, hc, ?_, ?_⟩
  · show 0 < (entry tinyLengths 0#8).toNat
    rw [entry_setEntry]; decide
  · show StreamStarts _ _ (codeBits (entry c.code 0#8) (entry tinyLengths 0#8).toNat)
    rw [h0, tiny_bits]
    refine ⟨(by decide : 0 + 1 ≤ 8 * 1), fun i hi => ?_⟩
    obtain rfl : i = 0 := by simpa using hi
    exact tiny_bit c 0x7F#8 0 0 (by decide)

theorem witness_HufDecOneWithoutACode :
    (∃ c, (∀ p, p = 7 ∨ p = 8 → let s := tinyDecoder c 0xFF#8 p
      s.params.legal = true ∧ s.br.Ok s.params ∧ s.decValid = true
        ∧ canonTable s.params.maxCodeLen s.len = .ok (s.len, s.canon)
        ∧ (∀ x, 0 < (entry s.len x).toNat → ¬ StreamStarts s.readByte s.br
            (codeBits (entry s.canon.code x) (entry s.len x).toNat)))
      ∧ 8 * (tinyDecoder c 0xFF#8 8).br.bytes.toNat
          < (tinyDecoder c 0xFF#8 8).br.pos.toNat + (tinyDecoder c 0xFF#8 8).canon.maxLen
      ∧ (tinyDecoder c 0xFF#8 7).br.pos.toNat + (tinyDecoder c 0xFF#8 7).canon.maxLen
          ≤ 8 * (tinyDecoder c 0xFF#8 7).br.bytes.toNat)
    ∧ State.reset.decValid = false := by
  obtain ⟨c, hc, h0, h1⟩ := tinyTable
  refine ⟨⟨c, fun p hp => ⟨reset_legal, tinyDecoder_reader (by omega), rfl, hc, fun x hx => ?_⟩, ?_, ?_⟩, rfl⟩
  · obtain rfl := tiny_symbol hx
    show ¬ StreamStarts _ _ (codeBits (entry c.code 0#8) (entry tinyLengths 0#8).toNat)
    rw [h0, tiny_bits]
    rintro ⟨hlen, hbit⟩
    rcases hp with rfl | rfl
    · exact absurd ((tiny_bit c 0xFF#8 7 7 (by decide)).symm.trans (hbit 0 (by decide))) (by decide)
    · exact absurd (show 8 + 1 ≤ 8 * 1 from hlen) (by decide)
  · show 8 * 1 < 8 + c.maxLen
    omega
  · show 7 + c.maxLen ≤ 8 * 1
    omega

/-- `tinyState` with another setting of P_RLELEN_CHECK and another RLELEN. -/
def tinyChecked (check : RleLenCheck) (rl : Nat) : State :=
  { tinyState with params.rleLenCheck := check, rlelen := BitVec.ofNat 32 rl }

/-- NONE with an RLELEN below the two symbols, BOUND with one above and with the exact one, and EXACT. -/
def tinySettings : List (RleLenCheck × Nat) := [(.none, 0), (.bound, 2), (.bound, 3), (.exact, 2)]

theorem tiny_payload {c : Canon} (h0 : entry c.code 0#8 = 0) :
    (∀ x ∈ [(0#8 : Byte), 0#8], 0 < (entry tinyLengths x).toNat)
      ∧ tinyState.source.drop 256 = pack (encodeBits tinyLengths c [0#8, 0#8])
      ∧ tinyState.hbits.toNat = (encodeBits tinyLengths c [0#8, 0#8]).length
      ∧ rle0Decode [0#8, 0#8] tinyState.nlen.toNat = some ([0#8], []) := by
  have he : encodeBits tinyLengths c [0#8, 0#8] = [false, false] := by
    simp [encodeBits, h0, entry_setEntry, codeBits]
  refine ⟨fun x hx => ?_, ?_, ?_, by decide +kernel⟩
  · have : x = 0#8 := by simpa using hx
    subst this
    rw [entry_setEntry]; decide
  · rw [he, tinyStream]; decide
  · rw [he]; rfl

theorem tiny_counts : ∀ k ∈ tinySettings,
    ((tinyChecked k.1 k.2).params.rleLenCheck ≠ .none →
        [(0#8 : Byte), 0#8].length ≤ (tinyChecked k.1 k.2).rlelen.toNat)
      ∧ ((tinyChecked k.1 k.2).params.rleLenCheck = .exact →
        [(0#8 : Byte), 0#8].length = (tinyChecked k.1 k.2).rlelen.toNat) := by decide +kernel

theorem witness_HufDecRleDecodesAPayload :
    ∃ (l : Table Byte) (c : Canon) (e ranks : List Byte), ∀ k ∈ tinySettings,
      let s := tinyChecked k.1 k.2
      (s.params.legal = true ∧ SourceInMem s ∧ DestInMem s ∧ RegionsApart s
        ∧ s.nlen.toNat ≤ s.dcap.toNat ∧ 256 ≤ s.slen.toNat)
        ∧ canonTable s.params.maxCodeLen (tabulate fun x => s.readByte (s.src.toNat + x.toNat)) = .ok (l, c)
        ∧ ((∀ x ∈ e, 0 < (entry l x).toNat) ∧ s.source.drop 256 = pack (encodeBits l c e)
          ∧ s.hbits.toNat = (encodeBits l c e).length ∧ rle0Decode e s.nlen.toNat = some (ranks, []))
        ∧ (s.params.rleLenCheck ≠ .none → e.length ≤ s.rlelen.toNat)
        ∧ (s.params.rleLenCheck = .exact → e.length = s.rlelen.toNat) := by
  obtain ⟨c, hc, h0, _⟩ := tinyTable
  refine ⟨tinyLengths, c, [0#8, 0#8], [0#8], fun k hk => ⟨?_, ?_, tiny_payload h0, tiny_counts k hk⟩⟩
  · show tinyState.params.legal = true ∧ SourceInMem tinyState ∧ DestInMem tinyState ∧ RegionsApart tinyState
      ∧ tinyState.nlen.toNat ≤ tinyState.dcap.toNat ∧ 256 ≤ tinyState.slen.toNat
    decide +kernel
  · show canonTable 24 (tabulate fun x : Byte => tinyState.readByte (tinyState.src.toNat + x.toNat)) = _
    rw [tinyHeader]
    exact hc

theorem witness_PipeDecDecodesAPayload :
    ∃ (l : Table Byte) (c : Canon) (e ranks : List Byte), ∀ k ∈ tinySettings,
      let s := tinyChecked k.1 k.2
      (s.params.legal = true ∧ SourceInMem s ∧ s.nlen.toNat ≤ s.params.nMax ∧ DestInMem s
        ∧ RegionsApart s ∧ s.nlen.toNat ≤ s.dcap.toNat
        ∧ ((0 < s.nlen.toNat ∧ s.pi.toNat < s.nlen.toNat) ∨ (s.nlen.toNat = 0 ∧ s.pi.toNat = 0))
        ∧ 256 ≤ s.slen.toNat)
        ∧ canonTable s.params.maxCodeLen (tabulate fun x => s.readByte (s.src.toNat + x.toNat)) = .ok (l, c)
        ∧ ((∀ x ∈ e, 0 < (entry l x).toNat) ∧ s.source.drop 256 = pack (encodeBits l c e)
          ∧ s.hbits.toNat = (encodeBits l c e).length ∧ rle0Decode e s.nlen.toNat = some (ranks, []))
        ∧ (s.params.rleLenCheck ≠ .none → e.length ≤ s.rlelen.toNat)
        ∧ (s.params.rleLenCheck = .exact → e.length = s.rlelen.toNat) := by
  obtain ⟨c, hc, h0, _⟩ := tinyTable
  refine ⟨tinyLengths, c, [0#8, 0#8], [0#8], fun k hk => ⟨?_, ?_, tiny_payload h0, tiny_counts k hk⟩⟩
  · show tinyState.params.legal = true ∧ SourceInMem tinyState ∧ tinyState.nlen.toNat ≤ tinyState.params.nMax
      ∧ DestInMem tinyState ∧ RegionsApart tinyState ∧ tinyState.nlen.toNat ≤ tinyState.dcap.toNat
      ∧ ((0 < tinyState.nlen.toNat ∧ tinyState.pi.toNat < tinyState.nlen.toNat)
        ∨ (tinyState.nlen.toNat = 0 ∧ tinyState.pi.toNat = 0))
      ∧ 256 ≤ tinyState.slen.toNat
    decide +kernel
  · show canonTable 24 (tabulate fun x : Byte => tinyState.readByte (tinyState.src.toNat + x.toNat)) = _
    rw [tinyHeader]
    exact hc

theorem hufDecRle_succeeds :
    ∃ t, exec .hufDecRle tinyState = .next t ∧ (t.err == false) = true :=
  next_of (p := fun t => t.err == false) (by decide +kernel)

theorem pipeDec_succeeds :
    ∃ t, exec .pipeDec tinyState = .next t ∧ (t.err == false) = true :=
  next_of (p := fun t => t.err == false) (by decide +kernel)

theorem witness_DecodingSucceedsOnlyOnExactStreams :
    (tinyState.params.legal = true ∧ tinyState.err = false
      ∧ tinyState.params.rleLenCheck ≠ .none ∧ tinyState.params.rleLenCheck = .exact)
      ∧ (∃ t, exec .hufDecRle tinyState = .next t ∧ t.err = false)
      ∧ ∃ t, exec .pipeDec tinyState = .next t ∧ t.err = false := by
  obtain ⟨t, h, ht⟩ := hufDecRle_succeeds
  obtain ⟨u, k, hu⟩ := pipeDec_succeeds
  exact ⟨by decide +kernel, ⟨t, h, by simpa using ht⟩, u, k, by simpa using hu⟩

/-- Two symbols, with the codes `0` and `10`. -/
abbrev pairLengths : Table Byte := setEntry (setEntry (Vector.replicate 256 0#8) 0#8 1#8) 1#8 2#8

theorem pairTable : ∃ c, canonTable 24 pairLengths = .ok (pairLengths, c)
    ∧ entry c.code 0#8 = 0 ∧ entry c.code 1#8 = 2 ∧ c.maxLen = 2 := by
  have h : (match canonTable 24 pairLengths with
      | .ok x => decide (x.1 = pairLengths) && entry x.2.code 0#8 == 0 && entry x.2.code 1#8 == 2
          && x.2.maxLen == 2
      | .error _ => false) = true := by decide +kernel
  split at h
  · rename_i x hx
    simp only [Bool.and_eq_true, decide_eq_true_eq, beq_iff_eq] at h
    exact ⟨x.2, by rw [hx, ← h.1.1.1], h.1.1.2, h.1.2, h.2⟩
  · cases h

/-- The length header of `pairLengths` at 0x400. -/
def pairHeader : Memory :=
  (0x400, 1#8) :: (0x401, 2#8) :: (List.range 254).map fun i => (0x402 + i, 0#8)

/-- That header, then the payload byte `b` and a zero byte, to be decoded to 0x600. -/
def pairState (b : Byte) (slen nlen hb rl : Nat) : State :=
  { State.reset with
    params.rleLenCheck := .exact
    mem := pairHeader ++ [(0x500, b), (0x501, 0#8)]
    src := 0x400#32, slen := BitVec.ofNat 32 slen, dst := 0x600#32, dcap := 16#32
    nlen := BitVec.ofNat 32 nlen, hbits := BitVec.ofNat 32 hb, rlelen := BitVec.ofNat 32 rl }

theorem pairHeader_listed :
    (∀ x : Byte, pairHeader.listed (0x400 + x.toNat) = some (entry pairLengths x))
      ∧ pairHeader.listed 0x500 = none := by decide +kernel

theorem pair_header (b : Byte) (slen nlen hb rl : Nat) :
    (tabulate fun x : Byte => (pairState b slen nlen hb rl).readByte
      ((pairState b slen nlen hb rl).src.toNat + x.toNat)) = pairLengths := by
  refine table_ext fun x => ?_
  rw [entry_tabulate]
  show ((pairHeader ++ [(0x500, b), (0x501, 0#8)]).listed (0x400 + x.toNat)).getD _ = _
  rw [Memory.listed_append, pairHeader_listed.1 x]
  rfl

theorem pair_bit (b : Byte) (slen nlen hb rl j : Nat) (h : j < 8) :
    bitAt (pairState b slen nlen hb rl).readByte 0x500 j = b.getLsbD (7 - j) := by
  have h0 : j / 8 = 0 := by omega
  have h1 : j % 8 = j := by omega
  have hb : (pairState b slen nlen hb rl).readByte 0x500 = b := by
    show ((pairHeader ++ [(0x500, b), (0x501, 0#8)]).listed 0x500).getD _ = _
    rw [Memory.listed_append, pairHeader_listed.2]
    rfl
  simp [bitAt, h0, h1, hb]

theorem pair_entries :
    entry pairLengths 0#8 = 1#8 ∧ entry pairLengths 1#8 = 2#8
      ∧ ∀ x, 0 < (entry pairLengths x).toNat → x = 0#8 ∨ x = 1#8 := by decide +kernel

/-- The reader over the payload, at bit `pos`. -/
def opened (s : State) (pos : Nat) : BitReader :=
  { active := false, base := s.src + 256#32, bytes := s.slen - 256#32, pos := BitVec.ofNat 32 pos }

/-- What the second half of `DecodingSucceedsOnlyOnExactStreams` assumes of the symbols `e`. -/
def Decoded (s : State) (c : Canon) (e : List Byte) : Prop :=
  (s.params.legal = true ∧ PassesChecks .hufDecRle s ∧ PassesChecks .pipeDec s)
    ∧ canonTable s.params.maxCodeLen (tabulate fun x => s.readByte (s.src.toNat + x.toNat))
        = .ok (pairLengths, c)
    ∧ (∀ x ∈ e, 0 < (entry pairLengths x).toNat)
    ∧ StreamStarts s.readByte (opened s 0) (encodeBits pairLengths c e)
    ∧ (s.params.rleLenCheck ≠ .none → e.length ≤ s.rlelen.toNat)

/-- No code of `pairLengths` stands at bit `pos`. -/
def NoCode (s : State) (c : Canon) (pos : Nat) : Prop :=
  ∀ x, 0 < (entry pairLengths x).toNat → ¬ StreamStarts s.readByte (opened s pos)
    (codeBits (entry c.code x) (entry pairLengths x).toNat)

/-- Bit `j` is a padding bit behind `hb` bits, and is 1. -/
def Padded (s : State) (hb j : Nat) : Prop :=
  hb ≤ j ∧ j < 8 * ceil8 hb ∧ bitAt s.readByte (s.src.toNat + 256) j = true

theorem pair_starts {b : Byte} {slen nlen hb rl : Nat} (h : slen = 257 ∨ slen = 258) (pos : Nat) (bits : List Bool) :
    StreamStarts (pairState b slen nlen hb rl).readByte (opened (pairState b slen nlen hb rl) pos) bits ↔
      (BitVec.ofNat 32 pos).toNat + bits.length ≤ 8 * (slen - 256)
        ∧ ∀ i, (h : i < bits.length) →
          bitAt (pairState b slen nlen hb rl).readByte 0x500 ((BitVec.ofNat 32 pos).toNat + i) = bits[i] := by
  have h2 : ((opened (pairState b slen nlen hb rl) pos).bytes).toNat = slen - 256 := by
    show (BitVec.ofNat 32 slen - 256#32).toNat = _
    rcases h with rfl | rfl <;> decide
  show (BitVec.ofNat 32 pos).toNat + bits.length ≤ 8 * _ ∧ _ ↔ _
  rw [h2]
  rfl

/-- The operands of `pairState` pass the checks of both commands. -/
theorem pair_passes {slen nlen : Nat} (h : (slen, nlen) ∈ [(257, 1), (257, 2), (257, 4), (258, 2)]) (b : Byte)
    (hb rl : Nat) :
    PassesChecks .hufDecRle (pairState b slen nlen hb rl) ∧ PassesChecks .pipeDec (pairState b slen nlen hb rl) := by
  have h' : ∀ x ∈ [(257, 1), (257, 2), (257, 4), (258, 2)],
      (∀ k ∈ operandChecks .hufDecRle (pairState 0#8 x.1 x.2 0 0), k.fails = false)
        ∧ ∀ k ∈ operandChecks .pipeDec (pairState 0#8 x.1 x.2 0 0), k.fails = false := by decide +kernel
  exact h' _ h

theorem pair_decoded {c : Canon} (hc : canonTable 24 pairLengths = .ok (pairLengths, c)) {b : Byte}
    {slen nlen hb rl : Nat} {e : List Byte} {bits : List Bool} (he : ∀ x ∈ e, x = 0#8 ∨ x = 1#8)
    (hbits : encodeBits pairLengths c e = bits)
    (h : (slen, nlen) ∈ [(257, 1), (257, 2), (257, 4), (258, 2)]) (hl : bits.length ≤ 8)
    (hbit : ∀ i, (h : i < bits.length) → b.getLsbD (7 - i) = bits[i])
    (hr : e.length ≤ (BitVec.ofNat 32 rl).toNat) : Decoded (pairState b slen nlen hb rl) c e := by
  have hs : slen = 257 ∨ slen = 258 := by
    simp only [List.mem_cons, Prod.mk.injEq, List.not_mem_nil, or_false] at h
    omega
  refine ⟨⟨reset_legal, pair_passes h b hb rl⟩, by rw [pair_header]; exact hc, fun x hx => ?_, ?_,
    fun _ => hr⟩
  · rcases he x hx with rfl | rfl
    · rw [pair_entries.1]; decide
    · rw [pair_entries.2.1]; decide
  · rw [pair_starts hs, hbits]
    refine ⟨by simp; omega, fun i hi => ?_⟩
    rw [show (BitVec.ofNat 32 0).toNat + i = i by simp, pair_bit _ _ _ _ _ _ (by omega)]
    exact hbit i hi

/-- The second half of `DecodingSucceedsOnlyOnExactStreams`: for each error a stream that ends with it. -/
theorem witness_DecodingErrors :
    (PassesChecks .hufDecRle badHeader ∧ PassesChecks .pipeDec badHeader
      ∧ ∃ bad, canonTable badHeader.params.maxCodeLen
          (tabulate fun x => badHeader.readByte (badHeader.src.toNat + x.toNat)) = .error bad)
    ∧ ∃ c, c.maxLen = 2
      -- one symbol too many for RLELEN
      ∧ (Decoded (pairState 0 257 1 0 0) c [] ∧ WantsSymbol 1 [])
      ∧ (Decoded (pairState 0 257 1 0 1) c [0] ∧ WantsSymbol 1 [0])
      -- no code, at the end of the stream and before it
      ∧ (Decoded (pairState 1 257 4 0 9) c (List.replicate 7 0) ∧ WantsSymbol 4 (List.replicate 7 0)
        ∧ NoCode (pairState 1 257 4 0 9) c 7 ∧ 8 * (257 - 256) < 7 + 2)
      ∧ (Decoded (pairState 3 257 4 0 9) c (List.replicate 6 0) ∧ WantsSymbol 4 (List.replicate 6 0)
        ∧ NoCode (pairState 3 257 4 0 9) c 6 ∧ 6 + 2 ≤ 8 * (257 - 256))
      -- a run past NLEN
      ∧ (Decoded (pairState 0x40 257 1 3 2) c [0, 1] ∧ Expands [] 0 ∧ 1 < 0 + (1#8).toNat + 1)
      -- HBITS, the padding, a trailing byte, the count
      ∧ Expands [0, 1] 2
      ∧ (Decoded (pairState 0x40 257 2 4 2) c [0, 1] ∧ 4 ≠ (encodeBits pairLengths c [0, 1]).length)
      ∧ 3 = (encodeBits pairLengths c [0, 1]).length
      ∧ (Decoded (pairState 0x41 257 2 3 2) c [0, 1] ∧ Padded (pairState 0x41 257 2 3 2) 3 7
        ∧ ∀ k, k < 7 → ¬ Padded (pairState 0x41 257 2 3 2) 3 k)
      ∧ (Decoded (pairState 0x40 258 2 3 2) c [0, 1] ∧ (∀ j, ¬ Padded (pairState 0x40 258 2 3 2) 3 j)
        ∧ ceil8 3 < 258 - 256)
      ∧ (Decoded (pairState 0x40 257 2 3 3) c [0, 1] ∧ (∀ j, ¬ Padded (pairState 0x40 257 2 3 3) 3 j)
        ∧ 257 - 256 ≤ ceil8 3 ∧ (pairState 0x40 257 2 3 3).params.rleLenCheck = .exact
        ∧ [(0 : Byte), 1].length ≠ (pairState 0x40 257 2 3 3).rlelen.toNat) := by
  obtain ⟨c, hc, h0, h1, hm⟩ := pairTable
  have z : ∀ k, encodeBits pairLengths c (List.replicate k 0#8) = List.replicate k false := by
    intro k
    induction k with
    | zero => rfl
    | succ k ih => rw [List.replicate_succ, encodeBits_cons, ih, h0, pair_entries.1]; rfl
  have p : encodeBits pairLengths c [0#8, 1#8] = [false, true, false] := by
    simp only [encodeBits_cons, encodeBits_nil, h0, h1, pair_entries.1, pair_entries.2.1]
    rfl
  have zeros : ∀ k, ∀ x ∈ List.replicate k 0#8, x = 0#8 ∨ x = 1#8 := fun k x hx =>
    .inl (List.eq_of_mem_replicate hx)
  have two : ∀ x ∈ [0#8, 1#8], x = 0#8 ∨ x = 1#8 := by simp
  have run : ∀ k, Expands (List.replicate (2 * k) 0#8) k := by
    intro k
    induction k with
    | zero => exact .nil
    | succ k ih => exact .pair ih
  have nocode : ∀ b pos, pos < 8 → b.getLsbD (7 - pos) = true → (pos < 7 → b.getLsbD (7 - (pos + 1)) = true) →
      NoCode (pairState b 257 4 0 9) c pos := by
    intro b pos hp hb hb' x hx
    rw [pair_starts (.inl rfl), show (BitVec.ofNat 32 pos).toNat = pos by simp; omega]
    rintro ⟨hlen, hbit⟩
    rcases pair_entries.2.2 x hx with rfl | rfl
    · simp only [h0, pair_entries.1] at hbit
      have := hbit 0 (by decide)
      rw [pair_bit _ _ _ _ _ _ (by omega), Nat.add_zero, hb] at this
      cases this
    · simp only [h1, pair_entries.2.1] at hbit hlen
      have hlen : pos + 2 ≤ 8 := hlen
      have := hbit 1 (by decide)
      rw [pair_bit _ _ _ _ _ _ (by omega), hb' (by omega)] at this
      cases this
  have bits : ∀ b slen hb rl, (slen = 257 ∨ slen = 258) → ∀ k, Padded (pairState b slen 2 hb rl) 3 k ↔
      3 ≤ k ∧ k < 8 ∧ b.getLsbD (7 - k) = true := by
    intro b slen hb rl _ k
    constructor
    · rintro ⟨h3, h8, h⟩
      exact ⟨h3, h8, by rw [← pair_bit b slen 2 hb rl k h8]; exact h⟩
    · rintro ⟨h3, h8, h⟩
      exact ⟨h3, h8, by rw [← pair_bit b slen 2 hb rl k h8] at h; exact h⟩
  refine ⟨⟨by unfold PassesChecks; decide +kernel, by unfold PassesChecks; decide +kernel,
      error_of (by decide +kernel)⟩, c, hm,
    ⟨pair_decoded hc (zeros 0) (z 0) (by decide) (by decide) (by decide)
      (by decide), [], 0, .nil, by decide, .inl rfl⟩,
    ⟨pair_decoded hc (zeros 1) (z 1) (by decide) (by decide) (by decide)
      (by decide), [], 0, .nil, by decide, .inr rfl⟩,
    ⟨pair_decoded hc (zeros 7) (z 7) (by decide) (by decide) (by decide)
      (by decide), ⟨_, 3, run 3, by decide, .inr rfl⟩, nocode _ _ (by decide) (by decide) (by decide), by decide⟩,
    ⟨pair_decoded hc (zeros 6) (z 6) (by decide) (by decide) (by decide)
      (by decide), ⟨_, 3, run 3, by decide, .inl rfl⟩, nocode _ _ (by decide) (by decide) (by decide), by decide⟩,
    ⟨pair_decoded hc two p (by decide) (by decide) (by decide)
      (by decide), .nil, by decide⟩,
    .pair .nil,
    ⟨pair_decoded hc two p (by decide) (by decide) (by decide)
      (by decide), by rw [show ([0, 1] : List Byte) = [0#8, 1#8] from rfl, p]; decide⟩,
    by rw [show ([0, 1] : List Byte) = [0#8, 1#8] from rfl, p]; rfl,
    ⟨pair_decoded hc two p (by decide) (by decide) (by decide)
      (by decide), (bits _ _ _ _ (.inl rfl) 7).mpr (by decide), fun k hk h => ?_⟩,
    ⟨pair_decoded hc two p (by decide) (by decide) (by decide)
      (by decide), fun j h => ?_, by decide⟩,
    ⟨pair_decoded hc two p (by decide) (by decide) (by decide)
      (by decide), fun j h => ?_, by decide, rfl, by decide⟩⟩
  · have h := (bits _ _ _ _ (.inl rfl) k).mp h
    have : ∀ k, k < 7 → ¬ (3 ≤ k ∧ k < 8 ∧ (0x41 : Byte).getLsbD (7 - k) = true) := by decide
    exact this k hk h
  · have h := (bits _ _ _ _ (.inr rfl) j).mp h
    have : ∀ j, j < 8 → ¬ (3 ≤ j ∧ j < 8 ∧ (0x40 : Byte).getLsbD (7 - j) = true) := by decide
    exact this j h.2.1 h
  · have h := (bits _ _ _ _ (.inl rfl) j).mp h
    have : ∀ j, j < 8 → ¬ (3 ≤ j ∧ j < 8 ∧ (0x40 : Byte).getLsbD (7 - j) = true) := by decide
    exact this j h.2.1 h

theorem witness_TruncatedPayloadIsRefused :
    tinyState.params.legal = true ∧ tinyState.err = false
      ∧ ∃ t, exec .pipeDec tinyState = .next t ∧ t.err = false := by
  obtain ⟨u, k, hu⟩ := pipeDec_succeeds
  exact ⟨by decide +kernel, rfl, u, k, by simpa using hu⟩

theorem pipeEnc_succeeds : ∃ t, exec .pipeEnc (oneByte 257) = .next t
    ∧ (t.err == false && t.olen == 257#32 && decide (t.params.memSize = 65536)) = true :=
  next_of (p := fun t => t.err == false && t.olen == 257#32 && decide (t.params.memSize = 65536))
    (by decide +kernel)

theorem witness_WholeStreamCommandsReadOnlyTheirOperands :
    let s := oneByte 257
    let s' := { oneByte 257 with result := 5#32, peekn := 3#6, done := true, decValid := true }
    (s.params.legal = true ∧ s'.params = s.params ∧ s'.src = s.src ∧ s'.slen = s.slen
      ∧ s'.dst = s.dst ∧ s'.dcap = s.dcap ∧ s'.nlen = s.nlen ∧ s'.pi = s.pi ∧ s'.hbits = s.hbits
      ∧ s'.rlelen = s.rlelen ∧ s'.source = s.source ∧ s.err = false ∧ s'.err = false)
      ∧ (∃ t, exec .pipeEnc s = .next t ∧ t.err = false) ∧ (∃ t', exec .pipeEnc s' = .next t')
      ∧ ∃ t, exec .pipeEnc { s with dcap := 0x10001#32 } = .next t ∧ t.err = true := by
  obtain ⟨t, h, ht⟩ := pipeEnc_succeeds
  simp only [Bool.and_eq_true, beq_iff_eq] at ht
  exact ⟨⟨reset_legal, rfl, rfl, rfl, rfl, rfl, rfl, rfl, rfl, rfl, rfl, rfl, rfl⟩, ⟨t, h, ht.1.1⟩,
    exec_next _ _, next_of (p := fun t => t.err) (by decide +kernel)⟩

theorem witness_PipelineRoundTrip :
    ∃ t u, let s := oneByte 257
      s.params.legal = true ∧ s.err = false ∧ exec .pipeEnc s = .next t ∧ t.err = false
        ∧ u.params = t.params ∧ u.mem = t.mem ∧ u.epoch = t.epoch ∧ u.err = false
        ∧ u.src = s.dst ∧ u.slen = t.olen ∧ u.nlen = s.slen ∧ u.pi = t.pi ∧ u.hbits = t.hbits
        ∧ u.rlelen = t.rlelen ∧ DestInMem u ∧ RegionsApart u ∧ s.slen.toNat ≤ u.dcap.toNat := by
  obtain ⟨t, h, ht⟩ := pipeEnc_succeeds
  simp only [Bool.and_eq_true, beq_iff_eq, decide_eq_true_eq] at ht
  obtain ⟨⟨he, ho⟩, hm⟩ := ht
  refine ⟨t, { t with
      src := 0x400#32, slen := t.olen, nlen := 1#32, dst := 0x600#32, dcap := 1#32 },
    reset_legal, rfl, h, he, rfl, rfl, rfl, he, rfl, rfl, rfl, rfl, rfl, rfl, ?_, ?_, (by decide : 1 ≤ 1)⟩
  · show 0x600 + 1 ≤ t.params.memSize
    omega
  · right; right; right
    show 0x400 + t.olen.toNat ≤ 0x600
    rw [ho]; decide

theorem witness_StatusWordShowsFlagsAndIrq :
    5 ≤ 5 ∧ (State.reset.canonValid = true → State.reset.canon.maxLen < 256) ∧ (4 ≤ 4 ∧ 4 < 8) ∧ 16 ≤ 16
      ∧ 7 < 8 := ⟨by decide, nofun, by decide⟩

theorem witness_NopOnlyCompletes :
    let s := doing (.write 0x014 .word 0#32)
    s.inReset = false ∧ s.busy = false ∧ s.pending = [.write 0x014 .word 0#32] := ⟨rfl, rfl, rfl⟩

theorem witness_HostWriteOfCmdStartsACommand :
    let s := doing (.write 0x014 .word 0x60#32)
    (s.inReset = false ∧ s.pending = .write 0x014 .word 0x60#32 :: [] ∧ s.busy = false)
      ∧ ({ s with busy := true }).inReset = false
      ∧ ({ s with busy := true }).pending = .write 0x014 .word 0x60#32 :: [] :=
  ⟨⟨rfl, rfl, rfl⟩, rfl, rfl⟩

theorem witness_HostWriteOfCtrlResetsOrSetsIe :
    (∀ v, (doing (.write 0x004 .word v)).inReset = false
        ∧ (doing (.write 0x004 .word v)).pending = .write 0x004 .word v :: [])
      ∧ ((3#32).getLsbD 1 = true ∧ (doing (.write 0x004 .word 3#32)).busy = false)
      ∧ (1#32).getLsbD 1 = false
      ∧ (running 0 [.write 0x004 .word 3#32]).inReset = false
      ∧ (running 0 [.write 0x004 .word 3#32]).pending = .write 0x004 .word 3#32 :: []
      ∧ (running 0 [.write 0x004 .word 3#32]).busy = true :=
  ⟨fun _ => ⟨rfl, rfl⟩, ⟨rfl, rfl⟩, rfl, rfl, rfl, rfl⟩

theorem witness_HostWriteOfStatusClearsFlags :
    let s := doing (.write 0x008 .word 6#32)
    s.inReset = false ∧ s.pending = .write 0x008 .word 6#32 :: [] := ⟨rfl, rfl⟩

theorem witness_HostWriteOfRegisterIsReadBack :
    State.reset.params.legal = true ∧ isOperand .bwcode = true ∧ State.reset.busy = false
      ∧ (running 0 []).params.legal = true ∧ (running 0 []).busy = true ∧ Reg.src ≠ .bwcode ∧ isReadOnly .param2 = true :=
  ⟨reset_legal, rfl, rfl, reset_legal, rfl, nofun, rfl⟩

theorem witness_BusyWritesAreDropped :
    (running 0 []).busy = true
      ∧ busTarget (running 0 []).params 0x018 .word = some (.reg .src)
      ∧ busTarget (running 0 []).params 0x014 .word = some (.reg .cmd)
      ∧ busTarget (running 0 []).params 0x7FC .word = some (.freq 255#8)
      ∧ busTarget (running 0 []).params 0xBFC .word = some (.len 255#8)
      ∧ busTarget (running 0 []).params 0x1FFFF .byte = some (.mem 0xFFFF) := by
  decide +kernel

theorem witness_HostWritesOfTables : State.reset.busy = false ∧ (running 0 []).busy = true := ⟨rfl, rfl⟩

theorem witness_HostMemAccessIsLittleEndian :
    State.reset.params.legal = true ∧ State.reset.busy = false
      ∧ (Width.byte ≠ .wide ∧ 65535 < State.reset.params.memSize ∧ 65535 % Width.byte.bytes = 0)
      ∧ (Width.half ≠ .wide ∧ 65534 < State.reset.params.memSize ∧ 65534 % Width.half.bytes = 0)
      ∧ Width.word ≠ .wide ∧ 65532 < State.reset.params.memSize ∧ 65532 % Width.word.bytes = 0 := by
  decide +kernel

/-- An access below MEM that is no aligned word, one above MEM, a wide and a misaligned one in MEM; the
first and last reserved words. -/
theorem witness_RefusedAndReservedAccesses :
    let size := State.reset.params.memSize
    State.reset.params.legal = true
      ∧ (0xFFFC < 0x10000 ∧ ¬ (Width.half = .word ∧ 0xFFFC % 4 = 0))
      ∧ (¬ (0x10000 ≤ 0x20000 ∧ 0x20000 < 0x10000 + size) ∧ ¬ (Width.byte = .word ∧ 0x20000 % 4 = 0))
      ∧ (0x10000 ≤ 0x10000 ∧ 0x10000 < 0x10000 + size ∧ Width.wide = .wide)
      ∧ (0x10000 ≤ 0x1FFFE ∧ 0x1FFFE < 0x10000 + size ∧ 0x1FFFE % Width.word.bytes ≠ 0)
      ∧ (Width.word = .word ∧ 0x068 % 4 = 0 ∧ 0x068 ≤ 0x068 ∧ 0x068 < 0x400)
      ∧ (0x1000 % 4 = 0 ∧ 0x1000 ≤ 0x1000 ∧ 0x1000 < 0x10000)
      ∧ (0x20000 % 4 = 0 ∧ 0x10000 + size ≤ 0x20000) := by
  decide +kernel

theorem witness_HostReadsHaveNoSideEffect :
    (State.reset.params.legal = true ∧ State.reset.busy = false)
      ∧ (Width.byte ≠ .wide ∧ 65535 < State.reset.params.memSize ∧ 65535 % Width.byte.bytes = 0)
      ∧ (Width.half ≠ .wide ∧ 65534 < State.reset.params.memSize ∧ 65534 % Width.half.bytes = 0)
      ∧ (Width.word ≠ .wide ∧ 65532 < State.reset.params.memSize ∧ 65532 % Width.word.bytes = 0)
      ∧ ((running 0 []).params.legal = true ∧ (running 0 []).busy = true)
      ∧ 0x064 ∈ [0x000, 0x004, 0x008, 0x05C, 0x060, 0x064] ∧ 0xC00 ∈ [0x400, 0x800, 0xC00]
      ∧ (65535 < (running 0 []).params.memSize ∧ 65535 % Width.byte.bytes = 0) := by
  decide +kernel

theorem witness_ResetValuesAreTheTables :
    Reg.ctrl ≠ .id ∧ Reg.ctrl ≠ .param0 ∧ Reg.ctrl ≠ .param1 ∧ Reg.ctrl ≠ .param2 := by decide

/-- A NOP in flight, one byte of MEM written: a state that meets the invariant and is not the reset one. -/
def nopInFlight : State := { running 0 [] with mem := [(7, 9#8)], ie := true, ovr := true }

theorem witness_StepKeepsTheInvariant : nopInFlight.Inv ∧ ∃ t, step nopInFlight = .next t :=
  ⟨{ params := reset_legal
     memForm := by decide +kernel
     memSize := by decide +kernel
     flags := by decide +kernel
     busy := fun _ => ⟨rfl, rfl, rfl, rfl⟩
     errcode := .inl rfl
     errinfo := fun _ => rfl
     decoder := nofun
     canon := nofun
     writer := reset_writer
     reader := reset_reader
     held := nofun }, _, rfl⟩

theorem witness_HardwareResetKeepsMem :
    ((doing .resetAssert).inReset = false ∧ (doing .resetAssert).pending = .resetAssert :: []
      ∧ (doing .resetAssert).busy = false)
    ∧ ((running 0x12 [.resetAssert]).inReset = false
      ∧ (running 0x12 [.resetAssert]).pending = .resetAssert :: []
      ∧ (running 0x12 [.resetAssert]).busy = true
      ∧ decode (running 0x12 [.resetAssert]).cur = .ok .bwFinish)
    ∧ ((running 0x120 [.resetAssert]).inReset = false
      ∧ (running 0x120 [.resetAssert]).pending = .resetAssert :: []
      ∧ ¬ ∃ i, decode (running 0x120 [.resetAssert]).cur = .ok i)
    ∧ (∀ a, ({ doing a with inReset := true } : State).inReset = true
        ∧ ({ doing a with inReset := true } : State).pending = a :: [])
    ∧ ({ State.reset with inReset := true } : State).pending = []
    ∧ (doing .powerOn).pending = .powerOn :: [] := by
  refine ⟨⟨rfl, rfl, rfl⟩, ⟨rfl, rfl, rfl, rfl⟩, ⟨rfl, rfl, ?_⟩, fun _ => ⟨rfl, rfl⟩, rfl, rfl⟩
  rintro ⟨i, h⟩
  cases h

end Sys2Proof.Tests
end

-- Proofs of the statements about bit input and output (40_bitio.md).
section
/-! PROOFS. The statements about the BW_ and BR_ commands (40_bitio.md): what their checks answer, what
their bodies do, and the settled obligations. -/

namespace Sys2Proof.Machine

/-! ## What the operand checks answer -/

theorem firstFailure_checkDest (s : State) :
    firstFailure [checkDest s] = if DestInMem s then none else some { kind := .range, info := 2 } := by
  by_cases h : DestInMem s <;> simp [firstFailure, checkDest, inRange, h]

theorem firstFailure_checkSource (s : State) :
    firstFailure [checkSource s] = if SourceInMem s then none else some { kind := .range, info := 1 } := by
  by_cases h : SourceInMem s <;> simp [firstFailure, checkSource, inRange, h]

theorem firstFailure_checkNbits (max n : Nat) :
    firstFailure [checkNbits max n] = if max < n then some { kind := .nbitsRange, info := n } else none := by
  simp [firstFailure, checkNbits]

/-- With the writer, the reader or the decoder there, the checks after the first decide. -/
theorem firstFailure_active {active : Bool} (h : active = true) (cs : List Check) :
    firstFailure (checkActive active :: cs) = firstFailure cs := by
  subst h
  rfl

/-- A stepwise command without its writer, reader or decoder ends with NO_STATE (60_exceptions.md R271). -/
theorem exec_noState {i : Instr} {s : State} {active : Bool} {cs : List Check}
    (hc : operandChecks i s = checkActive active :: cs) (h : active = false) :
    exec i s = .next ((failEffects i s).reported 0x02#8 0) :=
  exec_fail (e := { kind := .noState, info := 0 }) (by rw [hc, h]; rfl)

/-! ## Starting a writer and a reader -/

/-- Settles O15: BW_INIT has the one check that the destination region is in MEM, and no error effect. -/
theorem bwInitStartsAWriter : Obligations.BwInitStartsAWriter := fun s =>
  ⟨fun h => exec_pass ((firstFailure_checkDest s).trans (if_pos h)),
    fun h => exec_fail (i := .bwInit) (e := { kind := .range, info := 2 })
      ((firstFailure_checkDest s).trans (if_neg h))⟩

/-- Settles O20: BR_INIT has the one check that the source region is in MEM, and no error effect. -/
theorem brInitStartsAReader : Obligations.BrInitStartsAReader := fun s =>
  ⟨fun h => exec_pass ((firstFailure_checkSource s).trans (if_pos h)),
    fun h => exec_fail (i := .brInit) (e := { kind := .range, info := 1 })
      ((firstFailure_checkSource s).trans (if_neg h))⟩

/-! ## BW_FINISH -/

/-- A run of bytes that came to stand in MEM is what `Wrote` says. -/
theorem Wrote.of_writeRun {s t : State} {a : Nat} {bs : List Byte}
    (hm : t.mem = s.mem.writeRun a bs) (he : t.epoch = s.epoch) : Wrote s t a bs :=
  ⟨fun _ h => State.readByte_inside hm he h, fun _ h => State.readByte_outside hm he h⟩

theorem Wrote.of_same {s t : State} (h : SameMem s t) (a : Nat) : Wrote s t a [] :=
  ⟨fun _ hi => absurd hi (Nat.not_lt_zero _), fun x _ => h x⟩

/-- BW_FINISH writes the partial byte, if there is one (40_bitio.md R104). -/
theorem bwFinishBody_wrote (s : State) :
    Wrote s (bwFinishBody s) (s.bw.base.toNat + s.bw.bits.toNat / 8)
      (if s.bw.bits.toNat % 8 = 0 then [] else [s.bw.acc]) := by
  have hm : (bwFinishBody s).mem = s.flushPartial.mem := rfl
  have he : (bwFinishBody s).epoch = s.epoch := by
    show s.flushPartial.epoch = s.epoch
    rw [State.flushPartial_eq]
  unfold State.flushPartial at hm
  by_cases hz : s.bw.bits.toNat % 8 = 0
  · rw [if_pos hz] at hm ⊢
    exact .of_same (State.readByte_congr hm he) _
  · rw [if_neg hz] at hm ⊢
    exact .of_writeRun hm he

/-- Once the partial byte stands in MEM, the writer's bytes are the packed bits (40_bitio.md R104). -/
theorem Wrote.readBytes_eq_pack {s t : State} {p : Params} (ho : s.bw.Ok p)
    (h : Wrote s t (s.bw.base.toNat + s.bw.bits.toNat / 8)
      (if s.bw.bits.toNat % 8 = 0 then [] else [s.bw.acc])) :
    t.readBytes s.bw.base.toNat (ceil8 s.bw.bits.toNat) = pack (writerBits s) := by
  obtain ⟨hin, hout⟩ := h
  apply List.ext_getElem
  · simp [writerBits_length]
  intro i hi _
  rw [State.readBytes_length] at hi
  have hbyte : t.readByte (s.bw.base.toNat + i) = packedByte (writerBits s) i := by
    rw [← writer_bytes ho hi]
    split
    next hfull => exact hout _ (.inl (by omega))
    next hpart =>
      unfold ceil8 at hi
      have hz : ¬ s.bw.bits.toNat % 8 = 0 := by omega
      obtain rfl : i = s.bw.bits.toNat / 8 := by omega
      simpa [hz] using hin 0 (by simp [hz])
  simpa [State.readBytes, pack] using hbyte

/-- Settles O18: the body stores the partial byte, and the writer's complete bytes and its partial byte are
the packed bits. -/
theorem bwFinishFlushesTheWriter : Obligations.BwFinishFlushesTheWriter := by
  intro s
  refine ⟨fun _ hok hactive => ?_, exec_noState rfl⟩
  refine ⟨bwFinishBody s, exec_pass (firstFailure_active hactive []), ?_, bwFinishBody_wrote s,
    (bwFinishBody_wrote s).readBytes_eq_pack hok⟩
  unfold bwFinishBody
  rw [State.flushPartial_eq]
  rfl

/-! ## BR_READBIT -/

theorem BitReader.readBit_of_lt {byteAt : Nat → Byte} {r : BitReader}
    (h : r.pos.toNat < 8 * r.bytes.toNat) :
    r.readBit byteAt
      = (some (bitAt byteAt r.base.toNat r.pos.toNat), { r with pos := r.pos + 1#32 }) :=
  if_neg (Nat.not_le.mpr h)

theorem BitReader.readBit_of_le {byteAt : Nat → Byte} {r : BitReader}
    (h : 8 * r.bytes.toNat ≤ r.pos.toNat) : r.readBit byteAt = (none, r) :=
  if_pos h

theorem brReadbitBody_of_lt {s : State} (h : s.br.pos.toNat < 8 * s.br.bytes.toNat) :
    brReadbitBody s = { s with
      result := if bitAt s.readByte s.br.base.toNat s.br.pos.toNat then 1#32 else 0#32
      br := { s.br with pos := s.br.pos + 1#32 }
      done := true, busy := false } := by
  unfold brReadbitBody
  rw [BitReader.readBit_of_lt h]
  cases bitAt s.readByte s.br.base.toNat s.br.pos.toNat <;> rfl

theorem brReadbitBody_of_le {s : State} (h : 8 * s.br.bytes.toNat ≤ s.br.pos.toNat) :
    brReadbitBody s = { s with result := 0xFFFFFFFF#32, done := true, busy := false } := by
  unfold brReadbitBody
  rw [BitReader.readBit_of_le h]
  rfl

/-- Settles O21: the two outcomes of ReadBit, and NO_STATE without a reader. -/
theorem brReadbitGivesTheNextBit : Obligations.BrReadbitGivesTheNextBit := by
  intro s
  have hrun : s.br.active = true → exec .brReadbit s = .next (brReadbitBody s) := fun hactive =>
    exec_pass (firstFailure_active hactive [])
  refine ⟨fun hactive hpos => ?_, fun hactive hpos => ?_, exec_noState rfl⟩
  · rw [hrun hactive, brReadbitBody_of_lt hpos]
    rfl
  · rw [hrun hactive, brReadbitBody_of_le hpos]

/-! ## BR_PEEK -/

/-- The number whose top `m` of `k` bits are `f 0, f 1, ..`, the others 0 (40_bitio.md R109: `v`). -/
def leftAligned (f : Nat → Bool) (m k : Nat) : Nat :=
  ((List.range m).map fun t => (f t).toNat <<< (k - 1 - t)).sum

theorem leftAligned_succ (f : Nat → Bool) (m k : Nat) :
    leftAligned f (m + 1) (k + 1) = 2 ^ k * (f 0).toNat + leftAligned (fun t => f (t + 1)) m k := by
  have hshift : (fun t => (f t).toNat <<< (k + 1 - 1 - t)) ∘ Nat.succ
      = fun t => (f (t + 1)).toNat <<< (k - 1 - t) := by
    funext t
    rw [Function.comp_apply, show k + 1 - 1 - t.succ = k - 1 - t by omega]
  rw [leftAligned, List.range_succ_eq_map, List.map_cons, List.map_map, hshift, List.sum_cons,
    Nat.shiftLeft_eq, Nat.mul_comm]
  rfl

/-- The first bit is the top one, and the others make a number below it. -/
theorem leftAligned_testBit (f : Nat → Bool) {m k : Nat} (hm : m ≤ k) (j : Nat) :
    (leftAligned f m k).testBit j = (decide (j < k) && decide (k - 1 - j < m) && f (k - 1 - j)) := by
  induction m generalizing f k j with
  | zero => simp [leftAligned]
  | succ m ih =>
    obtain ⟨k, rfl⟩ : ∃ k', k = k' + 1 := ⟨k - 1, by omega⟩
    have htail := ih (fun t => f (t + 1)) (Nat.le_of_succ_le_succ hm)
    have hlt : leftAligned (fun t => f (t + 1)) m k < 2 ^ k := Nat.lt_pow_two_of_testBit _ fun j hj => by
      simp [htail, Nat.not_lt.mpr hj]
    rw [leftAligned_succ, Nat.testBit_two_pow_mul_add _ hlt, htail]
    rcases lt_trichotomy j k with hj | rfl | hj
    · rw [show k + 1 - 1 - j = k - 1 - j + 1 by omega]
      simp [hj, hj.trans (Nat.lt_succ_self k)]
    · cases h0 : f 0 <;> simp [h0]
    · have hbit : (f 0).toNat.testBit (j - k) = false := Nat.testBit_lt_two_pow
        ((Bool.toNat_le _).trans_lt (Nat.one_lt_two_pow (by omega)))
      simp [hbit, Nat.not_lt.mpr hj.le, show ¬ j < k + 1 by omega]

theorem BitReader.peekCount_le (r : BitReader) (k : Nat) : r.peekCount k ≤ k := Nat.min_le_left _ _

/-- The bits of a peeked value (40_bitio.md R109). -/
theorem BitReader.peekValue_testBit (byteAt : Nat → Byte) (r : BitReader) (k j : Nat) :
    (r.peekValue byteAt k).testBit j
      = (decide (j < k) && decide (k - 1 - j < r.peekCount k)
          && bitAt byteAt r.base.toNat (r.pos.toNat + (k - 1 - j))) :=
  leftAligned_testBit (fun t => bitAt byteAt r.base.toNat (r.pos.toNat + t)) (r.peekCount_le k) j

theorem Params.peekMax_le {p : Params} (h : p.legal = true) : p.peekMax ≤ 32 := by
  simp only [Params.legal, Bool.and_eq_true, decide_eq_true_eq] at h
  exact h.2

theorem brPeekBody_peekn {s : State} {k : Nat} (hk : k ≤ 32) :
    (brPeekBody k s).peekn.toNat = s.br.peekCount k := by
  have hle := s.br.peekCount_le k
  exact Nat.mod_eq_of_lt (by omega)

theorem brPeekBody_result {s : State} {k : Nat} (hk : k ≤ 32) (j : Nat) :
    (brPeekBody k s).result.getLsbD j = (s.br.peekValue s.readByte k).testBit j := by
  show (BitVec.ofNat 32 _).getLsbD j = _
  rw [BitVec.getLsbD_ofNat, BitReader.peekValue_testBit]
  by_cases hj : j < k
  · simp [hj, Nat.lt_of_lt_of_le hj hk]
  · simp [hj]

/-- Settles O22: the value's bits are the stream's, and both its errors come from the checks. -/
theorem brPeekLooksAhead : Obligations.BrPeekLooksAhead := by
  intro s k hlegal _
  have hmax := Params.peekMax_le hlegal
  have hchecks : s.br.active = true → firstFailure (operandChecks (.brPeek k) s)
      = if s.params.peekMax < k then some { kind := .nbitsRange, info := k } else none :=
    fun hactive => (firstFailure_active hactive _).trans (firstFailure_checkNbits _ _)
  refine ⟨fun hactive hk => ?_, exec_noState rfl, fun hactive hk => ?_⟩
  · have hk32 : k ≤ 32 := hk.trans hmax
    refine ⟨brPeekBody k s, exec_pass ((hchecks hactive).trans (if_neg (by omega))), rfl,
      brPeekBody_peekn hk32, fun j => ?_⟩
    rw [brPeekBody_result hk32, brPeekBody_peekn hk32, BitReader.peekValue_testBit]
  · exact exec_fail ((hchecks hactive).trans (if_pos hk))

/-! ## BR_ASSERT -/

section
variable {byteAt : Nat → Byte} {r : BitReader} {hb : Nat}

/-- The first check of 40_bitio.md R110. -/
theorem BitReader.assertConsumed_of_pos_ne (h : r.pos.toNat ≠ hb) :
    r.assertConsumed byteAt hb = some { kind := .consumedMismatch, info := r.pos.toNat } :=
  if_pos h

theorem paddingPositions_getElem {i : Nat} (h : i < (paddingPositions hb).length) :
    (paddingPositions hb)[i] = hb + i := by
  simp [paddingPositions]

/-- The search of the second check of 40_bitio.md R110 finds the first position that satisfies `p`. -/
theorem find?_paddingPositions {p : Nat → Bool} {j : Nat} (hlo : hb ≤ j) (hhi : j < 8 * ceil8 hb)
    (hp : p j = true) (hfirst : ∀ k, hb ≤ k → k < j → p k = false) :
    (paddingPositions hb).find? p = some j := by
  have hlen : j - hb < (paddingPositions hb).length := by
    simp only [paddingPositions, List.length_map, List.length_range]
    omega
  refine List.find?_eq_some_iff_getElem.mpr ⟨hp, j - hb, hlen, ?_, fun k hk => ?_⟩
  · rw [paddingPositions_getElem]
    omega
  · rw [paddingPositions_getElem, hfirst (hb + k) (by omega) (by omega)]
    rfl

/-- The second check of 40_bitio.md R110. -/
theorem BitReader.assertConsumed_of_padding (hpos : r.pos.toNat = hb) {j : Nat}
    (hfind : (paddingPositions hb).find? (fun j => bitAt byteAt r.base.toNat j) = some j) :
    r.assertConsumed byteAt hb = some { kind := .nonzeroPadding, info := j } := by
  unfold BitReader.assertConsumed
  rw [if_neg (not_not.mpr hpos), hfind]

/-- The third check of 40_bitio.md R110. -/
theorem BitReader.assertConsumed_of_trailing (hpos : r.pos.toNat = hb)
    (hpad : (paddingPositions hb).find? (fun j => bitAt byteAt r.base.toNat j) = none)
    (hbytes : ceil8 hb < r.bytes.toNat) :
    r.assertConsumed byteAt hb = some { kind := .trailingBytes, info := r.bytes.toNat } := by
  unfold BitReader.assertConsumed
  rw [if_neg (not_not.mpr hpos), hpad]
  exact if_pos hbytes

end

theorem exec_brAssert {s : State} (hactive : s.br.active = true) :
    exec .brAssert s = .next (brAssertBody s) :=
  exec_pass (firstFailure_active hactive [])

/-- What BR_ASSERT answers when the assertion fails (40_bitio.md R111). -/
theorem exec_brAssert_error {s : State} {e : CmdError} (hactive : s.br.active = true)
    (h : s.br.assertConsumed s.readByte s.hbits.toNat = some e) :
    exec .brAssert s = .next (s.dropReading.raiseError e) := by
  rw [exec_brAssert hactive, brAssertBody, h]

theorem exec_brAssert_ok {s : State} (hactive : s.br.active = true)
    (h : s.br.assertConsumed s.readByte s.hbits.toNat = none) :
    exec .brAssert s = .next s.complete := by
  rw [exec_brAssert hactive, brAssertBody, h]

/-- Settles O23: one clause for each answer of AssertConsumed, and NO_STATE without a reader. -/
theorem brAssertMakesThreeChecks : Obligations.BrAssertMakesThreeChecks := by
  intro s hb padded dropped
  have hzero : (∀ j, ¬ padded j) → ∀ j, hb ≤ j → j < 8 * ceil8 hb →
      bitAt s.readByte s.br.base.toNat j = false := fun h j hlo hhi =>
    Bool.eq_false_iff.mpr fun hbit => h j ⟨hlo, hhi, hbit⟩
  refine ⟨exec_noState rfl, fun hactive hpos hpad hbytes => ?_, fun hactive hpos => ?_,
    fun j hactive hpos hj hfirst => ?_, fun hactive hpos hpad hbytes => ?_⟩
  · exact exec_brAssert_ok hactive
      (BitReader.assertConsumed_eq_none.mpr ⟨congrArg BitVec.toNat hpos, hzero hpad, hbytes⟩)
  · exact exec_brAssert_error hactive
      (BitReader.assertConsumed_of_pos_ne fun h => hpos (BitVec.eq_of_toNat_eq h))
  · obtain ⟨hlo, hhi, hbit⟩ := hj
    refine exec_brAssert_error hactive (BitReader.assertConsumed_of_padding (congrArg BitVec.toNat hpos)
      (find?_paddingPositions hlo hhi hbit fun k hk hkj => ?_))
    exact Bool.eq_false_iff.mpr fun h => hfirst k hkj ⟨hk, hkj.trans hhi, h⟩
  · refine exec_brAssert_error hactive
      (BitReader.assertConsumed_of_trailing (congrArg BitVec.toNat hpos) ?_ hbytes)
    refine List.find?_eq_none.mpr fun j hj => ?_
    obtain ⟨hlo, hhi⟩ := mem_paddingPositions.mp hj
    exact Bool.eq_false_iff.mp (hzero hpad j hlo hhi)

end Sys2Proof.Machine
end

-- Proofs of the statement about the Burrows-Wheeler transform (41_bwt.md).
section
/-! PROOFS. The round trip of 41_bwt.md R135. The rows are the sorted rotations; `L` holds their last
bytes. The map of R132 takes the row of a rotation to a row of the rotation that starts one byte earlier,
because bringing the last byte to the front sorts the rows by last byte first and keeps the order of those
that agree in it. So the walk from the row of the buffer emits the buffer from its end. -/

namespace Sys2Proof.Machine

/-! ## The order of 41_bwt.md R130 -/

/-- A byte list as the numbers it is compared by (41_bwt.md R130). -/
def rowKey (x : List Byte) : List Nat := x.map BitVec.toNat

theorem rowKey_injective : Function.Injective rowKey :=
  List.map_injective_iff.mpr BitVec.toNat_injective

@[simp] theorem rowKey_length (x : List Byte) : (rowKey x).length = x.length := List.length_map _

theorem lexLess_iff {x y : List Byte} : lexLess x y = true ↔ rowKey x < rowKey y := by
  induction x generalizing y with
  | nil => cases y <;> simp [lexLess, rowKey]
  | cons a as ih =>
    cases y with
    | nil => simp [lexLess, rowKey]
    | cons b bs =>
      rw [show rowKey (a :: as) < rowKey (b :: bs)
        ↔ a.toNat < b.toNat ∨ a.toNat = b.toNat ∧ rowKey as < rowKey bs from List.cons_lt_cons_iff]
      by_cases hab : a = b
      · simp [lexLess, hab, ih]
      · simp [lexLess, hab, BitVec.toNat_inj]

theorem rowKey_le_of_rotBefore {buf : List Byte} {i j : Nat} (h : rotBefore buf i j = true) :
    rowKey (rotation buf i) ≤ rowKey (rotation buf j) := by
  simp only [rotBefore, Bool.or_eq_true, Bool.and_eq_true, beq_iff_eq, lexLess_iff] at h
  obtain hlt | ⟨heq, -⟩ := h
  · exact hlt.le
  · exact (congrArg rowKey heq).le

theorem rowKey_le_of_not_rotBefore {buf : List Byte} {i j : Nat} (h : ¬ rotBefore buf i j = true) :
    rowKey (rotation buf j) ≤ rowKey (rotation buf i) := by
  simp only [rotBefore, Bool.or_eq_true, lexLess_iff, not_or] at h
  exact not_lt.mp h.1

/-- One insertion keeps the offsets sorted by their rotations. -/
theorem insertOffset_sorted (buf : List Byte) (i : Nat) {js : List Nat}
    (h : js.Pairwise fun j k => rowKey (rotation buf j) ≤ rowKey (rotation buf k)) :
    (insertOffset buf i js).Pairwise fun j k => rowKey (rotation buf j) ≤ rowKey (rotation buf k) := by
  induction js with
  | nil => exact List.pairwise_singleton _ _
  | cons j js ih =>
    obtain ⟨hj, hjs⟩ := List.pairwise_cons.mp h
    unfold insertOffset
    split
    next hij =>
      have hle := rowKey_le_of_rotBefore hij
      exact List.pairwise_cons.mpr
        ⟨List.forall_mem_cons.mpr ⟨hle, fun k hk => hle.trans (hj k hk)⟩, h⟩
    next hij =>
      refine List.pairwise_cons.mpr ⟨fun k hk => ?_, ih hjs⟩
      obtain rfl | hk := List.mem_cons.mp ((insertOffset_perm buf i js).mem_iff.mp hk)
      · exact rowKey_le_of_not_rotBefore hij
      · exact hj k hk

theorem sortedOffsets_sorted (buf : List Byte) :
    (sortedOffsets buf).Pairwise fun j k => rowKey (rotation buf j) ≤ rowKey (rotation buf k) := by
  unfold sortedOffsets
  induction List.range buf.length with
  | nil => exact List.Pairwise.nil
  | cons i is ih => exact insertOffset_sorted buf i ih

/-! ## The rows -/

/-- The sorted rotations, of which 41_bwt.md R131 takes the last bytes. -/
def sortedRows (buf : List Byte) : List (List Byte) := (sortedOffsets buf).map (rotation buf)

/-- The byte of a row that 41_bwt.md R131 puts into `L`. -/
def lastByte (x : List Byte) : Byte := x.getLastD 0#8

/-- A row with its last byte brought to the front: the rotation that starts one byte earlier. -/
def stepBack (x : List Byte) : List Byte := lastByte x :: x.dropLast

theorem dropLast_concat_lastByte {x : List Byte} (h : x ≠ []) : x.dropLast ++ [lastByte x] = x := by
  rw [lastByte, List.getLastD_eq_getLast?, List.getLast?_eq_some_getLast h]
  exact List.dropLast_append_getLast h

theorem stepBack_eq_rotate {x : List Byte} (h : x ≠ []) : stepBack x = x.rotate (x.length - 1) := by
  have e := List.rotate_append_length_eq x.dropLast [lastByte x]
  rw [dropLast_concat_lastByte h, List.length_dropLast] at e
  exact e.symm

theorem rotation_eq_rotate {buf : List Byte} {o : Nat} (h : o ≤ buf.length) :
    rotation buf o = buf.rotate o :=
  (List.rotate_eq_drop_append_take h).symm

theorem lastByte_rotation {buf : List Byte} {o : Nat} (h : o < buf.length) :
    lastByte (rotation buf o) = buf.getD ((o + buf.length - 1) % buf.length) 0#8 := by
  rw [rotation_eq_rotate h.le, lastByte, List.getLastD_eq_getLast?, List.getLast?_eq_getElem?,
    List.length_rotate, List.getElem?_rotate (by omega), List.getD_eq_getElem?_getD,
    show buf.length - 1 + o = o + buf.length - 1 by omega]

theorem bwtForward_fst (buf : List Byte) : (bwtForward buf).1 = (sortedRows buf).map lastByte := by
  rw [sortedRows, List.map_map]
  refine List.map_congr_left fun o ho => (lastByte_rotation ?_).symm
  exact List.mem_range.mp ((sortedOffsets_perm buf).mem_iff.mp ho)

theorem sortedRows_sorted (buf : List Byte) :
    (sortedRows buf).Pairwise fun x y => rowKey x ≤ rowKey y :=
  List.pairwise_map.mpr (sortedOffsets_sorted buf)

theorem sortedRows_perm {buf : List Byte} (h : buf ≠ []) :
    (sortedRows buf).Perm buf.cyclicPermutations := by
  have e : buf.cyclicPermutations = (List.range buf.length).map (rotation buf) := by
    refine List.ext_getElem (by simp [List.length_cyclicPermutations_of_ne_nil buf h]) fun o h1 h2 => ?_
    have ho : o < buf.length := by simpa using h2
    simp [List.getElem_cyclicPermutations, rotation_eq_rotate ho.le]
  rw [e]
  exact (sortedOffsets_perm buf).map _

theorem length_of_mem_sortedRows {buf x : List Byte} (h : buf ≠ []) (hx : x ∈ sortedRows buf) :
    x.length = buf.length :=
  List.length_mem_cyclicPermutations buf ((sortedRows_perm h).mem_iff.mp hx)

theorem ne_nil_of_mem_sortedRows {buf x : List Byte} (h : buf ≠ []) (hx : x ∈ sortedRows buf) :
    x ≠ [] :=
  List.ne_nil_of_length_pos ((length_of_mem_sortedRows h hx).symm ▸ List.length_pos_iff.mpr h)

/-- The rotations, each started one byte earlier, are the rotations. -/
theorem map_stepBack_sortedRows_perm {buf : List Byte} (h : buf ≠ []) :
    ((sortedRows buf).map stepBack).Perm (sortedRows buf) := by
  have e : (sortedRows buf).map stepBack = (sortedRows buf).map (·.rotate (buf.length - 1)) :=
    List.map_congr_left fun x hx => by
      rw [stepBack_eq_rotate (ne_nil_of_mem_sortedRows h hx), length_of_mem_sortedRows h hx]
  have c : buf.cyclicPermutations.map (·.rotate (buf.length - 1))
      = buf.cyclicPermutations.rotate (buf.length - 1) := by
    rw [← List.cyclicPermutations_rotate]
    refine List.ext_getElem ?_ fun o _ _ => ?_
    · simp [List.length_cyclicPermutations_of_ne_nil, h]
    · rw [List.getElem_map, List.getElem_cyclicPermutations, List.getElem_cyclicPermutations,
        List.rotate_rotate, List.rotate_rotate, Nat.add_comm]
  calc (sortedRows buf).map stepBack
      _ = (sortedRows buf).map (·.rotate (buf.length - 1)) := e
      List.Perm _ (buf.cyclicPermutations.map (·.rotate (buf.length - 1))) := (sortedRows_perm h).map _
      _ = buf.cyclicPermutations.rotate (buf.length - 1) := c
      List.Perm _ buf.cyclicPermutations := List.rotate_perm _ _
      List.Perm _ (sortedRows buf) := (sortedRows_perm h).symm

/-! ## The map of 41_bwt.md R132 on the rows -/

/-- In a sorted list of rows, the row at position `k` is found by counting. -/
theorem getElem?_of_countP_sorted {m : List (List Byte)} {x : List Byte} {k : Nat}
    (hm : m.Pairwise fun x y => rowKey x ≤ rowKey y) (hlo : m.countP (fun y => rowKey y < rowKey x) ≤ k)
    (hhi : k < m.countP fun y => rowKey y ≤ rowKey x) : m[k]? = some x := by
  induction m generalizing k with
  | nil => cases hhi
  | cons y m ih =>
    obtain ⟨hy, hm⟩ := List.pairwise_cons.mp hm
    obtain hlt | heq | hgt := lt_trichotomy (rowKey y) (rowKey x)
    · simp only [List.countP_cons, hlt, hlt.le, decide_true, if_true] at hlo hhi
      obtain ⟨k, rfl⟩ := Nat.exists_eq_add_one.mpr (Nat.lt_of_lt_of_le (Nat.succ_pos _) hlo)
      exact ih hm (by omega) (by omega)
    · obtain rfl := rowKey_injective heq
      cases k with
      | zero => rfl
      | succ k =>
        have hzero : m.countP (fun z => rowKey z < rowKey y) = 0 := List.countP_eq_zero.mpr fun z hz => by
          simpa using hy z hz
        simp only [List.countP_cons, le_refl, decide_true, if_true] at hhi
        exact ih hm (by omega) (by omega)
    · have hzero : (y :: m).countP (fun z => rowKey z ≤ rowKey x) = 0 := List.countP_eq_zero.mpr fun z hz => by
        obtain rfl | hz := List.mem_cons.mp hz
        · simpa using hgt
        · simpa using hgt.trans_le (hy z hz)
      omega

theorem countP_lt_add_count (bs : List Byte) (c : Byte) :
    bs.countP (fun b => b.toNat < c.toNat) + bs.count c = bs.countP fun b => b.toNat ≤ c.toNat := by
  induction bs with
  | nil => rfl
  | cons b bs ih =>
    simp only [List.countP_cons, List.count_cons, beq_iff_eq, ← ih, ← BitVec.toNat_inj]
    obtain hlt | heq | hgt := lt_trichotomy b.toNat c.toNat
    · simp [hlt, hlt.le, hlt.ne]
      omega
    · simp [heq]
      omega
    · simp [hgt.not_gt, hgt.not_ge, hgt.ne']

/-- Above the row the map counts equal bytes too, below it the smaller ones alone. -/
theorem lfMap_append_cons (as bs : List Byte) (c : Byte) :
    lfMap (as ++ c :: bs) as.length
      = as.countP (fun b => b.toNat ≤ c.toNat) + bs.countP fun b => b.toNat < c.toNat := by
  rw [← countP_lt_add_count]
  simp [lfMap]
  omega

theorem append_lt_append_of_length_eq {xs ys : List Nat} (hl : xs.length = ys.length) (h : xs < ys)
    (us vs : List Nat) : xs ++ us < ys ++ vs := by
  induction xs generalizing ys with
  | nil =>
    obtain rfl := List.length_eq_zero_iff.mp hl.symm
    exact absurd h (lt_irrefl _)
  | cons x xs ih =>
    obtain ⟨y, ys, rfl⟩ := List.exists_cons_of_length_eq_add_one hl.symm
    refine List.cons_lt_cons_iff.mpr ((List.cons_lt_cons_iff.mp h).imp_right fun ⟨hxy, hlt⟩ => ?_)
    exact ⟨hxy, ih (by simpa using hl) hlt⟩

/-- Rows with the last byte in front compare by that byte, and where it is the same, as the rows do. -/
theorem lt_of_stepBack_lt {x y : List Byte} (hl : x.length = y.length) (hx : x ≠ []) (hy : y ≠ [])
    (h : rowKey (stepBack x) < rowKey (stepBack y)) :
    (lastByte x).toNat < (lastByte y).toNat
      ∨ (lastByte x).toNat = (lastByte y).toNat ∧ rowKey x < rowKey y := by
  refine (List.cons_lt_cons_iff.mp h).imp_right fun ⟨hlast, hlt⟩ => ⟨hlast, ?_⟩
  have := append_lt_append_of_length_eq (by simp [hl]) hlt (rowKey [lastByte x]) (rowKey [lastByte y])
  rw [← dropLast_concat_lastByte hx, ← dropLast_concat_lastByte hy]
  simpa [rowKey] using this

theorem lt_of_stepBack_lt_sortedRows {buf x y : List Byte} (hbuf : buf ≠ []) (hx : x ∈ sortedRows buf)
    (hy : y ∈ sortedRows buf) (h : rowKey (stepBack x) < rowKey (stepBack y)) :
    (lastByte x).toNat < (lastByte y).toNat
      ∨ (lastByte x).toNat = (lastByte y).toNat ∧ rowKey x < rowKey y :=
  lt_of_stepBack_lt
    ((length_of_mem_sortedRows hbuf hx).trans (length_of_mem_sortedRows hbuf hy).symm)
    (ne_nil_of_mem_sortedRows hbuf hx) (ne_nil_of_mem_sortedRows hbuf hy) h

section
variable {buf x : List Byte} {above below : List (List Byte)}

theorem countP_sortedRows (hbuf : buf ≠ []) (h : sortedRows buf = above ++ x :: below)
    (p : List Byte → Bool) :
    (sortedRows buf).countP p = above.countP (fun y => p (stepBack y))
      + (below.countP (fun y => p (stepBack y)) + if p (stepBack x) then 1 else 0) := by
  rw [← (map_stepBack_sortedRows_perm hbuf).countP_eq, h, List.countP_map, List.countP_append,
    List.countP_cons]
  rfl

theorem lfMap_above_length (h : sortedRows buf = above ++ x :: below) :
    lfMap (bwtForward buf).1 above.length
      = above.countP (fun y => (lastByte y).toNat ≤ (lastByte x).toNat)
        + below.countP fun y => (lastByte y).toNat < (lastByte x).toNat := by
  have := lfMap_append_cons (above.map lastByte) (below.map lastByte) (lastByte x)
  rw [bwtForward_fst, h]
  simpa [List.countP_map, Function.comp_def] using this

/-- No more rows precede the stepped row than the map counts: such a row has a smaller last byte, or the
same one and stands above. -/
theorem countP_lt_stepBack_le (hbuf : buf ≠ []) (h : sortedRows buf = above ++ x :: below) :
    (sortedRows buf).countP (fun y => rowKey y < rowKey (stepBack x))
      ≤ lfMap (bwtForward buf).1 above.length := by
  obtain ⟨-, hbelow, -⟩ := List.pairwise_append.mp (h ▸ sortedRows_sorted buf)
  have hx : x ∈ sortedRows buf := by simp [h]
  rw [countP_sortedRows hbuf h, lfMap_above_length h]
  simp only [lt_irrefl, decide_false, Bool.false_eq_true, if_false, Nat.add_zero]
  refine Nat.add_le_add (List.countP_mono_left fun y hy hlt => ?_)
    (List.countP_mono_left fun y hy hlt => ?_)
  · have hmem : y ∈ sortedRows buf := by simp [h, hy]
    have := lt_of_stepBack_lt_sortedRows hbuf hmem hx (of_decide_eq_true hlt)
    exact decide_eq_true (by omega)
  · have hmem : y ∈ sortedRows buf := by simp [h, hy]
    have hle := List.rel_of_pairwise_cons hbelow hy
    obtain hlast | ⟨-, hkey⟩ := lt_of_stepBack_lt_sortedRows hbuf hmem hx (of_decide_eq_true hlt)
    · exact decide_eq_true hlast
    · exact absurd hle hkey.not_ge

/-- The rows the map counts, and the stepped row itself, do not come after the stepped row. -/
theorem lt_countP_le_stepBack (hbuf : buf ≠ []) (h : sortedRows buf = above ++ x :: below) :
    lfMap (bwtForward buf).1 above.length
      < (sortedRows buf).countP fun y => rowKey y ≤ rowKey (stepBack x) := by
  obtain ⟨-, -, habove⟩ := List.pairwise_append.mp (h ▸ sortedRows_sorted buf)
  have hx : x ∈ sortedRows buf := by simp [h]
  rw [countP_sortedRows hbuf h, lfMap_above_length h]
  simp only [le_refl, decide_true, if_true, ← Nat.add_assoc, Nat.lt_succ_iff]
  refine Nat.add_le_add (List.countP_mono_left fun y hy hlast => ?_)
    (List.countP_mono_left fun y hy hlast => ?_)
  · have hmem : y ∈ sortedRows buf := by simp [h, hy]
    have hle := habove y hy x List.mem_cons_self
    refine decide_eq_true (not_lt.mp fun hlt => ?_)
    obtain hlast' | ⟨-, hkey⟩ := lt_of_stepBack_lt_sortedRows hbuf hx hmem hlt
    · exact absurd (of_decide_eq_true hlast) hlast'.not_ge
    · exact absurd hle hkey.not_ge
  · have hmem : y ∈ sortedRows buf := by simp [h, hy]
    refine decide_eq_true (not_lt.mp fun hlt => ?_)
    have hlast := of_decide_eq_true hlast
    have := lt_of_stepBack_lt_sortedRows hbuf hx hmem hlt
    omega

end

/-- The map of 41_bwt.md R132 goes from a row to a row of the rotation one byte earlier. -/
theorem sortedRows_lfMap {buf x : List Byte} {i : Nat} (hbuf : buf ≠ [])
    (hx : (sortedRows buf)[i]? = some x) :
    (sortedRows buf)[lfMap (bwtForward buf).1 i]? = some (stepBack x) := by
  obtain ⟨hi, rfl⟩ := List.getElem?_eq_some_iff.mp hx
  have h : sortedRows buf
      = (sortedRows buf).take i ++ (sortedRows buf)[i] :: (sortedRows buf).drop (i + 1) := by
    rw [← List.drop_eq_getElem_cons hi, List.take_append_drop]
  have hlen := List.length_take_of_le hi.le
  have hlo := countP_lt_stepBack_le hbuf h
  have hhi := lt_countP_le_stepBack hbuf h
  rw [hlen] at hlo hhi
  exact getElem?_of_countP_sorted (sortedRows_sorted buf) hlo hhi

/-! ## The walk of 41_bwt.md R132 -/

theorem lastByte_eq_bwtForward {buf x : List Byte} {i : Nat} (hx : (sortedRows buf)[i]? = some x) :
    (bwtForward buf).1.getD i 0#8 = lastByte x := by
  simp [bwtForward_fst, hx]

/-- From a row the walk emits the row from its end. -/
theorem lfWalk_of_row {buf x : List Byte} {steps i : Nat} (out : List Byte) (hbuf : buf ≠ [])
    (hx : (sortedRows buf)[i]? = some x) (hsteps : steps ≤ buf.length) :
    lfWalk (bwtForward buf).1 steps i out = x.drop (buf.length - steps) ++ out := by
  induction steps generalizing i x out with
  | zero => simp [lfWalk, ← length_of_mem_sortedRows hbuf (List.mem_of_getElem? hx)]
  | succ steps ih =>
    have hmem := List.mem_of_getElem? hx
    have hlen := length_of_mem_sortedRows hbuf hmem
    have hlast := dropLast_concat_lastByte (ne_nil_of_mem_sortedRows hbuf hmem)
    calc lfWalk (bwtForward buf).1 (steps + 1) i out
        _ = lfWalk (bwtForward buf).1 steps (lfMap (bwtForward buf).1 i) (lastByte x :: out) := by
          rw [lfWalk, lastByte_eq_bwtForward hx]
        _ = (stepBack x).drop (buf.length - steps) ++ lastByte x :: out :=
          ih _ (sortedRows_lfMap hbuf hx) (by omega)
        _ = (x.dropLast.drop (buf.length - (steps + 1)) ++ [lastByte x]) ++ out := by
          rw [show buf.length - steps = buf.length - (steps + 1) + 1 by omega]
          simp [stepBack]
        _ = x.drop (buf.length - (steps + 1)) ++ out := by
          conv_rhs => rw [← hlast]
          rw [List.drop_append_of_le_length (by simp; omega)]

/-- Row PI is the buffer (41_bwt.md R131). -/
theorem sortedRows_pi {buf : List Byte} (h : buf ≠ []) :
    (sortedRows buf)[(bwtForward buf).2]? = some buf := by
  have hlt : (bwtForward buf).2 < (sortedOffsets buf).length :=
    (bwtForward_pi_lt (List.length_pos_iff.mpr h)).trans_eq (sortedOffsets_length buf).symm
  have hzero : (sortedOffsets buf)[(bwtForward buf).2]? = some 0 := by
    rw [List.getElem?_eq_getElem hlt]
    exact congrArg some (List.getElem_idxOf hlt)
  simp [sortedRows, hzero, rotation]

/-- Settles O27: the walk starts at the row of the buffer and emits that row. -/
theorem bwtInverseUndoesForward : Obligations.BwtInverseUndoesForward := by
  intro buf
  by_cases h : buf = []
  · rw [h, bwtForward_nil]
    rfl
  · rw [bwtInverse, bwtForward_length, lfWalk_of_row [] h (sortedRows_pi h) le_rfl]
    simp

end Sys2Proof.Machine
end

-- Proofs of the statements about the Huffman tables (44_huffman.md).
section
/-! PROOFS. The statements about HUF_HIST and HUF_BUILD (44_huffman.md): the histogram, and that the model's
merge makes the lengths that the rules describe. -/

namespace Sys2Proof.Machine

/-! ## HUF_HIST -/

/-- A count of source bytes fits a register. -/
theorem hufHistBody_freq (s : State) (x : Byte) :
    (entry (hufHistBody s).freq x).toNat = s.source.count x := by
  have hcount : s.source.count x < 2 ^ 32 :=
    (List.count_le_length.trans_eq s.source_length).trans_lt s.slen.isLt
  have hfreq : (hufHistBody s).freq = tabulate fun x => BitVec.ofNat 32 (entry (histogram s.source) x) := rfl
  rw [hfreq, entry_tabulate, histogram, entry_tabulate, BitVec.toNat_ofNat, Nat.mod_eq_of_lt hcount]

/-- Settles O32: the one check is that the source region is in MEM, and the body writes FREQ alone. -/
theorem hufHistCountsTheSource : Obligations.HufHistCountsTheSource := fun s =>
  ⟨fun h => ⟨hufHistBody s, exec_pass ((firstFailure_checkSource s).trans (if_pos h)), rfl,
      hufHistBody_freq s⟩,
    fun h => exec_fail (i := .hufHist) (e := { kind := .range, info := 1 })
      ((firstFailure_checkSource s).trans (if_neg h))⟩

/-! ## The merge of 44_huffman.md R182 -/

/-- Live nodes have distinct keys, and each symbol stands below at most one of them. -/
def Separate (live : List Node) : Prop :=
  (live.map Node.key).Nodup ∧ (live.flatMap Node.members).Nodup

theorem Separate.perm {live live' : List Node} (h : Separate live) (p : live.Perm live') : Separate live' :=
  ⟨(p.map _).nodup_iff.mp h.1, (p.flatMap_right _).nodup_iff.mp h.2⟩

theorem Separate.tail {a : Node} {live : List Node} (h : Separate (a :: live)) : Separate live :=
  ⟨(List.nodup_cons.mp h.1).2, (List.nodup_append.mp h.2).2.1⟩

theorem Separate.members_nodup {a : Node} {live : List Node} (h : Separate (a :: live)) : a.members.Nodup :=
  (List.nodup_append.mp h.2).1

theorem Node.merge_key (a b : Node) : (a.merge b).key = a.key ∨ (a.merge b).key = b.key :=
  ite_eq_or_eq _ _ _

/-- The merged node keeps one of the two keys and the symbols of both nodes. -/
theorem Separate.merge {a b : Node} {rest : List Node} (h : Separate (a :: b :: rest)) :
    Separate (a.merge b :: rest) := by
  obtain ⟨hkeys, hmembers⟩ := h
  simp only [List.map_cons, List.nodup_cons, List.mem_cons, not_or] at hkeys
  obtain ⟨⟨-, ha⟩, hb, hrest⟩ := hkeys
  refine ⟨List.nodup_cons.mpr ⟨?_, hrest⟩, ?_⟩
  · rcases a.merge_key b with hk | hk <;> rwa [hk]
  · simpa [Node.merge] using hmembers

/-- The node that is taken is the smallest by `(weight, key)`. -/
theorem Separate.popMin_spec {n a : Node} {ns rest : List Node} (h : Separate (n :: ns))
    (hpop : popMin n ns = (a, rest)) : (n :: ns).Perm (a :: rest) ∧ ∀ x ∈ rest, PairLess a x := by
  have hperm := popMin_perm n ns
  have hbefore := popMin_before n ns h.1
  rw [hpop] at hperm hbefore
  exact ⟨hperm.symm, fun x hx => Node.before_iff.mp (hbefore x hx)⟩

/-- The lengths after a turn of the loop, as `MergeRun` words them. -/
theorem entry_lengthen_eq {members : List Byte} (h : members.Nodup) (len : Table Nat) :
    entry (lengthen len members) = fun x => if x ∈ members then entry len x + 1 else entry len x := by
  funext x
  rw [entry_lengthen h, add_ite]
  rfl

theorem mergeNodes_singleton (k : Nat) (n : Node) (len : Table Nat) : mergeNodes k [n] len = len := by
  cases k <;> rfl

/-- One turn of the loop of 44_huffman.md R182, where two nodes live. -/
theorem mergeNodes_cons {n m a b : Node} {ns ms rest : List Node} (hfirst : popMin n ns = (a, m :: ms))
    (hsecond : popMin m ms = (b, rest)) (k : Nat) (len : Table Nat) :
    mergeNodes (k + 1) (n :: ns) len
      = mergeNodes k (a.merge b :: rest) (lengthen len (a.merge b).members) := by
  simp only [mergeNodes, hfirst, hsecond]

/-- The model's loop is a run of the rule's, if it may turn often enough. -/
theorem mergeRun_mergeNodes (k : Nat) (n : Node) (ns : List Node) (len : Table Nat) (hk : ns.length ≤ k)
    (h : Separate (n :: ns)) : MergeRun (n :: ns) (entry len) (entry (mergeNodes k (n :: ns) len)) := by
  induction k generalizing n ns len with
  | zero =>
    obtain rfl := List.length_eq_zero_iff.mp (Nat.le_zero.mp hk)
    exact .done _ _
  | succ k ih =>
    rcases hfirst : popMin n ns with ⟨a, others⟩
    obtain ⟨hperm, ha⟩ := h.popMin_spec hfirst
    cases others with
    | nil =>
      obtain rfl : ns = [] := by simpa using hperm.length_eq
      rw [mergeNodes_singleton]
      exact .done _ _
    | cons m ms =>
      rcases hsecond : popMin m ms with ⟨b, rest⟩
      obtain ⟨hperm', hb⟩ := (h.perm hperm).tail.popMin_spec hsecond
      have hsplit : (n :: ns).Perm (a :: b :: rest) := hperm.trans (hperm'.cons a)
      have hmerge := (h.perm hsplit).merge
      have hlen : rest.length ≤ k := by
        have := hsplit.length_eq
        simp only [List.length_cons] at this
        omega
      have hmore := ih (a.merge b) rest (lengthen len (a.merge b).members) hlen hmerge
      rw [entry_lengthen_eq hmerge.members_nodup] at hmore
      rw [mergeNodes_cons hfirst hsecond]
      exact .merge hsplit (fun x hx => ha x (hperm'.mem_iff.mpr hx)) hb hmore

/-- The nodes the merge starts from: one for each present symbol (44_huffman.md R182). -/
theorem separate_leaves (f : Byte → Nat) {ps : List Byte} (h : ps.Nodup) :
    Separate (ps.map fun x => { weight := f x, key := x, members := [x] }) := by
  constructor
  · simpa [Function.comp_def] using h
  · simpa [List.flatMap_map] using h

/-- `BuildLengths` computes what 44_huffman.md R182 describes, for every frequency table. -/
theorem builtAs_treeLengths (f : Table Nat) : BuiltAs (entry f) (entry (treeLengths f)) := by
  have hnodup : (symbols.filter fun x => 0 < entry f x).Nodup := symbols_nodup.filter _
  unfold BuiltAs treeLengths
  dsimp only
  split
  next hnil => simp [hnil]
  next p hone => simp [hone]
  next hnotNil hnotOne =>
    refine ⟨fun hnil => absurd hnil hnotNil, fun p hone => absurd hone (hnotOne p), fun _ => ?_⟩
    generalize (symbols.filter fun x => 0 < entry f x) = ps at hnodup hnotNil
    obtain ⟨p, ps, rfl⟩ := List.exists_cons_of_ne_nil hnotNil
    have hrun := mergeRun_mergeNodes (p :: ps).length _ _ (tabulate fun _ => 0) (by simp)
      (separate_leaves (entry f) hnodup)
    have hzero : entry (tabulate fun _ => 0) = fun _ => 0 := funext (entry_tabulate _)
    rwa [hzero] at hrun

/-! ## The two fallbacks -/

theorem BuiltAs.of_all_zero {f len : Byte → Nat} (h : BuiltAs f len) (hf : ∀ x, f x = 0) (x : Byte) :
    len x = if x = 0#8 then 1 else 0 :=
  h.1 (by simp [hf]) x

theorem BuiltAs.of_single {f len : Byte → Nat} (h : BuiltAs f len) {p : Byte} (hp : f p ≠ 0)
    (hf : ∀ x, x ≠ p → f x = 0) (x : Byte) : len x = if x = p then 1 else 0 := by
  have hpresent : (fun x => decide (0 < f x)) = fun x => decide (x = p) := by
    funext y
    by_cases hy : y = p
    · simp [hy, Nat.pos_of_ne_zero hp]
    · simp [hy, hf y hy]
  refine h.2.1 p ?_ x
  rw [hpresent, List.filter_eq, List.count_eq_one_of_mem symbols_nodup (mem_symbols p)]
  rfl

/-! ## HUF_BUILD -/

theorem buildLengths_of_le {m : Nat} {f : Table Nat} (h : maxEntry (treeLengths f) ≤ m) :
    buildLengths m f = .ok (tabulate fun x => BitVec.ofNat 8 (entry (treeLengths f) x)) :=
  if_neg (Nat.not_lt.mpr h)

theorem buildLengths_of_lt {m : Nat} {f : Table Nat} (h : m < maxEntry (treeLengths f)) :
    buildLengths m f = .error { kind := .codeTooLong, info := maxEntry (treeLengths f) } :=
  if_pos h

theorem hufBuildBody_of_ok {s : State} {l : Table Byte}
    (h : buildLengths s.params.maxCodeLen (tabulate fun x => (entry s.freq x).toNat) = .ok l) :
    hufBuildBody s
      = { s with len := l, canonValid := false, decValid := false, done := true, busy := false } := by
  unfold hufBuildBody
  simp only [State.dropDecoder_params, State.dropDecoder_freq, h]
  rfl

theorem hufBuildBody_of_error {s : State} {e : CmdError}
    (h : buildLengths s.params.maxCodeLen (tabulate fun x => (entry s.freq x).toNat) = .error e) :
    hufBuildBody s = ({ s with canonValid := false, decValid := false } : State).raiseError e := by
  unfold hufBuildBody
  simp only [State.dropDecoder_params, State.dropDecoder_freq, h]
  rfl

theorem exec_hufBuild (s : State) : exec .hufBuild s = .next (hufBuildBody s) := exec_pass rfl

theorem Params.maxCodeLen_le {p : Params} (h : p.legal = true) : p.maxCodeLen ≤ 32 := by
  simp only [Params.legal, Bool.and_eq_true, decide_eq_true_eq] at h
  omega

/-- A length that is not above the limit fits LEN. -/
theorem toNat_ofNat_entry {p : Params} {t : Table Nat} (hp : p.legal = true) (h : maxEntry t ≤ p.maxCodeLen)
    (x : Byte) : (BitVec.ofNat 8 (entry t x)).toNat = entry t x := by
  have := entry_le_maxEntry t x
  have := Params.maxCodeLen_le hp
  exact Nat.mod_eq_of_lt (by omega)

/-- Settles O33: the body's two outcomes, and what the merge and its fallbacks make of FREQ. -/
theorem hufBuildWritesTheLengths : Obligations.HufBuildWritesTheLengths := by
  intro s hlegal f
  have hbuilt : BuiltAs (fun x => (entry s.freq x).toNat) (entry (treeLengths f)) := by
    have hf : entry f = fun x => (entry s.freq x).toNat := funext fun x => entry_tabulate _ x
    exact hf ▸ builtAs_treeLengths f
  refine ⟨fun hle => ?_, fun hlt => ?_, hbuilt, entry_le_maxEntry _, exists_entry_eq_maxEntry _,
    fun hzero => ?_, fun p hp hzero => ?_⟩
  · refine ⟨_, exec_hufBuild s, ?_⟩
    rw [hufBuildBody_of_ok (buildLengths_of_le hle)]
    exact ⟨rfl, fun x => by rw [entry_tabulate, toNat_ofNat_entry hlegal hle]⟩
  · rw [exec_hufBuild, hufBuildBody_of_error (buildLengths_of_lt hlt)]
    rfl
  · exact hbuilt.of_all_zero fun x => by rw [hzero]; rfl
  · exact hbuilt.of_single (fun h => hp (BitVec.eq_of_toNat_eq h)) fun x hx => by rw [hzero x hx]; rfl

end Sys2Proof.Machine
end

-- Proofs of the statements about NOP and the host's writes (46_control.md).
section
/-! PROOFS. The statements about NOP and the host's writes to the control registers, the operand registers
and the tables (46_control.md): what a write does at its target, idle and busy, and the settled
obligations. -/

namespace Sys2Proof.Machine

/-! ## A host write at its target -/

/-- A host write to a register is answered, and does what the register's rule says (46_control.md R246 to
R249). -/
theorem State.busWrite_reg (s : State) (r : Reg) (v : Word) :
    s.busWrite r.offset .word v = (s.writeReg r v).reply .written := by
  unfold State.busWrite
  rw [busTarget_reg]

theorem State.busWrite_freq (s : State) (x : Byte) (v : Word) :
    s.busWrite (0x400 + 4 * x.toNat) .word v = (s.writeFreq x v).reply .written := by
  unfold State.busWrite
  rw [busTarget_freq]

theorem State.busWrite_len (s : State) (x : Byte) (v : Word) :
    s.busWrite (0x800 + 4 * x.toNat) .word v = (s.writeLen x v).reply .written := by
  unfold State.busWrite
  rw [busTarget_len]

/-- CODE is read-only (46_control.md R249). -/
theorem State.busWrite_code (s : State) (x : Byte) (v : Word) :
    s.busWrite (0xC00 + 4 * x.toNat) .word v = s.reply .written := by
  unfold State.busWrite
  rw [busTarget_code]

/-- The step of a host whose next action is a write to a register. -/
theorem step_write_reg {s : State} (r : Reg) {v : Word} {rest : List HostAction} (h : s.inReset = false)
    (hp : s.pending = .write r.offset .word v :: rest) :
    step s = .next (({ s with pending := rest }.writeReg r v).reply .written) := by
  rw [step_write h hp, State.busWrite_reg]

/-! ## Writes that take effect while idle only (20_memory.md R69) -/

theorem State.whileIdle_of_idle {s : State} (f : State → State) (h : s.busy = false) :
    s.whileIdle f = f s := by simp [State.whileIdle, h]

theorem State.whileIdle_of_busy {s : State} (f : State → State) (h : s.busy = true) :
    s.whileIdle f = s.overrun := by simp [State.whileIdle, h]

/-! ## CMD and NOP -/

/-- With nothing left for the host to do, a command in flight takes its engine step. -/
theorem step_engine {s : State} (h : s.inReset = false) (hp : s.pending = []) (hb : s.busy = true) :
    step s = engineStep s := by simp [step, h, hp, hb]

theorem engineStep_of_decode {s : State} {i : Instr} (h : decode s.cur = .ok i) :
    engineStep s = exec i s := by simp [engineStep, h]

theorem State.writeCmd_eq_whileIdle (s : State) (w : Word) : s.writeCmd w = s.whileIdle (State.accept w) := rfl

/-- The step of an idle block whose host writes CMD is the acceptance of the word. -/
theorem step_accept {s : State} {w : Word} {rest : List HostAction} (h : s.inReset = false)
    (hb : s.busy = false) (hp : s.pending = .write 0x014 .word w :: rest) :
    step s = .next (({ s with pending := rest }.accept w).reply .written) := by
  rw [step_write_reg .cmd h hp, State.writeReg, State.writeCmd_eq_whileIdle,
    State.whileIdle_of_idle (s := { s with pending := rest }) _ hb]

/-- Settles O48: the write to CMD is an acceptance while idle and an overrun while busy. -/
theorem hostWriteOfCmdStartsACommand : Obligations.HostWriteOfCmdStartsACommand := by
  intro s w rest hreset hp
  split
  case isTrue hb =>
    rw [step_write_reg .cmd hreset hp, State.writeReg, State.writeCmd_eq_whileIdle,
      State.whileIdle_of_busy (s := { s with pending := rest }) _ hb]
    rfl
  case isFalse hb => exact step_accept hreset (Bool.eq_false_iff.mpr hb) hp

theorem decode_zero : decode 0x00000000#32 = .ok .nop := rfl

/-- NOP has no checks, and its body is the successful end of a command (46_control.md R245). -/
theorem exec_nop (s : State) : exec .nop s = .next s.complete := exec_pass rfl

/-- With nothing left for the host to do, the word 0 in flight completes. -/
theorem step_nop {s : State} (h : s.inReset = false) (hp : s.pending = []) (hb : s.busy = true)
    (hc : s.cur = 0#32) : step s = .next s.complete := by
  rw [step_engine h hp hb, engineStep_of_decode (hc ▸ decode_zero), exec_nop]

/-- Settles O14: the accepted word 0 is NOP, whose engine step completes it; acceptance has cleared the
report. -/
theorem nopOnlyCompletes : Obligations.NopOnlyCompletes := by
  refine ⟨decode_zero, exec_nop, fun s hreset hb hp => ?_⟩
  let t := ({ s with pending := [] }.accept 0#32).reply .written
  refine ⟨t, step_accept hreset hb hp, (step_nop (s := t) hreset rfl rfl rfl).trans ?_⟩
  simp only [t, State.complete, State.reply, State.accept, hb]

/-! ## CTRL and STATUS -/

theorem State.writeCtrl_reset {s : State} {v : Word} (hv : v.getLsbD 1 = true) (hb : s.busy = false) :
    s.writeCtrl v = s.softReset := by
  simp only [State.writeCtrl, hv, hb, Bool.not_false, Bool.and_true, if_true]

/-- Where no soft reset is made, the write to CTRL sets IE, and OVR if it asked for one. -/
theorem State.writeCtrl_ie {s : State} {v : Word} (h : v.getLsbD 1 = false ∨ s.busy = true) :
    s.writeCtrl v = { s with ie := v.getLsbD 0, ovr := s.ovr || v.getLsbD 1 } := by
  cases hv : v.getLsbD 1 with
  | false =>
    simp only [State.writeCtrl, hv, Bool.false_and, Bool.false_eq_true, if_false, Bool.or_false]
  | true =>
    rw [hv] at h
    have hb := h.resolve_left nofun
    simp only [State.writeCtrl, hv, hb, Bool.not_true, Bool.and_false, Bool.false_eq_true, if_false,
      if_true, Bool.or_true]
    rfl

/-- Settles O49: a soft reset keeps the stored bytes and the power-on number, so every byte of MEM. -/
theorem hostWriteOfCtrlResetsOrSetsIe : Obligations.HostWriteOfCtrlResetsOrSetsIe := by
  intro s v rest hreset hp
  refine ⟨_, step_write_reg .ctrl hreset hp, fun hv hb => ?_, fun h => ?_⟩ <;> rw [State.writeReg]
  · rw [State.writeCtrl_reset (s := { s with pending := rest }) hv hb]
    exact ⟨State.readByte_congr rfl rfl, rfl⟩
  · rw [State.writeCtrl_ie (s := { s with pending := rest }) h]
    rfl

/-- Settles O50: the write to STATUS is `clearStatus` in every state. -/
theorem hostWriteOfStatusClearsFlags : Obligations.HostWriteOfStatusClearsFlags :=
  fun _ _ _ hreset hp => step_write_reg .status hreset hp

/-! ## Operand registers and read-only registers -/

/-- The operand register `r` holds `v`; any other register is left alone (46_control.md R249). -/
def State.setOperand (r : Reg) (v : Word) (s : State) : State :=
  match r with
  | .src => { s with src := v }
  | .slen => { s with slen := v }
  | .dst => { s with dst := v }
  | .dcap => { s with dcap := v }
  | .pi => { s with pi := v }
  | .nlen => { s with nlen := v }
  | .hbits => { s with hbits := v }
  | .rlelen => { s with rlelen := v }
  | .bwcode => { s with bwcode := v }
  | _ => s

/-- The host writes an operand register while idle. -/
theorem State.writeReg_operand {r : Reg} (h : isOperand r = true) (v : Word) (s : State) :
    s.writeReg r v = s.whileIdle (State.setOperand r v) := by
  cases r <;> cases h <;> rfl

theorem State.writeReg_readOnly {r : Reg} (h : isReadOnly r = true) (v : Word) (s : State) :
    s.writeReg r v = s := by
  cases r <;> cases h <;> rfl

/-- No register shows the model's own record of replies. -/
@[simp] theorem State.reply_regValue (s : State) (b : BusReply) : (s.reply b).regValue = s.regValue := by
  funext r
  cases r <;> rfl

/-- An operand register is a place of its own: no other register shows what it holds. -/
theorem State.setOperand_regValue {r : Reg} (h : isOperand r = true) (v : Word) (s : State) :
    (s.setOperand r v).regValue = Function.update s.regValue r v := by
  funext r'
  cases r <;> cases h <;> cases r' <;> rfl

/-- What `setOperand` leaves alone: all but the operand registers. -/
theorem State.setOperand_frame (r : Reg) (v : Word) (s : State) :
    s.setOperand r v = { s with
      src := (s.setOperand r v).src, slen := (s.setOperand r v).slen
      dst := (s.setOperand r v).dst, dcap := (s.setOperand r v).dcap
      pi := (s.setOperand r v).pi, nlen := (s.setOperand r v).nlen
      hbits := (s.setOperand r v).hbits, rlelen := (s.setOperand r v).rlelen
      bwcode := (s.setOperand r v).bwcode } := by
  cases r <;> rfl

/-- Settles O51: while idle the write is `setOperand`, while busy an overrun; a read-only register and CODE
have nothing that a write changes. -/
theorem hostWriteOfRegisterIsReadBack : Obligations.HostWriteOfRegisterIsReadBack := by
  intro s r v _
  rw [State.busWrite_reg]
  refine ⟨fun hr hb => ?_, fun hr hb => ?_, fun hr => ?_, fun x => s.busWrite_code x v⟩
  · rw [State.writeReg_operand hr, State.whileIdle_of_idle _ hb, State.reply_regValue,
      State.setOperand_regValue hr]
    refine ⟨Function.update_self .., fun r' hne => Function.update_of_ne hne .., ?_⟩
    exact congrArg (State.reply .written) (s.setOperand_frame r v)
  · rw [State.writeReg_operand hr, State.whileIdle_of_busy _ hb]
    rfl
  · rw [State.writeReg_readOnly hr]

/-! ## FREQ and LEN -/

/-- Settles O53: the entries of FREQ and LEN are written while idle and not while busy. -/
theorem hostWritesOfTables : Obligations.HostWritesOfTables := by
  intro s x v
  rw [State.busWrite_freq, State.busWrite_len, State.writeFreq, State.writeLen]
  refine ⟨fun hb => ?_, fun hb => ?_⟩
  · rw [State.whileIdle_of_idle _ hb, State.whileIdle_of_idle _ hb]
    exact ⟨rfl, rfl⟩
  · rw [State.whileIdle_of_busy _ hb, State.whileIdle_of_busy _ hb]
    exact ⟨rfl, rfl⟩

end Sys2Proof.Machine
end

-- Proofs of the statements about the command word (30_encoding.md sections 1 and 2).
section
/-! PROOFS. The command word (30_encoding.md R80 to R83): the decoder reads back the fields that the encoder
wrote, and which words it accepts. -/

namespace Sys2Proof

/-! ## The fields of a word -/

theorem opcField_toNat (w : Word) : (opcField w).toNat = w.toNat % 256 := by
  simp [opcField, BitVec.extractLsb'_toNat]

theorem immField_toNat (w : Word) : (immField w).toNat = w.toNat / 256 % 256 := by
  simp [immField, BitVec.extractLsb'_toNat, Nat.shiftRight_eq_div_pow]

theorem rsvField_eq_zero {w : Word} : rsvField w = 0#16 ↔ w.toNat / 65536 = 0 := by
  have hw := w.isLt
  rw [BitVec.toNat_eq]
  simp only [rsvField, BitVec.extractLsb'_toNat, Nat.shiftRight_eq_div_pow, BitVec.toNat_ofNat]
  omega

/-- A word is its three fields (30_encoding.md R80). -/
theorem fields_append (w : Word) : rsvField w ++ immField w ++ opcField w = w := by
  apply BitVec.eq_of_toNat_eq
  have hw := w.isLt
  rw [BitVec.toNat_append, BitVec.toNat_append, ← Nat.shiftLeft_add_eq_or_of_lt (opcField w).isLt,
    ← Nat.shiftLeft_add_eq_or_of_lt (immField w).isLt, opcField_toNat, immField_toNat]
  simp only [rsvField, BitVec.extractLsb'_toNat, Nat.shiftRight_eq_div_pow, Nat.shiftLeft_eq]
  omega

/-! ## The opcode map -/

theorem instrOf_opcode (i : Instr) : instrOf i.opcode i.imm8 = some i := by
  cases i <;> rfl

theorem eq_ofNat_of_toNat_eq {b : Byte} {n : Nat} (h : b.toNat = n) : b = BitVec.ofNat 8 n := by
  rw [← h, BitVec.ofNat_toNat, BitVec.setWidth_eq]

/-- What the opcode map reads: the command's opcode, and its immediate where the command has one. -/
theorem instrOf_eq_some {opc : Byte} {imm : Nat} {i : Instr} (h : instrOf opc imm = some i) :
    i.opcode = opc ∧ i.imm8 = (if usesImm8 opc then imm else 0) ∧ (imm < 256 → i.wf = true) := by
  unfold instrOf at h
  split at h <;> cases h
  all_goals
    next hopc =>
      obtain rfl := eq_ofNat_of_toNat_eq hopc
      exact ⟨rfl, rfl, by simp [Instr.wf]⟩

theorem instrOf_isSome {opc : Byte} {imm : Nat} : (∃ i, instrOf opc imm = some i) ↔
    opc.toNat ∈ [0x00, 0x10, 0x11, 0x12, 0x18, 0x19, 0x1A, 0x1B, 0x20, 0x21, 0x30, 0x31, 0x40,
      0x50, 0x51, 0x52, 0x53, 0x58, 0x59, 0x5A, 0x60, 0x61] := by
  unfold instrOf
  split <;> simp_all

/-! ## Decoding -/

/-- When a word decodes to a command: none of the three tests of 30_encoding.md R83 finds fault. -/
theorem decode_eq_ok {w : Word} {i : Instr} : decode w = .ok i ↔
    rsvField w = 0#16 ∧ instrOf (opcField w) (immField w).toNat = some i
      ∧ (usesImm8 (opcField w) = true ∨ immField w = 0#8) := by
  unfold decode
  by_cases hrsv : rsvField w = 0#16
  · rw [if_neg (not_not.mpr hrsv)]
    cases hmap : instrOf (opcField w) (immField w).toNat with
    | none => simp
    | some j =>
      cases huse : usesImm8 (opcField w) <;> by_cases himm : immField w = 0#8 <;> simp [hrsv, himm]
  · simp [hrsv]

/-- The word of every command has the shape of 30_encoding.md R80. -/
theorem wordShape (i : Instr) : Laws.WordShape.Statement i :=
  Laws.WordShape.of i fun h => by
    cases i
    case bwWrite | brPeek => cases h
    all_goals rfl

/-- Settles O2: the decoder reads back the three fields that the encoder wrote, and a word is its three
fields. -/
theorem decodeAnswersExactlyEncodedWords : Obligations.DecodeAnswersExactlyEncodedWords := by
  intro w i
  rw [decode_eq_ok]
  constructor
  · rintro ⟨hrsv, hmap, huse⟩
    obtain ⟨hopc, himm, hwf⟩ := instrOf_eq_some hmap
    refine ⟨hwf (immField w).isLt, ?_⟩
    have himm' : BitVec.ofNat 8 i.imm8 = immField w := by
      rw [himm]
      split
      next => simp
      next hno => rw [huse.resolve_left hno]
    rw [encode, himm', hopc, ← hrsv, fields_append]
  · rintro ⟨hwf, rfl⟩
    obtain ⟨hrsv, hopc, himm, huse⟩ := wordShape i
    have hlt : i.imm8 < 256 := by cases i <;> simp_all [Instr.wf, Instr.imm8]
    have himm' : (immField (encode i)).toNat = i.imm8 := by
      rw [himm, BitVec.toNat_ofNat, Nat.mod_eq_of_lt hlt]
    refine ⟨hrsv, by rw [hopc, himm']; exact instrOf_opcode i, ?_⟩
    rw [hopc]
    refine or_iff_not_imp_left.mpr fun hno => ?_
    rw [himm, huse (Bool.eq_false_iff.mpr hno)]

theorem usesImm8_iff {opc : Byte} : usesImm8 opc = true ↔ opc.toNat = 0x11 ∨ opc.toNat = 0x1A := by
  simp [usesImm8, BitVec.toNat_eq]

/-- Settles O3: the three tests of the decoder, read as numbers. -/
theorem wordsOutsideTheMapAreIllegal : Obligations.WordsOutsideTheMapAreIllegal := by
  intro w
  simp only [decode_eq_ok, exists_and_left, exists_and_right, rsvField_eq_zero, instrOf_isSome,
    usesImm8_iff, opcField_toNat]
  rw [BitVec.toNat_eq, immField_toNat]
  simp only [BitVec.toNat_ofNat, Nat.zero_mod, or_assoc]

/-- Settles O1: each word is the encoding of its command. -/
theorem wordsDecodeToTheirCommands : Obligations.WordsDecodeToTheirCommands := by
  refine ⟨?_, ?_, ?_, ?_, ?_, ?_, ?_, ?_, ?_, ?_, ?_, ?_, ?_, ?_, ?_, ?_, ?_, ?_, ?_, ?_, ?_, ?_⟩ <;>
    exact (decodeAnswersExactlyEncodedWords _ _).mpr ⟨rfl, rfl⟩

end Sys2Proof
end

-- Proofs of the statements about BW_WRITE, the writer's sequence and a reader over packed bits.
section
/-! PROOFS. BW_WRITE appends bits (40_bitio.md R103), a sequence of them appends all (R105), and a reader over
packed bits gives them back (R112). -/

namespace Sys2Proof.Machine

/-! ## The parameters -/

theorem Params.memSize_le {p : Params} (h : p.legal = true) : p.memSize ≤ 2 ^ 24 := by
  simp only [Params.legal, Bool.and_eq_true, decide_eq_true_eq] at h
  omega

theorem BitWriter.Ok.small {p : Params} {w : BitWriter} (h : w.Ok p) (hp : p.legal = true) : w.Small := by
  have hregion := h.region
  have hmem := Params.memSize_le hp
  unfold BitWriter.Small
  omega

theorem BitReader.Ok.small {p : Params} {r : BitReader} (h : r.Ok p) (hp : p.legal = true) : r.Small := by
  have hregion := h.region
  have hmem := Params.memSize_le hp
  unfold BitReader.Small
  omega

/-! ## BW_WRITE -/

/-- With a writer there, the two checks on the bits (40_bitio.md R103). -/
theorem firstFailure_bwWriteChecks {s : State} (h : s.bw.active = true) (nbits : Nat) :
    firstFailure (operandChecks (.bwWrite nbits) s)
      = if s.params.bwMaxBits < nbits then some { kind := .nbitsRange, info := nbits }
        else if s.bw.cap.toNat < ceil8 (s.bw.bits.toNat + nbits) then
          some { kind := .dstOverflow, info := ceil8 (s.bw.bits.toNat + nbits) }
        else none := by
  refine (firstFailure_active h _).trans ?_
  simp [firstFailure, checkNbits]

/-- Settles O17: the three checks of BW_WRITE; a failed one discards the writer. -/
theorem bwWriteErrorsDiscardTheWriter : Obligations.BwWriteErrorsDiscardTheWriter := by
  intro s nbits need dropped
  refine ⟨exec_noState rfl, fun hactive hn => ?_, fun hactive hn hneed => ?_⟩
  · exact exec_fail ((firstFailure_bwWriteChecks hactive nbits).trans (if_pos hn))
  · refine exec_fail (i := .bwWrite nbits) (e := { kind := .dstOverflow, info := need })
      ((firstFailure_bwWriteChecks hactive nbits).trans ?_)
    rw [if_neg (Nat.not_lt.mpr hn), if_pos hneed]

/-- From `s` to `t` the writer took the bits `bs`, and no byte but those it completed was written. -/
structure Appends (s t : State) (bs : List Bool) : Prop where
  params : t.params = s.params
  active : t.bw.active = s.bw.active
  base : t.bw.base = s.bw.base
  cap : t.bw.cap = s.bw.cap
  ok : t.bw.Ok s.params
  bits : t.bw.bits.toNat = s.bw.bits.toNat + bs.length
  taken : writerBits t = writerBits s ++ bs
  frame : ∀ x, x < s.bw.base.toNat + s.bw.bits.toNat / 8
      ∨ s.bw.base.toNat + (s.bw.bits.toNat + bs.length) / 8 ≤ x → t.readByte x = s.readByte x

theorem Appends.refl {s : State} (h : s.bw.Ok s.params) : Appends s s [] :=
  ⟨rfl, rfl, rfl, rfl, h, rfl, (List.append_nil _).symm, fun _ _ => rfl⟩

theorem Appends.trans {s t u : State} {bs cs : List Bool} (h : Appends s t bs) (h' : Appends t u cs) :
    Appends s u (bs ++ cs) where
  params := h'.params.trans h.params
  active := h'.active.trans h.active
  base := h'.base.trans h.base
  cap := h'.cap.trans h.cap
  ok := h.params ▸ h'.ok
  bits := by rw [h'.bits, h.bits, List.length_append, Nat.add_assoc]
  taken := by rw [h'.taken, h.taken, List.append_assoc]
  frame x hx := by
    have hbits := h.bits
    rw [List.length_append] at hx
    rw [h'.frame x (by rw [h.base, hbits]; omega), h.frame x (by omega)]

theorem bwWriteBody_eq (nbits : Nat) (s : State) :
    bwWriteBody nbits s = { s with
      mem := (bwWriteBody nbits s).mem
      bw := { s.bw with
        bits := s.bw.bits + BitVec.ofNat 32 nbits, acc := (bwWriteBody nbits s).bw.acc }
      done := true, busy := false } := by
  have h := foldl_putBit_eq (codeBits s.bwcode.toNat nbits) s
  rw [codeBits_length] at h
  conv_lhs => rw [bwWriteBody, h]
  rfl

/-- The body of BW_WRITE appends the code's bits (40_bitio.md R103). -/
theorem bwWriteBody_appends {s : State} {nbits : Nat} (hp : s.params.legal = true) (ho : s.bw.Ok s.params)
    (hc : ceil8 (s.bw.bits.toNat + nbits) ≤ s.bw.cap.toNat) :
    Appends s (bwWriteBody nbits s) (codeBits s.bwcode.toNat nbits) := by
  obtain ⟨hok, hbits, htaken, hframe⟩ := foldl_putBit_spec (codeBits s.bwcode.toNat nbits) (ho.small hp) ho
    (by rw [codeBits_length]; exact ceil8_le.mp hc)
  have e := bwWriteBody_eq nbits s
  exact ⟨by rw [e], by rw [e], by rw [e], by rw [e], hok, hbits, htaken, hframe⟩

/-- The host may set BWCODE before the command. -/
theorem bwWriteBody_appends_of_bwcode {s : State} {nbits : Nat} (code : Word) (hp : s.params.legal = true)
    (ho : s.bw.Ok s.params) (hc : ceil8 (s.bw.bits.toNat + nbits) ≤ s.bw.cap.toNat) :
    Appends s (bwWriteBody nbits { s with bwcode := code }) (codeBits code.toNat nbits) := by
  obtain ⟨hparams, hactive, hbase, hcap, hok, hbits, htaken, hframe⟩ :=
    bwWriteBody_appends (s := { s with bwcode := code }) hp ho hc
  exact ⟨hparams, hactive, hbase, hcap, hok, hbits, htaken, hframe⟩

theorem exec_bwWrite {s : State} {nbits : Nat} (hactive : s.bw.active = true)
    (hn : nbits ≤ s.params.bwMaxBits) (hc : ceil8 (s.bw.bits.toNat + nbits) ≤ s.bw.cap.toNat) :
    exec (.bwWrite nbits) s = .next (bwWriteBody nbits s) := by
  refine exec_pass ((firstFailure_bwWriteChecks hactive nbits).trans ?_)
  rw [if_neg (Nat.not_lt.mpr hn), if_neg (Nat.not_lt.mpr hc)]

/-- Settles O16: the loop over the code's bits, whose every turn takes one bit. -/
theorem bwWriteAppendsBits : Obligations.BwWriteAppendsBits := by
  intro s nbits hp ho hactive hn hc
  have h := bwWriteBody_appends hp ho hc
  refine ⟨bwWriteBody nbits s, exec_bwWrite hactive hn hc, bwWriteBody_eq nbits s, h.ok, h.taken, ?_⟩
  have hframe := h.frame
  rwa [codeBits_length] at hframe

/-! ## A sequence of BW_WRITE commands -/

theorem writtenBits_cons (w : Word × Nat) (ws : List (Word × Nat)) :
    writtenBits (w :: ws) = codeBits w.1.toNat w.2 ++ writtenBits ws := rfl

theorem writtenBits_length (ws : List (Word × Nat)) : (writtenBits ws).length = (ws.map (·.2)).sum := by
  simp [writtenBits, List.length_flatMap]

/-- The commands one after another append the bits of all (40_bitio.md R105). -/
theorem writeAll_appends (ws : List (Word × Nat)) {s : State} (hp : s.params.legal = true)
    (ho : s.bw.Ok s.params) (hactive : s.bw.active = true) (hn : ∀ w ∈ ws, w.2 ≤ s.params.bwMaxBits)
    (hc : s.bw.bits.toNat + (writtenBits ws).length ≤ 8 * s.bw.cap.toNat) :
    ∃ t, writeAll ws s = .next t ∧ Appends s t (writtenBits ws) := by
  induction ws generalizing s with
  | nil => exact ⟨s, rfl, .refl ho⟩
  | cons w ws ih =>
    obtain ⟨code, nbits⟩ := w
    rw [writtenBits_cons] at hc ⊢
    simp only [List.length_append, codeBits_length] at hc
    obtain ⟨hn, hns⟩ := List.forall_mem_cons.mp hn
    have hfit : ceil8 (s.bw.bits.toNat + nbits) ≤ s.bw.cap.toNat := ceil8_le.mpr (by omega)
    have hone := bwWriteBody_appends_of_bwcode code hp ho hfit
    have hrun : writeAll ((code, nbits) :: ws) s
        = writeAll ws (bwWriteBody nbits { s with bwcode := code }) := by
      rw [writeAll, exec_bwWrite (s := { s with bwcode := code }) hactive hn hfit]
    generalize bwWriteBody nbits { s with bwcode := code } = s1 at hone hrun
    obtain ⟨hparams, hactive1, -, hcap1, hok1, hbits1, -, -⟩ := id hone
    rw [← hparams] at hp hns hok1
    obtain ⟨t, ht, hrest⟩ := ih hp hok1 (hactive1.trans hactive) hns
      (by rw [hbits1, hcap1, codeBits_length]; omega)
    exact ⟨t, hrun.trans ht, hone.trans hrest⟩

/-- What BW_INIT starts: a writer over the destination region that has taken no bit (40_bitio.md R102). -/
theorem bwInitBody_ok {s : State} (h : DestInMem s) : (bwInitBody s).bw.Ok (bwInitBody s).params :=
  ⟨h, ceil8_le.mpr (Nat.zero_le _), rfl⟩

theorem writerBits_bwInitBody (s : State) : writerBits (bwInitBody s) = [] :=
  List.eq_nil_of_length_eq_zero (writerBits_length _)

/-- Settles O19: from the empty writer the commands append all the bits, and BW_FINISH leaves their packed
bytes. -/
theorem writerSequencePacksAllBits : Obligations.WriterSequencePacksAllBits := by
  intro s ws hp hdest hn hc
  rw [← writtenBits_length] at hc
  have hinit : exec .bwInit s = .next (bwInitBody s) :=
    exec_pass ((firstFailure_checkDest s).trans (if_pos hdest))
  obtain ⟨t, ht, h⟩ := writeAll_appends ws (s := bwInitBody s) hp (bwInitBody_ok hdest) rfl hn
    (by simpa [bwInitBody] using ceil8_le.mp hc)
  have hbase : t.bw.base = s.dst := h.base
  have hbits : t.bw.bits.toNat = (writtenBits ws).length := h.bits.trans (Nat.zero_add _)
  have htaken : writerBits t = writtenBits ws := by rw [h.taken, writerBits_bwInitBody, List.nil_append]
  have hbytes := (bwFinishBody_wrote t).readBytes_eq_pack h.ok
  rw [hbase, hbits, htaken] at hbytes
  refine ⟨bwInitBody s, t, bwFinishBody t, hinit, ht, exec_pass (firstFailure_active h.active []), ?_, ?_,
    fun i hi => ?_, fun x hx => ?_⟩
  · rw [← writtenBits_length, ← hbits]
    rfl
  · show (BitVec.ofNat 32 (ceil8 t.bw.bits.toNat)).toNat = _
    have hcap := s.dcap.isLt
    rw [← writtenBits_length, ← hbits, BitVec.toNat_ofNat, Nat.mod_eq_of_lt (by rw [hbits]; omega)]
  · have hget := congrArg (·[i]?) hbytes
    rw [pack_length] at hi
    simpa [State.readBytes, hi] using hget
  · rw [pack_length] at hx
    have hfinish := (bwFinishBody_wrote t).2 x
    rw [hbase, hbits] at hfinish
    have hframe := h.frame x
    simp only [bwInitBody, State.complete_bw, BitVec.toNat_ofNat, Nat.zero_mod, Nat.zero_div, Nat.add_zero,
      Nat.zero_add] at hframe
    have hceil : (writtenBits ws).length / 8 ≤ ceil8 (writtenBits ws).length
        ∧ (¬ (writtenBits ws).length % 8 = 0 → (writtenBits ws).length / 8 + 1
          ≤ ceil8 (writtenBits ws).length) := by
      unfold ceil8
      omega
    rw [hfinish (by split <;> simp <;> omega), hframe (by omega)]
    rfl

/-! ## A reader over packed bits -/

section
variable {s : State} {bs : List Bool} (h : s.readBytes s.br.base.toNat s.br.bytes.toNat = pack bs)
include h

theorem bytes_of_pack : s.br.bytes.toNat = ceil8 bs.length := by
  simpa using congrArg List.length h

/-- The bits a reader over packed bits sees (40_bitio.md R112). -/
theorem bitAt_reader_of_pack {j : Nat} (hj : j < 8 * ceil8 bs.length) :
    bitAt s.readByte s.br.base.toNat j = bs.getD j false := by
  refine bitAt_of_pack (fun i hi => ?_) j hj
  have hget := congrArg (·[i]?) h
  rw [pack_length] at hi
  simpa [State.readBytes, bytes_of_pack h, hi] using hget

/-- The assertion over packed bits is the test of the position alone (40_bitio.md R112). -/
theorem assertConsumed_of_pack :
    s.br.assertConsumed s.readByte bs.length = none ↔ s.br.pos.toNat = bs.length := by
  rw [BitReader.assertConsumed_eq_none]
  refine ⟨fun hok => hok.1, fun hpos => ⟨hpos, fun j hlo hhi => ?_, (bytes_of_pack h).le⟩⟩
  rw [bitAt_reader_of_pack h hhi, List.getD_eq_default _ _ hlo]

end

/-- Settles O24: the reader's bits are those of the list and then zeros, and its bytes are just enough. -/
theorem readerOverPackedBits : Obligations.ReaderOverPackedBits := by
  intro s bs _ _ hactive h
  have hbytes := bytes_of_pack h
  refine ⟨⟨_, exec_pass (firstFailure_active hactive []), ?_⟩, fun hhb herr => ?_⟩
  · by_cases hlt : s.br.pos.toNat < 8 * ceil8 bs.length
    · rw [show commandBody .brReadbit s = _ from brReadbitBody_of_lt (hbytes ▸ hlt)]
      refine ⟨rfl, ?_, by rw [if_pos hlt]⟩
      dsimp only
      rw [bitAt_reader_of_pack h hlt, List.getD_eq_getElem?_getD, if_pos hlt]
      cases bs[s.br.pos.toNat]? <;> rfl
    · have hend : bs[s.br.pos.toNat]? = none :=
        List.getElem?_eq_none ((ceil8_bounds _).1.trans (Nat.not_lt.mp hlt))
      rw [show commandBody .brReadbit s = _ from brReadbitBody_of_le (hbytes ▸ Nat.not_lt.mp hlt)]
      refine ⟨rfl, ?_, by rw [if_neg hlt]⟩
      rw [hend, if_neg hlt]
  · have hassert := assertConsumed_of_pack h
    rw [← hhb] at hassert ⊢
    cases he : s.br.assertConsumed s.readByte s.hbits.toNat with
    | none =>
      refine ⟨_, exec_brAssert_ok hactive he, ?_⟩
      simpa [herr] using hassert.mp he
    | some e =>
      refine ⟨_, exec_brAssert_error hactive he, ?_⟩
      simpa [he] using hassert

end Sys2Proof.Machine
end

-- Proofs of the statements about the canonical table and its Kraft sum (44_huffman.md sections 1 and 5).
section
/-! PROOFS. The canonical table (44_huffman.md R184): what `Canon` accepts is what Kraft's inequality allows,
the lengths that `BuildLengths` returns have Kraft sum 1 (R194), and no code begins another. -/

namespace Sys2Proof.Machine

/-! ## The Kraft sum -/

theorem symbolsWithLength_eq (l : Table Byte) (j : Nat) : symbolsWithLength l j = symbolsOfLength l j :=
  List.filter_congr fun _ _ => (beq_eq_decide _ _).symm

/-- The part of the Kraft sum that the lengths up to `j` make, times `2^j`. -/
def kraftUpTo (l : Table Byte) (j : Nat) : Nat :=
  (symbols.map fun x => if 0 < (entry l x).toNat ∧ (entry l x).toNat ≤ j then
    2 ^ (j - (entry l x).toNat) else 0).sum

theorem kraftUpTo_zero (l : Table Byte) : kraftUpTo l 0 = 0 := by
  refine List.sum_eq_zero fun y hy => ?_
  obtain ⟨x, -, rfl⟩ := List.mem_map.mp hy
  exact if_neg (by omega)

theorem kraftUpTo_succ (l : Table Byte) (j : Nat) :
    kraftUpTo l (j + 1) = 2 * kraftUpTo l j + lengthCount l (j + 1) := by
  have hcount : lengthCount l (j + 1)
      = (symbols.map fun x => if (entry l x).toNat = j + 1 then 1 else 0).sum := by
    rw [lengthCount, if_neg (by omega), List.sum_map_ite, ← symbolsWithLength_eq]
    simp [symbolsWithLength]
  rw [hcount, kraftUpTo, kraftUpTo, ← List.sum_map_mul_left, ← List.sum_map_add]
  congr 2
  funext x
  generalize (entry l x).toNat = n
  rcases lt_trichotomy n (j + 1) with hn | rfl | hn
  · by_cases hz : 0 < n
    · rw [if_pos (by omega), if_pos (by omega), if_neg (by omega), show j + 1 - n = j - n + 1 by omega,
        Nat.pow_succ, Nat.mul_comm, Nat.add_zero]
    · simp [hz, show ¬ n = j + 1 by omega]
  · simp
  · simp [show ¬ n ≤ j by omega, show ¬ n ≤ j + 1 by omega, show ¬ n = j + 1 by omega]

/-- What the test of 44_huffman.md R184 compares with `2^j` is the Kraft sum of the lengths up to `j`. -/
theorem codeStartOf_add_lengthCount (l : Table Byte) (j : Nat) :
    codeStartOf l j + lengthCount l j = kraftUpTo l j := by
  induction j with
  | zero => rw [kraftUpTo_zero]; rfl
  | succ j ih => rw [codeStartOf, ih, kraftUpTo_succ]

theorem kraftUpTo_of_le {l : Table Byte} {n : Nat} (h : ∀ x, (entry l x).toNat ≤ n) :
    kraftUpTo l n = kraft n l := by
  unfold kraftUpTo kraft
  congr 2
  funext x
  by_cases hx : entry l x = 0#8
  · simp [hx]
  · have hpos : 0 < (entry l x).toNat := Nat.pos_of_ne_zero fun h => hx (BitVec.eq_of_toNat_eq h)
    rw [if_pos ⟨hpos, h x⟩, if_neg hx]

theorem kraftUpTo_le (l : Table Byte) {j k : Nat} (h : j ≤ k) : kraftUpTo l j * 2 ^ (k - j) ≤ kraftUpTo l k := by
  rcases h.lt_or_eq with h | rfl
  · have := codeStartOf_le l h
    rw [codeStartOf_add_lengthCount] at this
    rw [← codeStartOf_add_lengthCount l k]
    omega
  · simp

/-- Raising the power of two scales the Kraft sum. -/
theorem kraft_scale {l : Table Byte} {n m : Nat} (h : ∀ x, (entry l x).toNat ≤ n) (hnm : n ≤ m) :
    kraft m l = 2 ^ (m - n) * kraft n l := by
  unfold kraft
  rw [← List.sum_map_mul_left]
  congr 2
  funext x
  have hx := h x
  by_cases hz : entry l x = 0#8
  · simp [hz]
  · rw [if_neg hz, if_neg hz, ← Nat.pow_add]
    congr 1
    omega

/-! ## What `Canon` accepts -/

/-- `forceLengths` in the words of 44_huffman.md R184. -/
theorem forceLengths_eq (len : Table Byte) :
    forceLengths len = if (∀ x, entry len x = 0#8) then setEntry len 0#8 1#8 else len := by
  have hall : (entries len).all (fun l => l == 0#8) = true ↔ ∀ x, entry len x = 0#8 := by
    simp [List.all_eq_true, mem_entries]
  rw [forceLengths]
  exact if_congr hall rfl rfl

theorem forceLengths_of_entry_ne {len : Table Byte} {x : Byte} (h : entry len x ≠ 0#8) :
    forceLengths len = len := by
  rw [forceLengths_eq, if_neg fun hall => h (hall x)]

theorem forceLengths_idem (len : Table Byte) : forceLengths (forceLengths len) = forceLengths len := by
  by_cases h : ∀ x, entry len x = 0#8
  · refine forceLengths_of_entry_ne (x := 0#8) ?_
    rw [forceLengths_eq, if_pos h, entry_setEntry_same]
    decide
  · rw [forceLengths_eq len, if_neg h, forceLengths_eq, if_neg h]

theorem canonTable_congr {len len' : Table Byte} (m : Nat) (h : forceLengths len = forceLengths len') :
    canonTable m len = canonTable m len' := by
  unfold canonTable
  rw [h]

/-- The largest length of a table. -/
def maxLength (l : Table Byte) : Nat := (entries l).foldl (fun m b => max m b.toNat) 0

theorem maxLength_le {l : Table Byte} {m : Nat} : maxLength l ≤ m ↔ ∀ x, (entry l x).toNat ≤ m := by
  simp [maxLength, foldl_max_le, mem_entries]

theorem entry_le_maxLength (l : Table Byte) (x : Byte) : (entry l x).toNat ≤ maxLength l :=
  maxLength_le.mp le_rfl x

theorem exists_entry_eq_maxLength (l : Table Byte) : ∃ x, (entry l x).toNat = maxLength l := by
  by_contra hno
  have hlt : ∀ x, (entry l x).toNat < maxLength l := fun x =>
    lt_of_le_of_ne (entry_le_maxLength l x) fun h => hno ⟨x, h⟩
  have hpos := hlt 0#8
  have := maxLength_le.mpr fun x => Nat.le_sub_one_of_lt (hlt x)
  omega

/-- The test of 44_huffman.md R184 fails exactly when the Kraft sum is above 1. -/
theorem overSubscribed_iff {l : Table Byte} {m : Nat} (h : ∀ x, (entry l x).toNat ≤ m) :
    overSubscribed 1 (canonRows l (maxLength l) 1 0) = true ↔ 2 ^ m < kraft m l := by
  have hrows : overSubscribed 1 (canonRows l (maxLength l) 1 0) = false
      ↔ ∀ i, i < maxLength l → kraftUpTo l (i + 1) ≤ 2 ^ (i + 1) := by
    rw [overSubscribed_eq_false, canonTable_rows]
    simp [← codeStartOf_add_lengthCount, canonRow, lengthCount, Nat.add_comm 1]
  have hlast : (∀ i, i < maxLength l → kraftUpTo l (i + 1) ≤ 2 ^ (i + 1))
      ↔ kraft (maxLength l) l ≤ 2 ^ maxLength l := by
    rw [← kraftUpTo_of_le (entry_le_maxLength l)]
    constructor
    · intro hall
      cases hn : maxLength l with
      | zero => simp [kraftUpTo_zero]
      | succ n => exact hall n (by omega)
    · intro hle i hi
      have hmono := (kraftUpTo_le l hi).trans hle
      rw [← Nat.add_sub_cancel' (show i + 1 ≤ maxLength l from hi), Nat.pow_add, Nat.add_sub_cancel'] at hmono
      · exact Nat.le_of_mul_le_mul_right hmono (by positivity)
      · exact hi
  have hscale : kraft (maxLength l) l ≤ 2 ^ maxLength l ↔ kraft m l ≤ 2 ^ m := by
    have hle := maxLength_le.mpr h
    have hpow : 2 ^ m = 2 ^ (m - maxLength l) * 2 ^ maxLength l := by
      rw [← Nat.pow_add, Nat.sub_add_cancel hle]
    rw [kraft_scale (entry_le_maxLength l) hle, hpow]
    exact (Nat.mul_le_mul_left_iff (by positivity)).symm
  rw [← not_iff_not, Bool.not_eq_true, Nat.not_lt]
  exact (hrows.trans hlast).trans hscale

/-- The table that `Canon` makes of lengths it accepts (44_huffman.md R184). -/
def canonOf (l : Table Byte) : Canon where
  maxLen := maxLength l
  rows := canonRows l (maxLength l) 1 0
  code := tabulate (canonCode l (canonRows l (maxLength l) 1 0))

section
variable {m : Nat} {len : Table Byte}

/-- `Canon` where no length is above the limit: Kraft's inequality decides. -/
theorem canonTable_of_le (h : ∀ x, (entry (forceLengths len) x).toNat ≤ m) :
    canonTable m len = if 2 ^ m < kraft m (forceLengths len) then
        .error { kind := .badLengths, info := 0x100 }
      else .ok (forceLengths len, canonOf (forceLengths len)) := by
  have hfind : (symbols.find? fun s => m < (entry (forceLengths len) s).toNat) = none :=
    List.find?_eq_none.mpr fun x _ => by simpa using h x
  unfold canonTable
  dsimp only
  rw [hfind]
  exact if_congr (overSubscribed_iff h) rfl rfl

theorem canonTable_accepts (h : ∀ x, (entry (forceLengths len) x).toNat ≤ m)
    (hk : kraft m (forceLengths len) ≤ 2 ^ m) :
    canonTable m len = .ok (forceLengths len, canonOf (forceLengths len)) :=
  (canonTable_of_le h).trans (if_neg (Nat.not_lt.mpr hk))

/-- `Canon` where a length is above the limit: the smallest symbol with such a length is reported. -/
theorem canonTable_of_lt {x : Byte} (hx : m < (entry (forceLengths len) x).toNat)
    (hfirst : ∀ y, y.toNat < x.toNat → (entry (forceLengths len) y).toNat ≤ m) :
    canonTable m len = .error { kind := .badLengths, info := x.toNat } := by
  have hfind : (symbols.find? fun s => m < (entry (forceLengths len) s).toNat) = some x := by
    have hlen : x.toNat < symbols.length := by rw [symbols_length]; exact x.isLt
    refine List.find?_eq_some_iff_getElem.mpr ⟨by simpa using hx, x.toNat, hlen, ?_, fun i hi => ?_⟩
    · rw [symbols_getElem, BitVec.ofNat_toNat, BitVec.setWidth_eq]
    · have hi' : (BitVec.ofNat 8 i).toNat = i := Nat.mod_eq_of_lt (by have := x.isLt; omega)
      rw [symbols_getElem]
      simpa using hfirst (BitVec.ofNat 8 i) (by rw [hi']; exact hi)
  unfold canonTable
  dsimp only
  rw [hfind]

theorem canonTable_error_kind {e : CmdError} (h : canonTable m len = .error e) : e.kind = .badLengths := by
  unfold canonTable at h
  dsimp only at h
  split at h
  · injection h with h
    rw [← h]
  · split at h
    · injection h with h
      rw [← h]
    · cases h

theorem canonTable_eq_canonOf {l : Table Byte} {t : Canon} (h : canonTable m len = .ok (l, t)) :
    t = canonOf l := by
  have hc := canonTable_ok h
  rw [canonTable_of_le (hc.forced ▸ hc.le_max)] at h
  split at h
  · cases h
  · injection h with h
    injection h with h1 h2
    rw [← h2, h1]

/-- The lengths that `Canon` returns are accepted again, unchanged. -/
theorem canonTable_again {l : Table Byte} {t : Canon} (h : canonTable m len = .ok (l, t)) :
    canonTable m l = .ok (l, t) := by
  rw [← h]
  refine canonTable_congr m ?_
  rw [(canonTable_ok h).forced, forceLengths_idem]

end

/-! ## HUF_CANON -/

theorem hufCanonBody_of_ok {s : State} {l : Table Byte} {t : Canon}
    (h : canonTable s.params.maxCodeLen s.len = .ok (l, t)) :
    hufCanonBody s = { s with
      len := l, canon := t, canonValid := true, decValid := false, done := true, busy := false } := by
  unfold hufCanonBody
  simp only [State.dropDecoder_params, State.dropDecoder_len, h]
  rfl

theorem hufCanonBody_of_error {s : State} {e : CmdError}
    (h : canonTable s.params.maxCodeLen s.len = .error e) :
    hufCanonBody s = ({ s with canonValid := false, decValid := false } : State).raiseError e := by
  unfold hufCanonBody
  simp only [State.dropDecoder_params, State.dropDecoder_len, h]
  rfl

theorem exec_hufCanon (s : State) : exec .hufCanon s = .next (hufCanonBody s) := exec_pass rfl

theorem Params.le_maxCodeLen {p : Params} (h : p.legal = true) : 8 ≤ p.maxCodeLen := by
  simp only [Params.legal, Bool.and_eq_true, decide_eq_true_eq] at h
  omega

/-- The length list of one symbol of length 1. -/
theorem kraft_single {l : Table Byte} {m : Nat} {p : Byte}
    (h : ∀ x, (entry l x).toNat = if x = p then 1 else 0) : kraft m l = 2 ^ (m - 1) := by
  have hterm : (fun x => if entry l x = 0#8 then 0 else 2 ^ (m - (entry l x).toNat))
      = fun x => if x = p then 2 ^ (m - 1) else 0 := by
    funext x
    have hx := h x
    by_cases hp : x = p
    · rw [if_pos hp] at hx
      rw [if_pos hp, hx, if_neg fun h0 => by simp [h0] at hx]
    · rw [if_neg hp] at hx
      rw [if_neg hp, if_pos (BitVec.eq_of_toNat_eq hx)]
  rw [kraft, hterm, List.sum_map_ite, List.filter_eq, List.count_eq_one_of_mem symbols_nodup (mem_symbols p)]
  simp only [List.map_const', List.sum_replicate, List.length_replicate, one_smul, smul_zero, Nat.add_zero]

theorem kraft_of_zero {l : Table Byte} {m : Nat} (h : ∀ x, entry l x = 0#8) : kraft m l = 0 := by
  refine List.sum_eq_zero fun y hy => ?_
  obtain ⟨x, -, rfl⟩ := List.mem_map.mp hy
  exact if_pos (h x)

/-- Settles O35: Canon's answers, the forced entry making a Kraft sum of 1/2. -/
theorem hufCanonAcceptsKraftSets : Obligations.HufCanonAcceptsKraftSets := by
  intro s hp m forced
  have hm : 8 ≤ m := Params.le_maxCodeLen hp
  have hforced : forceLengths s.len = forced := forceLengths_eq s.len
  refine ⟨fun hle hk => ?_, fun x hx hfirst => ?_, fun hle hk => ?_⟩
  · have hok : (∀ x, (entry forced x).toNat ≤ m) ∧ kraft m forced ≤ 2 ^ m := by
      by_cases hz : ∀ x, entry s.len x = 0#8
      · have hone : ∀ x, (entry forced x).toNat = if x = 0#8 then 1 else 0 := fun x => by
          rw [show forced = setEntry s.len 0#8 1#8 from if_pos hz, entry_setEntry, hz]
          split <;> rfl
        refine ⟨fun x => ?_, (kraft_single hone).trans_le (Nat.pow_le_pow_right (by omega) (by omega))⟩
        rw [hone]
        split <;> omega
      · rw [show forced = s.len from if_neg hz]
        exact ⟨hle, hk⟩
    have htable := canonTable_accepts (hforced ▸ hok.1) (hforced ▸ hok.2)
    rw [hforced] at htable
    exact ⟨_, htable, by rw [exec_hufCanon, hufCanonBody_of_ok htable]⟩
  · have hkeep : forceLengths s.len = s.len :=
      forceLengths_of_entry_ne (x := x) fun h0 => by simp [h0] at hx
    rw [exec_hufCanon, hufCanonBody_of_error (canonTable_of_lt (hkeep.symm ▸ hx) (hkeep.symm ▸ hfirst))]
    rfl
  · have hkeep : forceLengths s.len = s.len := by
      by_cases hz : ∀ x, entry s.len x = 0#8
      · rw [kraft_of_zero hz] at hk
        exact absurd hk (Nat.not_lt_zero _)
      · rw [forceLengths_eq, if_neg hz]
    rw [exec_hufCanon, hufCanonBody_of_error
      ((canonTable_of_le (hkeep.symm ▸ hle)).trans (if_pos (hkeep.symm ▸ hk)))]
    rfl

end Sys2Proof.Machine
end

-- Proofs of the statements about built lengths and canonical codes (44_huffman.md section 5).
section
/-! PROOFS. The lengths of the merge have Kraft sum 1 (44_huffman.md R194): the symbols below a live node have
Kraft sum 1, and a merge halves two such sums. Then the rows and codes of the canonical table (R184). -/

namespace Sys2Proof.Machine

/-! ## The Kraft sum of the merge -/

/-- The Kraft sum of the symbols `xs` with lengths `len`. -/
def kraftOf (len : Byte → Nat) (xs : List Byte) : ℚ := (xs.map fun x => (1 / 2 : ℚ) ^ len x).sum

theorem kraftOf_append (len : Byte → Nat) (xs ys : List Byte) :
    kraftOf len (xs ++ ys) = kraftOf len xs + kraftOf len ys := by
  simp [kraftOf]

theorem kraftOf_congr {len len' : Byte → Nat} {xs : List Byte} (h : ∀ x ∈ xs, len x = len' x) :
    kraftOf len xs = kraftOf len' xs := by
  unfold kraftOf
  rw [List.map_congr_left fun x hx => by rw [h x hx]]

/-- One bit more for each symbol halves the sum. -/
theorem kraftOf_succ (len : Byte → Nat) (xs : List Byte) :
    kraftOf (fun x => len x + 1) xs = 1 / 2 * kraftOf len xs := by
  simp only [kraftOf, ← List.sum_map_mul_left, pow_succ']

theorem kraftOf_pos (len : Byte → Nat) {xs : List Byte} (h : xs ≠ []) : 0 < kraftOf len xs := by
  refine List.sum_pos _ (fun y hy => ?_) (by simpa using h)
  obtain ⟨x, -, rfl⟩ := List.mem_map.mp hy
  positivity

theorem kraftOf_perm (len : Byte → Nat) {xs ys : List Byte} (h : xs.Perm ys) :
    kraftOf len xs = kraftOf len ys :=
  (h.map _).sum_eq

/-- Through the merge the symbols below each live node have Kraft sum 1, so in the end all have; the lengths
of other symbols stay. -/
theorem MergeRun.kraftOf_eq_one {live : List Node} {len out : Byte → Nat} (h : MergeRun live len out)
    (hsep : Separate live) (hone : ∀ n ∈ live, kraftOf len n.members = 1) :
    kraftOf out (live.flatMap Node.members) = 1
      ∧ ∀ x, x ∉ live.flatMap Node.members → out x = len x := by
  induction h with
  | done n len => simpa using hone
  | @merge live rest a b len out split first second more ih =>
    have hsep' := hsep.perm split
    have hmembers := (split.flatMap_right Node.members).symm
    have hone' : ∀ n ∈ a :: b :: rest, kraftOf len n.members = 1 := fun n hn =>
      hone n (split.mem_iff.mpr hn)
    simp only [List.forall_mem_cons] at hone'
    obtain ⟨ha, hb, hrest⟩ := hone'
    have hmerged : kraftOf (fun x => if x ∈ a.members ++ b.members then len x + 1 else len x)
        (a.members ++ b.members) = 1 := by
      rw [kraftOf_congr (len' := fun x => len x + 1) fun x hx => if_pos hx, kraftOf_succ, kraftOf_append,
        ha, hb]
      norm_num
    have hothers : ∀ n ∈ rest,
        kraftOf (fun x => if x ∈ a.members ++ b.members then len x + 1 else len x) n.members = 1 := by
      intro n hn
      refine (kraftOf_congr fun x hx => if_neg fun hab => ?_).trans (hrest n hn)
      have hdisjoint := (List.nodup_append.mp hsep'.merge.2).2.2
      exact hdisjoint x hab x (List.mem_flatMap.mpr ⟨n, hn, hx⟩) rfl
    obtain ⟨hsum, hkeep⟩ := ih hsep'.merge (List.forall_mem_cons.mpr ⟨hmerged, hothers⟩)
    have hflat : (a.merge b :: rest).flatMap Node.members = (a :: b :: rest).flatMap Node.members := by
      simp [Node.merge]
    change kraftOf out ((a.merge b :: rest).flatMap Node.members) = 1 at hsum
    change ∀ x, x ∉ (a.merge b :: rest).flatMap Node.members → _ at hkeep
    rw [hflat] at hsum hkeep
    refine ⟨(kraftOf_perm out hmembers).symm.trans hsum, fun x hx => ?_⟩
    have hx' : x ∉ (a :: b :: rest).flatMap Node.members := fun h => hx (hmembers.mem_iff.mp h)
    refine (hkeep x hx').trans (if_neg fun hab => hx' ?_)
    rw [List.flatMap_cons, List.flatMap_cons, ← List.append_assoc]
    exact List.mem_append_left _ hab

/-- In a Kraft sum of 1 over two or more symbols each has at least one bit. -/
theorem pos_of_kraftOf_eq_one {len : Byte → Nat} {xs : List Byte} (h : kraftOf len xs = 1)
    (hlen : 2 ≤ xs.length) {x : Byte} (hx : x ∈ xs) : 0 < len x := by
  obtain ⟨as, bs, rfl⟩ := List.append_of_mem hx
  by_contra hzero
  have hrest : as ++ bs ≠ [] := List.ne_nil_of_length_pos (by simp at hlen ⊢; omega)
  have hpos := kraftOf_pos len hrest
  have hsplit : kraftOf len (as ++ x :: bs) = (1 / 2 : ℚ) ^ len x + kraftOf len (as ++ bs) :=
    kraftOf_perm len List.perm_middle
  rw [h, Nat.eq_zero_of_not_pos hzero, pow_zero] at hsplit
  linarith

/-- A length table whose symbols are `xs`, in the words of the statements. -/
theorem kraft_eq_kraftOf {l : Table Byte} {m : Nat} {p : Byte → Prop} [DecidablePred p]
    (hle : ∀ x, (entry l x).toNat ≤ m) (hin : ∀ x, p x ↔ 0 < (entry l x).toNat) :
    (kraft m l : ℚ) = 2 ^ m * kraftOf (fun x => (entry l x).toNat) (symbols.filter fun x => p x) := by
  have hterm : (fun x => if entry l x = 0#8 then 0 else 2 ^ (m - (entry l x).toNat))
      = fun x => if p x then 2 ^ (m - (entry l x).toNat) else 0 := by
    funext x
    by_cases hx : entry l x = 0#8
    · rw [if_pos hx, if_neg fun hp => by simpa [hx] using (hin x).mp hp]
    · rw [if_neg hx, if_pos ((hin x).mpr <| Nat.pos_of_ne_zero fun h => hx (BitVec.eq_of_toNat_eq h))]
  rw [kraft, hterm, List.sum_map_ite, kraftOf, ← List.sum_map_mul_left, Nat.cast_add, Nat.cast_list_sum]
  simp only [List.map_map, List.map_const', List.sum_replicate, smul_zero, Nat.cast_zero, add_zero]
  congr 1
  refine List.map_congr_left fun x _ => ?_
  have hx := hle x
  simp only [Function.comp, Nat.cast_pow, Nat.cast_ofNat]
  rw [pow_sub₀ _ two_ne_zero hx, one_div, inv_pow]

section
variable {f len : Byte → Nat}

/-- The lengths of the merge have Kraft sum 1, and the other symbols have none (44_huffman.md R194). -/
theorem BuiltAs.kraftOf_eq_one (h : BuiltAs f len) (htwo : 2 ≤ (symbols.filter fun x => 0 < f x).length) :
    kraftOf len (symbols.filter fun x => 0 < f x) = 1
      ∧ ∀ x, x ∉ (symbols.filter fun x => 0 < f x) → len x = 0 := by
  have hnodup : (symbols.filter fun x => 0 < f x).Nodup := symbols_nodup.filter _
  have hflat : ((symbols.filter fun x => 0 < f x).map fun x =>
      ({ weight := f x, key := x, members := [x] } : Node)).flatMap Node.members
      = symbols.filter fun x => 0 < f x := by
    simp [List.flatMap_map]
  have hleaf : ∀ n ∈ (symbols.filter fun x => 0 < f x).map fun x =>
      ({ weight := f x, key := x, members := [x] } : Node), kraftOf (fun _ => 0) n.members = 1 := by
    intro n hn
    obtain ⟨x, -, rfl⟩ := List.mem_map.mp hn
    simp [kraftOf]
  have hmerge := (h.2.2 htwo).kraftOf_eq_one (separate_leaves f hnodup) hleaf
  rwa [hflat] at hmerge

/-- Two or more symbols: those that occur have a code, the others none. -/
theorem BuiltAs.pos_iff (h : BuiltAs f len) (htwo : 2 ≤ (symbols.filter fun x => 0 < f x).length) (x : Byte) :
    0 < f x ↔ 0 < len x := by
  obtain ⟨hsum, hkeep⟩ := h.kraftOf_eq_one htwo
  refine ⟨fun hx => pos_of_kraftOf_eq_one hsum htwo (List.mem_filter.mpr ⟨mem_symbols x, by simpa using hx⟩),
    fun hx => ?_⟩
  by_contra hz
  rw [hkeep x fun hmem => hz (by simpa using (List.mem_filter.mp hmem).2)] at hx
  exact lt_irrefl _ hx

/-- A symbol that occurs has a code. -/
theorem BuiltAs.pos (h : BuiltAs f len) {x : Byte} (hx : 0 < f x) : 0 < len x := by
  have hmem : x ∈ symbols.filter fun x => 0 < f x := List.mem_filter.mpr ⟨mem_symbols x, by simpa using hx⟩
  rcases hps : symbols.filter fun x => 0 < f x with _ | ⟨p, _ | ⟨q, ps⟩⟩
  · rw [hps] at hmem
    cases hmem
  · rw [hps, List.mem_singleton] at hmem
    rw [h.2.1 p hps x, if_pos hmem]
    exact Nat.one_pos
  · exact (h.pos_iff (by rw [hps]; simp) x).mp hx

end

theorem BuiltAs.kraft {l : Table Byte} {f : Byte → Nat} {m : Nat}
    (h : BuiltAs f fun x => (entry l x).toNat) (hle : ∀ x, (entry l x).toNat ≤ m) :
    kraft m l = if 2 ≤ (symbols.filter fun x => 0 < f x).length then 2 ^ m else 2 ^ (m - 1) := by
  split
  next htwo =>
    have hcast := kraft_eq_kraftOf hle (h.pos_iff htwo)
    rw [(h.kraftOf_eq_one htwo).1, mul_one] at hcast
    exact_mod_cast hcast
  next hfew =>
    obtain ⟨p, hp⟩ : ∃ p : Byte, ∀ x, (entry l x).toNat = if x = p then 1 else 0 := by
      rcases hps : symbols.filter fun x => 0 < f x with _ | ⟨p, _ | ⟨q, ps⟩⟩
      · exact ⟨0#8, h.1 hps⟩
      · exact ⟨p, h.2.1 p hps⟩
      · exact absurd (by rw [hps]; simp) hfew
    exact kraft_single hp

/-- Settles O34: a length of the merge that is not above the limit is stored as it is, and the Kraft sum makes
`Canon` accept the table. -/
theorem builtLengthsHaveKraftSumOne : Obligations.BuiltLengthsHaveKraftSumOne := by
  intro m f _ hm'
  have hlimit : maxEntry (treeLengths f) ≤ m ↔ ∀ x, entry (treeLengths f) x ≤ m := by
    refine ⟨fun h x => (entry_le_maxEntry _ x).trans h, fun h => ?_⟩
    obtain ⟨x, hx⟩ := exists_entry_eq_maxEntry (treeLengths f)
    exact hx ▸ h x
  refine ⟨?_, fun l hl => ?_⟩
  · rw [← hlimit]
    refine ⟨fun ⟨l, hl⟩ => ?_, fun h => ⟨_, buildLengths_of_le h⟩⟩
    by_contra hlt
    rw [buildLengths_of_lt (Nat.not_le.mp hlt)] at hl
    cases hl
  · have hmax : maxEntry (treeLengths f) ≤ m := by
      by_contra hlt
      rw [buildLengths_of_lt (Nat.not_le.mp hlt)] at hl
      cases hl
    have hentry : (fun x => (entry l x).toNat) = entry (treeLengths f) := by
      funext x
      rw [buildLengths_of_le hmax] at hl
      injection hl with hl
      rw [← hl, entry_tabulate]
      exact Nat.mod_eq_of_lt (by have := hlimit.mp hmax x; omega)
    have hbuilt : BuiltAs (entry f) fun x => (entry l x).toNat := hentry ▸ builtAs_treeLengths f
    have hle : ∀ x, (entry l x).toNat ≤ m := fun x =>
      (congrFun hentry x).trans_le (hlimit.mp hmax x)
    have hkraft := hbuilt.kraft hle
    refine ⟨hbuilt, hkraft, ?_⟩
    have hsome : ∃ x, entry l x ≠ 0#8 := by
      by_contra hzero
      rw [kraft_of_zero fun x => not_not.mp fun hx => hzero ⟨x, hx⟩] at hkraft
      split at hkraft <;> exact absurd hkraft.symm (by positivity)
    obtain ⟨x, hx⟩ := hsome
    have hkeep := forceLengths_of_entry_ne hx
    have hfit : kraft m l ≤ 2 ^ m := by
      rw [hkraft]
      split
      · exact le_rfl
      · exact Nat.pow_le_pow_right (by omega) (by omega)
    have htable := canonTable_accepts (len := l) (m := m) (by rwa [hkeep]) (by rwa [hkeep])
    rw [hkeep] at htable
    exact ⟨_, htable⟩

/-! ## The codes of the table -/

/-- In a list in symbol order, a symbol's index counts the smaller ones. -/
theorem idxOf_eq_length_filter {xs : List Byte} (h : xs.Pairwise fun a b => a.toNat < b.toNat) {x : Byte}
    (hx : x ∈ xs) : xs.idxOf x = (xs.filter fun z => z.toNat < x.toNat).length := by
  induction xs with
  | nil => cases hx
  | cons a xs ih =>
    obtain ⟨ha, hxs⟩ := List.pairwise_cons.mp h
    by_cases hax : a = x
    · subst hax
      have hnone : xs.filter (fun z => z.toNat < a.toNat) = [] :=
        List.filter_eq_nil_iff.mpr fun z hz => by simpa using (ha z hz).le
      simp [hnone]
    · have hx' : x ∈ xs := (List.mem_cons.mp hx).resolve_left (Ne.symm hax)
      rw [List.idxOf_cons_ne _ hax, ih hxs hx', List.filter_cons_of_pos (by simpa using ha x hx')]
      rfl

/-- The symbols of a length below `y` are those below `x` and those from `x` to `y`. -/
theorem length_filter_lt_add (xs : List Byte) {x y : Byte} (h : x.toNat ≤ y.toNat) :
    (xs.filter fun z => z.toNat < y.toNat).length
      = (xs.filter fun z => z.toNat < x.toNat).length
        + (xs.filter fun z => x.toNat ≤ z.toNat ∧ z.toNat < y.toNat).length := by
  induction xs with
  | nil => rfl
  | cons z zs ih =>
    simp only [List.filter_cons]
    by_cases h1 : z.toNat < x.toNat
    · simp [h1, show z.toNat < y.toNat by omega, show ¬ x.toNat ≤ z.toNat by omega, ih]
      omega
    · by_cases h2 : z.toNat < y.toNat
      · simp [h1, h2, show x.toNat ≤ z.toNat by omega, ih]
        omega
      · simp [h1, h2, ih]

section
variable {m : Nat} {len l : Table Byte} {t : Canon}

theorem IsCanon.code_eq_filter (h : IsCanon m len l t) {x : Byte} (hx : 0 < (entry l x).toNat) :
    entry t.code x = codeStartOf l (entry l x).toNat
      + ((symbolsOfLength l (entry l x).toNat).filter fun z => z.toNat < x.toNat).length := by
  rw [h.code_eq hx, idxOf_eq_length_filter (symbolsOfLength_pairwise _ _) (mem_symbolsOfLength.mpr rfl)]

/-- Codes of one length follow in symbol order (44_huffman.md R184). -/
theorem IsCanon.code_later (h : IsCanon m len l t) {x y : Byte} (hx : 0 < (entry l x).toNat)
    (hxy : entry l x = entry l y) (hlt : x.toNat < y.toNat) :
    entry t.code y = entry t.code x
      + (symbols.filter fun z => x.toNat ≤ z.toNat ∧ z.toNat < y.toNat ∧ entry l z = entry l x).length := by
  have hbetween : (symbolsOfLength l (entry l x).toNat).filter (fun z => x.toNat ≤ z.toNat ∧ z.toNat < y.toNat)
      = symbols.filter fun z => x.toNat ≤ z.toNat ∧ z.toNat < y.toNat ∧ entry l z = entry l x := by
    rw [symbolsOfLength, List.filter_filter]
    refine List.filter_congr fun z _ => ?_
    simp [← BitVec.toNat_inj, Bool.and_assoc, beq_eq_decide]
  rw [h.code_eq_filter hx, h.code_eq_filter (hxy ▸ hx), ← hxy, length_filter_lt_add _ hlt.le, hbetween,
    Nat.add_assoc]

theorem IsCanon.code_injective (h : IsCanon m len l t) {x y : Byte} (hx : 0 < (entry l x).toNat)
    (hxy : entry l x = entry l y) (hcode : entry t.code y = entry t.code x) : x = y := by
  rw [h.code_eq hx, h.code_eq (hxy ▸ hx), ← hxy] at hcode
  exact (List.idxOf_inj (mem_symbolsOfLength.mpr rfl)).mp (Nat.add_left_cancel hcode).symm

/-- No code begins another (44_huffman.md R194). -/
theorem IsCanon.prefix_ne (h : IsCanon m len l t) {x y : Byte} (hx : 0 < (entry l x).toNat)
    (hxy : (entry l x).toNat ≤ (entry l y).toNat) (hne : x ≠ y) :
    entry t.code y >>> ((entry l y).toNat - (entry l x).toNat) ≠ entry t.code x := by
  intro hcode
  rcases hxy.lt_or_eq with hlt | heq
  · have hge := h.prefix_ge hlt
    have hcx := h.code_lt hx
    omega
  · rw [heq, Nat.sub_self, Nat.shiftRight_zero] at hcode
    exact hne (h.code_injective hx (BitVec.eq_of_toNat_eq heq) hcode)

theorem IsCanon.code_of_zero (h : IsCanon m len l t) {x : Byte} (hx : entry l x = 0#8) :
    entry t.code x = 0 := by
  rw [h.code, entry_tabulate, canonCode, hx]
  rfl

end

/-- The recurrence of the first codes (44_huffman.md R184). -/
theorem codeStartOf_succ (l : Table Byte) {j : Nat} (hj : 1 ≤ j) :
    codeStartOf l (j + 1) = (codeStartOf l j + (symbolsWithLength l j).length) <<< 1 := by
  rw [codeStartOf, lengthCount, if_neg (by omega), symbolsWithLength_eq, Nat.shiftLeft_eq, Nat.mul_comm]

/-- Settles O36: the facts of `IsCanon`, with the first codes as the recurrence makes them. -/
theorem canonicalCodesArePrefixFree : Obligations.CanonicalCodesArePrefixFree := by
  intro m len l t hok
  have h := canonTable_ok hok
  have hmax : t.maxLen = maxLength l := by rw [canonTable_eq_canonOf hok]; rfl
  refine ⟨fun x => h.code_lt_two_pow, fun x y => h.code_later, fun x y => h.prefix_ne, h.le_maxLen,
    hmax ▸ exists_entry_eq_maxLength l, h.rows_length, codeStartOf l, codeStartOf_one l,
    fun j => codeStartOf_succ l, fun x => ?_, fun j hj => ?_⟩
  · by_cases hx : entry l x = 0#8
    · rw [h.code_of_zero hx, if_pos hx]
    · rw [if_neg hx, h.code_eq_filter (Nat.pos_of_ne_zero fun h0 => hx (BitVec.eq_of_toNat_eq h0)),
        symbolsWithLength_eq]
  · rw [h.row hj, canonRow, symbolsWithLength_eq]
    by_cases hnil : symbolsOfLength l (j + 1) = []
    · simp [hnil]
    · simp [hnil, List.length_pos_iff]

end Sys2Proof.Machine
end

-- Proofs of the statements about all commands (30_encoding.md R86, 60_exceptions.md section 2, 10_state.md R53).
section
/-! PROOFS. What each command can do, said once (`Ran`), and the statements about all commands that follow from
it: completion, frames, the valid bits, and the order of the operand errors. -/

namespace Sys2Proof.Machine

/-! ## The operand checks in the words of the statements -/

@[simp] theorem checkSource_fails (s : State) : (checkSource s).fails = !decide (SourceInMem s) := rfl

@[simp] theorem checkDest_fails (s : State) : (checkDest s).fails = !decide (DestInMem s) := rfl

@[simp] theorem checkBound_fails (s : State) (n : Word) :
    (checkBound s n).fails = decide (s.params.nMax < n.toNat) := rfl

@[simp] theorem checkFits_fails (s : State) (n : Word) :
    (checkFits s n).fails = decide (s.dcap.toNat < n.toNat) := rfl

@[simp] theorem checkPayload_fails (s : State) : (checkPayload s).fails = decide (s.slen.toNat < 256) := rfl

@[simp] theorem checkOverlap_fails (s : State) : (checkOverlap s).fails = !decide (RegionsApart s) := by
  rw [Bool.eq_iff_iff]
  simp only [checkOverlap, overlap, RegionsApart, Bool.and_eq_true, decide_eq_true_eq, Bool.not_eq_true',
    decide_eq_false_iff_not]
  omega

@[simp] theorem checkPi_fails (s : State) (n : Word) :
    (checkPi s n).fails = decide (PiOutside s n.toNat) := by
  rw [Bool.eq_iff_iff]
  simp [checkPi, PiOutside]

@[simp] theorem checkSource_error (s : State) : (checkSource s).error = { kind := .range, info := 1 } := rfl

@[simp] theorem checkDest_error (s : State) : (checkDest s).error = { kind := .range, info := 2 } := rfl

@[simp] theorem checkBound_error (s : State) (n : Word) :
    (checkBound s n).error = { kind := .range, info := 3 } := rfl

@[simp] theorem checkOverlap_error (s : State) :
    (checkOverlap s).error = { kind := .overlap, info := 0 } := rfl

@[simp] theorem checkFits_error (s : State) (n : Word) :
    (checkFits s n).error = { kind := .dstOverflow, info := n.toNat } := rfl

@[simp] theorem checkPi_error (s : State) (n : Word) :
    (checkPi s n).error = { kind := .piRange, info := s.pi.toNat } := rfl

@[simp] theorem checkPayload_error (s : State) :
    (checkPayload s).error = { kind := .payloadShort, info := s.slen.toNat } := rfl

theorem passesChecks_iff {i : Instr} {s : State} :
    PassesChecks i s ↔ firstFailure (operandChecks i s) = none := firstFailure_eq_none.symm

theorem exec_of_passes {i : Instr} {s : State} (h : PassesChecks i s) : exec i s = .next (commandBody i s) :=
  exec_pass (passesChecks_iff.mp h)

theorem firstFailure_cons (c : Check) (cs : List Check) :
    firstFailure (c :: cs) = if c.fails then some c.error else firstFailure cs := rfl

/-! ## The order of the operand errors -/

/-- The checks of a command that names a region, as 60_exceptions.md R271 orders them. -/
theorem firstFailure_regionChecks {i : Instr} (s : State) (h : hasSource i = true ∨ i = .bwInit) :
    (firstFailure (operandChecks i s)).map (fun e => (e.kind.code, e.info)) = firstOperandError i s := by
  cases i <;> simp only [hasSource, hasDest, Bool.false_eq_true, reduceCtorEq, or_self] at h <;>
    simp [operandChecks, bwInitChecks, brInitChecks, bwtFwdChecks, bwtInvChecks, mtfEncChecks, mtfDecChecks,
      rle0EncChecks, hufHistChecks, hufEncChecks, hufStartDecChecks, hufDecRleChecks, pipeEncChecks,
      pipeDecChecks, firstFailure_cons, firstFailure, apply_ite (Option.map _), firstOperandError, hasSource,
      hasDest, boundedLength, knownOutput, PiOutside, ErrKind.code]

/-- Settles O11: the checks are those of 60_exceptions.md R271 in their order, and a command that names a region
has no error effect at a failed check. -/
theorem operandErrorsAreReportedInOrder : Obligations.OperandErrorsAreReportedInOrder := by
  intro i s hi
  have hfirst := firstFailure_regionChecks s hi
  have hnone : failEffects i s = s := by
    cases i <;> simp only [hasSource, hasDest, Bool.false_eq_true, reduceCtorEq, or_self] at hi <;> rfl
  refine ⟨fun code info h => ?_, ?_⟩
  · rw [← hfirst] at h
    obtain ⟨e, he, hpair⟩ := Option.map_eq_some_iff.mp h
    injection hpair with hcode hinfo
    rw [exec_fail he, hnone, ← hcode, ← hinfo]
    rfl
  · rw [← hfirst, Option.map_eq_none_iff, passesChecks_iff]

/-! ## The reader of a command -/

/-- From `r` to `r'` only the position changed. -/
structure BitReader.Moves (r r' : BitReader) : Prop where
  active : r'.active = r.active
  base : r'.base = r.base
  bytes : r'.bytes = r.bytes

theorem BitReader.Moves.refl (r : BitReader) : r.Moves r := ⟨rfl, rfl, rfl⟩

theorem BitReader.Moves.trans {r r' r'' : BitReader} (h : r.Moves r') (h' : r'.Moves r'') : r.Moves r'' :=
  ⟨h'.active.trans h.active, h'.base.trans h.base, h'.bytes.trans h.bytes⟩

theorem BitReader.Moves.eq {r r' : BitReader} (h : r.Moves r') : r' = { r with pos := r'.pos } := by
  obtain ⟨hactive, hbase, hbytes⟩ := h
  rw [← hactive, ← hbase, ← hbytes]

theorem BitReader.Follows.moves {byteAt : Nat → Byte} {r r' : BitReader} (h : r.Follows byteAt r') :
    r.Moves r' :=
  ⟨h.active, h.base, h.bytes⟩

theorem decodeRows_moves (byteAt : Nat → Byte) (rows : List CanonRow) (acc : Nat) (r : BitReader) :
    r.Moves (decodeRows byteAt rows acc r).reader := by
  induction rows generalizing acc r with
  | nil => exact .refl r
  | cons row rows ih =>
    have hread := (r.readBit_follows byteAt).moves
    unfold decodeRows
    rcases hr : r.readBit byteAt with ⟨_ | b, r'⟩ <;> rw [hr] at hread
    · exact hread
    · dsimp only
      split
      · exact hread
      · exact hread.trans (ih _ r')

theorem decodeSymbol_moves (byteAt : Nat → Byte) (t : Canon) (r : BitReader) :
    r.Moves (decodeSymbol byteAt t r).reader :=
  decodeRows_moves byteAt t.rows 0 r

theorem decodeSymbol_follows (byteAt : Nat → Byte) (t : Canon) {r : BitReader} (hr : r.Small) :
    r.Follows byteAt (decodeSymbol byteAt t r).reader :=
  decodeRows_follows byteAt t.rows 0 hr

theorem Attempt.andThen_moves {α β : Type} {r : BitReader} {a : Attempt α} {f : α → BitReader → Attempt β}
    (ha : r.Moves a.reader) (hf : ∀ x, a.reader.Moves (f x a.reader).reader) :
    r.Moves (a.andThen f).reader := by
  unfold Attempt.andThen
  split
  · exact ha
  · exact ha.trans (hf _)

theorem RleJob.nextSym_moves (job : RleJob) (cnt : Nat) (r : BitReader) :
    r.Moves (job.nextSym cnt r).reader := by
  unfold RleJob.nextSym
  split
  · exact .refl r
  · exact decodeRows_moves _ _ _ r

theorem RleJob.expand_moves (job : RleJob) (fuel made cnt : Nat) (r : BitReader) :
    r.Moves (job.expand fuel made cnt r).reader := by
  induction fuel generalizing made cnt r with
  | zero => exact .refl r
  | succ fuel ih =>
    unfold RleJob.expand
    split
    · exact .refl r
    · refine Attempt.andThen_moves (job.nextSym_moves cnt r) fun x => ?_
      split
      · exact ih _ _ _
      · refine Attempt.andThen_moves (job.nextSym_moves _ _) fun k => ?_
        split
        · exact .refl _
        · exact ih _ _ _

theorem RleJob.run_moves (job : RleJob) (hb : Nat) (r : BitReader) : r.Moves (job.run hb r).reader := by
  unfold RleJob.run
  refine Attempt.andThen_moves (job.expand_moves _ _ _ r) fun x => ?_
  split
  · exact .refl _
  · split <;> exact .refl _

/-! ## What a command can do -/

/-- The reader over the bitstream of the payload at SRC (44_huffman.md R188), not active. -/
def State.payloadReader (s : State) : BitReader :=
  { active := false, base := s.src + 256#32, bytes := s.slen - 256#32, pos := 0#32 }

/-- The length header at SRC (30_encoding.md R87). -/
def State.header (s : State) : Table Byte := tabulate fun x => s.readByte (s.src.toNat + x.toNat)

/-- The decoding that HUF_DEC_RLE and PIPE_DEC make under the table `t` (44_huffman.md R192). -/
def State.rleJob (s : State) (t : Canon) : RleJob where
  byteAt := s.readByte
  table := t
  n := s.nlen.toNat
  rl := s.rlelen.toNat
  check := s.params.rleLenCheck

/-- The end of a command (60_exceptions.md R267, R268). -/
def State.finish (o : Option CmdError) (s : State) : State :=
  match o with
  | none => s.complete
  | some e => s.raiseError e

@[simp] theorem State.finish_none (s : State) : State.finish none s = s.complete := rfl

@[simp] theorem State.finish_some (e : CmdError) (s : State) : State.finish (some e) s = s.raiseError e := rfl

/-- An error in the body of a command with a destination and a table (60_exceptions.md R269). -/
theorem State.failTables_eq (e : CmdError) (s : State) : s.failTables e = State.finish (some e) { s with
    mem := s.mem.writeRun s.dst.toNat (freeBytes s.draws s.dcap.toNat)
    draws := s.draws + s.dcap.toNat, canonValid := false } := rfl

/-- `Ran s i u o`: from `s` the body of `i` can make the state `u`, and end with `o`. -/
inductive Ran (s : State) : Instr → State → Option CmdError → Prop
  | nop : Ran s .nop s none
  | bwInit : Ran s .bwInit
      { s with bw := { active := true, base := s.dst, cap := s.dcap, bits := 0#32, acc := 0#8 } } none
  | bwWrite (n : Nat) (m : Memory) (acc : Byte)
      (written : bwWriteBody n s = State.finish none { s with
        mem := m, bw := { s.bw with bits := s.bw.bits + BitVec.ofNat 32 n, acc := acc } }) :
      Ran s (.bwWrite n) { s with
        mem := m, bw := { s.bw with bits := s.bw.bits + BitVec.ofNat 32 n, acc := acc } } none
  | bwFinish : Ran s .bwFinish { s with
        mem := s.flushPartial.mem
        hbits := s.bw.bits
        olen := BitVec.ofNat 32 (ceil8 s.bw.bits.toNat)
        bw := { s.bw with acc := 0#8, active := false } } none
  | brInit : Ran s .brInit { s with
        decValid := false
        br := { active := true, base := s.src, bytes := s.slen, pos := 0#32 } } none
  | brReadbit (r : BitReader) (v : Word) (read : s.br.Follows s.readByte r) :
      Ran s .brReadbit { s with br := r, result := v } none
  | brPeek (k : Nat) (v : Word) (n : BitVec 6) : Ran s (.brPeek k) { s with result := v, peekn := n } none
  | brAssert : Ran s .brAssert s none
  | brAssertError (e : CmdError) :
      Ran s .brAssert { s with br := { s.br with active := false }, decValid := false } (some e)
  | bwtFwd (bs : List Byte) (p : Word) (fits : bs.length ≤ s.dcap.toNat) :
      Ran s .bwtFwd { s with mem := s.mem.writeRun s.dst.toNat bs, pi := p, olen := s.slen } none
  | bwtInv (bs : List Byte) (fits : bs.length ≤ s.dcap.toNat) :
      Ran s .bwtInv { s with mem := s.mem.writeRun s.dst.toNat bs, olen := s.slen } none
  | mtfEnc (bs : List Byte) (fits : bs.length ≤ s.dcap.toNat) :
      Ran s .mtfEnc { s with mem := s.mem.writeRun s.dst.toNat bs, olen := s.slen } none
  | mtfDec (bs : List Byte) (fits : bs.length ≤ s.dcap.toNat) :
      Ran s .mtfDec { s with mem := s.mem.writeRun s.dst.toNat bs, olen := s.slen } none
  | rle0Enc (bs : List Byte) (n : Word) (fits : bs.length ≤ s.dcap.toNat) :
      Ran s .rle0Enc { s with mem := s.mem.writeRun s.dst.toNat bs, olen := n, rlelen := n } none
  | rle0EncError (e : CmdError) :
      Ran s .rle0Enc { s with
        mem := s.mem.writeRun s.dst.toNat (freeBytes s.draws s.dcap.toNat)
        draws := s.draws + s.dcap.toNat } (some e)
  | hufHist (f : Table Word) : Ran s .hufHist { s with freq := f } none
  | hufBuild (l : Table Byte) :
      Ran s .hufBuild { s with decValid := false, canonValid := false, len := l } none
  | hufBuildError (e : CmdError) :
      Ran s .hufBuild { s with decValid := false, canonValid := false } (some e)
  | hufCanon (l : Table Byte) (t : Canon) (table : canonTable s.params.maxCodeLen l = .ok (l, t)) :
      Ran s .hufCanon { s with decValid := false, len := l, canon := t, canonValid := true } none
  | hufCanonError (e : CmdError) :
      Ran s .hufCanon { s with decValid := false, canonValid := false } (some e)
  | hufStartDec (l : Table Byte) (t : Canon) (table : canonTable s.params.maxCodeLen l = .ok (l, t)) :
      Ran s .hufStartDec { s with
        len := l, canon := t, canonValid := true, decValid := true
        br := { s.payloadReader with active := true } } none
  | hufStartDecError (e : CmdError) :
      Ran s .hufStartDec { s with decValid := false, canonValid := false } (some e)
  | hufDecOne (r : BitReader) (v : Word) (moved : s.br.Moves r) (read : s.br.Small → s.br.Follows s.readByte r) :
      Ran s .hufDecOne { s with br := r, result := v } none
  | hufDecOneError (r : BitReader) (e : CmdError) (moved : s.br.Moves r)
      (read : s.br.Small → s.br.Follows s.readByte r) :
      Ran s .hufDecOne { s with br := { r with active := false }, decValid := false } (some e)
  | encode (i : Instr) (which : i = .hufEnc ∨ i = .pipeEnc) (p : Payload) (row n : Word)
      (fits : p.size ≤ s.dcap.toNat) (table : canonTable s.params.maxCodeLen p.len = .ok (p.len, p.table)) :
      Ran s i { s with
        mem := s.mem.writeRun s.dst.toNat p.bytes
        freq := tabulate fun x => BitVec.ofNat 32 (entry p.freq x)
        len := p.len, canon := p.table, canonValid := true, decValid := false
        pi := row, rlelen := n
        hbits := BitVec.ofNat 32 p.bits.length
        olen := BitVec.ofNat 32 p.size
        bw := {
          active := false, base := s.dst + 256#32, cap := s.dcap - 256#32
          bits := BitVec.ofNat 32 p.bits.length, acc := 0#8 } } none
  | encodeError (i : Instr) (which : i = .hufEnc ∨ i = .pipeEnc) (e : CmdError) :
      Ran s i { s with
        mem := s.mem.writeRun s.dst.toNat (freeBytes s.draws s.dcap.toNat)
        draws := s.draws + s.dcap.toNat, canonValid := false, decValid := false
        bw := { s.bw with active := false } } (some e)
  | decode (i : Instr) (which : i = .hufDecRle ∨ i = .pipeDec) (bs : List Byte) (l : Table Byte) (t : Canon)
      (r : BitReader) (n : Word) (fits : bs.length ≤ s.dcap.toNat)
      (table : canonTable s.params.maxCodeLen l = .ok (l, t)) (moved : s.payloadReader.Moves r)
      (read : s.payloadReader.Small → s.payloadReader.Follows s.readByte r) :
      Ran s i { s with
        mem := s.mem.writeRun s.dst.toNat bs, len := l, canon := t, canonValid := true, decValid := false
        br := r, symcount := n, olen := s.nlen } none
  | decodeHeaderError (i : Instr) (which : i = .hufDecRle ∨ i = .pipeDec) (e : CmdError)
      (kind : e.kind = .badLengths) :
      Ran s i { s with
        mem := s.mem.writeRun s.dst.toNat (freeBytes s.draws s.dcap.toNat)
        draws := s.draws + s.dcap.toNat, canonValid := false, decValid := false
        br := { s.br with active := false } } (some e)
  | decodeStreamError (i : Instr) (which : i = .hufDecRle ∨ i = .pipeDec) (e : CmdError)
      (kind : CorruptStream e.kind) (r : BitReader) (moved : s.payloadReader.Moves r)
      (read : s.payloadReader.Small → s.payloadReader.Follows s.readByte r) :
      Ran s i { s with
        mem := s.mem.writeRun s.dst.toNat (freeBytes s.draws s.dcap.toNat)
        draws := s.draws + s.dcap.toNat, canonValid := false, decValid := false
        br := r } (some e)

/-- A body's outcome as `Ran` lists them. -/
def RunsTo (i : Instr) (s t : State) : Prop := ∃ u o, Ran s i u o ∧ t = u.finish o

section
variable {s : State}

theorem bwWriteBody_runs (n : Nat) : RunsTo (.bwWrite n) s (bwWriteBody n s) :=
  ⟨_, _, .bwWrite n _ _ (bwWriteBody_eq n s), bwWriteBody_eq n s⟩

theorem bwFinishBody_runs : RunsTo .bwFinish s (bwFinishBody s) := by
  refine ⟨_, _, .bwFinish, ?_⟩
  unfold bwFinishBody
  rw [State.flushPartial_eq]
  rfl

theorem brReadbitBody_runs : RunsTo .brReadbit s (brReadbitBody s) := by
  have hread := s.br.readBit_follows s.readByte
  unfold brReadbitBody
  rcases hr : s.br.readBit s.readByte with ⟨_ | b, r⟩ <;> rw [hr] at hread
  · exact ⟨_, _, .brReadbit r _ hread, rfl⟩
  · exact ⟨_, _, .brReadbit r _ hread, rfl⟩

theorem brAssertBody_runs : RunsTo .brAssert s (brAssertBody s) := by
  unfold brAssertBody
  split
  next e _ => exact ⟨_, _, .brAssertError e, rfl⟩
  next => exact ⟨_, _, .brAssert, rfl⟩

theorem rle0EncBody_runs : RunsTo .rle0Enc s (rle0EncBody s) := by
  unfold rle0EncBody
  dsimp only
  split
  next => exact ⟨_, _, .rle0EncError _, rfl⟩
  next hfit => exact ⟨_, _, .rle0Enc _ _ (Nat.not_lt.mp hfit), rfl⟩

theorem hufBuildBody_runs : RunsTo .hufBuild s (hufBuildBody s) := by
  cases h : buildLengths s.params.maxCodeLen (tabulate fun x => (entry s.freq x).toNat) with
  | error e => exact ⟨_, _, .hufBuildError e, hufBuildBody_of_error h⟩
  | ok l => exact ⟨_, _, .hufBuild l, hufBuildBody_of_ok h⟩

theorem hufCanonBody_runs : RunsTo .hufCanon s (hufCanonBody s) := by
  cases h : canonTable s.params.maxCodeLen s.len with
  | error e => exact ⟨_, _, .hufCanonError e, hufCanonBody_of_error h⟩
  | ok lt => exact ⟨_, _, .hufCanon lt.1 lt.2 (canonTable_again h), hufCanonBody_of_ok h⟩

theorem hufEncBody_runs : RunsTo .hufEnc s (hufEncBody s) := by
  rcases hufEncBody_cases s with ⟨e, -, hbody⟩ | ⟨p, hp, hbody⟩
  · exact ⟨_, _, .encodeError _ (.inl rfl) e, hbody.trans (State.failTables_eq _ _)⟩
  · obtain ⟨hfit, -, -, l, -, htable⟩ := fitPayload_ok hp
    refine ⟨_, none, .encode _ (.inl rfl) p s.pi s.rlelen hfit (canonTable_again htable), ?_⟩
    rw [hbody, State.storePayload]
    rfl

theorem pipeEncBody_runs : RunsTo .pipeEnc s (pipeEncBody s) := by
  rcases pipeEncBody_cases s with ⟨e, -, hbody⟩ | ⟨p, hp, hbody⟩
  · exact ⟨_, _, .encodeError _ (.inr rfl) e, hbody.trans (State.failTables_eq _ _)⟩
  · obtain ⟨hfit, -, -, l, -, htable⟩ := fitPayload_ok hp
    refine ⟨_, none, .encode _ (.inr rfl) p (BitVec.ofNat 32 (bwtForward s.source).2)
      (BitVec.ofNat 32 (pipeFront s.source).length) hfit (canonTable_again htable), ?_⟩
    rw [hbody, State.storePayload]
    rfl

theorem openPayload_of_error {e : CmdError} (h : canonTable s.params.maxCodeLen s.header = .error e) :
    s.openPayload = .error e := by
  unfold State.header at h
  rw [State.openPayload, h]

theorem openPayload_of_ok {l : Table Byte} {t : Canon}
    (h : canonTable s.params.maxCodeLen s.header = .ok (l, t)) :
    s.openPayload = .ok (l, t, { s.payloadReader with active := s.br.active }) := by
  unfold State.header at h
  rw [State.openPayload, h]
  rfl

theorem hufStartDecBody_of_error {e : CmdError} (h : canonTable s.params.maxCodeLen s.header = .error e) :
    hufStartDecBody s = s.dropDecoder.dropCanon.raiseError e := by
  have hopen : s.dropDecoder.openPayload = .error e := openPayload_of_error h
  unfold hufStartDecBody
  dsimp only
  rw [hopen]

theorem hufStartDecBody_of_ok {l : Table Byte} {t : Canon}
    (h : canonTable s.params.maxCodeLen s.header = .ok (l, t)) :
    hufStartDecBody s = State.complete
      { s.setCanon l t with br := { s.payloadReader with active := true }, decValid := true } := by
  have hopen : s.dropDecoder.openPayload = .ok (l, t, { s.payloadReader with active := s.br.active }) :=
    openPayload_of_ok h
  unfold hufStartDecBody
  dsimp only
  rw [hopen]
  rfl

theorem hufStartDecBody_runs : RunsTo .hufStartDec s (hufStartDecBody s) := by
  cases h : canonTable s.params.maxCodeLen s.header with
  | error e => exact ⟨_, _, .hufStartDecError e, hufStartDecBody_of_error h⟩
  | ok lt => exact ⟨_, _, .hufStartDec lt.1 lt.2 (canonTable_again h), hufStartDecBody_of_ok h⟩

theorem hufDecOneBody_runs : RunsTo .hufDecOne s (hufDecOneBody s) := by
  have hmoved := decodeSymbol_moves s.readByte s.canon s.br
  have hread := fun hsmall => decodeSymbol_follows s.readByte s.canon (r := s.br) hsmall
  unfold hufDecOneBody
  generalize decodeSymbol s.readByte s.canon s.br = a at hmoved hread
  rcases a with ⟨e | x, r⟩
  · exact ⟨_, _, .hufDecOneError r e hmoved hread, rfl⟩
  · exact ⟨_, _, .hufDecOne r _ hmoved hread, rfl⟩

/-- The three outcomes of the decoding commands. -/
theorem decodePayload_runs {i : Instr} (hi : i = .hufDecRle ∨ i = .pipeDec) (post : List Byte → List Byte)
    (hpost : ∀ ranks, (post ranks).length = ranks.length) (hfits : s.nlen.toNat ≤ s.dcap.toNat) :
    RunsTo i s (s.decodePayload post) := by
  rcases State.decodePayload_cases post s with ⟨e, htable, hbody⟩ | ⟨l, t, htable, hrest⟩
  · exact ⟨_, _, .decodeHeaderError i hi e (canonTable_error_kind htable),
      hbody.trans (State.failTables_eq _ _)⟩
  · have hmoved := (s.rleJob t).run_moves s.hbits.toNat s.payloadReader
    have hread := fun hsmall => (s.rleJob t).run_follows s.hbits.toNat (r := s.payloadReader) hsmall
    rcases hrest with ⟨e, he, hbody⟩ | ⟨ranks, cnt, hok, hbody⟩
    · exact ⟨_, _, .decodeStreamError i hi e (RleJob.run_error he) _ hmoved hread,
        hbody.trans (State.failTables_eq _ _)⟩
    · obtain ⟨-, -, -, hlen, -, -⟩ := RleJob.run_ok _ hok
      have hlen : (post ranks).length ≤ s.dcap.toNat := by rw [hpost, hlen]; exact hfits
      refine ⟨_, none, .decode i hi (post ranks) l t _ (BitVec.ofNat 32 cnt) hlen (canonTable_again htable)
        hmoved hread, ?_⟩
      rw [hbody, State.setCanon, State.writeBytes]
      rfl

/-- What a command can do when its checks pass. -/
theorem commandBody_runs {i : Instr} (h : PassesChecks i s) : RunsTo i s (commandBody i s) := by
  have hslen : checkFits s s.slen ∈ operandChecks i s → s.slen.toNat ≤ s.dcap.toNat := fun hmem => by
    simpa using h _ hmem
  have hnlen : checkFits s s.nlen ∈ operandChecks i s → s.nlen.toNat ≤ s.dcap.toNat := fun hmem => by
    simpa using h _ hmem
  cases i with
  | nop => exact ⟨_, _, .nop, rfl⟩
  | bwInit => exact ⟨_, _, .bwInit, rfl⟩
  | bwWrite n => exact bwWriteBody_runs n
  | bwFinish => exact bwFinishBody_runs
  | brInit => exact ⟨_, _, .brInit, rfl⟩
  | brReadbit => exact brReadbitBody_runs
  | brPeek k => exact ⟨_, _, .brPeek k _ _, rfl⟩
  | brAssert => exact brAssertBody_runs
  | bwtFwd =>
    have := hslen (by simp [operandChecks, bwtFwdChecks])
    exact ⟨_, _, .bwtFwd (bwtForward s.source).1 _ (by simpa), rfl⟩
  | bwtInv =>
    have := hslen (by simp [operandChecks, bwtInvChecks])
    exact ⟨_, _, .bwtInv (bwtInverse s.source s.pi.toNat) (by simpa), rfl⟩
  | mtfEnc =>
    have := hslen (by simp [operandChecks, mtfEncChecks])
    exact ⟨_, _, .mtfEnc (mtfEncode s.source) (by simpa), rfl⟩
  | mtfDec =>
    have := hslen (by simp [operandChecks, mtfDecChecks])
    exact ⟨_, _, .mtfDec (mtfDecode s.source) (by simpa), rfl⟩
  | rle0Enc => exact rle0EncBody_runs
  | hufHist => exact ⟨_, _, .hufHist _, rfl⟩
  | hufBuild => exact hufBuildBody_runs
  | hufCanon => exact hufCanonBody_runs
  | hufEnc => exact hufEncBody_runs
  | hufStartDec => exact hufStartDecBody_runs
  | hufDecOne => exact hufDecOneBody_runs
  | hufDecRle =>
    exact decodePayload_runs (.inl rfl) id (fun _ => rfl) (hnlen (by simp [operandChecks, hufDecRleChecks]))
  | pipeEnc => exact pipeEncBody_runs
  | pipeDec =>
    exact decodePayload_runs (.inr rfl) _ (by simp) (hnlen (by simp [operandChecks, pipeDecChecks]))

end

/-- What a command answers: the report of a failed check, or what `Ran` lists. -/
theorem exec_runs {i : Instr} {s t : State} (h : exec i s = .next t) :
    (∃ e, ¬ PassesChecks i s ∧ t = (failEffects i s).raiseError e) ∨ (PassesChecks i s ∧ RunsTo i s t) := by
  rcases exec_cases h with ⟨e, he, ht⟩ | ⟨hnone, ht⟩
  · refine .inl ⟨e, fun hpass => ?_, ht⟩
    rw [passesChecks_iff.mp hpass] at he
    cases he
  · have hpass := passesChecks_iff.mpr hnone
    exact .inr ⟨hpass, ht ▸ commandBody_runs hpass⟩

/-! ## Completion and frames -/

/-- What no command changes, and what it leaves to its end (10_state.md R27, R28, R30, R34). -/
structure KeepsHost (s t : State) : Prop where
  params : t.params = s.params := by rfl
  ie : t.ie = s.ie := by rfl
  ovr : t.ovr = s.ovr := by rfl
  cur : t.cur = s.cur := by rfl
  src : t.src = s.src := by rfl
  slen : t.slen = s.slen := by rfl
  dst : t.dst = s.dst := by rfl
  dcap : t.dcap = s.dcap := by rfl
  nlen : t.nlen = s.nlen := by rfl
  bwcode : t.bwcode = s.bwcode := by rfl
  inReset : t.inReset = s.inReset := by rfl
  pending : t.pending = s.pending := by rfl
  replies : t.replies = s.replies := by rfl
  epoch : t.epoch = s.epoch := by rfl
  done : t.done = s.done := by rfl
  err : t.err = s.err := by rfl
  errcode : t.errcode = s.errcode := by rfl
  errinfo : t.errinfo = s.errinfo := by rfl

theorem Ran.keepsHost {s u : State} {i : Instr} {o : Option CmdError} (h : Ran s i u o) : KeepsHost s u := by
  cases h <;> exact {}

theorem failEffects_keepsHost (i : Instr) (s : State) : KeepsHost s (failEffects i s) := by
  rcases failEffects_cases i s with h | h | h <;> rw [h] <;> exact {}

/-- Every command ends a state that keeps what `KeepsHost` lists. -/
theorem exec_finish {i : Instr} {s t : State} (h : exec i s = .next t) :
    ∃ u o, KeepsHost s u ∧ t = u.finish o := by
  rcases exec_runs h with ⟨e, -, rfl⟩ | ⟨-, u, o, hran, rfl⟩
  · exact ⟨_, some e, failEffects_keepsHost i s, rfl⟩
  · exact ⟨u, o, hran.keepsHost, rfl⟩

/-- Settles O6: a command ends by `complete` or by `raiseError`, its body having left the report alone. -/
theorem everyCommandCompletes : Obligations.EveryCommandCompletes := by
  intro i s hdone herr hcode hinfo
  obtain ⟨t, ht⟩ := exec_next i s
  obtain ⟨u, o, hkeep, rfl⟩ := exec_finish ht
  refine ⟨_, ht, ?_⟩
  cases o with
  | none => exact ⟨rfl, .inl ⟨rfl, hkeep.err.trans herr, hkeep.errcode.trans hcode, hkeep.errinfo.trans hinfo⟩⟩
  | some e => exact ⟨rfl, .inr ⟨hkeep.done.trans hdone, rfl, e.kind, rfl⟩⟩

/-- Settles O7: neither the body nor the end of a command writes any of these. -/
theorem commandsKeepTheHostsRegisters : Obligations.CommandsKeepTheHostsRegisters := by
  intro i s t h
  obtain ⟨u, o, hkeep, rfl⟩ := exec_finish h
  cases o <;>
    exact ⟨hkeep.params, hkeep.ie, hkeep.ovr, hkeep.cur, hkeep.src, hkeep.slen, hkeep.dst, hkeep.dcap,
      hkeep.nlen, hkeep.bwcode, hkeep.inReset, hkeep.pending, hkeep.replies, hkeep.epoch⟩

/-! ## The valid bits (10_state.md R53) -/

theorem failEffects_canonValid (i : Instr) (s : State) : (failEffects i s).canonValid = s.canonValid := by
  rcases failEffects_cases i s with h | h | h <;> rw [h] <;> rfl

theorem failEffects_decValid (i : Instr) (s : State) :
    (failEffects i s).decValid = (s.decValid && !readsStepwise i) := by
  cases i <;> simp [failEffects, readsStepwise, State.dropReading]

/-- CANON_VALID after a body. -/
theorem Ran.canonValid {s u : State} {i : Instr} {o : Option CmdError} (h : Ran s i u o) :
    u.canonValid = if i = .hufBuild then false
      else if setsCanon i = true then o.isNone else s.canonValid := by
  cases h with
  | encode _ which | encodeError _ which | decode _ which | decodeHeaderError _ which
  | decodeStreamError _ which => rcases which with rfl | rfl <;> rfl
  | _ => rfl

/-- DEC_VALID after a body. -/
theorem Ran.decValid {s u : State} {i : Instr} {o : Option CmdError} (h : Ran s i u o) :
    u.decValid = if readsStepwise i = true then s.decValid && o.isNone
      else if i = .hufStartDec then o.isNone
      else if i = .brInit ∨ i = .hufBuild ∨ setsCanon i = true then false else s.decValid := by
  cases h with
  | encode _ which | encodeError _ which | decode _ which | decodeHeaderError _ which
  | decodeStreamError _ which => rcases which with rfl | rfl <;> rfl
  | brReadbit | brPeek | brAssert | hufDecOne => exact (Bool.and_true _).symm
  | brAssertError | hufDecOneError => exact (Bool.and_false _).symm
  | _ => rfl

/-- ERR after a command tells whether it ended with an error. -/
theorem KeepsHost.finish_err {s u : State} (h : KeepsHost s u) (herr : s.err = false) (o : Option CmdError) :
    (u.finish o).err = o.isSome := by
  cases o with
  | none => exact h.err.trans herr
  | some e => rfl

@[simp] theorem State.finish_canonValid (o : Option CmdError) (s : State) :
    (s.finish o).canonValid = s.canonValid := by
  cases o <;> rfl

@[simp] theorem State.finish_decValid (o : Option CmdError) (s : State) :
    (s.finish o).decValid = s.decValid := by
  cases o <;> rfl

@[simp] theorem State.finish_bw (o : Option CmdError) (s : State) : (s.finish o).bw = s.bw := by
  cases o <;> rfl

@[simp] theorem State.finish_br (o : Option CmdError) (s : State) : (s.finish o).br = s.br := by
  cases o <;> rfl

/-- Settles O9: the valid bits after a failed check and after each body. -/
theorem canonAndDecoderValidChangeAsListed : Obligations.CanonAndDecoderValidChangeAsListed := by
  intro i s t herr h
  rcases exec_runs h with ⟨e, hfail, rfl⟩ | ⟨hpass, u, o, hran, rfl⟩
  · have hdec := failEffects_decValid i s
    refine ⟨fun _ => failEffects_canonValid i s, fun hpass => absurd hpass hfail, fun hr => ?_,
      fun hr _ => ?_, fun _ hpass => absurd hpass hfail⟩
    · rw [State.raiseError_decValid, State.raiseError_err, hdec, hr]
    · rw [State.raiseError_decValid, hdec, hr, Bool.not_false, Bool.and_true]
  · have hcanon := hran.canonValid
    have hdec := hran.decValid
    have hend : (!(u.finish o).err) = o.isNone := by
      rw [hran.keepsHost.finish_err herr]
      cases o <;> rfl
    rw [State.finish_canonValid, State.finish_decValid, hend]
    refine ⟨fun hfail => absurd hpass hfail, fun _ => hcanon, fun hr => ?_,
      fun _ hfail => absurd hpass hfail, fun hr _ => ?_⟩
    · rw [hdec, if_pos hr]
    · rw [hdec, hr, if_neg Bool.false_ne_true]

/-- Settles O10: BW_ACTIVE and BR_ACTIVE after a failed check and after each body. -/
theorem writerAndReaderActiveChangeAsListed : Obligations.WriterAndReaderActiveChangeAsListed := by
  intro i s t herr h
  rcases exec_runs h with ⟨e, hfail, rfl⟩ | ⟨hpass, u, o, hran, rfl⟩
  · have hfirst : (firstFailure (operandChecks i s)).isNone = false := by
      rw [Option.isNone_eq_false_iff, Option.isSome_iff_ne_none]
      exact fun hnone => hfail (passesChecks_iff.mpr hnone)
    cases i <;> simp [failEffects, State.dropReading, hfirst]
  · have hfirst := passesChecks_iff.mp hpass
    rw [State.finish_bw, State.finish_br, hran.keepsHost.finish_err herr]
    cases hran with
    | encode _ which | encodeError _ which => rcases which with rfl | rfl <;> simp [hfirst]
    | decode _ which _ _ _ _ _ _ _ moved | decodeStreamError _ which _ _ _ moved =>
      rcases which with rfl | rfl <;> simp [hfirst, moved.active, State.payloadReader]
    | decodeHeaderError _ which => rcases which with rfl | rfl <;> simp [hfirst]
    | brReadbit _ _ read => simp [read.active]
    | hufDecOne _ _ moved => simp [moved.active]
    | _ => simp

/-! ## What an error leaves (60_exceptions.md R269) -/

/-- The registers and tables that a command writes at its end, and the BitWriter but BW_ACTIVE. -/
structure KeepsOutputs (s t : State) : Prop where
  pi : t.pi = s.pi := by rfl
  hbits : t.hbits = s.hbits := by rfl
  rlelen : t.rlelen = s.rlelen := by rfl
  olen : t.olen = s.olen := by rfl
  result : t.result = s.result := by rfl
  peekn : t.peekn = s.peekn := by rfl
  symcount : t.symcount = s.symcount := by rfl
  freq : t.freq = s.freq := by rfl
  len : t.len = s.len := by rfl
  canon : t.canon = s.canon := by rfl
  bw : t.bw = { s.bw with active := t.bw.active } := by rfl

theorem Ran.keepsOutputs {s u : State} {i : Instr} {e : CmdError} (h : Ran s i u (some e)) :
    KeepsOutputs s u := by
  cases h <;> exact {}

theorem failEffects_keepsOutputs (i : Instr) (s : State) : KeepsOutputs s (failEffects i s) := by
  rcases failEffects_cases i s with h | h | h <;> rw [h] <;> exact {}

/-- The reader after an error in a body: an error of HUF_DEC_ONE moves it, and one of the decoding commands
leaves the one that the payload's header opened. -/
theorem Ran.errorReader {s u : State} {i : Instr} {e : CmdError} (h : Ran s i u (some e)) :
    (i ≠ .hufDecOne → i ≠ .hufDecRle → i ≠ .pipeDec → u.br = { s.br with active := u.br.active })
      ∧ (i = .hufDecOne → u.br = { s.br with active := false, pos := u.br.pos })
      ∧ (i = .hufDecRle ∨ i = .pipeDec →
        (e.kind.code = 0x11#8 → u.br = { s.br with active := false })
        ∧ (e.kind.code ≠ 0x11#8 → u.br = { s.payloadReader with pos := u.br.pos })) := by
  cases h with
  | hufDecOneError r e moved =>
    refine ⟨fun hne => absurd rfl hne, fun _ => ?_, by simp⟩
    simp [moved.base, moved.bytes]
  | encodeError _ which => rcases which with rfl | rfl <;> simp
  | decodeHeaderError _ which _ kind =>
    rcases which with rfl | rfl <;> simp [kind, ErrKind.code]
  | decodeStreamError _ which _ kind r moved =>
    have hcode : e.kind.code ≠ 0x11#8 := by
      rcases kind with h | h | h | h | h | h | h <;> rw [h] <;> decide
    rcases which with rfl | rfl <;>
      exact ⟨by simp, by simp, fun _ => ⟨fun h => absurd h hcode, fun _ => moved.eq⟩⟩
  | _ => simp

/-- A command without a destination writes no MEM when it fails. -/
theorem Ran.errorMem {s u : State} {i : Instr} {e : CmdError} (h : Ran s i u (some e))
    (hi : hasDest i = false) : u.mem = s.mem ∧ u.draws = s.draws := by
  cases h with
  | encodeError _ which | decodeHeaderError _ which | decodeStreamError _ which =>
    rcases which with rfl | rfl <;> cases hi
  | rle0EncError => cases hi
  | _ => exact ⟨rfl, rfl⟩

theorem failEffects_br (i : Instr) (s : State) :
    (failEffects i s).br = { s.br with active := (failEffects i s).br.active } := by
  rcases failEffects_cases i s with h | h | h <;> rw [h] <;> rfl

theorem failEffects_mem (i : Instr) (s : State) :
    (failEffects i s).mem = s.mem ∧ (failEffects i s).draws = s.draws := by
  rcases failEffects_cases i s with h | h | h <;> rw [h] <;> exact ⟨rfl, rfl⟩

/-- Settles O12: a failed check changes no more than the valid bits, a failing body no more than `Ran` lists. -/
theorem failedCommandsChangeOnlyTheReport : Obligations.FailedCommandsChangeOnlyTheReport := by
  intro i s t herr h hterr
  rcases exec_runs h with ⟨e, hfail, rfl⟩ | ⟨hpass, u, o, hran, rfl⟩
  · obtain ⟨hpi, hhbits, hrlelen, holen, hresult, hpeekn, hsym, hfreq, hlen, hcanon, hbw⟩ :=
      failEffects_keepsOutputs i s
    have hbr := failEffects_br i s
    refine ⟨(failEffects_keepsHost i s).done, hpi, hhbits, hrlelen, holen, hresult, hpeekn, hsym, hfreq, hlen,
      hcanon, hbw, fun _ _ _ => hbr, fun _ => hbr, fun hi => ?_, fun _ hpass => absurd hpass hfail,
      fun _ => failEffects_mem i s⟩
    subst hi
    rfl
  · rw [hran.keepsHost.finish_err herr] at hterr
    obtain ⟨e, rfl⟩ := Option.isSome_iff_exists.mp hterr
    obtain ⟨hpi, hhbits, hrlelen, holen, hresult, hpeekn, hsym, hfreq, hlen, hcanon, hbw⟩ := hran.keepsOutputs
    obtain ⟨hother, hone, hdecode⟩ := hran.errorReader
    exact ⟨hran.keepsHost.done, hpi, hhbits, hrlelen, holen, hresult, hpeekn, hsym, hfreq, hlen, hcanon, hbw,
      hother, fun hfail => absurd hpass hfail, hone, fun hi _ => hdecode hi,
      fun hor => hran.errorMem (hor.resolve_left fun hfail => hfail hpass)⟩

/-! ## Where a command writes MEM (20_memory.md R75) -/

/-- What a body does to MEM, the BitWriter's commands apart: a command with a destination writes a run of bytes
in it, the others nothing. -/
theorem Ran.mem {s u : State} {i : Instr} {o : Option CmdError} (h : Ran s i u o) (hfinish : i ≠ .bwFinish)
    (hwrite : ∀ n, i ≠ .bwWrite n) :
    (hasDest i = true ∧ ∃ bs, bs.length ≤ s.dcap.toNat ∧ u.mem = s.mem.writeRun s.dst.toNat bs)
      ∨ u.mem = s.mem := by
  cases h with
  | bwFinish => exact absurd rfl hfinish
  | bwWrite n => exact absurd rfl (hwrite n)
  | bwtFwd bs _ fits => exact .inl ⟨rfl, bs, fits, rfl⟩
  | bwtInv bs fits | mtfEnc bs fits | mtfDec bs fits | rle0Enc bs _ fits => exact .inl ⟨rfl, bs, fits, rfl⟩
  | rle0EncError => exact .inl ⟨rfl, _, (freeBytes_length _ _).le, rfl⟩
  | encode _ which p _ _ fits =>
    have hsize : p.bytes.length = p.size := by simp [Payload.bytes, Payload.size]
    exact .inl ⟨by rcases which with rfl | rfl <;> rfl, p.bytes, hsize.trans_le fits, rfl⟩
  | decode _ which bs _ _ _ _ fits => exact .inl ⟨by rcases which with rfl | rfl <;> rfl, bs, fits, rfl⟩
  | encodeError _ which | decodeHeaderError _ which | decodeStreamError _ which =>
    exact .inl ⟨by rcases which with rfl | rfl <;> rfl, _, (freeBytes_length _ _).le, rfl⟩
  | _ => exact .inr rfl

/-- The third check of BW_WRITE passed. -/
theorem fits_of_passes {s : State} {n : Nat} (h : PassesChecks (.bwWrite n) s) :
    ceil8 (s.bw.bits.toNat + n) ≤ s.bw.cap.toNat := by
  have hall : ∀ c ∈ bwWriteChecks n s, c.fails = false := h
  simp only [bwWriteChecks, List.forall_mem_cons] at hall
  simpa using hall.2.2

theorem bwFinishBody_readByte_outside {s : State} (hw : s.bw.Ok s.params) {x : Nat}
    (hx : ¬ (s.bw.base.toNat ≤ x ∧ x < s.bw.base.toNat + s.bw.cap.toNat)) :
    (bwFinishBody s).readByte x = s.readByte x := by
  have hfits := hw.fits
  have hceil := ceil8_bounds s.bw.bits.toNat
  exact (bwFinishBody_wrote s).2 x (by split <;> simp <;> omega)

/-- A body writes MEM inside the region of its command only. -/
theorem Ran.readByte_outside {s u : State} {i : Instr} {o : Option CmdError} (h : Ran s i u o)
    (hp : s.params.legal = true) (hw : s.bw.Ok s.params) (hpass : PassesChecks i s) {x : Nat}
    (hdest : hasDest i = true → ¬ (s.dst.toNat ≤ x ∧ x < s.dst.toNat + s.dcap.toNat))
    (hwriter : i = .bwFinish ∨ (∃ n, i = .bwWrite n) →
      ¬ (s.bw.base.toNat ≤ x ∧ x < s.bw.base.toNat + s.bw.cap.toNat)) :
    u.readByte x = s.readByte x := by
  by_cases hwriting : i = .bwFinish ∨ ∃ n, i = .bwWrite n
  · have hout := hwriter hwriting
    rcases hwriting with rfl | ⟨n, rfl⟩
    · cases h with
      | bwFinish =>
        refine (State.readByte_congr (s := bwFinishBody s) ?_ ?_ x).trans (bwFinishBody_readByte_outside hw hout)
        · rfl
        · show s.epoch = s.flushPartial.epoch
          rw [State.flushPartial_eq]
      | encode _ which | encodeError _ which | decode _ which | decodeHeaderError _ which
      | decodeStreamError _ which => simp at which
    · cases h with
      | encode _ which | encodeError _ which | decode _ which | decodeHeaderError _ which
      | decodeStreamError _ which => simp at which
      | bwWrite _ m acc written =>
        have hfit := fits_of_passes hpass
        have hframe := (bwWriteBody_appends hp hw hfit).frame x
        rw [written, codeBits_length] at hframe
        have hceil := ceil8_bounds (s.bw.bits.toNat + n)
        exact hframe (by omega)
  · rcases h.mem (fun hi => hwriting (.inl hi)) (fun n hi => hwriting (.inr ⟨n, hi⟩)) with
      ⟨hi, bs, hfit, hm⟩ | hm
    · have hout := hdest hi
      exact State.readByte_outside hm h.keepsHost.epoch (by omega)
    · exact State.readByte_congr hm h.keepsHost.epoch x

theorem State.finish_readByte (o : Option CmdError) (s : State) (x : Nat) :
    (s.finish o).readByte x = s.readByte x := by
  cases o <;> rfl

theorem SameMem.failEffects (i : Instr) (s : State) : SameMem s (failEffects i s) :=
  State.readByte_congr (failEffects_mem i s).1 (failEffects_keepsHost i s).epoch

/-- Settles O8: a body writes inside its region, and a failed check writes nothing. -/
theorem commandsWriteOnlyTheirRegion : Obligations.CommandsWriteOnlyTheirRegion := by
  intro i s t hp hw h
  rcases exec_runs h with ⟨e, hfail, rfl⟩ | ⟨hpass, u, o, hran, rfl⟩
  · exact ⟨fun x _ => SameMem.failEffects i s x, fun _ => SameMem.failEffects i s⟩
  · refine ⟨fun x hx => ?_, fun hfail => absurd hpass hfail⟩
    rw [State.finish_readByte]
    exact hran.readByte_outside hp hw hpass (fun hi hin => hx (.inl ⟨hi, hin⟩))
      fun hi hin => hx (.inr ⟨hi, hin⟩)

end Sys2Proof.Machine
end

-- Proofs of the statements about the BWT, move-to-front and zero-run stages (41_bwt.md, 42_mtf.md, 43_rle0.md).
section
/-! PROOFS. The statements about the stages of the pipeline: the move-to-front recoder and its inverse, the
zero-run code and its expansion, the sorted rotations and the backward walk, and the commands that write them. -/

namespace Sys2Proof.Machine

/-! ## Move-to-front -/

/-- As `MtfRelated`, from the table `t` (42_mtf.md R150, R151, R152). -/
def FollowsTable (t bytes ranks : List Byte) : Prop :=
  ranks.length = bytes.length ∧ ∃ table : Nat → List Byte,
    table 0 = t
      ∧ ∀ i, i < bytes.length →
        let r := (ranks.getD i 0#8).toNat
        (table i)[r]? = some (bytes.getD i 0#8)
          ∧ table (i + 1) = bytes.getD i 0#8 :: ((table i).take r ++ (table i).drop (r + 1))

theorem mtfRelated_iff (bytes ranks : List Byte) : MtfRelated bytes ranks ↔ FollowsTable symbols bytes ranks :=
  Iff.rfl

theorem FollowsTable.nil (t : List Byte) : FollowsTable t [] [] :=
  ⟨rfl, fun _ => t, rfl, fun _ h => nomatch h⟩

/-- The tables of a run that starts at `t` and goes on as `table`. -/
def startTable (t : List Byte) (table : Nat → List Byte) : Nat → List Byte
  | 0 => t
  | i + 1 => table i

theorem FollowsTable.cons {t bytes ranks : List Byte} {b r : Byte} (hb : t[r.toNat]? = some b)
    (h : FollowsTable (moveToFront t r.toNat) bytes ranks) : FollowsTable t (b :: bytes) (r :: ranks) := by
  obtain ⟨hlen, table, hzero, hstep⟩ := h
  refine ⟨by simp [hlen], startTable t table, rfl, fun i hi => ?_⟩
  cases i with
  | zero => exact ⟨hb, by simp [startTable, hzero, moveToFront, hb]⟩
  | succ i => exact hstep i (by simpa using hi)

section
variable {t : List Byte}

theorem IsMtfTable.getElem?_idxOf (h : IsMtfTable t) (b : Byte) :
    t[(BitVec.ofNat 8 (t.idxOf b)).toNat]? = some b := by
  rw [BitVec.toNat_ofNat, Nat.mod_eq_of_lt (h.idxOf_lt b)]
  exact List.getElem?_idxOf (h.mem b)

theorem IsMtfTable.toNat_lt (h : IsMtfTable t) (r : Byte) : r.toNat < t.length := h.length ▸ r.isLt

theorem IsMtfTable.moveToFront_idxOf (h : IsMtfTable t) (b : Byte) :
    Machine.moveToFront t (t.idxOf b) = Machine.moveToFront t (BitVec.ofNat 8 (t.idxOf b)).toNat := by
  rw [BitVec.toNat_ofNat, Nat.mod_eq_of_lt (h.idxOf_lt b)]

theorem IsMtfTable.moveToFront_byte (h : IsMtfTable t) (r : Byte) :
    IsMtfTable (Machine.moveToFront t r.toNat) :=
  h.moveToFront r.isLt

/-- The byte at a rank has that rank: no byte stands twice in the table. -/
theorem IsMtfTable.idxOf_getD (h : IsMtfTable t) (r : Byte) : t.idxOf (t.getD r.toNat 0#8) = r.toNat := by
  rw [List.getD_eq_getElem _ _ (h.toNat_lt r)]
  exact h.nodup.idxOf_getElem _ _

theorem mtfEncodeFrom_follows (h : IsMtfTable t) (buf : List Byte) :
    FollowsTable t buf (mtfEncodeFrom t buf) := by
  induction buf generalizing t with
  | nil => exact .nil t
  | cons b bs ih =>
    rw [mtfEncodeFrom, h.moveToFront_idxOf]
    exact .cons (h.getElem?_idxOf b) (ih (h.moveToFront_byte _))

theorem mtfDecodeFrom_follows (h : IsMtfTable t) (ranks : List Byte) :
    FollowsTable t (mtfDecodeFrom t ranks) ranks := by
  induction ranks generalizing t with
  | nil => exact .nil t
  | cons r rs ih =>
    refine .cons ?_ (ih (h.moveToFront_byte r))
    rw [List.getElem?_eq_getElem (h.toNat_lt r), List.getD_eq_getElem _ _ (h.toNat_lt r)]

theorem mtfDecodeFrom_encodeFrom (h : IsMtfTable t) (buf : List Byte) :
    mtfDecodeFrom t (mtfEncodeFrom t buf) = buf := by
  induction buf generalizing t with
  | nil => rfl
  | cons b bs ih =>
    rw [mtfEncodeFrom, h.moveToFront_idxOf, mtfDecodeFrom, ih (h.moveToFront_byte _),
      List.getD_eq_getElem?_getD, h.getElem?_idxOf b, Option.getD_some]

theorem mtfEncodeFrom_decodeFrom (h : IsMtfTable t) (ranks : List Byte) :
    mtfEncodeFrom t (mtfDecodeFrom t ranks) = ranks := by
  induction ranks generalizing t with
  | nil => rfl
  | cons r rs ih =>
    rw [mtfDecodeFrom, mtfEncodeFrom, h.idxOf_getD r, ih (h.moveToFront_byte r), BitVec.ofNat_toNat,
      BitVec.setWidth_eq]

/-- After a byte its entry stands at index 0, so the next rank is 0 for the same byte only. -/
theorem mtfEncodeFrom_rank_zero (h : IsMtfTable t) (buf : List Byte) (i : Nat) (hi : i + 1 < buf.length) :
    (mtfEncodeFrom t buf).getD (i + 1) 0#8 = 0#8 ↔ buf.getD (i + 1) 0#8 = buf.getD i 0#8 := by
  induction buf generalizing t i with
  | nil => cases hi
  | cons b bs ih =>
    have hmoved := h.moveToFront (h.idxOf_lt b)
    cases i with
    | succ i => exact ih hmoved i (by simpa using hi)
    | zero =>
      obtain ⟨c, cs, rfl⟩ := List.exists_cons_of_length_pos (Nat.lt_of_succ_lt_succ hi)
      have hlt := hmoved.idxOf_lt c
      have hfront : Machine.moveToFront t (t.idxOf b) = b :: (t.take (t.idxOf b) ++ t.drop (t.idxOf b + 1)) := by
        simp [Machine.moveToFront, List.getElem?_idxOf (h.mem b)]
      have hzero : BitVec.ofNat 8 ((Machine.moveToFront t (t.idxOf b)).idxOf c) = 0#8
          ↔ (Machine.moveToFront t (t.idxOf b)).idxOf c = 0 := by
        rw [← BitVec.toNat_inj, BitVec.toNat_ofNat, Nat.mod_eq_of_lt hlt]
        rfl
      simp only [mtfEncodeFrom, List.getD_cons_succ, List.getD_cons_zero]
      rw [hzero, hfront]
      by_cases hbc : b = c
      · simp [hbc]
      · simp [hbc, Ne.symm hbc]

end

theorem mtfDecode_mtfEncode (buf : List Byte) : mtfDecode (mtfEncode buf) = buf :=
  mtfDecodeFrom_encodeFrom symbols_isMtfTable buf

/-- Settles O29: the two loops follow the table, and each undoes the other from every table. -/
theorem mtfEncodeAndDecodeAreInverse : Obligations.MtfEncodeAndDecodeAreInverse := fun buf =>
  ⟨(mtfRelated_iff _ _).mpr (mtfEncodeFrom_follows symbols_isMtfTable buf),
    (mtfRelated_iff _ _).mpr (mtfDecodeFrom_follows symbols_isMtfTable buf),
    mtfEncodeFrom_rank_zero symbols_isMtfTable buf, mtfDecode_mtfEncode buf,
    mtfEncodeFrom_decodeFrom symbols_isMtfTable buf⟩

/-! ## RLE0 -/

/-- A full pair is closed whatever comes next (43_rle0.md R165). -/
theorem rle0EncodeFrom_full (buf : List Byte) :
    rle0EncodeFrom 256 buf = runPair 256 ++ rle0EncodeFrom 0 buf := by
  cases buf with
  | nil => rfl
  | cons a as => by_cases ha : a = 0#8 <;> simp [rle0EncodeFrom, ha, runPair]

/-- Where no zero follows, the pair is closed. -/
theorem rle0EncodeFrom_of_head {buf : List Byte} (h : buf.head? ≠ some 0#8) (run : Nat) :
    rle0EncodeFrom run buf = runPair run ++ rle0EncodeFrom 0 buf := by
  cases buf with
  | nil => simp [rle0EncodeFrom, runPair]
  | cons a as => simp [rle0EncodeFrom, show a ≠ 0#8 by simpa using h, runPair]

theorem rle0Encode_cons {a : Byte} (ha : a ≠ 0#8) (buf : List Byte) :
    rle0Encode (a :: buf) = a :: rle0Encode buf := by simp [rle0Encode, rle0EncodeFrom, ha, runPair]

/-- The greedy split of a maximal run (43_rle0.md R165). -/
theorem rle0Encode_zeros (q : Nat) {r : Nat} (hr : r < 256) {buf : List Byte} (h : buf.head? ≠ some 0#8) :
    rle0Encode (List.replicate (256 * q + r) 0#8 ++ buf)
      = (List.replicate q [0#8, 255#8]).flatten ++ runPair r ++ rle0Encode buf := by
  induction q with
  | zero =>
    rw [rle0Encode, Nat.mul_zero, Nat.zero_add, rle0EncodeFrom_zeros (by omega), rle0EncodeFrom_of_head h,
      Nat.zero_add]
    rfl
  | succ q ih =>
    rw [show 256 * (q + 1) + r = 256 + (256 * q + r) by omega, List.replicate_add, List.append_assoc,
      rle0Encode, rle0EncodeFrom_zeros (Nat.le_refl _), rle0EncodeFrom_full]
    rw [rle0Encode] at ih
    rw [ih]
    rfl

/-- The expansion, `run` zeros of the current pair having been read. -/
theorem rle0Decode_encodeFrom {run : Nat} (hr : run ≤ 256) (buf : List Byte) :
    rle0Decode (rle0EncodeFrom run buf) (run + buf.length) = some (List.replicate run 0#8 ++ buf, []) := by
  induction buf generalizing run with
  | nil =>
    have h := rle0Decode_runPair hr [] 0
    rw [List.append_nil, rle0Decode_done] at h
    exact h
  | cons a as ih =>
    by_cases ha : a = 0#8
    · by_cases hfull : run < 256
      · have h := ih (run := run + 1) (by omega)
        simpa [rle0EncodeFrom, ha, hfull, List.replicate_succ', Nat.add_assoc, Nat.add_comm 1] using h
      · have h := ih (run := 1) (by omega)
        simp only [rle0EncodeFrom, ha, hfull, ne_eq, not_true_eq_false, if_false, List.length_cons]
        rw [rle0Decode_runPair hr, Nat.add_comm as.length 1, h]
        rfl
    · have h := ih (run := 0) (by omega)
      simp only [rle0EncodeFrom, ha, ne_eq, not_false_eq_true, if_true, List.length_cons]
      rw [Nat.zero_add] at h
      rw [rle0Decode_runPair hr, rle0Decode_literal ha, h]
      rfl

theorem rle0Decode_rle0Encode (buf : List Byte) :
    rle0Decode (rle0Encode buf) buf.length = some (buf, []) := by
  simpa [rle0Encode] using rle0Decode_encodeFrom (Nat.zero_le 256) buf

theorem rle0Encode_length_le (buf : List Byte) : (rle0Encode buf).length ≤ 2 * buf.length :=
  rle0EncodeFrom_length 0 buf

/-- After a zero that is not the last byte the encoding is shorter than the bound. -/
theorem rle0EncodeFrom_one_length_lt {buf : List Byte} (h : buf ≠ []) :
    (rle0EncodeFrom 1 buf).length < 2 * buf.length + 2 := by
  obtain ⟨a, as, rfl⟩ := List.exists_cons_of_ne_nil h
  by_cases ha : a = 0#8
  · have hbound := rle0EncodeFrom_length 2 as
    simp [rle0EncodeFrom, ha] at hbound ⊢
    omega
  · have hbound := rle0EncodeFrom_length 0 as
    simp [rle0EncodeFrom, ha, runPair] at hbound ⊢
    omega

theorem eq_of_rle0Encode_length_eq {buf : List Byte} (h : (rle0Encode buf).length = 2 * buf.length) :
    buf = [] ∨ buf = [0#8] := by
  cases buf with
  | nil => exact .inl rfl
  | cons a as =>
    by_cases ha : a = 0#8
    · refine .inr ?_
      by_cases has : as = []
      · rw [ha, has]
      · have hlt := rle0EncodeFrom_one_length_lt has
        simp [rle0Encode, rle0EncodeFrom, ha] at h
        omega
    · have hbound := rle0Encode_length_le as
      rw [rle0Encode_cons ha, List.length_cons, List.length_cons] at h
      omega

theorem rle0Decode_nil (n : Nat) : rle0Decode [] (n + 1) = none := by unfold rle0Decode; rfl

theorem rle0Decode_marker (n : Nat) : rle0Decode [0#8] (n + 1) = none := by unfold rle0Decode; rfl

/-- Settles O31, from the equations of the encoder and of the expander. -/
theorem rle0DecodeUndoesEncode : Obligations.Rle0DecodeUndoesEncode := by
  refine ⟨rfl, fun a buf ha => rle0Encode_cons ha buf, fun m buf hm hbuf => ?_, rle0Decode_done,
    fun n => ⟨rle0Decode_nil n, rle0Decode_marker n⟩, fun x e n hx => rle0Decode_literal hx e n,
    fun k e n hn => ?_, fun k e n => ?_,
    fun buf => ⟨rle0Decode_rle0Encode buf, rle0Encode_length_le buf, eq_of_rle0Encode_length_eq⟩⟩
  · have hpair : runPair (m % 256) = if m % 256 = 0 then [] else [0#8, BitVec.ofNat 8 (m % 256 - 1)] := by
      cases m % 256 <;> rfl
    rw [← hpair, ← rle0Encode_zeros (m / 256) (Nat.mod_lt m (by decide)) hbuf, Nat.div_add_mod]
  · rw [rle0Decode_pair, if_pos (by omega)]
  · rw [show k.toNat + 1 + n = k.toNat + n + 1 by omega, rle0Decode_pair, if_neg (by omega),
      show k.toNat + n - k.toNat = n by omega]

/-! ## BWT -/

/-- The order of 41_bwt.md R130 as one key: the rotation, then the offset. -/
def rotKey (buf : List Byte) (i : Nat) : List Nat ×ₗ Nat := toLex (rowKey (rotation buf i), i)

theorem rotBefore_iff {buf : List Byte} {i j : Nat} :
    rotBefore buf i j = true ↔ rotKey buf i < rotKey buf j := by
  rw [rotKey, rotKey, Prod.Lex.toLex_lt_toLex]
  simp [rotBefore, lexLess_iff, rowKey_injective.eq_iff]

theorem rotKey_ne {buf : List Byte} {i j : Nat} (h : i ≠ j) : rotKey buf i ≠ rotKey buf j := fun he =>
  h (congrArg (fun k => (ofLex k).2) he)

/-- One insertion of an offset that is not there keeps the offsets strictly sorted. -/
theorem insertOffset_rotKey_sorted (buf : List Byte) {i : Nat} {js : List Nat} (hi : i ∉ js)
    (h : js.Pairwise fun j k => rotKey buf j < rotKey buf k) :
    (insertOffset buf i js).Pairwise fun j k => rotKey buf j < rotKey buf k := by
  induction js with
  | nil => exact List.pairwise_singleton _ _
  | cons j js ih =>
    obtain ⟨hij, hijs⟩ := not_or.mp (List.mem_cons.not.mp hi)
    obtain ⟨hj, hjs⟩ := List.pairwise_cons.mp h
    unfold insertOffset
    split
    next hbefore =>
      have hlt := rotBefore_iff.mp hbefore
      exact List.pairwise_cons.mpr ⟨List.forall_mem_cons.mpr ⟨hlt, fun k hk => hlt.trans (hj k hk)⟩, h⟩
    next hbefore =>
      refine List.pairwise_cons.mpr ⟨fun k hk => ?_, ih hijs hjs⟩
      obtain rfl | hk := List.mem_cons.mp ((insertOffset_perm buf i js).mem_iff.mp hk)
      · exact lt_of_le_of_ne (not_lt.mp (rotBefore_iff.not.mp hbefore)) (rotKey_ne (Ne.symm hij))
      · exact hj k hk

theorem foldr_insertOffset_perm (buf : List Byte) (is : List Nat) :
    (is.foldr (insertOffset buf) []).Perm is := by
  induction is with
  | nil => exact List.Perm.refl _
  | cons i is ih => exact (insertOffset_perm buf i _).trans (ih.cons i)

theorem foldr_insertOffset_rotKey_sorted (buf : List Byte) {is : List Nat} (h : is.Nodup) :
    (is.foldr (insertOffset buf) []).Pairwise fun j k => rotKey buf j < rotKey buf k := by
  induction is with
  | nil => exact List.Pairwise.nil
  | cons i is ih =>
    obtain ⟨hi, his⟩ := List.nodup_cons.mp h
    have hnot := mt (foldr_insertOffset_perm buf is).mem_iff.mp hi
    exact insertOffset_rotKey_sorted buf hnot (ih his)

theorem sortedOffsets_rotKey_sorted (buf : List Byte) :
    (sortedOffsets buf).Pairwise fun j k => rotKey buf j < rotKey buf k :=
  foldr_insertOffset_rotKey_sorted buf List.nodup_range

/-- Of two byte lists of one length the smaller has the smaller byte at the first difference. -/
theorem exists_first_difference {x y : List Byte} (hl : x.length = y.length) (h : lexLess x y = true) :
    ∃ k, k < x.length ∧ (∀ t, t < k → x.getD t 0#8 = y.getD t 0#8)
      ∧ (x.getD k 0#8).toNat < (y.getD k 0#8).toNat := by
  induction x generalizing y with
  | nil => cases y <;> simp_all [lexLess]
  | cons a as ih =>
    obtain ⟨b, bs, rfl⟩ := List.exists_cons_of_length_eq_add_one hl.symm
    by_cases hab : a = b
    · obtain ⟨k, hk, heq, hlt⟩ := ih (by simpa using hl) (by simpa [lexLess, hab] using h)
      refine ⟨k + 1, by simpa using hk, fun t ht => ?_, hlt⟩
      cases t with
      | zero => exact hab
      | succ t => exact heq t (by omega)
    · exact ⟨0, by simp, fun t ht => absurd ht (Nat.not_lt_zero t), by simpa [lexLess, hab] using h⟩

@[simp] theorem rotation_length {buf : List Byte} {i : Nat} : (rotation buf i).length = buf.length := by
  simp [rotation]
  omega

theorem rotation_getD {buf : List Byte} {i t : Nat} (hi : i < buf.length) (ht : t < buf.length) :
    (rotation buf i).getD t 0#8 = buf.getD ((i + t) % buf.length) 0#8 := by
  rw [rotation_eq_rotate hi.le, List.getD_eq_getElem?_getD, List.getElem?_rotate ht, Nat.add_comm t i,
    List.getD_eq_getElem?_getD]

/-- The model's order is that of 41_bwt.md R130. -/
theorem rotLess_of_rotKey_lt {buf : List Byte} {i j : Nat} (hi : i < buf.length) (hj : j < buf.length)
    (h : rotKey buf i < rotKey buf j) : RotLess buf i j := by
  rcases Prod.Lex.toLex_lt_toLex.mp h with hlt | ⟨heq, hij⟩
  · obtain ⟨k, hk, hbefore, hbyte⟩ := exists_first_difference (by simp) (lexLess_iff.mpr hlt)
    rw [rotation_length] at hk
    rw [rotation_getD hi hk, rotation_getD hj hk] at hbyte
    refine ⟨k, hk.le, fun t ht => ?_, .inl ⟨hk, hbyte⟩⟩
    rw [← rotation_getD hi (ht.trans hk), ← rotation_getD hj (ht.trans hk)]
    exact hbefore t ht
  · refine ⟨buf.length, le_rfl, fun t ht => ?_, .inr ⟨rfl, hij⟩⟩
    rw [← rotation_getD hi ht, ← rotation_getD hj ht, rowKey_injective heq]

theorem sortedOffsets_rotLess (buf : List Byte) : (sortedOffsets buf).Pairwise (RotLess buf) := by
  refine (sortedOffsets_rotKey_sorted buf).imp_of_mem fun {i j} hi hj => rotLess_of_rotKey_lt ?_ ?_
  · exact List.mem_range.mp ((sortedOffsets_perm buf).mem_iff.mp hi)
  · exact List.mem_range.mp ((sortedOffsets_perm buf).mem_iff.mp hj)

theorem getElem?_bwtForward_pi {buf : List Byte} (h : 0 < buf.length) :
    (sortedOffsets buf)[(bwtForward buf).2]? = some 0 :=
  List.getElem?_idxOf ((sortedOffsets_perm buf).mem_iff.mpr (List.mem_range.mpr h))

/-- The walk from row `i` writes the bytes of the rows it meets, from the end (41_bwt.md R132). -/
theorem lfWalk_eq (last : List Byte) (steps i : Nat) (out : List Byte) :
    lfWalk last steps i out
      = ((List.range steps).map fun k => last.getD ((lfMap last)^[k] i) 0#8).reverse ++ out := by
  induction steps generalizing i out with
  | zero => rfl
  | succ steps ih =>
    rw [lfWalk, ih, List.range_succ_eq_map]
    simp

theorem lfMap_iterate_lt {last : List Byte} {i : Nat} (hi : i < last.length) (k : Nat) :
    (lfMap last)^[k] i < last.length := by
  induction k with
  | zero => exact hi
  | succ k ih =>
    rw [Function.iterate_succ_apply']
    exact lfMap_lt ih

theorem bwtInverse_getD {last : List Byte} {pi k : Nat} (hk : k < last.length) :
    (bwtInverse last pi).getD (last.length - 1 - k) 0#8 = last.getD ((lfMap last)^[k] pi) 0#8 := by
  have hi : last.length - 1 - k < (bwtInverse last pi).length := by simp; omega
  rw [List.getD_eq_getElem _ _ hi]
  simp only [bwtInverse, lfWalk_eq, List.append_nil, List.getElem_reverse, List.length_map, List.length_range,
    List.getElem_map, List.getElem_range]
  rw [show last.length - 1 - (last.length - 1 - k) = k by omega]

theorem lfMap_eq_filter (last : List Byte) (i : Nat) :
    lfMap last i = (last.filter fun b => b.toNat < (last.getD i 0#8).toNat).length
      + ((last.take i).filter fun b => b = last.getD i 0#8).length := by
  rw [lfMap, List.countP_eq_length_filter, List.count_eq_length_filter]
  rfl

/-! ## The commands -/

/-- Settles O28: the checks pass, and each body writes the recoded source. -/
theorem mtfCommandsWriteTheRecoding : Obligations.MtfCommandsWriteTheRecoding := by
  intro s hsource hdest hapart hfit
  refine ⟨⟨_, exec_of_passes ?_, rfl, Wrote.of_writeRun rfl rfl, by simp⟩,
    ⟨_, exec_of_passes ?_, rfl, Wrote.of_writeRun rfl rfl, by simp⟩⟩ <;>
    simp [PassesChecks, operandChecks, mtfEncChecks, mtfDecChecks, hsource, hdest, hapart, hfit]

/-- Settles O30: the encoding is written when it fits, and its length fits 32 bits. -/
theorem rle0EncWritesTheEncoding : Obligations.Rle0EncWritesTheEncoding := by
  intro s hp hsource hdest hapart e
  have hpass : PassesChecks .rle0Enc s := by
    simp [PassesChecks, operandChecks, rle0EncChecks, hsource, hdest, hapart]
  refine ⟨fun hfit => ⟨_, exec_of_passes hpass, ?_⟩, fun hover => ⟨_, exec_of_passes hpass, ?_⟩⟩
  · have hbody : commandBody .rle0Enc s = { s.writeBytes s.dst.toNat e with
        olen := BitVec.ofNat 32 e.length, rlelen := BitVec.ofNat 32 e.length }.complete := if_neg (not_lt.mpr hfit)
    rw [hbody]
    refine ⟨rfl, ?_, Wrote.of_writeRun rfl rfl⟩
    have hlt := s.dcap.isLt
    exact Nat.mod_eq_of_lt (by omega)
  · have hbody : commandBody .rle0Enc s = s.scrambleDest.raiseError { kind := .dstOverflow, info := e.length } :=
      if_pos hover
    rw [hbody]
    refine ⟨rfl, fun x hx => ?_⟩
    refine State.readByte_outside (a := s.dst.toNat) (bs := freeBytes s.draws s.dcap.toNat) ?_ ?_ ?_
    · rfl
    · rfl
    · simpa using hx

/-- Settles O25: the insertion sort sorts strictly by the order of R130. -/
theorem bwtFwdWritesTheTransform : Obligations.BwtFwdWritesTheTransform := by
  intro s hp hsource hbound hdest hapart hfit
  refine ⟨_, sortedOffsets s.source, exec_of_passes ?_, rfl, ?_, sortedOffsets_rotLess _, ?_, fun hpos => ?_,
    fun hzero => ?_⟩
  · simp [PassesChecks, operandChecks, bwtFwdChecks, hsource, hdest, hapart, hfit, hbound]
  · rw [← State.source_length]
    exact sortedOffsets_perm s.source
  · rw [← State.source_length]
    exact Wrote.of_writeRun rfl rfl
  · have hlen : 0 < s.source.length := by simpa using hpos
    have hlt : (bwtForward s.source).2 < 2 ^ 32 := by
      refine (bwtForward_pi_lt hlen).trans ?_
      rw [State.source_length]
      exact s.slen.isLt
    rw [← getElem?_bwtForward_pi hlen]
    show (sortedOffsets s.source)[(BitVec.ofNat 32 (bwtForward s.source).2).toNat]? = _
    rw [BitVec.toNat_ofNat, Nat.mod_eq_of_lt hlt]
  · have hnil : s.source = [] := List.length_eq_zero_iff.mp (by simpa using hzero)
    show BitVec.ofNat 32 (bwtForward s.source).2 = 0#32
    rw [hnil, bwtForward_nil]

/-- Settles O26: the rows are the iterates of the LF map from PI. -/
theorem bwtInvWalksTheLfMap : Obligations.BwtInvWalksTheLfMap := by
  intro s hsource hbound hdest hapart hfit hpi
  refine ⟨_, bwtInverse s.source s.pi.toNat, fun k => (lfMap s.source)^[k] s.pi.toNat, exec_of_passes ?_, rfl,
    Wrote.of_writeRun rfl rfl, by simp, rfl, fun k hk => ?_⟩
  · simp [PassesChecks, operandChecks, bwtInvChecks, hsource, hdest, hapart, hfit, hbound, PiOutside]
    omega
  · have hlen : k < s.source.length := by simpa using hk
    have hpilt : s.pi.toNat < s.source.length := by simp; omega
    have hrow := lfMap_iterate_lt hpilt k
    have hbyte := bwtInverse_getD (pi := s.pi.toNat) hlen
    have hnext : (lfMap s.source)^[k + 1] s.pi.toNat = lfMap s.source ((lfMap s.source)^[k] s.pi.toNat) :=
      Function.iterate_succ_apply' _ _ _
    rw [State.source_length] at hrow hbyte
    exact ⟨hrow, hbyte, hnext.trans (lfMap_eq_filter _ _)⟩

end Sys2Proof.Machine
end

-- Proofs of the statements about decoding (44_huffman.md section 4, 45_pipeline.md PIPE_DEC).
section
/-! PROOFS. The statements about HUF_START_DEC, HUF_DEC_ONE, HUF_DEC_RLE and PIPE_DEC. A stream that starts with
given bits is a list that begins with them; the decode loop over the codes of `e` goes on behind them
(`RleJob.expand_prefix`), and what it meets there decides the outcome. -/

namespace Sys2Proof.Machine

/-! ## Streams as bit lists -/

theorem prefix_of_streamStarts {byteAt : Nat → Byte} {r : BitReader} {bits : List Bool}
    (h : StreamStarts byteAt r bits) : bits <+: r.rest byteAt := by
  obtain ⟨hlen, hbit⟩ := h
  refine List.prefix_iff_getElem.mpr ⟨by rw [BitReader.rest_length]; omega, fun i hi => ?_⟩
  simp [BitReader.rest, hbit i hi]

theorem streamStarts_of_prefix {byteAt : Nat → Byte} {r : BitReader} {bits : List Bool}
    (hpos : r.pos.toNat ≤ 8 * r.bytes.toNat) (h : bits <+: r.rest byteAt) : StreamStarts byteAt r bits := by
  obtain ⟨hlen, hbit⟩ := List.prefix_iff_getElem.mp h
  rw [BitReader.rest_length] at hlen
  exact ⟨by omega, fun i hi => by simpa [BitReader.rest] using (hbit i hi).symm⟩

theorem rest_of_streamStarts {byteAt : Nat → Byte} {r : BitReader} {bits : List Bool}
    (h : StreamStarts byteAt r bits) : ∃ tail, r.rest byteAt = bits ++ tail :=
  (prefix_of_streamStarts h).imp fun _ ht => ht.symm

theorem BitReader.skip_of_pos_zero {r : BitReader} (h : r.pos = 0#32) (n : Nat) :
    r.skip n = { r with pos := BitVec.ofNat 32 n } := by simp [BitReader.skip, h]

@[simp] theorem codeBits_nil_iff {code n : Nat} : codeBits code n = [] ↔ n = 0 := by
  rw [← List.length_eq_zero_iff, codeBits_length]

/-- `DecodeSymbol` where no code stands (44_huffman.md R190). -/
theorem IsCanon.decodeSymbol_noCode {m : Nat} {len l : Table Byte} {t : Canon} (h : IsCanon m len l t)
    {byteAt : Nat → Byte} {r : BitReader} (hr : r.Small) (hpos : r.pos.toNat ≤ 8 * r.bytes.toNat)
    (hno : ∀ x, 0 < (entry l x).toNat →
      ¬ StreamStarts byteAt r (codeBits (entry t.code x) (entry l x).toNat)) :
    decodeSymbol byteAt t r =
      if 8 * r.bytes.toNat < r.pos.toNat + t.maxLen then
        { outcome := .error { kind := .streamExhausted, info := 8 * r.bytes.toNat }
          reader := r.skip (8 * r.bytes.toNat - r.pos.toNat) }
      else
        { outcome := .error { kind := .invalidCodeword, info := r.pos.toNat + t.maxLen }
          reader := r.skip t.maxLen } := by
  have hdecode := h.decodeRows_noCode (byteAt := byteAt) (j := 0) (acc := 0) t.maxLen (Nat.zero_add _)
    (by decide) hr fun x hx hpre => hno x hx (streamStarts_of_prefix hpos hpre)
  rw [List.drop_zero, BitReader.rest_length] at hdecode
  rw [decodeSymbol, hdecode]
  by_cases hlimit : 8 * r.bytes.toNat < r.pos.toNat + t.maxLen
  · rw [if_pos (by omega), if_pos hlimit, show r.pos.toNat + (8 * r.bytes.toNat - r.pos.toNat)
      = 8 * r.bytes.toNat by omega]
  · rw [if_neg (by omega), if_neg hlimit]

/-! ## HUF_START_DEC and HUF_DEC_ONE -/

/-- Settles O38: the body's two outcomes, the error's code being the one kind that `Canon` reports. -/
theorem hufStartDecOpensThePayload : Obligations.HufStartDecOpensThePayload := by
  intro s hsource hshort header
  have hpass : PassesChecks .hufStartDec s := by
    simp [PassesChecks, operandChecks, hufStartDecChecks, hsource, hshort]
  refine ⟨fun l c hok => ?_, fun e herr => ?_⟩
  · rw [exec_of_passes hpass]
    exact congrArg Host.Outcome.next (hufStartDecBody_of_ok hok)
  · have hkind := canonTable_error_kind herr
    rw [exec_of_passes hpass]
    refine congrArg Host.Outcome.next ((hufStartDecBody_of_error herr).trans ?_)
    rw [State.raiseError, hkind]
    rfl

/-- HUF_DEC_ONE with a decoder is `DecodeSymbol` (44_huffman.md R191). -/
theorem exec_hufDecOne {s : State} (h : s.decValid = true) : exec .hufDecOne s = .next (hufDecOneBody s) :=
  exec_of_passes (by simp [PassesChecks, operandChecks, hufDecOneChecks, checkActive, h])

theorem hufDecOneBody_of_ok {s : State} {x : Byte} {r : BitReader}
    (h : decodeSymbol s.readByte s.canon s.br = { outcome := .ok x, reader := r }) :
    hufDecOneBody s = State.complete { s with br := r, result := x.setWidth 32 } := by
  rw [hufDecOneBody, h]

theorem hufDecOneBody_of_error {s : State} {e : CmdError} {r : BitReader}
    (h : decodeSymbol s.readByte s.canon s.br = { outcome := .error e, reader := r }) :
    hufDecOneBody s = State.raiseError e
      { s with br := { r with active := false }, decValid := false } := by
  rw [hufDecOneBody, h]
  rfl

/-- Settles O39: the code is found whatever follows it. -/
theorem hufDecOneDecodesACode : Obligations.HufDecOneDecodesACode := by
  intro s x hp hr hvalid htable hx hstream
  obtain ⟨tail, hrest⟩ := rest_of_streamStarts hstream
  have hdecode := (canonTable_ok htable).decodeSymbol_code hx (hr.small hp) hrest
  have hbyte : x.setWidth 32 = BitVec.ofNat 32 x.toNat := BitVec.eq_of_toNat_eq (by simp)
  rw [exec_hufDecOne hvalid, hufDecOneBody_of_ok hdecode, hbyte]
  rfl

/-- Settles O40: `DecodeSymbol` reads to the end of the stream or MAXLEN bits. -/
theorem hufDecOneWithoutACode : Obligations.HufDecOneWithoutACode := by
  intro s dropped limit
  refine ⟨fun hp hr hvalid htable hno => ⟨fun hlt => ?_, fun hge => ?_⟩, fun hvalid => ?_⟩
  · have hdecode := (canonTable_ok htable).decodeSymbol_noCode (hr.small hp) hr.pos hno
    rw [if_pos hlt] at hdecode
    have hpos : s.br.pos + BitVec.ofNat 32 (limit - s.br.pos.toNat) = BitVec.ofNat 32 limit := by
      have hle := hr.pos
      apply BitVec.eq_of_toNat_eq
      simp only [BitVec.toNat_add, BitVec.toNat_ofNat, Nat.add_mod_mod]
      congr 1
      omega
    rw [exec_hufDecOne hvalid, hufDecOneBody_of_error hdecode, BitReader.skip, hpos]
    rfl
  · have hdecode := (canonTable_ok htable).decodeSymbol_noCode (hr.small hp) hr.pos hno
    rw [if_neg (Nat.not_lt.mpr hge)] at hdecode
    rw [exec_hufDecOne hvalid, hufDecOneBody_of_error hdecode]
    rfl
  · rw [exec_fail (e := { kind := .noState, info := 0 })
      (by simp [operandChecks, hufDecOneChecks, checkActive, firstFailure, hvalid])]
    rfl

/-! ## The decode loop -/

theorem encodeBits_append (l : Table Byte) (t : Canon) (e e' : List Byte) :
    encodeBits l t (e ++ e') = encodeBits l t e ++ encodeBits l t e' := by simp [encodeBits]

theorem RleJob.expand_done (job : RleJob) (fuel : Nat) {made : Nat} (cnt : Nat) (r : BitReader)
    (h : job.n ≤ made) : job.expand fuel made cnt r = { outcome := .ok ([], cnt), reader := r } := by
  cases fuel with
  | zero => rfl
  | succ fuel => rw [RleJob.expand, if_pos h]

theorem Attempt.andThen_of_error {α β : Type} {a : Attempt α} {e : CmdError} {r : BitReader}
    (h : a = { outcome := .error e, reader := r }) (f : α → BitReader → Attempt β) :
    a.andThen f = { outcome := .error e, reader := r } := by rw [h]; rfl

theorem Attempt.andThen_of_ok {α β : Type} {a : Attempt α} {x : α} {r : BitReader}
    (h : a = { outcome := .ok x, reader := r }) (f : α → BitReader → Attempt β) : a.andThen f = f x r := by
  rw [h]; rfl

theorem RleJob.expand_of_next_error (job : RleJob) {fuel made cnt : Nat} {r r' : BitReader} {err : CmdError}
    (hf : 0 < fuel) (hm : made < job.n)
    (h : job.nextSym cnt r = { outcome := .error err, reader := r' }) :
    job.expand fuel made cnt r = { outcome := .error err, reader := r' } := by
  obtain ⟨fuel, rfl⟩ := Nat.exists_eq_add_one.mpr hf
  rw [RleJob.expand, if_neg (Nat.not_le.mpr hm)]
  exact Attempt.andThen_of_error h _

theorem rest_skip_codes {byteAt : Nat → Byte} {l : Table Byte} {t : Canon} {r : BitReader} {tail : List Bool}
    {e e' : List Byte} (hr : r.Small) (hrest : r.rest byteAt = encodeBits l t (e ++ e') ++ tail) :
    (r.skip (encodeBits l t e).length).rest byteAt = encodeBits l t e' ++ tail := by
  rw [BitReader.rest_skip hr (by simp [hrest, encodeBits_append]), hrest, encodeBits_append, List.append_assoc,
    List.drop_left]

section
variable {job : RleJob} {m : Nat} {len l : Table Byte} (h : IsCanon m len l job.table) {e : List Byte}
  {r : BitReader} {tail : List Bool} (hr : r.Small) (hx : ∀ x ∈ e, 0 < (entry l x).toNat)
  (hc : job.check ≠ .none → e.length ≤ job.rl)
  (hrest : r.rest job.byteAt = encodeBits l job.table e ++ tail)
include h hr hx hc hrest

/-- After the symbols of `e` the loop is where they took it (44_huffman.md R192). -/
theorem RleJob.expand_of_expands {e' e'' : List Byte} (he : e = e' ++ e'') {made : Nat}
    (hmade : Expands e' made) (hle : made ≤ job.n) :
    ∃ out, job.expand job.n 0 0 r =
      (job.expand job.n made e'.length (r.skip (encodeBits l job.table e').length)).map
        fun x => (out ++ x.1, x.2) := by
  have hgo := RleJob.expand_prefix job h hmade (fuel := job.n) (made := 0) (cnt := 0) hr
    (tail := encodeBits l job.table e'' ++ tail) (by omega) (by omega)
    (fun x hx' => hx x (by simp [he, hx'])) (fun hcheck => ?_)
    (by rw [hrest, he, encodeBits_append, List.append_assoc])
  · simpa only [Nat.zero_add] using hgo
  · have hbound := hc hcheck
    rw [he, List.length_append] at hbound
    omega

/-- An error at the next symbol ends the loop. -/
theorem RleJob.expand_of_wantsSymbol (hwants : WantsSymbol job.n e) {err : CmdError} {r' : BitReader}
    (hnext : job.nextSym e.length (r.skip (encodeBits l job.table e).length)
      = { outcome := .error err, reader := r' }) :
    job.expand job.n 0 0 r = { outcome := .error err, reader := r' } := by
  obtain ⟨e', made, hmade, hlt, rfl | rfl⟩ := hwants
  · obtain ⟨out, hgo⟩ := RleJob.expand_of_expands h hr hx hc hrest (List.append_nil _).symm hmade hlt.le
    rw [hgo, job.expand_of_next_error (Nat.zero_lt_of_lt hlt) hlt hnext]
    rfl
  · obtain ⟨out, hgo⟩ := RleJob.expand_of_expands h hr hx hc hrest rfl hmade hlt.le
    have hmarker := rest_skip_codes hr hrest
    obtain ⟨hzero, -⟩ := job.nextSym_code (r := r.skip (encodeBits l job.table e').length)
      (cnt := e'.length) h (hx 0#8 (by simp))
      (fun hcheck => by have := hc hcheck; simp at this; omega) hr hmarker
    obtain ⟨fuel, hfuel⟩ := Nat.exists_eq_add_one.mpr (Nat.zero_lt_of_lt hlt)
    have hskip : (r.skip (encodeBits l job.table e').length).skip (entry l 0#8).toNat
        = r.skip (encodeBits l job.table (e' ++ [0#8])).length := by
      rw [BitReader.skip_skip, encodeBits_append, List.length_append]
      simp [encodeBits]
    rw [hskip] at hzero
    rw [List.length_append, List.length_singleton] at hnext
    rw [hgo, hfuel, RleJob.expand, if_neg (by omega), Attempt.andThen_of_ok hzero, if_neg (by simp),
      Attempt.andThen_of_error hnext]
    rfl

/-- A run that passes the ranks wanted (43_rle0.md R167). -/
theorem RleJob.expand_of_overflow {e' : List Byte} {k : Byte} {made : Nat} (he : e = e' ++ [0#8, k])
    (hmade : Expands e' made) (hlt : made < job.n) (hover : job.n < made + k.toNat + 1) :
    job.expand job.n 0 0 r = { outcome := .error { kind := .rle0Overflow, info := made }
                               reader := r.skip (encodeBits l job.table e).length } := by
  obtain ⟨out, hgo⟩ := RleJob.expand_of_expands h hr hx hc hrest he hmade hlt.le
  have hbound : ∀ n, n < e'.length + 2 → job.check ≠ .none → n < job.rl := fun n hn hcheck => by
    have := hc hcheck
    simp [he] at this
    omega
  have hmarker := rest_skip_codes hr (he ▸ hrest)
  obtain ⟨hzero, hcount⟩ := job.nextSym_code (r := r.skip (encodeBits l job.table e').length)
    (cnt := e'.length) h (hx 0#8 (by simp [he])) (hbound _ (by omega))
    hr hmarker
  obtain ⟨hk, -⟩ := job.nextSym_code (r := (r.skip (encodeBits l job.table e').length).skip (entry l 0#8).toNat)
    (cnt := e'.length + 1) h (hx k (by simp [he])) (hbound _ (by omega))
    hr hcount
  obtain ⟨fuel, hfuel⟩ := Nat.exists_eq_add_one.mpr (Nat.zero_lt_of_lt hlt)
  have hskip : ((r.skip (encodeBits l job.table e').length).skip (entry l 0#8).toNat).skip (entry l k).toNat
      = r.skip (encodeBits l job.table e).length := by
    rw [BitReader.skip_skip, BitReader.skip_skip, he, encodeBits_append, List.length_append]
    simp [encodeBits]
  rw [hskip] at hk
  rw [hgo, hfuel, RleJob.expand, if_neg (by omega), Attempt.andThen_of_ok hzero, if_neg (by simp),
    Attempt.andThen_of_ok hk, if_pos hover]
  rfl

/-- After the last rank the loop ends. -/
theorem RleJob.expand_of_all (hall : Expands e job.n) :
    ∃ out, job.expand job.n 0 0 r = { outcome := .ok (out, e.length)
                                      reader := r.skip (encodeBits l job.table e).length } := by
  obtain ⟨out, hgo⟩ := RleJob.expand_of_expands h hr hx hc hrest (List.append_nil _).symm hall le_rfl
  refine ⟨out ++ [], ?_⟩
  rw [hgo, job.expand_done _ _ _ le_rfl]
  rfl

end

theorem RleJob.run_of_expand_error (job : RleJob) {hb : Nat} {r r' : BitReader} {err : CmdError}
    (h : job.expand job.n 0 0 r = { outcome := .error err, reader := r' }) :
    job.run hb r = { outcome := .error err, reader := r' } :=
  Attempt.andThen_of_error h _

theorem RleJob.run_of_assert_error (job : RleJob) {hb cnt : Nat} {r r' : BitReader} {out : List Byte}
    {err : CmdError} (h : job.expand job.n 0 0 r = { outcome := .ok (out, cnt), reader := r' })
    (hassert : r'.assertConsumed job.byteAt hb = some err) :
    job.run hb r = { outcome := .error err, reader := r' } := by
  rw [RleJob.run, Attempt.andThen_of_ok h, hassert]

theorem RleJob.run_of_count_error (job : RleJob) {hb cnt : Nat} {r r' : BitReader} {out : List Byte}
    {err : CmdError} (h : job.expand job.n 0 0 r = { outcome := .ok (out, cnt), reader := r' })
    (hassert : r'.assertConsumed job.byteAt hb = none) (hcount : job.countError cnt = some err) :
    job.run hb r = { outcome := .error err, reader := r' } := by
  rw [RleJob.run, Attempt.andThen_of_ok h, hassert]
  dsimp only
  rw [hcount]

theorem RleJob.run_of_ok (job : RleJob) {hb cnt : Nat} {r r' : BitReader} {out : List Byte}
    (h : job.expand job.n 0 0 r = { outcome := .ok (out, cnt), reader := r' })
    (hassert : r'.assertConsumed job.byteAt hb = none) (hcount : job.countError cnt = none) :
    job.run hb r = { outcome := .ok (out, cnt), reader := r' } := by
  rw [RleJob.run, Attempt.andThen_of_ok h, hassert]
  dsimp only
  rw [hcount]

end Sys2Proof.Machine
end

-- Proofs of the statements about whole payloads (44_huffman.md R192, R193, 45_pipeline.md R231, R232).
section
/-! PROOFS. HUF_DEC_RLE and PIPE_DEC as one command (`decodePost`): what it answers for each outcome of the decode
loop, and the statements about payloads that are decoded and about those that are refused. -/

namespace Sys2Proof.Machine

/-! ## The two decoding commands as one -/

/-- What HUF_DEC_RLE and PIPE_DEC make of the ranks (44_huffman.md R193, 45_pipeline.md R231). -/
def decodePost (i : Instr) (s : State) (ranks : List Byte) : List Byte :=
  if i = .pipeDec then bwtInverse (mtfDecode ranks) s.pi.toNat else ranks

@[simp] theorem decodePost_length (i : Instr) (s : State) (ranks : List Byte) :
    (decodePost i s ranks).length = ranks.length := by unfold decodePost; split <;> simp

theorem commandBody_decode {i : Instr} (hi : i = .hufDecRle ∨ i = .pipeDec) (s : State) :
    commandBody i s = s.decodePayload (decodePost i s) := by
  rcases hi with rfl | rfl <;> rfl

/-- What the checks of the decoding commands leave. -/
structure DecodeReady (s : State) : Prop where
  source : SourceInMem s
  dest : DestInMem s
  apart : RegionsApart s
  fits : s.nlen.toNat ≤ s.dcap.toNat
  header : 256 ≤ s.slen.toNat

theorem hufDecRle_passes_iff {s : State} : PassesChecks .hufDecRle s ↔ DecodeReady s := by
  simp only [PassesChecks, operandChecks, hufDecRleChecks, List.forall_mem_cons, checkSource_fails,
    checkDest_fails, checkOverlap_fails, checkFits_fails, checkPayload_fails, Bool.not_eq_false',
    decide_eq_true_eq, decide_eq_false_iff_not, Nat.not_lt]
  exact ⟨fun ⟨h1, h2, h3, h4, h5, _⟩ => ⟨h1, h2, h3, h4, h5⟩, fun ⟨h1, h2, h3, h4, h5⟩ =>
    ⟨h1, h2, h3, h4, h5, List.forall_mem_nil _⟩⟩

theorem pipeDec_passes_iff {s : State} : PassesChecks .pipeDec s ↔
    DecodeReady s ∧ s.nlen.toNat ≤ s.params.nMax ∧ ¬ PiOutside s s.nlen.toNat := by
  simp only [PassesChecks, operandChecks, pipeDecChecks, List.forall_mem_cons, checkSource_fails,
    checkBound_fails, checkDest_fails, checkOverlap_fails, checkFits_fails, checkPayload_fails, checkPi_fails,
    Bool.not_eq_false', decide_eq_true_eq, decide_eq_false_iff_not, Nat.not_lt]
  exact ⟨fun ⟨h1, h2, h3, h4, h5, h6, h7, _⟩ => ⟨⟨h1, h3, h4, h5, h7⟩, h2, h6⟩,
    fun ⟨⟨h1, h3, h4, h5, h7⟩, h2, h6⟩ => ⟨h1, h2, h3, h4, h5, h6, h7, List.forall_mem_nil _⟩⟩

theorem decodeReady_of_passes {i : Instr} (hi : i = .hufDecRle ∨ i = .pipeDec) {s : State}
    (h : PassesChecks i s) : DecodeReady s := by
  rcases hi with rfl | rfl
  · exact hufDecRle_passes_iff.mp h
  · exact (pipeDec_passes_iff.mp h).1

section
variable {s : State}

theorem payloadReader_skip (n : Nat) : s.payloadReader.skip n =
    { active := false, base := s.src + 256#32, bytes := s.slen - 256#32, pos := BitVec.ofNat 32 n } :=
  BitReader.skip_of_pos_zero rfl n

theorem payloadReader_bytes (h : 256 ≤ s.slen.toNat) : s.payloadReader.bytes.toNat = s.slen.toNat - 256 :=
  BitVec.toNat_sub_of_le h

theorem payloadReader_base (hp : s.params.legal = true) (hsource : SourceInMem s)
    (hheader : 256 ≤ s.slen.toNat) : s.payloadReader.base.toNat = s.src.toNat + 256 := by
  have hmem := Params.memSize_le hp
  rw [State.payloadReader, BitVec.toNat_add, BitVec.toNat_ofNat]
  exact Nat.mod_eq_of_lt (by omega)

theorem payloadReader_small (hp : s.params.legal = true) (hsource : SourceInMem s)
    (hheader : 256 ≤ s.slen.toNat) : s.payloadReader.Small := by
  have hmem := Params.memSize_le hp
  unfold BitReader.Small
  rw [payloadReader_bytes hheader]
  omega

/-- The bytes behind the header (30_encoding.md R87). -/
theorem readByte_payload (hp : s.params.legal = true) (h : DecodeReady s) {bs : List Byte}
    (hsource : s.source.drop 256 = bs) (j : Nat) (hj : j < bs.length) :
    s.readByte (s.payloadReader.base.toNat + j) = bs[j] := by
  subst hsource
  rw [payloadReader_base hp h.source h.header]
  simp [State.source, State.readBytes, Nat.add_assoc]

theorem decodePayload_of_header_error {e : CmdError} (post : List Byte → List Byte)
    (h : canonTable s.params.maxCodeLen s.header = .error e) :
    s.decodePayload post = s.dropDecoder.dropReader.failTables e := by
  have hopen : s.dropDecoder.dropReader.openPayload = .error e := openPayload_of_error h
  unfold State.decodePayload
  dsimp only
  rw [hopen]

theorem decodePayload_of_run_error {l : Table Byte} {t : Canon} {e : CmdError} {r : BitReader}
    (post : List Byte → List Byte) (h : canonTable s.params.maxCodeLen s.header = .ok (l, t))
    (hrun : (s.rleJob t).run s.hbits.toNat s.payloadReader = { outcome := .error e, reader := r }) :
    s.decodePayload post = { s.dropDecoder with br := r }.failTables e := by
  rcases State.decodePayload_cases post s with ⟨e', htable, -⟩ | ⟨l', t', htable, hrest⟩
  · cases h.symm.trans htable
  · cases h.symm.trans htable
    rcases hrest with ⟨e', he', hbody⟩ | ⟨ranks, cnt, hok, -⟩
    · cases (congrArg Attempt.outcome hrun).symm.trans he'
      rw [hbody]
      exact congrArg (fun a : Attempt (List Byte × Nat) => { s.dropDecoder with br := a.reader }.failTables e) hrun
    · cases (congrArg Attempt.outcome hrun).symm.trans hok

theorem decodePayload_of_run_ok {l : Table Byte} {t : Canon} {ranks : List Byte} {cnt : Nat} {r : BitReader}
    (post : List Byte → List Byte) (h : canonTable s.params.maxCodeLen s.header = .ok (l, t))
    (hrun : (s.rleJob t).run s.hbits.toNat s.payloadReader = { outcome := .ok (ranks, cnt), reader := r }) :
    s.decodePayload post = State.complete { s with
      mem := s.mem.writeRun s.dst.toNat (post ranks), len := l, canon := t, canonValid := true, decValid := false
      br := r, symcount := BitVec.ofNat 32 cnt, olen := s.nlen } := by
  rcases State.decodePayload_cases post s with ⟨e', htable, -⟩ | ⟨l', t', htable, hrest⟩
  · cases h.symm.trans htable
  · cases h.symm.trans htable
    rcases hrest with ⟨e', he', -⟩ | ⟨ranks', cnt', hok, hbody⟩
    · cases (congrArg Attempt.outcome hrun).symm.trans he'
    · cases (congrArg Attempt.outcome hrun).symm.trans hok
      rw [hbody, State.setCanon, State.writeBytes]
      have hreader := congrArg Attempt.reader hrun
      dsimp only at hreader
      rw [← hreader]
      rfl

end

/-! ## Payloads that are decoded -/

/-- The loop and its last checks over the payload of `e` (44_huffman.md R192, R196). -/
theorem RleJob.run_codes {job : RleJob} {m : Nat} {len l : Table Byte} (h : IsCanon m len l job.table)
    {r : BitReader} (hr : r.Small) (hzero : r.pos = 0#32) {e ranks : List Byte}
    (hx : ∀ x ∈ e, 0 < (entry l x).toNat) (hbytes : r.bytes.toNat = ceil8 (encodeBits l job.table e).length)
    (hpack : ∀ i, (hi : i < (pack (encodeBits l job.table e)).length) →
      job.byteAt (r.base.toNat + i) = (pack (encodeBits l job.table e))[i])
    (hc : job.check ≠ .none → e.length ≤ job.rl) (hexact : job.check = .exact → e.length = job.rl)
    (hd : rle0Decode e job.n = some (ranks, [])) :
    job.run (encodeBits l job.table e).length r
      = { outcome := .ok (ranks, e.length), reader := r.skip (encodeBits l job.table e).length } := by
  have hbounds := ceil8_bounds (encodeBits l job.table e).length
  have hbit := fun j hj => bitAt_of_pack hpack j hj
  have hpos : r.pos.toNat = 0 := by rw [hzero]; rfl
  obtain ⟨tail, hrest⟩ : ∃ tail, r.rest job.byteAt = encodeBits l job.table e ++ tail := by
    refine rest_of_streamStarts ⟨by omega, fun i hi => ?_⟩
    rw [hpos, Nat.zero_add, hbit i (by omega), List.getD_eq_getElem _ _ hi]
  have hexpand := job.expand_codes h job.n hr (made := 0) (cnt := 0) le_rfl (Nat.zero_le _) hx hd
    (by simpa using hc) hrest
  rw [Nat.zero_add] at hexpand
  refine job.run_of_ok hexpand (BitReader.assertConsumed_eq_none.mpr ⟨?_, fun j hlo hhi => ?_, hbytes.le⟩)
    (if_neg fun hbad => hbad.2 (hexact hbad.1))
  · rw [BitReader.skip_pos hr (by rw [hrest, List.length_append]; omega), hpos, Nat.zero_add]
  · exact (hbit j hhi).trans (List.getD_eq_default _ _ hlo)

section
variable {i : Instr} (hi : i = .hufDecRle ∨ i = .pipeDec) {s : State} (hp : s.params.legal = true)
  (hpass : PassesChecks i s)
include hi hp hpass

/-- A decoding command over a payload of the symbols `e`. -/
theorem exec_decode_codes {l : Table Byte} {c : Canon} {e ranks : List Byte}
    (htable : canonTable s.params.maxCodeLen s.header = .ok (l, c)) (hx : ∀ x ∈ e, 0 < (entry l x).toNat)
    (hsource : s.source.drop 256 = pack (encodeBits l c e)) (hhb : s.hbits.toNat = (encodeBits l c e).length)
    (hc : s.params.rleLenCheck ≠ .none → e.length ≤ s.rlelen.toNat)
    (hexact : s.params.rleLenCheck = .exact → e.length = s.rlelen.toNat)
    (hd : rle0Decode e s.nlen.toNat = some (ranks, [])) :
    exec i s = .next (State.complete { s with
      mem := s.mem.writeRun s.dst.toNat (decodePost i s ranks), len := l, canon := c, canonValid := true
      decValid := false
      br := { active := false, base := s.src + 256#32, bytes := s.slen - 256#32, pos := s.hbits }
      symcount := BitVec.ofNat 32 e.length, olen := s.nlen }) := by
  have hready := decodeReady_of_passes hi hpass
  have hlen := congrArg List.length hsource
  rw [List.length_drop, State.source_length, pack_length] at hlen
  have hrun := RleJob.run_codes (job := s.rleJob c) (canonTable_ok htable)
    (payloadReader_small hp hready.source hready.header) rfl
    hx ((payloadReader_bytes hready.header).trans hlen) (readByte_payload hp hready hsource) hc hexact hd
  rw [← show s.hbits.toNat = (encodeBits l (s.rleJob c).table e).length from hhb, payloadReader_skip,
    BitVec.ofNat_toNat, BitVec.setWidth_eq] at hrun
  rw [exec_of_passes hpass, commandBody_decode hi, decodePayload_of_run_ok _ htable hrun]

end

theorem rle0Decode_length {e : List Byte} {n : Nat} {r : List Byte × List Byte}
    (h : rle0Decode e n = some r) : r.1.length = n := by
  fun_induction rle0Decode e n generalizing r with
  | case1 e => cases h; rfl
  | case2 n => cases h
  | case3 x e n hx ih =>
    obtain ⟨r', hr', rfl⟩ := Option.map_eq_some_iff.mp h
    exact congrArg (· + 1) (ih hr')
  | case4 x n hx => cases h
  | case5 x n hx k e hover => cases h
  | case6 x n hx k e hfit ih =>
    obtain ⟨r', hr', rfl⟩ := Option.map_eq_some_iff.mp h
    have hlen := ih hr'
    simp
    omega

/-- Settles O41: the ranks themselves are written. -/
theorem hufDecRleDecodesAPayload : Obligations.HufDecRleDecodesAPayload := by
  intro s l c e ranks hp hsource hdest hapart hfits hheader htable hx hpack hhb hc hexact hd
  have hpass := hufDecRle_passes_iff.mpr ⟨hsource, hdest, hapart, hfits, hheader⟩
  have hlen : ranks.length = s.nlen.toNat := rle0Decode_length hd
  exact ⟨_, exec_decode_codes (.inl rfl) hp hpass htable hx hpack hhb hc hexact hd, rfl, hlen,
    Wrote.of_writeRun rfl rfl⟩

/-- Settles O44: the inverses of the ranks are written. -/
theorem pipeDecDecodesAPayload : Obligations.PipeDecDecodesAPayload := by
  intro s l c e ranks hp hsource hbound hdest hapart hfits hpi hheader htable hx hpack hhb hc hexact hd
  have hpass := pipeDec_passes_iff.mpr ⟨⟨hsource, hdest, hapart, hfits, hheader⟩, hbound, by
    unfold PiOutside; omega⟩
  exact ⟨_, exec_decode_codes (.inr rfl) hp hpass htable hx hpack hhb hc hexact hd, rfl,
    Wrote.of_writeRun rfl rfl⟩

end Sys2Proof.Machine
end

-- Proofs of the statements about payloads that are refused (44_huffman.md R192, R193, 45_pipeline.md R232).
section
/-! PROOFS. HUF_DEC_RLE and PIPE_DEC over any stream: a success was exact, and an error is the first one met. -/

namespace Sys2Proof.Machine

/-- The command ends with an error of its body, the reader being `r` (60_exceptions.md R269). -/
def DecodeFails (i : Instr) (s : State) (r : BitReader) (code : Byte) (info : Nat) : Prop :=
  ∃ t, exec i s = .next t
    ∧ t = ({ s with
        mem := t.mem, draws := t.draws, canonValid := false, decValid := false
        br := { r with active := false } }).reported code info

theorem BitReader.skip_pos_le {byteAt : Nat → Byte} {r : BitReader} (hr : r.Small) {n : Nat}
    (hn : n ≤ (r.rest byteAt).length) (hpos : r.pos.toNat ≤ 8 * r.bytes.toNat) :
    (r.skip n).pos.toNat ≤ 8 * (r.skip n).bytes.toNat :=
  BitReader.Follows.pos_le (byteAt := byteAt) hr ⟨n, hn, rfl⟩ hpos

section
variable {i : Instr} (hi : i = .hufDecRle ∨ i = .pipeDec) {s : State} (hpass : PassesChecks i s)
include hi hpass

theorem decodeFails_of_header {e : CmdError} (h : canonTable s.params.maxCodeLen s.header = .error e) :
    DecodeFails i s s.br 0x11#8 e.info := by
  have hkind := canonTable_error_kind h
  refine ⟨_, exec_of_passes hpass, ?_⟩
  rw [commandBody_decode hi, decodePayload_of_header_error _ h, State.failTables_eq, State.finish_some,
    State.raiseError, hkind]
  rfl

theorem decodeFails_of_run {l : Table Byte} {c : Canon} {e : CmdError} {n : Nat}
    (h : canonTable s.params.maxCodeLen s.header = .ok (l, c))
    (hrun : (s.rleJob c).run s.hbits.toNat s.payloadReader
      = { outcome := .error e, reader := s.payloadReader.skip n }) :
    DecodeFails i s (s.payloadReader.skip n) e.kind.code e.info := by
  refine ⟨_, exec_of_passes hpass, ?_⟩
  rw [commandBody_decode hi, decodePayload_of_run_error _ h hrun, State.failTables_eq]
  rfl

section
variable (hp : s.params.legal = true) {l : Table Byte} {c : Canon} {e : List Byte}
  (htable : canonTable s.params.maxCodeLen s.header = .ok (l, c)) (hx : ∀ x ∈ e, 0 < (entry l x).toNat)
  (hstream : StreamStarts s.readByte s.payloadReader (encodeBits l c e))
  (hc : s.params.rleLenCheck ≠ .none → e.length ≤ s.rlelen.toNat)
include hp htable hx hstream hc

/-- An error of `NextSym` behind the symbols `e` is the command's error. -/
theorem decodeFails_of_nextSym (hwants : WantsSymbol s.nlen.toNat e) {err : CmdError} {n : Nat}
    (hnext : (s.rleJob c).nextSym e.length (s.payloadReader.skip (encodeBits l c e).length)
      = { outcome := .error err, reader := s.payloadReader.skip n }) :
    DecodeFails i s (s.payloadReader.skip n) err.kind.code err.info := by
  obtain ⟨tail, hrest⟩ := rest_of_streamStarts hstream
  have hsmall := payloadReader_small hp (decodeReady_of_passes hi hpass).source
    (decodeReady_of_passes hi hpass).header
  exact decodeFails_of_run hi hpass htable (RleJob.run_of_expand_error _
    (RleJob.expand_of_wantsSymbol (job := s.rleJob c) (canonTable_ok htable) hsmall hx hc hrest hwants hnext))

theorem decodeFails_of_count (hwants : WantsSymbol s.nlen.toNat e) (hcheck : s.params.rleLenCheck ≠ .none)
    (hcount : e.length = s.rlelen.toNat) :
    DecodeFails i s (s.payloadReader.skip (encodeBits l c e).length) 0x18#8 e.length :=
  decodeFails_of_nextSym (err := { kind := .rlelenMismatch, info := e.length }) hi hpass hp htable hx hstream hc
    hwants (if_pos ⟨hcheck, hcount⟩)

omit hi hpass htable hx hc hp in
theorem bits_le_of_streamStarts (hheader : 256 ≤ s.slen.toNat) :
    (encodeBits l c e).length ≤ 8 * (s.slen.toNat - 256) := by
  have hlen := hstream.1
  rw [payloadReader_bytes hheader] at hlen
  exact (Nat.le_add_left _ _).trans hlen

omit htable hx hc in
/-- The reader behind the symbols of `e`. -/
theorem pos_behind_codes :
    (s.payloadReader.skip (encodeBits l c e).length).pos.toNat = (encodeBits l c e).length := by
  have hready := decodeReady_of_passes hi hpass
  have hlen := bits_le_of_streamStarts hstream hready.header
  have hskip := BitReader.skip_pos (byteAt := s.readByte) (payloadReader_small hp hready.source hready.header)
    (n := (encodeBits l c e).length) (by
      rw [BitReader.rest_length, payloadReader_bytes hready.header]
      exact hlen)
  exact hskip.trans (Nat.zero_add _)

/-- No code behind the symbols `e` (44_huffman.md R190). -/
theorem decodeFails_of_noCode (hwants : WantsSymbol s.nlen.toNat e)
    (hcount : s.params.rleLenCheck ≠ .none → e.length ≠ s.rlelen.toNat)
    (hno : ∀ x, 0 < (entry l x).toNat → ¬ StreamStarts s.readByte
      (s.payloadReader.skip (encodeBits l c e).length) (codeBits (entry c.code x) (entry l x).toNat)) :
    (8 * (s.slen.toNat - 256) < (encodeBits l c e).length + c.maxLen →
      DecodeFails i s (s.payloadReader.skip (8 * (s.slen.toNat - 256))) 0x12#8 (8 * (s.slen.toNat - 256)))
    ∧ ((encodeBits l c e).length + c.maxLen ≤ 8 * (s.slen.toNat - 256) →
      DecodeFails i s (s.payloadReader.skip ((encodeBits l c e).length + c.maxLen)) 0x13#8
        ((encodeBits l c e).length + c.maxLen)) := by
  have hready := decodeReady_of_passes hi hpass
  have hlen := bits_le_of_streamStarts hstream hready.header
  have hpos := pos_behind_codes hi hpass hp hstream
  have hbytes : (s.payloadReader.skip (encodeBits l c e).length).bytes.toNat = s.slen.toNat - 256 :=
    payloadReader_bytes hready.header
  have hdecode := (canonTable_ok htable).decodeSymbol_noCode
    (r := s.payloadReader.skip (encodeBits l c e).length)
    (payloadReader_small hp hready.source hready.header) (by omega) hno
  rw [hbytes, hpos] at hdecode
  have hnext : (s.rleJob c).nextSym e.length (s.payloadReader.skip (encodeBits l c e).length)
      = decodeSymbol s.readByte c (s.payloadReader.skip (encodeBits l c e).length) :=
    if_neg fun hbad => hcount hbad.1 hbad.2
  refine ⟨fun hlt => ?_, fun hge => ?_⟩
  · rw [if_pos hlt, BitReader.skip_skip, Nat.add_sub_cancel' hlen] at hdecode
    exact decodeFails_of_nextSym (err := { kind := .streamExhausted, info := _ }) hi hpass hp htable hx hstream hc
      hwants (hnext.trans hdecode)
  · rw [if_neg (Nat.not_lt.mpr hge), BitReader.skip_skip] at hdecode
    exact decodeFails_of_nextSym (err := { kind := .invalidCodeword, info := _ }) hi hpass hp htable hx hstream hc
      hwants (hnext.trans hdecode)

theorem decodeFails_of_overflow {e' : List Byte} {k : Byte} {made : Nat} (he : e = e' ++ [0#8, k])
    (hmade : Expands e' made) (hlt : made < s.nlen.toNat) (hover : s.nlen.toNat < made + k.toNat + 1) :
    DecodeFails i s (s.payloadReader.skip (encodeBits l c e).length) 0x14#8 made := by
  obtain ⟨tail, hrest⟩ := rest_of_streamStarts hstream
  have hsmall := payloadReader_small hp (decodeReady_of_passes hi hpass).source
    (decodeReady_of_passes hi hpass).header
  exact decodeFails_of_run (e := { kind := .rle0Overflow, info := made }) hi hpass htable
    (RleJob.run_of_expand_error _ (RleJob.expand_of_overflow (job := s.rleJob c) (canonTable_ok htable) hsmall hx
      hc hrest he hmade hlt hover))

/-- The checks behind the last rank, in their order (44_huffman.md R192). -/
theorem decodeFails_of_all (hall : Expands e s.nlen.toNat) :
    (∀ err, (s.payloadReader.skip (encodeBits l c e).length).assertConsumed s.readByte s.hbits.toNat = some err →
      DecodeFails i s (s.payloadReader.skip (encodeBits l c e).length) err.kind.code err.info)
    ∧ ((s.payloadReader.skip (encodeBits l c e).length).assertConsumed s.readByte s.hbits.toNat = none →
      s.params.rleLenCheck = .exact → e.length ≠ s.rlelen.toNat →
      DecodeFails i s (s.payloadReader.skip (encodeBits l c e).length) 0x18#8 e.length) := by
  obtain ⟨tail, hrest⟩ := rest_of_streamStarts hstream
  have hsmall := payloadReader_small hp (decodeReady_of_passes hi hpass).source
    (decodeReady_of_passes hi hpass).header
  obtain ⟨out, hexpand⟩ := RleJob.expand_of_all (job := s.rleJob c) (canonTable_ok htable) hsmall hx hc hrest hall
  refine ⟨fun err hassert => ?_, fun hassert hcheck hcount => ?_⟩
  · exact decodeFails_of_run hi hpass htable (RleJob.run_of_assert_error _ hexpand hassert)
  · exact decodeFails_of_run (e := { kind := .rlelenMismatch, info := e.length }) hi hpass htable
      (RleJob.run_of_count_error _ hexpand hassert (if_pos ⟨hcheck, hcount⟩))

end

end

/-- What a decoding command that succeeded has checked (44_huffman.md R192). -/
theorem exact_of_decoded {i : Instr} (hi : i = .hufDecRle ∨ i = .pipeDec) {s t : State}
    (hp : s.params.legal = true) (hexec : exec i s = .next t) (hterr : t.err = false) :
    s.slen.toNat = 256 + ceil8 s.hbits.toNat ∧ t.br.pos = s.hbits ∧ t.olen = s.nlen
      ∧ (∀ j, s.hbits.toNat ≤ j → j < 8 * ceil8 s.hbits.toNat →
          bitAt s.readByte (s.src.toNat + 256) j = false)
      ∧ (s.params.rleLenCheck ≠ .none → t.symcount.toNat ≤ s.rlelen.toNat)
      ∧ (s.params.rleLenCheck = .exact → t.symcount = s.rlelen) := by
  rcases exec_runs hexec with ⟨e, -, rfl⟩ | ⟨hpass, -⟩
  · cases hterr
  · have hready := decodeReady_of_passes hi hpass
    have hsmall := payloadReader_small hp hready.source hready.header
    have hbody := Host.Outcome.next.inj (hexec.symm.trans (exec_of_passes hpass))
    rw [commandBody_decode hi] at hbody
    cases htable : canonTable s.params.maxCodeLen s.header with
    | error e =>
      rw [hbody, decodePayload_of_header_error _ htable] at hterr
      cases hterr
    | ok lc =>
      obtain ⟨l, c⟩ := lc
      rcases hrun : (s.rleJob c).run s.hbits.toNat s.payloadReader with ⟨e | ⟨ranks, cnt⟩, r⟩
      · rw [hbody, decodePayload_of_run_error _ htable hrun] at hterr
        cases hterr
      · obtain ⟨-, -, hassert, -, hcount, hexact⟩ := RleJob.run_ok _ (congrArg Attempt.outcome hrun)
        have hfollows := RleJob.run_follows (s.rleJob c) s.hbits.toNat hsmall
        rw [hrun] at hassert hfollows
        obtain ⟨hpos, hpad, hlong⟩ := BitReader.assertConsumed_eq_none.mp hassert
        have hle := hfollows.pos_le hsmall (Nat.zero_le _)
        have hbytes := payloadReader_bytes hready.header
        rw [hfollows.bytes] at hle hlong
        rw [hfollows.base, payloadReader_base hp hready.source hready.header] at hpad
        have hceil := ceil8_le.mpr (hpos ▸ hle)
        rw [decodePayload_of_run_ok _ htable hrun] at hbody
        subst hbody
        have hheader := hready.header
        refine ⟨?_, BitVec.eq_of_toNat_eq hpos, rfl, hpad, fun hcheck => ?_, fun hcheck => ?_⟩
        · omega
        · exact (BitVec.toNat_ofNat cnt 32 ▸ Nat.mod_le _ _).trans (hcount hcheck)
        · have hcnt : cnt = s.rlelen.toNat := hexact hcheck
          show BitVec.ofNat 32 cnt = s.rlelen
          rw [hcnt, BitVec.ofNat_toNat, BitVec.setWidth_eq]

/-- Settles O42: the checks of the loop and of its end, in the order in which they are met. -/
theorem decodingSucceedsOnlyOnExactStreams : Obligations.DecodingSucceedsOnlyOnExactStreams := by
  refine ⟨fun i s t hi hp _ hexec hterr => exact_of_decoded hi hp hexec hterr, ?_⟩
  intro i s hi hp hpass fails header size hb opened
  refine ⟨fun bad hbad => decodeFails_of_header hi hpass hbad, ?_⟩
  intro l c e htable hx hstart hc p padded
  have hopened : ∀ n, opened n = s.payloadReader.skip n := fun n => (payloadReader_skip n).symm
  have hready := decodeReady_of_passes hi hpass
  have hstream : StreamStarts s.readByte s.payloadReader (encodeBits l c e) := hstart
  have hpos := pos_behind_codes hi hpass hp hstream
  have hbase := payloadReader_base hp hready.source hready.header
  have hbytes := payloadReader_bytes hready.header
  simp only [hopened]
  refine ⟨fun hwants => ⟨decodeFails_of_count hi hpass hp htable hx hstream hc hwants,
      decodeFails_of_noCode hi hpass hp htable hx hstream hc hwants⟩,
    fun e' k made he hmade hlt hover => decodeFails_of_overflow hi hpass hp htable hx hstream hc he hmade hlt hover,
    fun hall => ?_⟩
  obtain ⟨hassert, hcount⟩ := decodeFails_of_all hi hpass hp htable hx hstream hc hall
  have hnone : (∀ j, ¬ padded j) → ∀ j, hb ≤ j → j < 8 * ceil8 hb →
      bitAt s.readByte s.payloadReader.base.toNat j = false := fun hpad j hlo hhi => by
    rw [hbase]
    exact Bool.eq_false_iff.mpr fun hbit => hpad j ⟨hlo, hhi, hbit⟩
  refine ⟨fun hne => ?_, fun j heq hj hfirst => ?_, fun heq hpad hlong => ?_, fun heq hpad hshort => ?_⟩
  · have herr := hassert _ (BitReader.assertConsumed_of_pos_ne fun hpe => hne (hpe.symm.trans hpos))
    rwa [hpos] at herr
  · obtain ⟨hlo, hhi, hbit⟩ := hj
    refine hassert { kind := .nonzeroPadding, info := j } (BitReader.assertConsumed_of_padding
      (hpos.trans heq.symm) (find?_paddingPositions hlo hhi ?_ fun k hk hkj => ?_))
    · exact (congrArg (bitAt s.readByte · j) hbase).trans hbit
    · exact (congrArg (bitAt s.readByte · k) hbase).trans
        (Bool.eq_false_iff.mpr fun h => hfirst k hkj ⟨hk, hkj.trans hhi, h⟩)
  · have herr := hassert _ (BitReader.assertConsumed_of_trailing (hpos.trans heq.symm)
      (List.find?_eq_none.mpr fun j hj => ?_) (hlong.trans_eq hbytes.symm))
    · rwa [BitReader.skip_bytes, hbytes] at herr
    · obtain ⟨hlo, hhi⟩ := mem_paddingPositions.mp hj
      exact Bool.eq_false_iff.mp (hnone hpad j hlo hhi)
  · exact hcount (BitReader.assertConsumed_eq_none.mpr
      ⟨hpos.trans heq.symm, hnone hpad, (hbytes.le).trans hshort⟩)

/-! ## Truncation -/

/-- A payload of one byte less has its checks pass, or it has no header any more. -/
theorem truncated_checks {s : State} (h : PassesChecks .pipeDec s) (t : State)
    (ht : t = { s with slen := s.slen - 1#32 }) :
    PassesChecks .pipeDec t
      ∨ firstFailure (operandChecks .pipeDec t) = some { kind := .payloadShort, info := t.slen.toNat } := by
  obtain ⟨⟨hsource, hdest, hapart, hfits, hheader⟩, hbound, hpi⟩ := pipeDec_passes_iff.mp h
  have hslen : t.slen.toNat = s.slen.toNat - 1 := by
    rw [ht]
    exact BitVec.toNat_sub_of_le (show 1 ≤ s.slen.toNat by omega)
  have hregs : t.params = s.params ∧ t.src = s.src ∧ t.dst = s.dst ∧ t.dcap = s.dcap ∧ t.nlen = s.nlen
      ∧ t.pi = s.pi := by rw [ht]; exact ⟨rfl, rfl, rfl, rfl, rfl, rfl⟩
  obtain ⟨hparams, hsrc, hdst, hdcap, hnlen, hpieq⟩ := hregs
  have hsource' : SourceInMem t := by rw [SourceInMem, hsrc, hslen, hparams]; omega
  have hdest' : DestInMem t := by rw [DestInMem, hdst, hdcap, hparams]; exact hdest
  have hapart' : RegionsApart t := by rw [RegionsApart, hslen, hdcap, hdst, hsrc]; omega
  have hpi' : ¬ PiOutside t t.nlen.toNat := by rw [PiOutside, hpieq, hnlen]; exact hpi
  have hfits' : t.nlen.toNat ≤ t.dcap.toNat := by rw [hnlen, hdcap]; exact hfits
  have hbound' : t.nlen.toNat ≤ t.params.nMax := by rw [hnlen, hparams]; exact hbound
  by_cases hshort : t.slen.toNat < 256
  · refine .inr ?_
    simp [operandChecks, pipeDecChecks, firstFailure_cons, hsource', hdest', hapart', hpi',
      Nat.not_lt.mpr hfits', Nat.not_lt.mpr hbound', hshort]
  · exact .inl (pipeDec_passes_iff.mpr
      ⟨⟨hsource', hdest', hapart', hfits', Nat.not_lt.mp hshort⟩, hbound', hpi'⟩)

theorem CorruptStream.code_range {k : ErrKind} (h : CorruptStream k) :
    0x10 ≤ k.code.toNat ∧ k.code.toNat ≤ 0x18 := by
  rcases h with rfl | rfl | rfl | rfl | rfl | rfl | rfl <;> decide

/-- Settles O46: the shorter payload is not the size that a success demands. -/
theorem truncatedPayloadIsRefused : Obligations.TruncatedPayloadIsRefused := by
  intro s t hp herr hexec hterr
  obtain ⟨hsize, -⟩ := exact_of_decoded (.inr rfl) hp hexec hterr
  have hpass : PassesChecks .pipeDec s := by
    rcases exec_runs hexec with ⟨e, -, rfl⟩ | ⟨hpass, -⟩
    · cases hterr
    · exact hpass
  have hchecks := truncated_checks hpass _ rfl
  have hsize' : ({ s with slen := s.slen - 1#32 } : State).slen.toNat ≠ 256 + ceil8 s.hbits.toNat := by
    rw [show (s.slen - 1#32).toNat = s.slen.toNat - 1 from
      BitVec.toNat_sub_of_le (show 1 ≤ s.slen.toNat by omega)]
    omega
  have hkept : ({ s with slen := s.slen - 1#32 } : State).params = s.params
      ∧ ({ s with slen := s.slen - 1#32 } : State).err = s.err
      ∧ ({ s with slen := s.slen - 1#32 } : State).hbits = s.hbits := ⟨rfl, rfl, rfl⟩
  generalize ({ s with slen := s.slen - 1#32 } : State) = s' at hchecks hsize' hkept ⊢
  obtain ⟨hparams, herr', hhbits⟩ := hkept
  rcases hchecks with hpass' | hfail
  · refine ⟨_, exec_of_passes hpass', ?_⟩
    obtain ⟨v, o, hran, hbody⟩ := commandBody_runs hpass'
    have hexec' := exec_of_passes hpass'
    rw [hbody] at hexec' ⊢
    cases hran with
    | encode _ which | encodeError _ which => simp at which
    | decode =>
      obtain ⟨hslen, -⟩ := exact_of_decoded (.inr rfl) (hparams ▸ hp) hexec' (herr'.trans herr)
      exact absurd (hhbits ▸ hslen) hsize'
    | decodeHeaderError _ _ e kind =>
      have hrange : 0x10 ≤ e.kind.code.toNat ∧ e.kind.code.toNat ≤ 0x18 := by
        rw [kind]
        decide
      exact ⟨rfl, hrange⟩
    | decodeStreamError _ _ e kind => exact ⟨rfl, kind.code_range⟩
  · have hrange : 0x10 ≤ ErrKind.payloadShort.code.toNat ∧ ErrKind.payloadShort.code.toNat ≤ 0x18 := by decide
    exact ⟨_, exec_fail hfail, rfl, hrange⟩

end Sys2Proof.Machine
end

-- Proofs of the statements about encoding (44_huffman.md section 3, 45_pipeline.md).
section
/-! PROOFS. The statements about HUF_ENC and PIPE_ENC, and the round trip of the pipeline: a payload that
PIPE_ENC wrote is a payload of its symbols, each of which has a code, so PIPE_DEC decodes it. -/

namespace Sys2Proof.Machine

/-! ## What the encoder makes -/

/-- Built lengths are accepted by `Canon` as they are, and give each symbol of the source a code. -/
theorem canonTable_of_built {m : Nat} {e : List Byte} {l : Table Byte} (hm : 1 ≤ m) (hm' : m < 256)
    (h : buildLengths m (histogram e) = .ok l) :
    (∃ c, canonTable m l = .ok (l, c)) ∧ ∀ x ∈ e, 0 < (entry l x).toNat := by
  obtain ⟨hbuilt, -, htable⟩ := (builtLengthsHaveKraftSumOne m (histogram e) hm hm').2 l h
  refine ⟨htable, fun x hx => hbuilt.pos (x := x) ?_⟩
  simpa [histogram] using hx

section
variable {m cap : Nat} {e : List Byte} {l : Table Byte} {c : Canon}

theorem huffmanPayload_of_ok (hbuild : buildLengths m (histogram e) = .ok l)
    (htable : canonTable m l = .ok (l, c)) : huffmanPayload m e
      = .ok { freq := histogram e, len := l, table := c, bits := encodeBits l c e } := by
  unfold huffmanPayload
  dsimp only
  rw [hbuild]
  dsimp only
  rw [htable]

theorem fitPayload_of_le (hbuild : buildLengths m (histogram e) = .ok l)
    (htable : canonTable m l = .ok (l, c)) (hfit : 256 + ceil8 (encodeBits l c e).length ≤ cap) :
    fitPayload m cap e = .ok { freq := histogram e, len := l, table := c, bits := encodeBits l c e } := by
  rw [fitPayload, huffmanPayload_of_ok hbuild htable]
  exact if_neg (Nat.not_lt.mpr hfit)

theorem fitPayload_of_lt (hbuild : buildLengths m (histogram e) = .ok l)
    (htable : canonTable m l = .ok (l, c)) (hover : cap < 256 + ceil8 (encodeBits l c e).length) :
    fitPayload m cap e
      = .error { kind := .dstOverflow, info := 256 + ceil8 (encodeBits l c e).length } := by
  rw [fitPayload, huffmanPayload_of_ok hbuild htable]
  exact if_pos hover

theorem fitPayload_of_long (hlong : m < maxEntry (treeLengths (histogram e))) :
    fitPayload m cap e
      = .error { kind := .codeTooLong, info := maxEntry (treeLengths (histogram e)) } := by
  rw [fitPayload, huffmanPayload, buildLengths_of_lt hlong]

theorem encodeBits_length_le (h : ∀ x, (entry l x).toNat ≤ m) (e : List Byte) :
    (encodeBits l c e).length ≤ e.length * m := by
  induction e with
  | nil => simp
  | cons x e ih =>
    have hx := h x
    rw [encodeBits_cons, List.length_append, codeBits_length, List.length_cons, Nat.succ_mul]
    omega

end

/-- The counts of a source fit FREQ. -/
theorem entry_histogram_words {e : List Byte} (h : e.length < 2 ^ 32) (x : Byte) :
    (entry (tabulate fun x => BitVec.ofNat 32 (entry (histogram e) x)) x).toNat = e.count x := by
  have hcount := List.count_le_length (a := x) (l := e)
  rw [entry_tabulate, histogram, entry_tabulate, BitVec.toNat_ofNat]
  exact Nat.mod_eq_of_lt (by omega)

/-! ## HUF_ENC and PIPE_ENC -/

/-- The command ends with an error of its body, which changes destination bytes only (60_exceptions.md R269). -/
def EncodeFails (i : Instr) (s : State) (code : Byte) (info : Nat) : Prop :=
  ∃ t, exec i s = .next t
    ∧ t = ({ s with
        mem := t.mem, draws := t.draws, canonValid := false, decValid := false
        bw := { s.bw with active := false } }).reported code info
    ∧ ∀ x, x < s.dst.toNat ∨ s.dst.toNat + s.dcap.toNat ≤ x → t.readByte x = s.readByte x

theorem encodeFails_of_body {i : Instr} {s : State} (hpass : PassesChecks i s) {err : CmdError}
    (hbody : commandBody i s = s.dropDecoder.dropWriter.failTables err) :
    EncodeFails i s err.kind.code err.info := by
  refine ⟨_, exec_of_passes hpass, ?_⟩
  rw [hbody, State.failTables_eq]
  refine ⟨rfl, fun x hx => ?_⟩
  refine State.readByte_outside (a := s.dst.toNat) (bs := freeBytes s.draws s.dcap.toNat) ?_ ?_ ?_
  · rfl
  · rfl
  · rwa [freeBytes_length]

section
variable {s : State}

theorem hufEncBody_of_ok {p : Payload}
    (h : fitPayload s.params.maxCodeLen s.dcap.toNat s.source = .ok p) :
    hufEncBody s = (s.dropDecoder.dropWriter.storePayload p).complete := by
  rcases hufEncBody_cases s with ⟨e, he, -⟩ | ⟨p', hp', hbody⟩
  · cases h.symm.trans he
  · cases h.symm.trans hp'
    exact hbody

theorem hufEncBody_of_error {e : CmdError}
    (h : fitPayload s.params.maxCodeLen s.dcap.toNat s.source = .error e) :
    hufEncBody s = s.dropDecoder.dropWriter.failTables e := by
  rcases hufEncBody_cases s with ⟨e', he', hbody⟩ | ⟨p, hp, -⟩
  · cases h.symm.trans he'
    exact hbody
  · cases h.symm.trans hp

theorem pipeEncBody_of_ok {p : Payload} {e : List Byte} (hfront : pipeFront s.source = e)
    (h : fitPayload s.params.maxCodeLen s.dcap.toNat e = .ok p) :
    pipeEncBody s = State.complete { s.dropDecoder.dropWriter.storePayload p with
      pi := BitVec.ofNat 32 (bwtForward s.source).2
      rlelen := BitVec.ofNat 32 e.length } := by
  subst hfront
  rcases pipeEncBody_cases s with ⟨e, he, -⟩ | ⟨p', hp', hbody⟩
  · cases h.symm.trans he
  · cases h.symm.trans hp'
    exact hbody

theorem pipeEncBody_of_error {err : CmdError} {e : List Byte} (hfront : pipeFront s.source = e)
    (h : fitPayload s.params.maxCodeLen s.dcap.toNat e = .error err) :
    pipeEncBody s = s.dropDecoder.dropWriter.failTables err := by
  subst hfront
  rcases pipeEncBody_cases s with ⟨e', he', hbody⟩ | ⟨p, hp, -⟩
  · cases h.symm.trans he'
    exact hbody
  · cases h.symm.trans hp

theorem pipeEnc_passes_iff : PassesChecks .pipeEnc s ↔
    SourceInMem s ∧ s.slen.toNat ≤ s.params.nMax ∧ DestInMem s ∧ RegionsApart s := by
  simp only [PassesChecks, operandChecks, pipeEncChecks, List.forall_mem_cons, checkSource_fails,
    checkBound_fails, checkDest_fails, checkOverlap_fails, Bool.not_eq_false', decide_eq_true_eq,
    decide_eq_false_iff_not, Nat.not_lt]
  exact ⟨fun ⟨h1, h2, h3, h4, _⟩ => ⟨h1, h2, h3, h4⟩, fun ⟨h1, h2, h3, h4⟩ =>
    ⟨h1, h2, h3, h4, List.forall_mem_nil _⟩⟩

theorem pipeFront_length_le (buf : List Byte) : (pipeFront buf).length ≤ 2 * buf.length := by
  simpa [pipeFront] using rle0Encode_length_le (mtfEncode (bwtForward buf).1)

end

/-- Settles O37: the outcomes of the encoder are those of its lengths and of its capacity test. -/
theorem hufEncWritesThePayload : Obligations.HufEncWritesThePayload := by
  intro s hp hsource hdest hapart e m failed
  have hm := Params.le_maxCodeLen hp
  have hm' := Params.maxCodeLen_le hp
  have hpass : PassesChecks .hufEnc s := by
    simp [PassesChecks, operandChecks, hufEncChecks, hsource, hdest, hapart]
  have hlen : e.length < 2 ^ 32 := (State.source_length s).trans_lt s.slen.isLt
  refine ⟨fun l hl => ?_, fun hlong => encodeFails_of_body hpass (hufEncBody_of_error (fitPayload_of_long hlong))⟩
  obtain ⟨⟨c, hc⟩, -⟩ := canonTable_of_built (m := m) (by omega) (by omega) hl
  refine ⟨c, hc, fun hfit => ⟨_, exec_of_passes hpass, ?_⟩,
    fun hover => encodeFails_of_body hpass (hufEncBody_of_error (fitPayload_of_lt hl hc hover))⟩
  rw [show commandBody .hufEnc s = _ from hufEncBody_of_ok (fitPayload_of_le hl hc hfit), State.storePayload]
  exact ⟨rfl, entry_histogram_words hlen, Wrote.of_writeRun rfl rfl⟩

/-- Settles O43: the encoder on the output of the stages. -/
theorem pipeEncWritesThePayload : Obligations.PipeEncWritesThePayload := by
  intro s hp hsource hbound hdest hapart e m failed
  have hm := Params.le_maxCodeLen hp
  have hm' := Params.maxCodeLen_le hp
  have hpass := pipeEnc_passes_iff.mpr ⟨hsource, hbound, hdest, hapart⟩
  have hfront : pipeFront s.source = e := rfl
  clear_value e
  have hle : e.length ≤ 2 * s.slen.toNat := by
    rw [← hfront, ← State.source_length s]
    exact pipeFront_length_le s.source
  have hmem := Params.memSize_le hp
  have hlen : e.length < 2 ^ 32 := by omega
  refine ⟨fun l hl => ?_,
    fun hlong => encodeFails_of_body hpass (pipeEncBody_of_error hfront (fitPayload_of_long hlong))⟩
  obtain ⟨⟨c, hc⟩, -⟩ := canonTable_of_built (m := m) (by omega) (by omega) hl
  refine ⟨c, hc, hle, encodeBits_length_le (canonTable_ok hc).le_max e, fun hfit => ⟨_, exec_of_passes hpass, ?_⟩,
    fun hover => encodeFails_of_body hpass (pipeEncBody_of_error hfront (fitPayload_of_lt hl hc hover))⟩
  rw [show commandBody .pipeEnc s = _ from pipeEncBody_of_ok hfront (fitPayload_of_le hl hc hfit),
    State.storePayload]
  exact ⟨rfl, entry_histogram_words hlen, Wrote.of_writeRun rfl rfl⟩

/-! ## The round trip of the pipeline -/

theorem header_append (l : Table Byte) (bs : List Byte) :
    (tabulate fun x => (entries l ++ bs).getD x.toNat 0#8) = l := by
  refine table_ext fun x => ?_
  have hx : x.toNat < (entries l).length := by rw [entries_length]; exact x.isLt
  rw [entry_tabulate, List.getD_append _ _ _ _ hx, List.getD_eq_getElem _ _ hx, entries_getElem]

/-- The header that stands in a source. -/
theorem header_of_source {s : State} {l : Table Byte} {bs : List Byte} (h : s.source = entries l ++ bs) :
    s.header = l := by
  have hlen := congrArg List.length h
  rw [State.source_length, List.length_append, entries_length] at hlen
  rw [← header_append l bs, ← h]
  refine table_ext fun x => ?_
  have hx : x.toNat < s.slen.toNat := by have := x.isLt; omega
  simp [State.header, State.source, State.readBytes, hx]

/-- What a successful PIPE_ENC has done. -/
theorem pipeEnc_success {s t : State} (hexec : exec .pipeEnc s = .next t) (hterr : t.err = false) :
    PassesChecks .pipeEnc s ∧ ∃ p, fitPayload s.params.maxCodeLen s.dcap.toNat (pipeFront s.source) = .ok p
      ∧ t = State.complete { s.dropDecoder.dropWriter.storePayload p with
        pi := BitVec.ofNat 32 (bwtForward s.source).2
        rlelen := BitVec.ofNat 32 (pipeFront s.source).length } := by
  rcases exec_runs hexec with ⟨e, -, rfl⟩ | ⟨hpass, -⟩
  · cases hterr
  · have hbody := Host.Outcome.next.inj (hexec.symm.trans (exec_of_passes hpass))
    cases hfit : fitPayload s.params.maxCodeLen s.dcap.toNat (pipeFront s.source) with
    | error e =>
      rw [hbody, show commandBody .pipeEnc s = _ from pipeEncBody_of_error rfl hfit] at hterr
      cases hterr
    | ok p => exact ⟨hpass, p, rfl, hbody.trans (pipeEncBody_of_ok rfl hfit)⟩

/-- The rows of the transform and PI are those that the inverse wants (41_bwt.md R134). -/
theorem not_piOutside_of_bwt {u : State} {buf : List Byte} (h : u.pi.toNat = (bwtForward buf).2) :
    ¬ PiOutside u buf.length := by
  rintro (⟨hpos, hle⟩ | ⟨hzero, hne⟩)
  · exact absurd (bwtForward_pi_lt hpos) (by omega)
  · rw [List.length_eq_zero_iff.mp hzero, bwtForward_nil] at h
    exact hne h

theorem bwtForward_pi_word (s : State) : (bwtForward s.source).2 < 2 ^ 32 := by
  rcases Nat.eq_zero_or_pos s.source.length with hzero | hpos
  · rw [List.length_eq_zero_iff.mp hzero, bwtForward_nil]
    decide
  · exact (bwtForward_pi_lt hpos).trans ((State.source_length s).trans_lt s.slen.isLt)

/-- What PIPE_ENC from `s` leaves in `t`, as numbers: the payload of the stages' output in MEM and the registers
that go with it (45_pipeline.md R230). -/
structure PipeEncoded (s t : State) (l : Table Byte) (c : Canon) : Prop where
  params : t.params = s.params
  mem : t.mem = s.mem.writeRun s.dst.toNat (entries l ++ pack (encodeBits l c (pipeFront s.source)))
  epoch : t.epoch = s.epoch
  table : canonTable s.params.maxCodeLen l = .ok (l, c)
  codes : ∀ x ∈ pipeFront s.source, 0 < (entry l x).toNat
  fits : 256 + ceil8 (encodeBits l c (pipeFront s.source)).length ≤ s.dcap.toNat
  olen : t.olen.toNat = 256 + ceil8 (encodeBits l c (pipeFront s.source)).length
  hbits : t.hbits.toNat = (encodeBits l c (pipeFront s.source)).length
  rlelen : t.rlelen.toNat = (pipeFront s.source).length
  pi : t.pi.toNat = (bwtForward s.source).2

theorem toNat_ofNat_word {n : Nat} (h : n < 2 ^ 32) : (BitVec.ofNat 32 n).toNat = n := by
  rw [BitVec.toNat_ofNat, Nat.mod_eq_of_lt h]

theorem pipeEncoded_of_success {s t : State} (hp : s.params.legal = true) (hexec : exec .pipeEnc s = .next t)
    (hterr : t.err = false) : PassesChecks .pipeEnc s ∧ ∃ l c, PipeEncoded s t l c := by
  obtain ⟨hpass, p, hfit, ht⟩ := pipeEnc_success hexec hterr
  obtain ⟨hin, -, hdst, -⟩ := pipeEnc_passes_iff.mp hpass
  obtain ⟨hsize, -, hbits, l, hbuild, htable⟩ := fitPayload_ok hfit
  have hm := Params.le_maxCodeLen hp
  have hm' := Params.maxCodeLen_le hp
  have hmax := Params.memSize_le hp
  obtain ⟨⟨c, hc⟩, hcodes⟩ := canonTable_of_built (by omega) (by omega) hbuild
  obtain ⟨rfl, rfl⟩ := Prod.mk.inj (Except.ok.inj (htable.symm.trans hc))
  have hfront := pipeFront_length_le s.source
  rw [State.source_length] at hfront
  have hpsize : p.size = 256 + ceil8 p.bits.length := rfl
  have hceil := ceil8_bounds p.bits.length
  exact ⟨hpass, p.len, p.table, {
    params := by rw [ht]; rfl
    mem := by rw [← hbits, ht]; rfl
    epoch := by rw [ht]; rfl
    table := htable
    codes := hcodes
    fits := by rw [← hbits]; exact hsize
    olen := by rw [← hbits, ht]; exact toNat_ofNat_word (by omega)
    hbits := by rw [← hbits, ht]; exact toNat_ofNat_word (by omega)
    rlelen := by rw [ht]; exact toNat_ofNat_word (by omega)
    pi := by rw [ht]; exact toNat_ofNat_word (bwtForward_pi_word s) }⟩

/-- Settles O45: the payload decodes to the ranks, and the inverses of the stages give the input. -/
theorem pipelineRoundTrip : Obligations.PipelineRoundTrip := by
  intro s t u hp _ hexec hterr hparams hmem hepoch huerr hsrc hslen hnlen hpi hhbits hrlelen hdest hapart hroom
  obtain ⟨hpass, l, c, henc⟩ := pipeEncoded_of_success hp hexec hterr
  obtain ⟨-, hbound, hdst, -⟩ := pipeEnc_passes_iff.mp hpass
  have hu_params : u.params = s.params := hparams.trans henc.params
  have hu_slen : u.slen.toNat = 256 + ceil8 (encodeBits l c (pipeFront s.source)).length := hslen ▸ henc.olen
  have hu_rlelen : (pipeFront s.source).length = u.rlelen.toNat := hrlelen ▸ henc.rlelen.symm
  have hu_pi : u.pi.toNat = (bwtForward s.source).2 := hpi ▸ henc.pi
  have hsource : u.source = entries l ++ pack (encodeBits l c (pipeFront s.source)) := by
    have hread := State.readBytes_written (s := s) (hmem.trans henc.mem) (hepoch.trans henc.epoch)
    rw [List.length_append, entries_length, pack_length] at hread
    rw [State.source, hsrc, hu_slen, hread]
  have hfits := henc.fits
  have hready : DecodeReady u := by
    refine ⟨?_, hdest, hapart, hnlen ▸ hroom, by omega⟩
    rw [SourceInMem, hsrc, hu_slen, hu_params]
    omega
  have hpassDec : PassesChecks .pipeDec u := by
    refine pipeDec_passes_iff.mpr ⟨hready, by rw [hnlen, hu_params]; exact hbound, ?_⟩
    rw [hnlen, ← State.source_length s]
    exact not_piOutside_of_bwt hu_pi
  have hranks : rle0Decode (pipeFront s.source) u.nlen.toNat
      = some (mtfEncode (bwtForward s.source).1, []) := by
    have hback := rle0Decode_rle0Encode (mtfEncode (bwtForward s.source).1)
    rw [mtfEncode_length, bwtForward_length, State.source_length] at hback
    rw [hnlen]
    exact hback
  have hdecode := exec_decode_codes (.inr rfl) (hu_params ▸ hp) hpassDec
    (by rw [header_of_source hsource, hu_params]; exact henc.table) henc.codes
    (by rw [hsource, List.drop_left' (entries_length l)]) (hhbits ▸ henc.hbits)
    (fun _ => hu_rlelen.le) (fun _ => hu_rlelen) hranks
  have hpost : decodePost .pipeDec u (mtfEncode (bwtForward s.source).1) = s.source := by
    rw [decodePost, if_pos rfl, mtfDecode_mtfEncode, hu_pi]
    exact bwtInverseUndoesForward s.source
  refine ⟨_, hdecode, rfl, huerr, ?_⟩
  rw [hpost, ← State.source_length s]
  exact State.readBytes_written (s := u) rfl rfl

end Sys2Proof.Machine
end

-- Proofs of the statement about what the whole-stream commands read (10_state.md R51).
section
/-! PROOFS. The decode loop reads MEM only through the bits of its reader's buffer, so it does the same over two
memories that agree there. -/

namespace Sys2Proof.Machine

/-! ## Reading through two memories -/

/-- Two memories agree on the buffer of a reader. -/
def SameBits (byteAt byteAt' : Nat → Byte) (r : BitReader) : Prop :=
  ∀ j, j < 8 * r.bytes.toNat → bitAt byteAt r.base.toNat j = bitAt byteAt' r.base.toNat j

section
variable {byteAt byteAt' : Nat → Byte} {r r' : BitReader}

theorem SameBits.moves (h : SameBits byteAt byteAt' r) (hmove : r.Moves r') : SameBits byteAt byteAt' r' := by
  rw [SameBits, hmove.base, hmove.bytes]
  exact h

theorem SameBits.readBit (h : SameBits byteAt byteAt' r) : r.readBit byteAt = r.readBit byteAt' := by
  unfold BitReader.readBit
  split
  next => rfl
  next hlt => rw [h r.pos.toNat (by omega)]

theorem SameBits.decodeRows (h : SameBits byteAt byteAt' r) (rows : List CanonRow) (acc : Nat) :
    decodeRows byteAt rows acc r = decodeRows byteAt' rows acc r := by
  induction rows generalizing acc r with
  | nil => rfl
  | cons row rows ih =>
    have hmove := (r.readBit_follows byteAt).moves
    unfold Machine.decodeRows
    rw [← h.readBit]
    rcases hread : r.readBit byteAt with ⟨_ | b, r'⟩
    · rfl
    · rw [hread] at hmove
      dsimp only
      rw [ih (h.moves hmove)]

/-- The end of the stream is inside the buffer where the position is. -/
theorem SameBits.assertConsumed (h : SameBits byteAt byteAt' r) (hpos : r.pos.toNat ≤ 8 * r.bytes.toNat)
    (hb : Nat) : r.assertConsumed byteAt hb = r.assertConsumed byteAt' hb := by
  unfold BitReader.assertConsumed
  split
  next => rfl
  next heq =>
    have hceil := ceil8_le.mpr (not_not.mp heq ▸ hpos)
    have hfind : (paddingPositions hb).find? (fun j => bitAt byteAt r.base.toNat j)
        = (paddingPositions hb).find? fun j => bitAt byteAt' r.base.toNat j :=
      List.find?_congr fun j hj => h j (by have := (mem_paddingPositions.mp hj).2; omega)
    rw [hfind]

end

theorem Attempt.andThen_congr {α β : Type} {a : Attempt α} {f g : α → BitReader → Attempt β}
    (h : ∀ x, f x a.reader = g x a.reader) : a.andThen f = a.andThen g := by
  unfold Attempt.andThen
  split
  · rfl
  · exact h _

section
variable {job job' : RleJob} (htable : job'.table = job.table) (hn : job'.n = job.n) (hrl : job'.rl = job.rl)
  (hcheck : job'.check = job.check)
include htable hrl hcheck

theorem RleJob.nextSym_congr {r : BitReader} (h : SameBits job.byteAt job'.byteAt r) (cnt : Nat) :
    job.nextSym cnt r = job'.nextSym cnt r := by
  rw [RleJob.nextSym, RleJob.nextSym, hrl, hcheck, decodeSymbol, decodeSymbol, htable, h.decodeRows]

include hn

theorem RleJob.expand_congr (fuel made cnt : Nat) {r : BitReader} (h : SameBits job.byteAt job'.byteAt r) :
    job.expand fuel made cnt r = job'.expand fuel made cnt r := by
  induction fuel generalizing made cnt r with
  | zero => rfl
  | succ fuel ih =>
    have hnext := fun cnt {r : BitReader} (h : SameBits job.byteAt job'.byteAt r) =>
      RleJob.nextSym_congr htable hrl hcheck h cnt
    rw [RleJob.expand, RleJob.expand, hn, ← hnext cnt h]
    congr 1
    refine Attempt.andThen_congr fun x => ?_
    have hfirst := h.moves (job.nextSym_moves cnt r)
    rw [ih _ _ hfirst, ← hnext _ hfirst]
    congr 1
    refine Attempt.andThen_congr fun k => ?_
    rw [ih _ _ (hfirst.moves (job.nextSym_moves _ _))]

theorem RleJob.run_congr {r : BitReader} (h : SameBits job.byteAt job'.byteAt r) (hr : r.Small)
    (hpos : r.pos.toNat ≤ 8 * r.bytes.toNat) (hb : Nat) : job.run hb r = job'.run hb r := by
  rw [RleJob.run, RleJob.run, hn, ← RleJob.expand_congr htable hn hrl hcheck job.n 0 0 h]
  refine Attempt.andThen_congr fun x => ?_
  have hfollows := job.expand_follows job.n 0 0 hr
  rw [(h.moves hfollows.moves).assertConsumed (hfollows.pos_le hr hpos), RleJob.countError, RleJob.countError,
    hrl, hcheck]

end

/-! ## Two runs -/

/-- What a run of `i` lets the host see (10_state.md R51) is the same in two runs, from states whose destination
is `dst`. -/
structure SameAnswer (i : Instr) (dst : Nat) (t t' : State) : Prop where
  err : t'.err = t.err
  report : t.err = true → t'.errcode = t.errcode ∧ t'.errinfo = t.errinfo
  outputs : t.err = false →
    t'.len = t.len ∧ t'.canon = t.canon ∧ t'.olen = t.olen ∧ t'.pi = t.pi ∧ t'.hbits = t.hbits
      ∧ t'.rlelen = t.rlelen
      ∧ (i = .hufEnc ∨ i = .pipeEnc → t'.freq = t.freq)
      ∧ (i = .hufDecRle ∨ i = .pipeDec → t'.symcount = t.symcount)
      ∧ ∀ x, dst ≤ x → x < dst + t.olen.toNat → t'.readByte x = t.readByte x

theorem sameAnswer_of_error (i : Instr) (dst : Nat) (e : CmdError) (u u' : State) :
    SameAnswer i dst (u.raiseError e) (u'.raiseError e) :=
  ⟨rfl, fun _ => ⟨rfl, rfl⟩, nofun⟩

/-- The bytes of one run of bytes in two memories. -/
theorem readByte_eq_of_writeRun {s s' t t' : State} {a n : Nat} {bs : List Byte}
    (hm : t.mem = s.mem.writeRun a bs) (he : t.epoch = s.epoch) (hm' : t'.mem = s'.mem.writeRun a bs)
    (he' : t'.epoch = s'.epoch) (hn : n = bs.length) (x : Nat) (hlo : a ≤ x) (hhi : x < a + n) :
    t'.readByte x = t.readByte x := by
  rw [State.readByte_of_writeRun hm he, State.readByte_of_writeRun hm' he', dif_pos ⟨hlo, hn ▸ hhi⟩,
    dif_pos ⟨hlo, hn ▸ hhi⟩]

/-- Two states agree on what the whole-stream commands read: the operand registers and the source (10_state.md
R51). -/
structure SameOperands (s s' : State) : Prop where
  params : s'.params = s.params
  src : s'.src = s.src
  slen : s'.slen = s.slen
  dst : s'.dst = s.dst
  dcap : s'.dcap = s.dcap
  nlen : s'.nlen = s.nlen
  pi : s'.pi = s.pi
  hbits : s'.hbits = s.hbits
  rlelen : s'.rlelen = s.rlelen
  source : s'.source = s.source
  err : s.err = false
  err' : s'.err = false

theorem readByte_of_source {s : State} {i : Nat} (hi : i < s.slen.toNat) :
    s.readByte (s.src.toNat + i) = s.source.getD i 0#8 := by
  simp [State.source, State.readBytes, hi]

/-- A fitting payload's size is a register value. -/
theorem fitPayload_size_word {s : State} {e : List Byte} {p : Payload}
    (hfit : fitPayload s.params.maxCodeLen s.dcap.toNat e = .ok p) :
    (BitVec.ofNat 32 p.size).toNat = p.bytes.length := by
  have hle := (fitPayload_ok hfit).1
  have hlt := s.dcap.isLt
  rw [BitVec.toNat_ofNat, Nat.mod_eq_of_lt (by omega)]
  simp [Payload.bytes, Payload.size]

section
variable {s s' : State} (h : SameOperands s s')
include h

theorem SameOperands.checks {i : Instr} (hi : i = .hufEnc ∨ i = .hufDecRle ∨ i = .pipeEnc ∨ i = .pipeDec) :
    operandChecks i s' = operandChecks i s := by
  rcases hi with rfl | rfl | rfl | rfl <;>
    simp [operandChecks, hufEncChecks, hufDecRleChecks, pipeEncChecks, pipeDecChecks, checkSource, checkDest,
      checkBound, checkOverlap, checkFits, checkPi, checkPayload, h.params, h.src, h.slen, h.dst, h.dcap, h.nlen,
      h.pi]

theorem SameOperands.hufEncBody : SameAnswer .hufEnc s.dst.toNat (hufEncBody s) (hufEncBody s') := by
  have hfit' : fitPayload s'.params.maxCodeLen s'.dcap.toNat s'.source
      = fitPayload s.params.maxCodeLen s.dcap.toNat s.source := by rw [h.params, h.dcap, h.source]
  cases hfit : fitPayload s.params.maxCodeLen s.dcap.toNat s.source with
  | error e =>
    rw [hufEncBody_of_error hfit, hufEncBody_of_error (hfit'.trans hfit)]
    exact sameAnswer_of_error _ _ e _ _
  | ok p =>
    rw [hufEncBody_of_ok hfit, hufEncBody_of_ok (hfit'.trans hfit), State.storePayload, State.storePayload,
      State.dropWriter_dst, State.dropWriter_dst, State.dropDecoder_dst, State.dropDecoder_dst, h.dst]
    exact ⟨h.err'.trans h.err.symm, fun he => absurd (h.err.symm.trans he) nofun, fun _ =>
      ⟨rfl, rfl, rfl, h.pi, rfl, h.rlelen, fun _ => rfl, nofun,
        readByte_eq_of_writeRun (s := s) (s' := s') rfl rfl rfl rfl (fitPayload_size_word hfit)⟩⟩

theorem SameOperands.pipeEncBody : SameAnswer .pipeEnc s.dst.toNat (pipeEncBody s) (pipeEncBody s') := by
  have hfit' : fitPayload s'.params.maxCodeLen s'.dcap.toNat (pipeFront s'.source)
      = fitPayload s.params.maxCodeLen s.dcap.toNat (pipeFront s.source) := by rw [h.params, h.dcap, h.source]
  cases hfit : fitPayload s.params.maxCodeLen s.dcap.toNat (pipeFront s.source) with
  | error e =>
    rw [pipeEncBody_of_error rfl hfit, pipeEncBody_of_error rfl (hfit'.trans hfit)]
    exact sameAnswer_of_error _ _ e _ _
  | ok p =>
    rw [pipeEncBody_of_ok rfl hfit, pipeEncBody_of_ok rfl (hfit'.trans hfit), State.storePayload,
      State.storePayload, State.dropWriter_dst, State.dropWriter_dst, State.dropDecoder_dst,
      State.dropDecoder_dst, h.dst, h.source]
    exact ⟨h.err'.trans h.err.symm, fun he => absurd (h.err.symm.trans he) nofun, fun _ =>
      ⟨rfl, rfl, rfl, rfl, rfl, rfl, fun _ => rfl, nofun,
        readByte_eq_of_writeRun (s := s) (s' := s') rfl rfl rfl rfl (fitPayload_size_word hfit)⟩⟩

theorem SameOperands.readByte {i : Nat} (hi : i < s.slen.toNat) :
    s.readByte (s.src.toNat + i) = s'.readByte (s.src.toNat + i) := by
  rw [readByte_of_source hi, ← h.source, ← readByte_of_source (h.slen ▸ hi), h.src]

theorem SameOperands.header (hheader : 256 ≤ s.slen.toNat) : s'.header = s.header := by
  refine table_ext fun x => ?_
  rw [State.header, State.header, entry_tabulate, entry_tabulate, h.src, h.readByte (i := x.toNat) ?_]
  have hx := x.isLt
  omega

theorem SameOperands.payloadReader : s'.payloadReader = s.payloadReader := by
  rw [State.payloadReader, State.payloadReader, h.src, h.slen]

theorem SameOperands.sameBits (hp : s.params.legal = true) (hready : DecodeReady s) :
    SameBits s.readByte s'.readByte s.payloadReader := by
  intro j hj
  have hheader := hready.header
  rw [payloadReader_bytes hheader] at hj
  rw [bitAt, bitAt, payloadReader_base hp hready.source hready.header, Nat.add_assoc,
    h.readByte (i := 256 + j / 8) (by omega)]

theorem SameOperands.decodePost (i : Instr) : decodePost i s' = decodePost i s := by
  funext ranks
  rw [Machine.decodePost, Machine.decodePost, h.pi]

theorem SameOperands.decode {i : Instr} (hi : i = .hufDecRle ∨ i = .pipeDec) (hp : s.params.legal = true)
    (hready : DecodeReady s) :
    SameAnswer i s.dst.toNat (s.decodePayload (Machine.decodePost i s))
      (s'.decodePayload (Machine.decodePost i s')) := by
  have htable' : canonTable s'.params.maxCodeLen s'.header = canonTable s.params.maxCodeLen s.header := by
    rw [h.params, h.header hready.header]
  rw [h.decodePost]
  cases htable : canonTable s.params.maxCodeLen s.header with
  | error e =>
    rw [decodePayload_of_header_error _ htable, decodePayload_of_header_error _ (htable'.trans htable)]
    exact sameAnswer_of_error _ _ e _ _
  | ok lc =>
    obtain ⟨l, c⟩ := lc
    have hrun' : (s'.rleJob c).run s'.hbits.toNat s'.payloadReader
        = (s.rleJob c).run s.hbits.toNat s.payloadReader := by
      rw [h.payloadReader, h.hbits]
      exact (RleJob.run_congr (job := s.rleJob c) (job' := s'.rleJob c) rfl (congrArg BitVec.toNat h.nlen)
        (congrArg BitVec.toNat h.rlelen) (congrArg Params.rleLenCheck h.params) (h.sameBits hp hready)
        (payloadReader_small hp hready.source hready.header) (Nat.zero_le _) _).symm
    rcases hrun : (s.rleJob c).run s.hbits.toNat s.payloadReader with ⟨e | ⟨ranks, cnt⟩, r⟩
    · rw [decodePayload_of_run_error _ htable hrun,
        decodePayload_of_run_error _ (htable'.trans htable) (hrun'.trans hrun)]
      exact sameAnswer_of_error _ _ e _ _
    · have hlen := (RleJob.run_ok _ (congrArg Attempt.outcome hrun)).2.2.2.1
      rw [decodePayload_of_run_ok _ htable hrun,
        decodePayload_of_run_ok _ (htable'.trans htable) (hrun'.trans hrun), h.dst, h.nlen]
      refine ⟨h.err'.trans h.err.symm, fun he => absurd (h.err.symm.trans he) nofun, fun _ =>
        ⟨rfl, rfl, rfl, h.pi, h.hbits, h.rlelen, fun hor => ?_, fun _ => rfl,
          readByte_eq_of_writeRun (s := s) (s' := s') rfl rfl rfl rfl
            (((decodePost_length i s ranks).trans hlen).symm)⟩⟩
      rcases hi with rfl | rfl <;> simp at hor

theorem SameOperands.body {i : Instr} (hi : i = .hufEnc ∨ i = .hufDecRle ∨ i = .pipeEnc ∨ i = .pipeDec)
    (hp : s.params.legal = true) (hpass : PassesChecks i s) :
    SameAnswer i s.dst.toNat (commandBody i s) (commandBody i s') := by
  rcases hi with rfl | rfl | rfl | rfl
  · exact h.hufEncBody
  · exact h.decode (.inl rfl) hp (decodeReady_of_passes (.inl rfl) hpass)
  · exact h.pipeEncBody
  · exact h.decode (.inr rfl) hp (decodeReady_of_passes (.inr rfl) hpass)

end

/-- Settles O13: the same checks fail, or both bodies run. -/
theorem wholeStreamCommandsReadOnlyTheirOperands : Obligations.WholeStreamCommandsReadOnlyTheirOperands := by
  intro i s s' t t' hi hp hparams hsrc hslen hdst hdcap hnlen hpi hhbits hrlelen hsource herr herr' hexec hexec'
  have h : SameOperands s s' :=
    ⟨hparams, hsrc, hslen, hdst, hdcap, hnlen, hpi, hhbits, hrlelen, hsource, herr, herr'⟩
  have hchecks := h.checks hi
  suffices hsame : SameAnswer i s.dst.toNat t t' from ⟨hsame.err, hsame.report, hsame.outputs⟩
  cases hfirst : firstFailure (operandChecks i s) with
  | some e =>
    rw [exec_fail hfirst] at hexec
    rw [exec_fail (hchecks ▸ hfirst)] at hexec'
    cases hexec
    cases hexec'
    exact sameAnswer_of_error i _ e _ _
  | none =>
    have hpass := passesChecks_iff.mpr hfirst
    rw [exec_of_passes hpass] at hexec
    rw [exec_of_passes (passesChecks_iff.mpr (hchecks ▸ hfirst))] at hexec'
    cases hexec
    cases hexec'
    exact h.body hi hp hpass

end Sys2Proof.Machine
end

-- Proofs of the statements about the engine step and the host's reads (30_encoding.md R86, 20_memory.md section 2).
section
/-! PROOFS. The statements about the step of the machine, the interrupt, the host's reads, its MEM accesses and
those it makes while the block is busy, and the reset values. -/

namespace Sys2Proof.Machine

/-! ## Host reads at their targets -/

theorem State.busRead_reg (s : State) (r : Reg) :
    s.busRead r.offset .word
      = if r.readableBusy then s.reply (.data (s.regValue r)) else s.readPlace .word (s.regValue r) := by
  unfold State.busRead
  rw [busTarget_reg]

theorem State.busRead_freq (s : State) (x : Byte) :
    s.busRead (0x400 + 4 * x.toNat) .word = s.readPlace .word (entry s.freq x) := by
  unfold State.busRead
  rw [busTarget_freq]

theorem State.busRead_len (s : State) (x : Byte) :
    s.busRead (0x800 + 4 * x.toNat) .word = s.readPlace .word ((entry s.len x).setWidth 32) := by
  unfold State.busRead
  rw [busTarget_len]

theorem State.busRead_code (s : State) (x : Byte) :
    s.busRead (0xC00 + 4 * x.toNat) .word = s.readPlace .word (s.codeValue x) := by
  unfold State.busRead
  rw [busTarget_code]

theorem State.busRead_mem {s : State} {a : Nat} {width : Width} (hw : width ≠ .wide) (ha : a < s.params.memSize)
    (hal : a % width.bytes = 0) : s.busRead (0x10000 + a) width
      = s.readPlace width (BitVec.ofNat 32 (littleEndian (s.readBytes a width.bytes))) := by
  unfold State.busRead
  rw [busTarget_mem hw ha hal]

theorem State.busRead_none {s : State} {offset : Nat} {width : Width} (h : busTarget s.params offset width = none) :
    s.busRead offset width = s.reply .busError := by
  unfold State.busRead
  rw [h]

theorem State.busWrite_none {s : State} {offset : Nat} {width : Width} (v : Word)
    (h : busTarget s.params offset width = none) : s.busWrite offset width v = s.reply .busError := by
  unfold State.busWrite
  rw [h]

theorem State.busRead_reserved {s : State} {offset : Nat} {width : Width}
    (h : busTarget s.params offset width = some .reserved) : s.busRead offset width = s.reply (.data 0#32) := by
  unfold State.busRead
  rw [h]

theorem State.busWrite_reserved {s : State} {offset : Nat} {width : Width} (v : Word)
    (h : busTarget s.params offset width = some .reserved) : s.busWrite offset width v = s.reply .written := by
  unfold State.busWrite
  rw [h]

theorem State.readPlace_of_idle {s : State} (h : s.busy = false) (width : Width) (v : Word) :
    s.readPlace width v = s.reply (.data v) := by simp [State.readPlace, h]

theorem State.busRead_reg_of_idle {s : State} (h : s.busy = false) (r : Reg) :
    s.busRead r.offset .word = s.reply (.data (s.regValue r)) := by
  rw [State.busRead_reg, State.readPlace_of_idle h, ite_self]

theorem State.busRead_reg_of_readable {r : Reg} (h : r.readableBusy = true) (s : State) :
    s.busRead r.offset .word = s.reply (.data (s.regValue r)) := by rw [State.busRead_reg, if_pos h]

/-- A read while idle answers, and draws no free value. -/
theorem State.busRead_of_idle {s : State} (h : s.busy = false) (offset : Nat) (width : Width) :
    ∃ b, s.busRead offset width = s.reply b := by
  unfold State.busRead
  split
  case h_2 r => exact ⟨_, by rw [State.readPlace_of_idle h, ite_self]⟩
  case h_1 | h_7 => exact ⟨_, rfl⟩
  all_goals exact ⟨_, State.readPlace_of_idle h _ _⟩

/-! ## The engine step -/

/-- With the host waiting, a command in flight takes its engine step. -/
theorem step_of_engineIsNext {s : State} (h : s.inReset = false) (hb : s.busy = true) (hnext : EngineIsNext s) :
    step s = engineStep s := by
  rcases hnext with hp | ⟨rest, hp⟩ | ⟨rest, hp⟩ | ⟨hirq, rest, hp⟩
  · exact step_engine h hp hb
  · simp [step, h, hp, hb]
  · simp [step, h, hp, hb, pollStep]
  · simp [step, h, hp, hb, waitIrqStep, hirq]

theorem step_poll {s : State} (h : s.inReset = false) {k : Nat} {rest : List HostAction}
    (hp : s.pending = .poll k :: rest) : step s = pollStep k rest s := by simp [step, h, hp]

theorem pollStep_of_busy {s : State} (hb : s.busy = true) (k : Nat) (rest : List HostAction) :
    pollStep (k + 1) rest s
      = .next ({ s with pending := .poll k :: rest }.busRead Reg.status.offset .word) := if_pos hb

theorem pollStep_of_idle {s : State} (hb : s.busy = false) (k : Nat) (rest : List HostAction) :
    pollStep k rest s = .next ({ s with pending := rest }.busRead Reg.status.offset .word) :=
  if_neg (Bool.eq_false_iff.mp hb)

/-- Settles O4: the branches of the step. -/
theorem stepRunsTheDecodedCommand : Obligations.StepRunsTheDecodedCommand := by
  refine ⟨fun s i h hb hnext hi => (step_of_engineIsNext h hb hnext).trans (engineStep_of_decode hi),
    fun s h hb => ⟨fun hp => by simp [step, h, hp, hb], fun rest hp => by simp [step, h, hp, hb]⟩,
    fun s rest h => ⟨fun k hp hb => ?_, fun k hp hb => ?_, fun hp => ⟨fun hirq => ?_, fun hirq hb => ?_⟩,
      fun _ _ hp => step_read h hp, fun _ _ _ hp => step_write h hp⟩⟩
  · rw [step_poll h hp, pollStep_of_busy hb, State.busRead_reg_of_readable (r := .status) rfl]
    rfl
  · rw [step_poll h hp, pollStep_of_idle hb, State.busRead_reg_of_readable (r := .status) rfl]
    rfl
  · simp [step, h, hp, waitIrqStep, hirq]
  · simp [step, h, hp, waitIrqStep, hirq, hb]

/-- Settles O5: the engine rejects what does not decode. -/
theorem illegalWordEndsWithIllegalCmd : Obligations.IllegalWordEndsWithIllegalCmd := by
  intro s h hb hnext hillegal
  rw [step_of_engineIsNext h hb hnext, engineStep]
  cases hd : decode s.cur with
  | ok i => exact absurd ⟨i, hd⟩ hillegal
  | error e =>
    refine congrArg Host.Outcome.next ?_
    rw [State.rejectWord, State.raiseError, BitVec.ofNat_toNat, BitVec.setWidth_eq]
    rfl

/-! ## STATUS and ENGSTATE -/

/-- Bits packed from bit 0 upwards stand at their places. -/
theorem packedFlags_testBit (a b c d e : Bool) :
    ∀ k : Fin 5, (a.toNat + 2 * b.toNat + 4 * c.toNat + 8 * d.toNat + 16 * e.toNat).testBit k
      = [a, b, c, d, e].getD k false := by
  revert a b c d e
  decide

theorem packedFlags_lt (a b c d e : Bool) :
    a.toNat + 2 * b.toNat + 4 * c.toNat + 8 * d.toNat + 16 * e.toNat < 2 ^ 5 := by
  revert a b c d e
  decide

theorem statusWord_getLsbD (s : State) (k : Fin 5) :
    s.statusWord.getLsbD k = [s.busy, s.done, s.err, s.ovr, s.irq].getD k false := by
  have hk : (k : Nat) < 32 := by omega
  rw [State.statusWord, BitVec.getLsbD_ofNat, packedFlags_testBit]
  simp [hk]

theorem statusWord_getLsbD_high (s : State) {j : Nat} (hj : 5 ≤ j) : s.statusWord.getLsbD j = false := by
  have hlt := packedFlags_lt s.busy s.done s.err s.ovr s.irq
  rw [State.statusWord, BitVec.getLsbD_ofNat,
    Nat.testBit_lt_two_pow (hlt.trans_le (Nat.pow_le_pow_right (by decide) hj)), Bool.and_false]

/-- ENGSTATE is its four flags below MAXLEN at bit 8. -/
theorem engStateWord_getLsbD (s : State) (j : Nat) :
    s.engStateWord.getLsbD j = (decide (j < 32) && if j < 8 then
      (s.bw.active.toNat + 2 * s.br.active.toNat + 4 * s.decValid.toNat + 8 * s.canonValid.toNat
        + 16 * false.toNat).testBit j
    else (s.maxLenField % 2 ^ 8).testBit (j - 8)) := by
  have hlt := packedFlags_lt s.bw.active s.br.active s.decValid s.canonValid false
  rw [State.engStateWord, BitVec.getLsbD_ofNat, Nat.add_comm, ← Nat.testBit_two_pow_mul_add _ (by omega)]
  rfl

theorem engStateWord_getLsbD_flag (s : State) (k : Fin 5) :
    s.engStateWord.getLsbD k = [s.bw.active, s.br.active, s.decValid, s.canonValid, false].getD k false := by
  have hk : (k : Nat) < 8 := by omega
  have hk' : (k : Nat) < 32 := by omega
  rw [engStateWord_getLsbD, if_pos hk, packedFlags_testBit]
  simp [hk']

/-- Settles O47: the fields are packed without overlap. -/
theorem statusWordShowsFlagsAndIrq : Obligations.StatusWordShowsFlagsAndIrq := by
  intro s
  refine ⟨statusWord_getLsbD s 0, statusWord_getLsbD s 1, statusWord_getLsbD s 2, statusWord_getLsbD s 3,
    statusWord_getLsbD s 4, fun j => statusWord_getLsbD_high s, rfl, fun hmax => ⟨engStateWord_getLsbD_flag s 0,
      engStateWord_getLsbD_flag s 1, engStateWord_getLsbD_flag s 2, engStateWord_getLsbD_flag s 3,
      fun j hlo hj => ?_, fun j hj => ?_⟩⟩
  · have hflags := packedFlags_lt s.bw.active s.br.active s.decValid s.canonValid false
    rw [engStateWord_getLsbD]
    split
    next hlt =>
      by_cases hfour : j = 4
      · rw [hfour]
        exact (engStateWord_getLsbD s 4).symm.trans (engStateWord_getLsbD_flag s 4)
      · rw [Nat.testBit_lt_two_pow (hflags.trans_le (Nat.pow_le_pow_right (by decide) (by omega))),
          Bool.and_false]
    next hge => 
      rw [Nat.testBit_mod_two_pow, decide_eq_false (p := j - 8 < 8) (by omega), Bool.false_and, Bool.and_false]
  · rw [engStateWord_getLsbD, if_neg (by omega), Nat.testBit_mod_two_pow, Nat.add_sub_cancel_left,
      decide_eq_true hj, decide_eq_true (by omega), Bool.true_and, Bool.true_and, State.maxLenField]
    cases s.canonValid <;> simp

/-! ## Writes while busy, and accesses that are refused -/

/-- Settles O52: each of these targets is written through `whileIdle`. -/
theorem busyWritesAreDropped : Obligations.BusyWritesAreDropped := by
  intro s offset width v target hb ht hwhich
  unfold State.busWrite
  rw [ht]
  rcases hwhich with ⟨r, rfl, hr | rfl⟩ | ⟨x, rfl⟩ | ⟨x, rfl⟩ | ⟨a, rfl⟩
  · dsimp only
    rw [State.writeReg_operand hr, State.whileIdle_of_busy _ hb]
    rfl
  · dsimp only
    rw [State.writeReg, State.writeCmd_eq_whileIdle, State.whileIdle_of_busy _ hb]
    rfl
  · dsimp only
    rw [State.writeFreq, State.whileIdle_of_busy _ hb]
    rfl
  · dsimp only
    rw [State.writeLen, State.whileIdle_of_busy _ hb]
    rfl
  · dsimp only
    rw [State.whileIdle_of_busy _ hb]
    rfl

/-- Settles O55: the branches of the address map. -/
theorem refusedAndReservedAccesses : Obligations.RefusedAndReservedAccesses := by
  intro s offset width v _ low inMem aligned32
  refine ⟨fun hrefused => ?_, fun haligned hreserved => ?_⟩
  · have hnone : busTarget s.params offset width = none := by
      unfold busTarget
      rcases hrefused with ⟨hwhere, hwidth⟩ | ⟨⟨hlo, hhi⟩, hwidth⟩
      · by_cases hlow : offset < 0x10000
        · rw [if_pos hlow, if_neg hwidth]
        · have hout : ¬ offset - 0x10000 < s.params.memSize := by
            have := hwhere.resolve_left hlow
            omega
          rw [if_neg hlow, if_neg hout, if_neg hwidth]
      · have hbad : ¬ (width ≠ .wide ∧ offset % width.bytes = 0) := fun h =>
          hwidth.elim h.1 fun hne => hne h.2
        rw [if_neg (by omega), if_pos (by omega), if_neg hbad]
    exact ⟨State.busRead_none hnone, State.busWrite_none v hnone⟩
  · obtain ⟨rfl, hfour⟩ := haligned
    have htarget : busTarget s.params offset .word = some .reserved := by
      rcases hreserved with ⟨hlo, hhi⟩ | ⟨hlo, hhi⟩ | hout
      · rw [busTarget_area _ hlo (by omega) hfour, if_neg (by omega), if_neg (by omega), if_neg (by omega)]
      · rw [busTarget_area _ (by omega) hhi hfour, if_neg (by omega), if_neg (by omega), if_neg (by omega)]
      · unfold busTarget
        rw [if_neg (by omega), if_neg (by omega), if_pos ⟨rfl, hfour⟩]
    exact ⟨State.busRead_reserved htarget, State.busWrite_reserved v htarget⟩

/-! ## MEM by the host -/

theorem littleEndian_lt (bs : List Byte) : littleEndian bs < 256 ^ bs.length := by
  induction bs with
  | nil => exact Nat.one_pos
  | cons b bs ih =>
    have hb := b.isLt
    rw [littleEndian, List.length_cons, Nat.pow_succ]
    omega

/-- The byte at a place of a little-endian value. -/
theorem littleEndian_byte {bs : List Byte} {i : Nat} (hi : i < bs.length) :
    BitVec.ofNat 8 (littleEndian bs / 256 ^ i) = bs[i] := by
  induction bs generalizing i with
  | nil => cases hi
  | cons b bs ih =>
    have hb := b.isLt
    cases i with
    | zero =>
      apply BitVec.eq_of_toNat_eq
      simp only [littleEndian, Nat.pow_zero, Nat.div_one, BitVec.toNat_ofNat, List.getElem_cons_zero]
      omega
    | succ i =>
      rw [littleEndian, Nat.pow_succ', ← Nat.div_div_eq_div_mul,
        show (b.toNat + 256 * littleEndian bs) / 256 = littleEndian bs by omega]
      exact ih (Nat.lt_of_succ_lt_succ hi)

theorem littleEndian_bytes (v n : Nat) :
    littleEndian ((List.range n).map fun i => BitVec.ofNat 8 (v / 256 ^ i)) = v % 256 ^ n := by
  induction n generalizing v with
  | zero => simp [littleEndian, Nat.mod_one]
  | succ n ih =>
    have hmap : (List.range n).map (fun i => BitVec.ofNat 8 (v / 256 ^ (i + 1)))
        = (List.range n).map fun i => BitVec.ofNat 8 (v / 256 / 256 ^ i) :=
      List.map_congr_left fun i _ => by rw [Nat.pow_succ', Nat.div_div_eq_div_mul]
    rw [List.range_succ_eq_map, List.map_cons, List.map_map]
    simp only [Function.comp_def, Nat.succ_eq_add_one, hmap, littleEndian, ih, Nat.pow_zero, Nat.div_one,
      BitVec.toNat_ofNat]
    show v % 256 + 256 * (v / 256 % 256 ^ n) = v % 256 ^ (n + 1)
    rw [Nat.pow_succ', Nat.mod_mul]

theorem busBytes_eq (n : Nat) (v : Word) :
    busBytes n v = (List.range n).map fun i => BitVec.ofNat 8 (v.toNat / 256 ^ i) := by
  refine List.map_congr_left fun i _ => BitVec.eq_of_toNat_eq ?_
  rw [BitVec.extractLsb'_toNat, BitVec.toNat_ofNat, Nat.shiftRight_eq_div_pow, Nat.pow_mul]

@[simp] theorem busBytes_length (n : Nat) (v : Word) : (busBytes n v).length = n := by simp [busBytes]

theorem State.busWrite_mem {s : State} {a : Nat} {width : Width} (v : Word) (hb : s.busy = false)
    (hw : width ≠ .wide) (ha : a < s.params.memSize) (hal : a % width.bytes = 0) :
    s.busWrite (0x10000 + a) width v = (s.writeBytes a (busBytes width.bytes v)).reply .written := by
  unfold State.busWrite
  rw [busTarget_mem hw ha hal]
  dsimp only
  rw [State.whileIdle_of_idle _ hb]

/-- Settles O54: the bytes written are those of the value, and reading them back gives it. -/
theorem hostMemAccessIsLittleEndian : Obligations.HostMemAccessIsLittleEndian := by
  intro s a width v _ hb hw ha hal t
  have ht : t = (s.writeBytes a (busBytes width.bytes v)).reply .written := State.busWrite_mem v hb hw ha hal
  have hmem : t.mem = s.mem.writeRun a (busBytes width.bytes v) := by rw [ht]; rfl
  have hepoch : t.epoch = s.epoch := by rw [ht]; rfl
  have hframe : t = { s with mem := t.mem, replies := s.replies ++ [.written] } := by
    rw [hmem, ht]
    rfl
  have hparams : t.params = s.params := by rw [ht]; rfl
  have hbusy : t.busy = false := by rw [ht]; exact hb
  refine ⟨hframe, fun i hi => ?_, fun x hx => ?_, ?_⟩
  · rw [State.readByte_inside hmem hepoch (i := i) (by simpa using hi)]
    simp [busBytes_eq]
  · exact State.readByte_outside hmem hepoch (by simpa using hx)
  · have hread : t.readBytes a width.bytes = busBytes width.bytes v := by
      simpa using State.readBytes_written hmem hepoch
    rw [State.busRead_mem hw (hparams ▸ ha) hal, State.readPlace_of_idle hbusy, hread, busBytes_eq,
      littleEndian_bytes]

/-! ## Host reads have no side effect -/

theorem registerReads_eq {s : State} (hp : s.params.legal = true) :
    registerReads s = Reg.all.map fun r => (r.offset, s.regValue r) := by
  simp only [Params.legal, Bool.and_eq_true, decide_eq_true_eq, beq_iff_eq] at hp
  have hctrl : (if s.ie then 1#32 else 0#32) = s.ctrlWord := by rw [State.ctrlWord]; cases s.ie <;> rfl
  have hparam : ∀ n, BitVec.ofNat 32
      (s.params.maxCodeLen + 2 ^ 8 * s.params.bwMaxBits + 2 ^ 16 * s.params.peekMax + 2 ^ 24 * n)
      = BitVec.ofNat 32 (s.params.maxCodeLen % 256 + 2 ^ 8 * (s.params.bwMaxBits % 256)
        + 2 ^ 16 * (s.params.peekMax % 256) + 2 ^ 24 * n) := fun n => by
    rw [Nat.mod_eq_of_lt (a := s.params.maxCodeLen) (by omega),
      Nat.mod_eq_of_lt (a := s.params.bwMaxBits) (by omega), Nat.mod_eq_of_lt (a := s.params.peekMax) (by omega)]
  rw [registerReads, hctrl, hparam]
  rfl

theorem codeValue_eq (s : State) (x : Byte) : s.codeValue x =
    if s.canonValid = true ∧ entry s.len x ≠ 0#8 then BitVec.ofNat 32 (entry s.canon.code x) else 0#32 := by
  have hpos : 0 < (entry s.len x).toNat ↔ entry s.len x ≠ 0#8 := by
    rw [Nat.pos_iff_ne_zero, ne_eq, ne_eq, ← BitVec.toNat_inj]
    rfl
  simp [State.codeValue, hpos]

/-- The registers that show their value while busy (20_memory.md R69), by their offsets. -/
theorem readableBusy_of_offset {r : Reg} (h : r.offset ∈ [0x000, 0x004, 0x008, 0x05C, 0x060, 0x064]) :
    r.readableBusy = true := by
  revert h
  cases r <;> decide

/-- What a read of data gives back. -/
theorem State.busRead_replies {s : State} {offset : Nat} {width : Width} {target : Target}
    (h : busTarget s.params offset width = some target) :
    ∃ v, (s.busRead offset width).replies = s.replies ++ [.data v] := by
  obtain ⟨v, n, hread⟩ := State.busRead_data h
  exact ⟨v, by rw [hread]⟩

/-- Settles O56: every place answers its value while idle, and data while busy. -/
theorem hostReadsHaveNoSideEffect : Obligations.HostReadsHaveNoSideEffect := by
  refine ⟨fun s offset width => ?_, fun s hp => ⟨fun hb => ⟨fun p hmem => ?_, fun x => ⟨?_, ?_, ?_⟩,
    fun a width hw ha hal => ?_⟩, fun hb => ⟨fun p hmem hp' => ?_, fun p hmem => ?_, fun x table htable => ?_,
      fun a width hw ha hal => State.busRead_replies (busTarget_mem hw ha hal)⟩⟩⟩
  · have hidle : s.busy = false → (s.busRead offset width).draws = s.draws := fun hb => by
      obtain ⟨b, hread⟩ := State.busRead_of_idle hb offset width
      rw [hread]
      rfl
    cases ht : busTarget s.params offset width with
    | none => exact ⟨.busError, by rw [State.busRead_none ht]; rfl, hidle⟩
    | some target =>
      obtain ⟨v, n, hread⟩ := State.busRead_data ht
      exact ⟨.data v, by rw [hread], hidle⟩
  · rw [registerReads_eq hp] at hmem
    obtain ⟨r, -, rfl⟩ := List.mem_map.mp hmem
    exact State.busRead_reg_of_idle hb r
  · rw [State.busRead_freq, State.readPlace_of_idle hb]
  · rw [State.busRead_len, State.readPlace_of_idle hb]
  · rw [State.busRead_code, State.readPlace_of_idle hb, codeValue_eq]
  · have hlen := State.readBytes_length s a width.bytes
    have hlt := littleEndian_lt (s.readBytes a width.bytes)
    rw [hlen] at hlt
    have hword : 256 ^ width.bytes ≤ 2 ^ 32 := by
      cases width with
      | wide => exact absurd rfl hw
      | _ => decide
    have hv : (BitVec.ofNat 32 (littleEndian (s.readBytes a width.bytes))).toNat
        = littleEndian (s.readBytes a width.bytes) := Nat.mod_eq_of_lt (by omega)
    refine ⟨_, by rw [State.busRead_mem hw ha hal, State.readPlace_of_idle hb], hv ▸ hlt, fun i hi => ?_⟩
    rw [hv, littleEndian_byte (hlen.symm ▸ hi)]
    simp [State.readBytes]
  · rw [registerReads_eq hp] at hmem
    obtain ⟨r, -, rfl⟩ := List.mem_map.mp hmem
    exact State.busRead_reg_of_readable (readableBusy_of_offset hp') s
  · rw [registerReads_eq hp] at hmem
    obtain ⟨r, -, rfl⟩ := List.mem_map.mp hmem
    exact State.busRead_replies (busTarget_reg _ r)
  · simp only [List.mem_cons, List.not_mem_nil, or_false] at htable
    rcases htable with rfl | rfl | rfl
    · exact State.busRead_replies (busTarget_freq _ x)
    · exact State.busRead_replies (busTarget_len _ x)
    · exact State.busRead_replies (busTarget_code _ x)

/-! ## Reset values -/

/-- Settles O57: by evaluation, register by register; PARAM0 for each setting of P_RLELEN_CHECK. -/
theorem resetValuesAreTheTables : Obligations.ResetValuesAreTheTables := by
  refine ⟨fun r hid h0 h1 h2 => ?_, rfl, rfl, rfl, ?_, fun x => ⟨entry_replicate _ x, entry_replicate _ x, rfl⟩,
    rfl, rfl, rfl, rfl, rfl, rfl⟩
  · cases r with
    | id => exact absurd rfl hid
    | param0 => exact absurd rfl h0
    | param1 => exact absurd rfl h1
    | param2 => exact absurd rfl h2
    | _ => rfl
  · rw [State.regValue, param0Word]
    cases State.reset.params.rleLenCheck
    · exact .inl rfl
    · exact .inr (.inl rfl)
    · exact .inr (.inr rfl)

/-- Settles O58: no byte is written, nothing is active, and no table is valid. -/
theorem resetMeetsTheInvariant : Obligations.ResetMeetsTheInvariant where
  params := rfl
  memForm := rfl
  memSize := nofun
  flags := nofun
  busy := nofun
  errcode := .inl rfl
  errinfo _ := rfl
  decoder := nofun
  canon := nofun
  writer := ⟨by decide, by decide, rfl⟩
  reader := ⟨by decide, by decide⟩
  held := nofun

end Sys2Proof.Machine
end

-- Proofs of the statements about hardware reset and the invariant (70_reset_and_hazards.md section 1, 10_state.md).
section
/-! PROOFS. The reset input, and that every step keeps the invariant: what a body makes of MEM, the writer, the
reader and the table is read off `Ran`; the rest of a step changes little of what the invariant speaks of. -/

namespace Sys2Proof.Machine

/-! ## Hardware reset -/

/-- Abandoning a command changes MEM alone (70_reset_and_hazards.md R302). -/
theorem State.abandon_eq (s : State) :
    s.abandon = { s with mem := s.abandon.mem, draws := s.abandon.draws } := by
  unfold State.abandon
  cases decode s.cur <;> rfl

theorem State.abandon_of_illegal {s : State} (h : ¬ ∃ i, decode s.cur = .ok i) : s.abandon = s := by
  unfold State.abandon
  cases hd : decode s.cur with
  | ok i => exact absurd ⟨i, hd⟩ h
  | error e => rfl

theorem State.abandon_of_decode {s : State} {i : Instr} (h : decode s.cur = .ok i) :
    s.abandon = s.scramble (writeRegion i s).1
      (min (writeRegion i s).2 (s.params.memSize - (writeRegion i s).1)) := by
  unfold State.abandon
  rw [h]

/-- The bytes outside a region that is made any value. -/
theorem State.scramble_readByte_outside (s : State) {a n x : Nat} (hx : x < a ∨ a + n ≤ x) :
    (s.scramble a n).readByte x = s.readByte x := by
  refine State.readByte_outside (a := a) (bs := freeBytes s.draws n) ?_ ?_ ?_
  · rfl
  · rfl
  · simpa using hx

/-- The region of a command is its destination or the BitWriter's, or empty (20_memory.md R75). -/
theorem writeRegion_cases (i : Instr) (s : State) :
    (hasDest i = true ∧ writeRegion i s = (s.dst.toNat, s.dcap.toNat))
      ∨ ((i = .bwFinish ∨ ∃ n, i = .bwWrite n) ∧ writeRegion i s = (s.bw.base.toNat, s.bw.cap.toNat))
      ∨ writeRegion i s = (0, 0) := by
  cases i <;> simp [hasDest, writeRegion]

theorem outside_writeRegion {i : Instr} {s : State} {x : Nat}
    (h : ¬((hasDest i = true ∧ s.dst.toNat ≤ x ∧ x < s.dst.toNat + s.dcap.toNat)
      ∨ ((i = .bwFinish ∨ ∃ n, i = .bwWrite n)
        ∧ s.bw.base.toNat ≤ x ∧ x < s.bw.base.toNat + s.bw.cap.toNat))) :
    x < (writeRegion i s).1 ∨ (writeRegion i s).1 + (writeRegion i s).2 ≤ x := by
  obtain ⟨hdest, hwriter⟩ := not_or.mp h
  rcases writeRegion_cases i s with ⟨hi, hr⟩ | ⟨hi, hr⟩ | hr <;> rw [hr]
  · have hout := not_and.mp hdest hi
    dsimp only
    omega
  · have hout := not_and.mp hwriter hi
    dsimp only
    omega
  · exact .inr (Nat.zero_le x)

/-- Settles O60: what the reset input and the power-on do, and that nothing else happens while it is held. -/
theorem hardwareResetKeepsMem : Obligations.HardwareResetKeepsMem := by
  intro s rest
  refine ⟨fun hreset hp => ?_, fun hreset => ⟨fun hp => ?_, fun hp => ?_, fun hp => ?_⟩, fun hp => ?_⟩
  · have hstep : step s = .next { s with pending := rest }.assertReset := by simp [step, hreset, hp]
    have hillegal : (¬ ∃ i, decode s.cur = .ok i) → ({ s with pending := rest } : State).abandon
        = { s with pending := rest } := fun h => State.abandon_of_illegal (s := { s with pending := rest }) h
    refine ⟨_, hstep, ?_, fun hquiet => ?_, fun i hb hi x hx => ?_⟩
    · unfold State.assertReset
      split
      · rw [State.abandon_eq]
        rfl
      · rfl
    · unfold State.assertReset
      rcases hquiet with hb | hbad
      · rw [if_neg (Bool.eq_false_iff.mp hb)]
        exact State.readByte_congr rfl rfl
      · rw [hillegal hbad, ite_self]
        exact State.readByte_congr rfl rfl
    · unfold State.assertReset
      have habandon := State.abandon_of_decode (s := { s with pending := rest }) hi
      rw [if_pos hb, habandon]
      refine Eq.trans (State.readByte_congr rfl rfl x) (State.scramble_readByte_outside _ ?_)
      have hout := outside_writeRegion (s := { s with pending := rest }) hx
      omega
  · simp [step, hreset, heldStep, hp]
  · simp [step, hreset, heldStep, hp, State.releaseReset]
  · rcases hp with ⟨_, _, hp⟩ | ⟨_, _, _, hp⟩ | hp | ⟨_, hp⟩ | hp <;> simp [step, hreset, heldStep, hp]
  · have hstep : step s = .next { s with pending := rest }.powerOn := by
      cases hreset : s.inReset <;> simp [step, heldStep, hreset, hp]
    exact ⟨_, hstep, rfl⟩

/-! ## The invariant: MEM -/

/-- MEM in canonical form and inside its size (20_memory.md R60). -/
def Memory.Inside (p : Params) (m : Memory) : Prop := m.wf = true ∧ ∀ c ∈ m, c.1 < p.memSize

theorem State.Inv.inside {s : State} (h : s.Inv) : s.mem.Inside s.params := ⟨h.memForm, h.memSize⟩

theorem Memory.Inside.writeRun {p : Params} {m : Memory} (h : m.Inside p) {a : Nat} {bs : List Byte}
    (hfit : a + bs.length ≤ p.memSize) : (m.writeRun a bs).Inside p := by
  refine ⟨Memory.wf_writeRun h.1 a bs, fun c hc => ?_⟩
  rcases Memory.mem_writeRun hc with hold | ⟨-, hlt⟩
  · exact h.2 c hold
  · omega

theorem Memory.Inside.writeRun_min {p : Params} {m : Memory} (h : m.Inside p) (a n : Nat) {bs : List Byte}
    (hlen : bs.length = min n (p.memSize - a)) : (m.writeRun a bs).Inside p := by
  rcases Nat.le_total a p.memSize with hle | hge
  · exact h.writeRun (by omega)
  · have hnil : bs = [] := List.length_eq_zero_iff.mp (by omega)
    rw [hnil, Memory.writeRun_nil m a h.1]
    exact h

section
variable {s : State}

theorem State.putBit_inside (h : s.mem.Inside s.params) (hs : s.bw.Small) (ho : s.bw.Ok s.params)
    (hc : s.bw.bits.toNat + 1 ≤ 8 * s.bw.cap.toNat) (b : Bool) : (s.putBit b).mem.Inside s.params := by
  have hregion := ho.region
  have hbits : (s.bw.bits + 1#32).toNat = s.bw.bits.toNat + 1 :=
    (State.putBit_spec b hs ho hc).2.1 ▸ congrArg (fun t => t.bw.bits.toNat) (State.putBit_eq s b).symm
  unfold State.putBit
  dsimp only
  split
  · refine h.writeRun ?_
    rw [hbits, List.length_singleton]
    omega
  · exact h

theorem foldl_putBit_inside (bs : List Bool) (h : s.mem.Inside s.params) (hs : s.bw.Small)
    (ho : s.bw.Ok s.params) (hc : s.bw.bits.toNat + bs.length ≤ 8 * s.bw.cap.toNat) :
    (bs.foldl State.putBit s).mem.Inside s.params := by
  induction bs generalizing s with
  | nil => exact h
  | cons b bs ih =>
    rw [List.length_cons] at hc
    have hput := State.putBit_eq s b
    have hparams : (s.putBit b).params = s.params := by rw [hput]
    have hcap : (s.putBit b).bw.cap = s.bw.cap := by rw [hput]
    obtain ⟨hok, hbits, -, -⟩ := State.putBit_spec b hs ho (by omega)
    have hinside := State.putBit_inside h hs ho (by omega) b
    rw [List.foldl_cons]
    rw [← hparams] at hinside hok ⊢
    refine ih hinside ?_ hok (by rw [hbits, hcap]; omega)
    unfold BitWriter.Small at hs ⊢
    rw [hcap]
    exact hs

theorem bwWriteBody_inside (h : s.mem.Inside s.params) (hp : s.params.legal = true) (ho : s.bw.Ok s.params)
    {n : Nat} (hc : ceil8 (s.bw.bits.toNat + n) ≤ s.bw.cap.toNat) :
    (bwWriteBody n s).mem.Inside s.params :=
  foldl_putBit_inside _ h (ho.small hp) ho (by rw [codeBits_length]; exact ceil8_le.mp hc)

theorem flushPartial_inside (h : s.mem.Inside s.params) (ho : s.bw.Ok s.params) :
    s.flushPartial.mem.Inside s.params := by
  have hregion := ho.region
  have hfits := ceil8_le.mp ho.fits
  unfold State.flushPartial
  split
  · exact h
  · refine h.writeRun ?_
    rw [List.length_singleton]
    omega

end

/-! ## The invariant: what a body leaves -/

theorem BitReader.Ok.follows {p : Params} {byteAt : Nat → Byte} {r r' : BitReader} (h : r.Ok p) (hr : r.Small)
    (hf : r.Follows byteAt r') : r'.Ok p :=
  ⟨by rw [hf.base, hf.bytes]; exact h.region, hf.pos_le hr h.pos⟩

theorem payloadReader_ok {s : State} (hp : s.params.legal = true) (hsource : SourceInMem s)
    (hheader : 256 ≤ s.slen.toNat) : s.payloadReader.Ok s.params := by
  refine ⟨?_, Nat.zero_le _⟩
  rw [payloadReader_base hp hsource hheader, payloadReader_bytes hheader]
  omega

/-- Only the active bit of a writer that is in its bounds is changed. -/
theorem BitWriter.Ok.setActive {p : Params} {w : BitWriter} (h : w.Ok p) (b : Bool) :
    ({ w with active := b } : BitWriter).Ok p := ⟨h.region, h.fits, h.acc⟩

theorem BitReader.Ok.setActive {p : Params} {r : BitReader} (h : r.Ok p) (b : Bool) :
    ({ r with active := b } : BitReader).Ok p := ⟨h.region, h.pos⟩

/-- The BitWriter fields that the encoder leaves (44_huffman.md R187). -/
theorem encodedWriter_ok {s : State} (hp : s.params.legal = true) (hdest : DestInMem s) {p : Payload}
    (hfit : p.size ≤ s.dcap.toNat) :
    ({ active := false, base := s.dst + 256#32, cap := s.dcap - 256#32
       bits := BitVec.ofNat 32 p.bits.length, acc := 0#8 } : BitWriter).Ok s.params := by
  have hmem := Params.memSize_le hp
  have hsize : p.size = 256 + ceil8 p.bits.length := rfl
  have hceil := ceil8_bounds p.bits.length
  have hbase : (s.dst + 256#32).toNat = s.dst.toNat + 256 := by
    rw [BitVec.toNat_add, BitVec.toNat_ofNat]
    exact Nat.mod_eq_of_lt (by omega)
  have hcap : (s.dcap - 256#32).toNat = s.dcap.toNat - 256 :=
    BitVec.toNat_sub_of_le (show 256 ≤ s.dcap.toNat by omega)
  have hbits : (BitVec.ofNat 32 p.bits.length).toNat = p.bits.length := Nat.mod_eq_of_lt (by omega)
  refine ⟨?_, ?_, Nat.zero_mod _⟩
  · rw [hbase, hcap]
    omega
  · rw [hbits, hcap]
    omega

theorem destInMem_of_passes {i : Instr} {s : State} (hpass : PassesChecks i s) (hi : hasDest i = true) :
    DestInMem s := by
  have hcheck : checkDest s ∈ operandChecks i s := by
    cases i <;> simp [operandChecks, hasDest, bwtFwdChecks, bwtInvChecks, mtfEncChecks, mtfDecChecks,
      rle0EncChecks, hufEncChecks, hufDecRleChecks, pipeEncChecks, pipeDecChecks] at hi ⊢
  simpa using hpass _ hcheck

section
variable {i : Instr} {s u : State} {o : Option CmdError} (h : Ran s i u o)
include h

theorem Ran.canonTable
    (hcanon : s.canonValid = true → canonTable s.params.maxCodeLen s.len = .ok (s.len, s.canon)) :
    u.canonValid = true → Machine.canonTable s.params.maxCodeLen u.len = .ok (u.len, u.canon) := by
  cases h with
  | hufCanon _ _ table | hufStartDec _ _ table => exact fun _ => table
  | encode _ _ _ _ _ _ table | decode _ _ _ _ _ _ _ _ table => exact fun _ => table
  | hufBuild | hufBuildError | hufCanonError | hufStartDecError | encodeError | decodeHeaderError
  | decodeStreamError => exact nofun
  | _ => exact hcanon

theorem Ran.decoder (hdecoder : s.decValid = true → s.canonValid = true ∧ s.br.active = true) :
    u.decValid = true → u.canonValid = true ∧ u.br.active = true := by
  cases h with
  | brReadbit r _ read => exact fun hd => ⟨(hdecoder hd).1, read.active.trans (hdecoder hd).2⟩
  | hufDecOne r _ moved => exact fun hd => ⟨(hdecoder hd).1, moved.active.trans (hdecoder hd).2⟩
  | hufStartDec => exact fun _ => ⟨rfl, rfl⟩
  | brInit | brAssertError | hufBuild | hufBuildError | hufCanon | hufCanonError | hufStartDecError
  | hufDecOneError | encode | encodeError | decode | decodeHeaderError | decodeStreamError => exact nofun
  | _ => exact hdecoder

variable (hp : s.params.legal = true) (hpass : PassesChecks i s)
include hp hpass

theorem Ran.writerOk (hw : s.bw.Ok s.params) : u.bw.Ok s.params := by
  cases h with
  | bwInit =>
    have hdest : DestInMem s := by simpa [PassesChecks, operandChecks, bwInitChecks] using hpass
    exact ⟨hdest, ceil8_le.mpr (Nat.zero_le _), rfl⟩
  | bwWrite n m acc written =>
    have hok := (bwWriteBody_appends hp hw (fits_of_passes hpass)).ok
    rw [written] at hok
    exact hok
  | bwFinish => exact ⟨hw.region, hw.fits, Nat.zero_mod _⟩
  | encode _ which p _ _ fits =>
    exact encodedWriter_ok hp (destInMem_of_passes hpass (by rcases which with rfl | rfl <;> rfl)) fits
  | encodeError => exact hw.setActive false
  | _ => exact hw

theorem Ran.readerOk (hr : s.br.Ok s.params) : u.br.Ok s.params := by
  have hsmall := hr.small hp
  cases h with
  | brInit =>
    have hsource : SourceInMem s := by simpa [PassesChecks, operandChecks, brInitChecks] using hpass
    exact ⟨hsource, Nat.zero_le _⟩
  | brReadbit _ _ read => exact hr.follows hsmall read
  | brAssertError => exact hr.setActive false
  | hufStartDec =>
    have hchecks : SourceInMem s ∧ 256 ≤ s.slen.toNat := by
      simpa [PassesChecks, operandChecks, hufStartDecChecks] using hpass
    exact (payloadReader_ok hp hchecks.1 hchecks.2).setActive true
  | hufDecOne _ _ _ read => exact hr.follows hsmall (read hsmall)
  | hufDecOneError _ _ _ read => exact (hr.follows hsmall (read hsmall)).setActive false
  | decode _ which _ _ _ _ _ _ _ _ read | decodeStreamError _ which _ _ _ _ read =>
    have hready := decodeReady_of_passes which hpass
    have hopen := payloadReader_ok hp hready.source hready.header
    have hsmall' := payloadReader_small hp hready.source hready.header
    exact hopen.follows hsmall' (read hsmall')
  | decodeHeaderError => exact hr.setActive false
  | _ => exact hr

theorem Ran.inside (hm : s.mem.Inside s.params) (hw : s.bw.Ok s.params) : u.mem.Inside s.params := by
  by_cases hwriting : i = .bwFinish ∨ ∃ n, i = .bwWrite n
  · rcases hwriting with rfl | ⟨n, rfl⟩
    · cases h with
      | bwFinish => exact flushPartial_inside hm hw
      | encode _ which | encodeError _ which | decode _ which | decodeHeaderError _ which
      | decodeStreamError _ which => simp at which
    · cases h with
      | bwWrite _ m acc written =>
        have hinside := bwWriteBody_inside hm hp hw (fits_of_passes hpass)
        rw [written] at hinside
        exact hinside
      | encode _ which | encodeError _ which | decode _ which | decodeHeaderError _ which
      | decodeStreamError _ which => simp at which
  · rcases h.mem (fun hi => hwriting (.inl hi)) (fun n hi => hwriting (.inr ⟨n, hi⟩)) with
      ⟨hi, bs, hfit, hu⟩ | hu
    · have hdest := destInMem_of_passes hpass hi
      rw [hu]
      exact hm.writeRun (by omega)
    · rw [hu]
      exact hm

end

end Sys2Proof.Machine
end

-- Proofs of the statement about the invariant in every step (10_state.md sections 1 to 4).
section
/-! PROOFS. Every step keeps the invariant: the engine's, by what its command leaves; the host's, because a write
touches little of what the invariant speaks of; and a reset, because it leaves reset values over MEM. -/

namespace Sys2Proof.Machine

/-- The invariant speaks of these fields only. -/
theorem State.Inv.congr {s t : State} (h : s.Inv) (params : t.params = s.params := by rfl)
    (mem : t.mem = s.mem := by rfl) (busy : t.busy = s.busy := by rfl) (done : t.done = s.done := by rfl)
    (err : t.err = s.err := by rfl) (errcode : t.errcode = s.errcode := by rfl)
    (errinfo : t.errinfo = s.errinfo := by rfl) (decValid : t.decValid = s.decValid := by rfl)
    (canonValid : t.canonValid = s.canonValid := by rfl) (len : t.len = s.len := by rfl)
    (canon : t.canon = s.canon := by rfl) (bw : t.bw = s.bw := by rfl) (br : t.br = s.br := by rfl)
    (inReset : t.inReset = s.inReset := by rfl) : t.Inv where
  params := params ▸ h.params
  memForm := mem ▸ h.memForm
  memSize := mem ▸ params ▸ h.memSize
  flags := done ▸ err ▸ h.flags
  busy := by rw [busy, done, err, errcode, errinfo]; exact h.busy
  errcode := errcode ▸ h.errcode
  errinfo := by rw [errcode, errinfo]; exact h.errinfo
  decoder := by rw [decValid, canonValid, br]; exact h.decoder
  canon := by rw [canonValid, params, len, canon]; exact h.canon
  writer := by rw [bw, params]; exact h.writer
  reader := by rw [br, params]; exact h.reader
  held := by rw [inReset, busy]; exact h.held

/-! ## Commands -/

theorem ErrKind.code_ne_zero (k : ErrKind) : k.code ≠ 0#8 := by cases k <;> decide

/-- What the end of a command makes of a state that keeps the invariant's parts about MEM, the table, the writer
and the reader. -/
structure BodyInv (s u : State) : Prop where
  keeps : KeepsHost s u
  inside : u.mem.Inside s.params
  decoder : u.decValid = true → u.canonValid = true ∧ u.br.active = true
  canon : u.canonValid = true → canonTable s.params.maxCodeLen u.len = .ok (u.len, u.canon)
  writer : u.bw.Ok s.params
  reader : u.br.Ok s.params

section
variable {s u : State} (hs : s.Inv) (hb : s.busy = true) (hu : BodyInv s u)
include hs hb hu

theorem BodyInv.complete : u.complete.Inv := by
  obtain ⟨-, herr, hcode, hinfo⟩ := hs.busy hb
  obtain ⟨hkeep, hinside, hdecoder, hcanon, hwriter, hreader⟩ := hu
  have hp := hkeep.params
  exact {
    params := hp ▸ hs.params
    memForm := hinside.1
    memSize := hp ▸ hinside.2
    flags := fun hf => nomatch (hkeep.err.trans herr).symm.trans hf.2
    busy := nofun
    errcode := .inl (hkeep.errcode.trans hcode)
    errinfo := fun _ => hkeep.errinfo.trans hinfo
    decoder := hdecoder
    canon := hp ▸ hcanon
    writer := hp ▸ hwriter
    reader := hp ▸ hreader
    held := fun _ => rfl }

theorem BodyInv.raiseError (e : CmdError) : (u.raiseError e).Inv := by
  obtain ⟨hdone, -⟩ := hs.busy hb
  obtain ⟨hkeep, hinside, hdecoder, hcanon, hwriter, hreader⟩ := hu
  have hp := hkeep.params
  exact {
    params := hp ▸ hs.params
    memForm := hinside.1
    memSize := hp ▸ hinside.2
    flags := fun hf => nomatch (hkeep.done.trans hdone).symm.trans hf.1
    busy := nofun
    errcode := .inr ⟨e.kind, rfl⟩
    errinfo := fun hzero => absurd hzero e.kind.code_ne_zero
    decoder := hdecoder
    canon := hp ▸ hcanon
    writer := hp ▸ hwriter
    reader := hp ▸ hreader
    held := fun _ => rfl }

end

theorem BodyInv.refl {s : State} (hs : s.Inv) : BodyInv s s :=
  ⟨{}, hs.inside, hs.decoder, hs.canon, hs.writer, hs.reader⟩

/-- A failed check drops no more than valid bits (10_state.md R53). -/
theorem bodyInv_failEffects {s : State} (hs : s.Inv) (i : Instr) : BodyInv s (failEffects i s) := by
  rcases failEffects_cases i s with h | h | h <;> rw [h]
  · exact .refl hs
  · exact ⟨{}, hs.inside, hs.decoder, hs.canon, hs.writer.setActive false, hs.reader⟩
  · exact ⟨{}, hs.inside, nofun, hs.canon, hs.writer, hs.reader.setActive false⟩

theorem Ran.bodyInv {s u : State} {i : Instr} {o : Option CmdError} (h : Ran s i u o) (hs : s.Inv)
    (hpass : PassesChecks i s) : BodyInv s u where
  keeps := h.keepsHost
  inside := h.inside hs.params hpass hs.inside hs.writer
  decoder := h.decoder hs.decoder
  canon := h.canonTable hs.canon
  writer := h.writerOk hs.params hpass hs.writer
  reader := h.readerOk hs.params hpass hs.reader

theorem exec_keeps_inv {s t : State} {i : Instr} (hs : s.Inv) (hb : s.busy = true) (h : exec i s = .next t) :
    t.Inv := by
  rcases exec_runs h with ⟨e, -, rfl⟩ | ⟨hpass, u, o, hran, rfl⟩
  · exact (bodyInv_failEffects hs i).raiseError hs hb e
  · have hu := hran.bodyInv hs hpass
    cases o with
    | none => exact hu.complete hs hb
    | some e => exact hu.raiseError hs hb e

theorem engineStep_keeps_inv {s t : State} (hs : s.Inv) (hb : s.busy = true) (h : engineStep s = .next t) :
    t.Inv := by
  unfold engineStep at h
  cases hd : decode s.cur with
  | ok i =>
    rw [hd] at h
    exact exec_keeps_inv hs hb h
  | error e =>
    rw [hd] at h
    cases h
    exact (BodyInv.refl hs).raiseError hs hb _

/-! ## Reset -/

/-- Reset values over a MEM inside its size meet the invariant. -/
theorem toReset_inv {s : State} (hp : s.params.legal = true) (hm : s.mem.Inside s.params) : s.toReset.Inv where
  params := hp
  memForm := hm.1
  memSize := hm.2
  flags := nofun
  busy := nofun
  errcode := .inl rfl
  errinfo _ := rfl
  decoder := nofun
  canon := nofun
  writer := ⟨Nat.zero_le _, ceil8_le.mpr (Nat.zero_le _), rfl⟩
  reader := ⟨Nat.zero_le _, Nat.zero_le _⟩
  held _ := rfl

/-- An idle state stays in the invariant when the reset input changes. -/
theorem State.Inv.setReset {s : State} (h : s.Inv) (hb : s.busy = false) (b : Bool) :
    ({ s with inReset := b } : State).Inv :=
  ⟨h.params, h.memForm, h.memSize, h.flags, h.busy, h.errcode, h.errinfo, h.decoder, h.canon, h.writer, h.reader,
    fun _ => hb⟩

theorem abandon_inside {s : State} (hm : s.mem.Inside s.params) : s.abandon.mem.Inside s.params := by
  unfold State.abandon
  split
  · exact hm
  · exact hm.writeRun_min _ _ (freeBytes_length _ _)

theorem assertReset_inv {s : State} (hs : s.Inv) : s.assertReset.Inv := by
  unfold State.assertReset
  split
  · have habandon := s.abandon_eq
    have hparams : s.abandon.params = s.params := by rw [habandon]
    refine (toReset_inv ?_ ?_).setReset rfl true
    · rw [hparams]
      exact hs.params
    · rw [hparams]
      exact abandon_inside hs.inside
  · exact (toReset_inv hs.params hs.inside).setReset rfl true

theorem powerOn_inv {s : State} (hs : s.Inv) : s.powerOn.Inv :=
  (toReset_inv (s := { s with mem := [], epoch := s.epoch + 1 }) hs.params
    ⟨rfl, fun _ h => absurd h List.not_mem_nil⟩).setReset rfl true

/-! ## The host -/

theorem whileIdle_inv {s : State} {f : State → State} (hs : s.Inv) (hf : s.busy = false → (f s).Inv) :
    (s.whileIdle f).Inv := by
  cases hb : s.busy with
  | true =>
    rw [State.whileIdle_of_busy f hb]
    exact hs.congr
  | false =>
    rw [State.whileIdle_of_idle f hb]
    exact hf hb

theorem setOperand_inv {s : State} (hs : s.Inv) (r : Reg) (v : Word) : (s.setOperand r v).Inv := by
  cases r <;> exact hs.congr

theorem accept_inv {s : State} (hs : s.Inv) (hreset : s.inReset = false) (w : Word) : (s.accept w).Inv :=
  ⟨hs.params, hs.memForm, hs.memSize, nofun, fun _ => ⟨rfl, rfl, rfl, rfl⟩, .inl rfl, fun _ => rfl, hs.decoder,
    hs.canon, hs.writer, hs.reader, fun h => nomatch hreset.symm.trans h⟩

theorem clearStatus_inv {s : State} (hs : s.Inv) (v : Word) : (s.clearStatus v).Inv where
  params := hs.params
  memForm := hs.memForm
  memSize := hs.memSize
  flags hf := hs.flags ⟨(Bool.and_eq_true_iff.mp hf.1).1, (Bool.and_eq_true_iff.mp hf.2).1⟩
  busy hb := by
    obtain ⟨hdone, herr, hcode, hinfo⟩ := hs.busy hb
    exact ⟨by simp [State.clearStatus, hdone], by simp [State.clearStatus, herr], hcode, hinfo⟩
  errcode := hs.errcode
  errinfo := hs.errinfo
  decoder := hs.decoder
  canon := hs.canon
  writer := hs.writer
  reader := hs.reader
  held := hs.held

theorem writeCtrl_inv {s : State} (hs : s.Inv) (v : Word) : (s.writeCtrl v).Inv := by
  by_cases h : v.getLsbD 1 = false ∨ s.busy = true
  · rw [State.writeCtrl_ie h]
    exact hs.congr
  · obtain ⟨hv, hb⟩ := not_or.mp h
    rw [State.writeCtrl_reset (Bool.not_eq_false _ ▸ hv) (Bool.eq_false_iff.mpr hb)]
    exact toReset_inv hs.params hs.inside

theorem writeReg_inv {s : State} (hs : s.Inv) (hreset : s.inReset = false) (r : Reg) (v : Word) :
    (s.writeReg r v).Inv := by
  by_cases hoperand : isOperand r = true
  · rw [State.writeReg_operand hoperand]
    exact whileIdle_inv hs fun _ => setOperand_inv hs r v
  · by_cases hreadOnly : isReadOnly r = true
    · rw [State.writeReg_readOnly hreadOnly]
      exact hs
    · cases r with
      | ctrl => exact writeCtrl_inv hs v
      | status => exact clearStatus_inv hs v
      | cmd => exact whileIdle_inv hs fun _ => accept_inv hs hreset v
      | src | slen | dst | dcap | pi | nlen | hbits | rlelen | bwcode => exact absurd rfl hoperand
      | id | errcode | errinfo | olen | result | peekn | symcount | engstate | bwbits | brpos | brlimit | param0
      | param1 | param2 => exact absurd rfl hreadOnly

/-- No MEM stands below 0x1_0000 (20_memory.md R63). -/
theorem areaTarget_ne_mem (offset a : Nat) : areaTarget offset ≠ .mem a := by
  unfold areaTarget
  cases Reg.all[offset / 4]? with
  | some r => simp
  | none => split_ifs <;> simp

/-- A MEM access that the bus accepts lies inside MEM (20_memory.md R64). -/
theorem busTarget_mem_fits {p : Params} (hp : p.legal = true) {offset a : Nat} {width : Width}
    (h : busTarget p offset width = some (.mem a)) : a + width.bytes ≤ p.memSize := by
  simp only [Params.legal, Bool.and_eq_true, decide_eq_true_eq, beq_iff_eq] at hp
  unfold busTarget at h
  by_cases hlow : offset < 0x10000
  · rw [if_pos hlow] at h
    split at h
    · exact absurd (Option.some.inj h) (areaTarget_ne_mem offset a)
    · cases h
  · rw [if_neg hlow] at h
    by_cases hlt : offset - 0x10000 < p.memSize
    · rw [if_pos hlt] at h
      split at h
      next haligned =>
        obtain ⟨hw, hal⟩ := haligned
        have ha : offset - 0x10000 = a := Target.mem.inj (Option.some.inj h)
        cases width with
        | wide => exact absurd rfl hw
        | byte | half | word =>
          simp only [Width.bytes] at hal ⊢
          omega
      next => cases h
    · rw [if_neg hlt] at h
      split at h <;> simp at h

theorem writeLen_inv {s : State} (hs : s.Inv) (x : Byte) (v : Word) : (s.writeLen x v).Inv :=
  whileIdle_inv hs fun _ => ⟨hs.params, hs.memForm, hs.memSize, hs.flags, hs.busy, hs.errcode, hs.errinfo, nofun,
    nofun, hs.writer, hs.reader, hs.held⟩

theorem writeBytes_inv {s : State} (hs : s.Inv) {a : Nat} {bs : List Byte}
    (hfit : a + bs.length ≤ s.params.memSize) : (s.writeBytes a bs).Inv :=
  have hm := hs.inside.writeRun hfit
  ⟨hs.params, hm.1, hm.2, hs.flags, hs.busy, hs.errcode, hs.errinfo, hs.decoder, hs.canon, hs.writer, hs.reader,
    hs.held⟩

theorem reply_inv {s : State} (hs : s.Inv) (b : BusReply) : (s.reply b).Inv := hs.congr

theorem busWrite_inv {s : State} (hs : s.Inv) (hreset : s.inReset = false) (offset : Nat) (width : Width)
    (v : Word) : (s.busWrite offset width v).Inv := by
  unfold State.busWrite
  split
  next => exact reply_inv hs _
  next r _ => exact reply_inv (writeReg_inv hs hreset r v) _
  next x _ => exact reply_inv (whileIdle_inv hs fun _ => hs.congr) _
  next x _ => exact reply_inv (writeLen_inv hs x v) _
  next => exact reply_inv hs _
  next a htarget =>
    have hfit := busTarget_mem_fits hs.params htarget
    exact reply_inv (whileIdle_inv hs fun _ => writeBytes_inv hs (by rwa [busBytes_length])) _
  next => exact reply_inv hs _

/-- A read changes the model's own record only. -/
theorem busRead_inv {s : State} (hs : s.Inv) (offset : Nat) (width : Width) : (s.busRead offset width).Inv := by
  obtain ⟨b, hread, -⟩ := hostReadsHaveNoSideEffect.1 s offset width
  rw [hread]
  exact hs.congr

theorem setPending_inv {s : State} (hs : s.Inv) (p : List HostAction) : ({ s with pending := p } : State).Inv :=
  hs.congr

theorem pollStep_keeps_inv {s t : State} (hs : s.Inv) {k : Nat} {rest : List HostAction}
    (h : pollStep k rest s = .next t) : t.Inv := by
  unfold pollStep at h
  split at h
  next hb =>
    cases k with
    | zero => exact engineStep_keeps_inv hs hb h
    | succ k =>
      cases h
      exact busRead_inv (setPending_inv hs _) _ _
  next =>
    cases h
    exact busRead_inv (setPending_inv hs _) _ _

theorem waitIrqStep_keeps_inv {s t : State} (hs : s.Inv) {rest : List HostAction}
    (h : waitIrqStep rest s = .next t) : t.Inv := by
  unfold waitIrqStep at h
  split at h
  · cases h
    exact setPending_inv hs _
  · split at h
    next hb => exact engineStep_keeps_inv hs hb h
    next =>
      cases h
      exact hs

theorem heldStep_keeps_inv {s t : State} (hs : s.Inv) (hreset : s.inReset = true) (h : heldStep s = .next t) :
    t.Inv := by
  unfold heldStep at h
  split at h
  next => cases h; exact hs
  next rest _ => cases h; exact (setPending_inv hs rest).setReset (hs.held hreset) false
  next => cases h; exact setPending_inv hs _
  next => cases h; exact powerOn_inv (setPending_inv hs _)
  all_goals cases h

/-- Settles O59: the engine's steps, the host's and those of the reset input. -/
theorem stepKeepsTheInvariant : Obligations.StepKeepsTheInvariant := by
  intro s t hs h
  unfold step at h
  split at h
  next hreset => exact heldStep_keeps_inv hs hreset h
  next hreset =>
    have hreset : s.inReset = false := Bool.eq_false_iff.mpr hreset
    split at h
    next =>
      split at h
      next hb => exact engineStep_keeps_inv hs hb h
      next => cases h; exact hs
    next =>
      split at h
      next hb => exact engineStep_keeps_inv hs hb h
      next => cases h; exact setPending_inv hs _
    next => exact pollStep_keeps_inv hs h
    next => exact waitIrqStep_keeps_inv hs h
    next => cases h; exact busRead_inv (setPending_inv hs _) _ _
    next => cases h; exact busWrite_inv (setPending_inv hs _) (by exact hreset) _ _ _
    next => cases h; exact assertReset_inv (setPending_inv hs _)
    next => cases h; exact setPending_inv hs _
    next => cases h; exact powerOn_inv (setPending_inv hs _)

end Sys2Proof.Machine
end
